-- ==== Sys2Proof/Word.lean ====
section
/-! DEFINITION. The widths of the core (00_scope.md R9, R13): 32-bit registers and addresses, 8-bit memory units,
16-bit two's-complement samples, and the 64-element block register (10_state.md R40). -/

namespace Sys2Proof

/-- A register of the REG window (R9): 32 bits. -/
abbrev Word := BitVec 32

/-- One unit of FRAME or POOL memory (20_memory.md R90). -/
abbrev Byte := BitVec 8

/-- One element of the block register, or a DC predictor: 16 bits, two's complement (R9). -/
abbrev Sample := BitVec 16

/-- An 8x8 block in natural order, index `8*row + col` (10_state.md R40). -/
abbrev Block := Vector Sample 64

end Sys2Proof
end

