-- ==== Sys2Proof/Config.lean ====
section
/-! DEFINITION. The parameters of the core (00_scope.md R8), and the free values: constants without a body,
which no proof can evaluate. -/

namespace Sys2Proof

/-- The byte order inside the packed 2-byte pixel (40_extract.md R152). -/
inductive PixelOrder where
  | yuyv | uyvy | yvyu | vyuy
  deriving DecidableEq, Repr

/-- Which 8x8 forward DCT the core was built with (41_fdct.md R170): the reference transform of R173, or another
one. The others are numbered, and what they compute is `Config.customFdct`. -/
inductive FdctImpl where
  | reference
  | custom (k : Nat)
  deriving DecidableEq, Repr

/-- The parameters of 00_scope.md R8, sampled at reset and fixed until the next one (70_reset_and_hazards.md R420). -/
structure Config where
  /-- `N`, the number of pool slots. -/
  n : Nat
  /-- `CAP`, the bytes of one slot buffer. -/
  cap : Nat
  /-- `POOL_BASE`, the POOL address of slot 0's buffer. -/
  poolBase : Nat
  /-- `QT_LUMA`, natural order. -/
  qtLuma : Vector Nat 64
  /-- `QT_CHROMA`, natural order. -/
  qtChroma : Vector Nat 64
  fdctImpl : FdctImpl
  pixelOrder : PixelOrder
  /-- `TICK`, the duration of one timeout tick: "no rule depends on it". -/
  tick : Nat
  deriving DecidableEq, Repr

/-- FREE VALUE. The transform that `FdctImpl.custom k` names. A claim that needs the accuracy of R170 takes
`FdctConforms` (Safety.lean) as a premise. Log 6. -/
opaque Config.customFdct : Nat → Block → Block

/-- FREE VALUE. Past the end of the inputs with both ports busy: does port P take the next step (47_pool.md R351)?
Log 3. -/
opaque Config.freeArbiter : Nat → Bool

/-- FREE VALUE. Does a finite timeout fire at this wait step (47_pool.md R344)? Log 4. -/
opaque Config.freeTimeout : Nat → Bool

/-- FREE VALUE. What a frame byte reads as when the frame source changes the frame inside the command's window
(20_memory.md R92). Log 5. -/
opaque Config.freeFrameByte : Nat → Byte

end Sys2Proof
end

