-- ==== Sys2Proof/Syntax.lean ====
section
/-! DEFINITION. The command set WCJ-CMD v1 (30_encoding.md R123), the two ports, what a CMD word decodes to (R131),
and a line of the assembler (R129). -/

namespace Sys2Proof

/-- The two command ports (10_state.md R30): P is the producer's, C the consumer's. -/
inductive Port where
  | p | c
  deriving DecidableEq, Repr

/-- The 21 commands of 30_encoding.md R123, one constructor each, in the table's order. No command has an operand in
its word (R122): operands are the latched A0..A4. -/
inductive Instr where
  | acqfill
  | publish
  | encode
  | sessionBegin
  | emitHeaders
  | extractY
  | extractCb
  | extractCr
  | fdct
  | quantY
  | quantC
  | entropyY
  | entropyCb
  | entropyCr
  | writeBits
  | flushBits
  | emitEoi
  | blkRead
  | blkWrite
  | acqread
  | release
  deriving DecidableEq, Repr

/-- Why a CMD word is illegal (30_encoding.md R127). -/
inductive IllegalWord where
  /-- RSVD (bits 31:8) is not 0. -/
  | reservedBitsSet
  /-- The OPCODE is not in R123's table. -/
  | unassignedOpcode
  /-- The OPCODE is legal only on the other port (R124). -/
  | otherPortOpcode
  deriving DecidableEq, Repr

/-- What a CMD word accepted on a port decodes to (30_encoding.md R131): a command, or explicitly illegal. -/
inductive Decoded where
  | cmd (i : Instr)
  | illegal (why : IllegalWord)
  deriving DecidableEq, Repr

/-- One line `<port> <MNEMONIC> <operands>` of the assembler (30_encoding.md R129), operands in the order of R123's
operand column; the extract commands take row and column apart. -/
structure AsmLine where
  port : Port
  instr : Instr
  operands : List Word
  deriving DecidableEq, Repr

end Sys2Proof
end

