-- ==== Sys2Proof/WellFormed.lean ====
section
/-! DEFINITION. What is well formed: a command on a port (30_encoding.md R124), a line of the assembler (R129) and a
configuration (00_scope.md R8). An `Instr` alone has no field that a check could refuse. -/

namespace Sys2Proof

/-- The only port a command is legal on (30_encoding.md R123 column "port", R124). -/
def Instr.port : Instr → Port
  | .acqfill | .publish | .encode => .p
  | .sessionBegin | .emitHeaders | .extractY | .extractCb | .extractCr | .fdct | .quantY | .quantC => .p
  | .entropyY | .entropyCb | .entropyCr | .writeBits | .flushBits | .emitEoi | .blkRead | .blkWrite => .p
  | .acqread | .release => .c

/-- A command issued on a port is well formed when the port is the one it is legal on (R124). -/
def Instr.wellFormedOn (i : Instr) (q : Port) : Bool := i.port == q

/-- How many operands a line has (30_encoding.md R123, R129). -/
def Instr.operandCount : Instr → Nat
  | .acqfill | .fdct | .quantY | .quantC | .entropyY | .entropyCb | .entropyCr | .flushBits | .emitEoi => 0
  | .publish | .sessionBegin | .blkRead | .acqread | .release => 1
  | .emitHeaders | .writeBits | .blkWrite => 2
  | .encode => 5
  | .extractY | .extractCb | .extractCr => 6

/-- Row and column of an extract line fit the 16-bit halves of A4 (30_encoding.md R122). -/
def AsmLine.originFits (l : AsmLine) : Bool :=
  match l.instr with
  | .extractY | .extractCb | .extractCr => (l.operands.drop 4).all fun w => decide (w.toNat < 65536)
  | _ => true

/-- A line is well formed: its port is legal, it has the operands of R123, and an origin fits. -/
def AsmLine.wellFormed (l : AsmLine) : Bool :=
  l.instr.wellFormedOn l.port && l.operands.length == l.instr.operandCount && l.originFits

/-- Each entry of a quantization table is 1 to 255 (00_scope.md R8). -/
def qtableLegal (t : Vector Nat 64) : Bool := t.toList.all fun q => decide (1 ≤ q ∧ q ≤ 255)

/-- The legal values of the parameters (00_scope.md R8). -/
def Config.legal (k : Config) : Bool :=
  decide (1 ≤ k.n ∧ k.n ≤ 64) && decide (1 ≤ k.cap ∧ k.cap ≤ 2 ^ 24)
    && decide (k.poolBase ≠ 0 ∧ k.poolBase % 4 = 0 ∧ k.poolBase + k.n * k.cap ≤ 2 ^ 32)
    && qtableLegal k.qtLuma && qtableLegal k.qtChroma && decide (0 < k.tick)

end Sys2Proof
end

