-- ==== Sys2Proof/Decode.lean ====
section
/-! DEFINITION. Decoding a CMD word, total on every 32-bit word (30_encoding.md R121, R123, R131), and after it the
encoder. -/

namespace Sys2Proof

/-- The command of an OPCODE, by R123's first two columns; none for the unassigned ones (R127). -/
def instrOfOpcode (op : Nat) : Option Instr :=
  match op with
  | 0x01 => some .acqfill
  | 0x02 => some .publish
  | 0x03 => some .encode
  | 0x10 => some .sessionBegin
  | 0x11 => some .emitHeaders
  | 0x12 => some .extractY
  | 0x13 => some .extractCb
  | 0x14 => some .extractCr
  | 0x15 => some .fdct
  | 0x16 => some .quantY
  | 0x17 => some .quantC
  | 0x18 => some .entropyY
  | 0x19 => some .entropyCb
  | 0x1A => some .entropyCr
  | 0x1B => some .writeBits
  | 0x1C => some .flushBits
  | 0x1D => some .emitEoi
  | 0x1E => some .blkRead
  | 0x1F => some .blkWrite
  | 0x21 => some .acqread
  | 0x22 => some .release
  | _ => none

/-- The OPCODE field, bits 7:0 of the word (R121). -/
def opcodeField (w : Word) : BitVec 8 := w.extractLsb' 0 8

/-- The RSVD field, bits 31:8 of the word (R121). -/
def rsvdField (w : Word) : BitVec 24 := w.extractLsb' 8 24

/-- Decoding of a word accepted on a port (R131): RSVD first, then the opcode, then the port. -/
def decode (q : Port) (w : Word) : Decoded :=
  if rsvdField w ≠ 0 then .illegal .reservedBitsSet
  else
    match instrOfOpcode (opcodeField w).toNat with
    | none => .illegal .unassignedOpcode
    | some i => if i.wellFormedOn q then .cmd i else .illegal .otherPortOpcode

/-- The port a word can run on: C where it decodes there, else P. -/
def portOfWord (w : Word) : Port :=
  match decode .c w with
  | .cmd _ => .c
  | .illegal _ => .p

/-- The OPCODE of a command (R123). -/
def opcode : Instr → BitVec 8
  | .acqfill => 0x01
  | .publish => 0x02
  | .encode => 0x03
  | .sessionBegin => 0x10
  | .emitHeaders => 0x11
  | .extractY => 0x12
  | .extractCb => 0x13
  | .extractCr => 0x14
  | .fdct => 0x15
  | .quantY => 0x16
  | .quantC => 0x17
  | .entropyY => 0x18
  | .entropyCb => 0x19
  | .entropyCr => 0x1A
  | .writeBits => 0x1B
  | .flushBits => 0x1C
  | .emitEoi => 0x1D
  | .blkRead => 0x1E
  | .blkWrite => 0x1F
  | .acqread => 0x21
  | .release => 0x22

/-- The CMD32 word of a command (R121): RSVD 0 above the OPCODE. -/
def encode (i : Instr) : Word := (0 : BitVec 24) ++ opcode i

/-- The word whose bits spec/opcode_table.json numbers: a command is one 32-bit word, bit 0 its least significant. -/
def tableWord (nbits w : Nat) : Word := BitVec.ofNat 32 (w % 2 ^ nbits)

/-- What the decoder reads from a word numbered as the table numbers it, on the port where it is legal. -/
def decodeTableWord (nbits w : Nat) : Option Instr :=
  if 2 ^ 32 ≤ w % 2 ^ nbits then none
  else
    match decode (portOfWord (tableWord nbits w)) (tableWord nbits w) with
    | .cmd i => some i
    | .illegal _ => none

end Sys2Proof
end

