-- ==== Sys2Proof/Machine/Tables.lean ====
section
/-! DEFINITION. The constant tables (10_state.md R49): the base quantization tables, the zig-zag order, the four
Huffman specifications and the reference DCT matrix; and the configuration that `State.reset` takes. -/

namespace Sys2Proof.Machine

/-- `QT_LUMA`'s default, natural order (42_quantizer.md R191). -/
def qtLumaDefault : Vector Nat 64 :=
    #v[16, 11, 10, 16, 24, 40, 51, 61] ++
    #v[12, 12, 14, 19, 26, 58, 60, 55] ++
    #v[14, 13, 16, 24, 40, 57, 69, 56] ++
    #v[14, 17, 22, 29, 51, 87, 80, 62] ++
    #v[18, 22, 37, 56, 68, 109, 103, 77] ++
    #v[24, 35, 55, 64, 81, 104, 113, 92] ++
    #v[49, 64, 78, 87, 103, 121, 120, 101] ++
    #v[72, 92, 95, 98, 112, 100, 103, 99]

/-- `QT_CHROMA`'s default, natural order (42_quantizer.md R192). -/
def qtChromaDefault : Vector Nat 64 :=
    #v[17, 18, 24, 47, 99, 99, 99, 99] ++
    #v[18, 21, 26, 66, 99, 99, 99, 99] ++
    #v[24, 26, 56, 99, 99, 99, 99, 99] ++
    #v[47, 66, 99, 99, 99, 99, 99, 99] ++
    #v[99, 99, 99, 99, 99, 99, 99, 99] ++
    #v[99, 99, 99, 99, 99, 99, 99, 99] ++
    #v[99, 99, 99, 99, 99, 99, 99, 99] ++
    #v[99, 99, 99, 99, 99, 99, 99, 99]

/-- The zig-zag table `ZZ` (43_entropy.md R212): the natural-order index of each scan position. -/
def zigzag : Vector Nat 64 :=
    #v[0, 1, 8, 16, 9, 2, 3, 10] ++
    #v[17, 24, 32, 25, 18, 11, 4, 5] ++
    #v[12, 19, 26, 33, 40, 48, 41, 34] ++
    #v[27, 20, 13, 6, 7, 14, 21, 28] ++
    #v[35, 42, 49, 56, 57, 50, 43, 36] ++
    #v[29, 22, 15, 23, 30, 37, 44, 51] ++
    #v[58, 59, 52, 45, 38, 31, 39, 46] ++
    #v[53, 60, 61, 54, 47, 55, 62, 63]

/-- The reference matrix `T`, row `u`, column `x` (41_fdct.md R172). -/
def dctMatrix : List (List Int) :=
  [ [1448, 1448, 1448, 1448, 1448, 1448, 1448, 1448],
    [2009, 1703, 1138, 400, -400, -1138, -1703, -2009],
    [1892, 784, -784, -1892, -1892, -784, 784, 1892],
    [1703, -400, -2009, -1138, 1138, 2009, 400, -1703],
    [1448, -1448, -1448, 1448, 1448, -1448, -1448, 1448],
    [1138, -2009, 400, 1703, -1703, -400, 2009, -1138],
    [784, -1892, 1892, -784, -784, 1892, -1892, 784],
    [400, -1138, 1703, -2009, 2009, -1703, 1138, -400] ]

/-- A Huffman table specification: `BITS` for lengths 1 to 16, and `HUFFVAL` (43_entropy.md R217 to R220). -/
structure HuffSpec where
  bits : List Nat
  huffval : List Nat
  deriving DecidableEq, Repr

/-- DC_LUMA (43_entropy.md R217). -/
def dcLumaSpec : HuffSpec where
  bits := [0, 1, 5, 1, 1, 1, 1, 1, 1, 0, 0, 0, 0, 0, 0, 0]
  huffval :=
    [0x00, 0x01, 0x02, 0x03, 0x04, 0x05, 0x06, 0x07, 0x08, 0x09, 0x0A, 0x0B]

/-- AC_LUMA (43_entropy.md R218). -/
def acLumaSpec : HuffSpec where
  bits := [0, 2, 1, 3, 3, 2, 4, 3, 5, 5, 4, 4, 0, 0, 1, 125]
  huffval :=
    [0x01, 0x02, 0x03, 0x00, 0x04, 0x11, 0x05, 0x12, 0x21, 0x31, 0x41, 0x06, 0x13, 0x51, 0x61, 0x07] ++
    [0x22, 0x71, 0x14, 0x32, 0x81, 0x91, 0xA1, 0x08, 0x23, 0x42, 0xB1, 0xC1, 0x15, 0x52, 0xD1, 0xF0] ++
    [0x24, 0x33, 0x62, 0x72, 0x82, 0x09, 0x0A, 0x16, 0x17, 0x18, 0x19, 0x1A, 0x25, 0x26, 0x27, 0x28] ++
    [0x29, 0x2A, 0x34, 0x35, 0x36, 0x37, 0x38, 0x39, 0x3A, 0x43, 0x44, 0x45, 0x46, 0x47, 0x48, 0x49] ++
    [0x4A, 0x53, 0x54, 0x55, 0x56, 0x57, 0x58, 0x59, 0x5A, 0x63, 0x64, 0x65, 0x66, 0x67, 0x68, 0x69] ++
    [0x6A, 0x73, 0x74, 0x75, 0x76, 0x77, 0x78, 0x79, 0x7A, 0x83, 0x84, 0x85, 0x86, 0x87, 0x88, 0x89] ++
    [0x8A, 0x92, 0x93, 0x94, 0x95, 0x96, 0x97, 0x98, 0x99, 0x9A, 0xA2, 0xA3, 0xA4, 0xA5, 0xA6, 0xA7] ++
    [0xA8, 0xA9, 0xAA, 0xB2, 0xB3, 0xB4, 0xB5, 0xB6, 0xB7, 0xB8, 0xB9, 0xBA, 0xC2, 0xC3, 0xC4, 0xC5] ++
    [0xC6, 0xC7, 0xC8, 0xC9, 0xCA, 0xD2, 0xD3, 0xD4, 0xD5, 0xD6, 0xD7, 0xD8, 0xD9, 0xDA, 0xE1, 0xE2] ++
    [0xE3, 0xE4, 0xE5, 0xE6, 0xE7, 0xE8, 0xE9, 0xEA, 0xF1, 0xF2, 0xF3, 0xF4, 0xF5, 0xF6, 0xF7, 0xF8] ++
    [0xF9, 0xFA]

/-- DC_CHROMA (43_entropy.md R219). -/
def dcChromaSpec : HuffSpec where
  bits := [0, 3, 1, 1, 1, 1, 1, 1, 1, 1, 1, 0, 0, 0, 0, 0]
  huffval :=
    [0x00, 0x01, 0x02, 0x03, 0x04, 0x05, 0x06, 0x07, 0x08, 0x09, 0x0A, 0x0B]

/-- AC_CHROMA (43_entropy.md R220). -/
def acChromaSpec : HuffSpec where
  bits := [0, 2, 1, 2, 4, 4, 3, 4, 7, 5, 4, 4, 0, 1, 2, 119]
  huffval :=
    [0x00, 0x01, 0x02, 0x03, 0x11, 0x04, 0x05, 0x21, 0x31, 0x06, 0x12, 0x41, 0x51, 0x07, 0x61, 0x71] ++
    [0x13, 0x22, 0x32, 0x81, 0x08, 0x14, 0x42, 0x91, 0xA1, 0xB1, 0xC1, 0x09, 0x23, 0x33, 0x52, 0xF0] ++
    [0x15, 0x62, 0x72, 0xD1, 0x0A, 0x16, 0x24, 0x34, 0xE1, 0x25, 0xF1, 0x17, 0x18, 0x19, 0x1A, 0x26] ++
    [0x27, 0x28, 0x29, 0x2A, 0x35, 0x36, 0x37, 0x38, 0x39, 0x3A, 0x43, 0x44, 0x45, 0x46, 0x47, 0x48] ++
    [0x49, 0x4A, 0x53, 0x54, 0x55, 0x56, 0x57, 0x58, 0x59, 0x5A, 0x63, 0x64, 0x65, 0x66, 0x67, 0x68] ++
    [0x69, 0x6A, 0x73, 0x74, 0x75, 0x76, 0x77, 0x78, 0x79, 0x7A, 0x82, 0x83, 0x84, 0x85, 0x86, 0x87] ++
    [0x88, 0x89, 0x8A, 0x92, 0x93, 0x94, 0x95, 0x96, 0x97, 0x98, 0x99, 0x9A, 0xA2, 0xA3, 0xA4, 0xA5] ++
    [0xA6, 0xA7, 0xA8, 0xA9, 0xAA, 0xB2, 0xB3, 0xB4, 0xB5, 0xB6, 0xB7, 0xB8, 0xB9, 0xBA, 0xC2, 0xC3] ++
    [0xC4, 0xC5, 0xC6, 0xC7, 0xC8, 0xC9, 0xCA, 0xD2, 0xD3, 0xD4, 0xD5, 0xD6, 0xD7, 0xD8, 0xD9, 0xDA] ++
    [0xE2, 0xE3, 0xE4, 0xE5, 0xE6, 0xE7, 0xE8, 0xE9, 0xEA, 0xF2, 0xF3, 0xF4, 0xF5, 0xF6, 0xF7, 0xF8] ++
    [0xF9, 0xFA]

/-- A generated code: the `len` low bits of `code`, most significant first (43_entropy.md R221). -/
structure HuffCode where
  code : Nat
  len : Nat
  deriving DecidableEq, Repr

/-- The codes of one length, in order: R221's inner loop. -/
def genLength (len : Nat) : Nat → List Nat → List (Nat × HuffCode)
  | _, [] => []
  | code, sym :: rest => (sym, ⟨code, len⟩) :: genLength len (code + 1) rest

/-- R221's outer loop: lengths from `len` on; after each length the code doubles. -/
def genFrom (len code : Nat) : List Nat → List Nat → List (Nat × HuffCode)
  | [], _ => []
  | count :: counts, vals =>
    genLength len code (vals.take count) ++ genFrom (len + 1) ((code + count) * 2) counts (vals.drop count)

/-- `GenCodes` (43_entropy.md R221): the canonical code of each symbol. -/
def genCodes (t : HuffSpec) : List (Nat × HuffCode) := genFrom 1 0 t.bits t.huffval

/-- The code of a symbol. Every symbol of R213 has one; for another the table has no entry and this answers the
empty code, which no command reaches (43_entropy.md R227). Log 23. -/
def HuffSpec.codeOf (t : HuffSpec) (sym : Nat) : HuffCode := ((genCodes t).lookup sym).getD ⟨0, 0⟩

/-- The configuration of `State.reset`: the values the spec's examples use for the open parameters, the spec's
defaults for the others (00_scope.md R8). Log 2. -/
def defaultConfig : Config where
  n := 2
  cap := 4096
  poolBase := 0x40000000
  qtLuma := qtLumaDefault
  qtChroma := qtChromaDefault
  fdctImpl := .reference
  pixelOrder := .yuyv
  tick := 1

end Sys2Proof.Machine
end

