-- ==== Sys2Proof/Machine/State.lean ====
section
/-! DEFINITION. The state of the core as plain data (10_state.md), the reasons a step can stop, and the state after
reset (10_state.md R51). -/

namespace Sys2Proof.Machine

/-- STATUS.CODE (10_state.md R37). The values 0x08 to 0xFF are never written. -/
inductive StatusCode where
  | ok | invalidArgument | capacityExceeded | outOfBounds | timeout | invalidState | notAvailable | illegalCommand
  deriving DecidableEq, Repr

/-- The STATUS register by its fields (10_state.md R35); the reserved bits read as 0. -/
structure Status where
  busy : Bool
  done : Bool
  code : StatusCode
  lastOp : BitVec 8
  deriving DecidableEq, Repr

/-- The bits of ERR (10_state.md R38). -/
inductive ErrBit where
  | protocol | doubleRelease | foreignBuffer | ownership | cmdWhileBusy | illegalCmd | badAccess
  deriving DecidableEq, Repr

/-- The ERR register, bits 0 to 6 (10_state.md R38); bits 31:7 read as 0. -/
structure Err where
  protocol : Bool
  doubleRelease : Bool
  foreignBuffer : Bool
  ownership : Bool
  cmdWhileBusy : Bool
  illegalCmd : Bool
  badAccess : Bool
  deriving DecidableEq, Repr

/-- The ten registers of a command port (10_state.md R31) and its command latch (R48). The latch's OP is the low
byte of `latchWord`, and its in-flight flag is `status.busy`. Log 11. -/
structure PortRegs where
  cmd : Word
  arg : Vector Word 5
  status : Status
  res : Vector Word 3
  latchWord : Word
  latchArg : Vector Word 5
  deriving DecidableEq, Repr

/-- `slot[i].state` (10_state.md R41). -/
inductive SlotState where
  | free | filled | checkedOut
  deriving DecidableEq, Repr

/-- `slot[i].loc` (10_state.md R41, R44). -/
inductive SlotLoc where
  | inFreeQueue | inFilledQueue | producerHeld | consumerHeld
  deriving DecidableEq, Repr

/-- A slot record (10_state.md R41). Its buffer is in `State.pool`. -/
structure Slot where
  state : SlotState
  loc : SlotLoc
  size : Nat
  deriving DecidableEq, Repr

/-- The session (10_state.md R45): SESS_OPEN, SESS_SLOT and ACC, the first pending bit first. ACC_N is `acc.length`. -/
structure Session where
  isOpen : Bool
  slot : Nat
  acc : List Bool
  deriving DecidableEq, Repr

/-- The three DC predictors (10_state.md R45, 43_entropy.md R210). -/
structure Preds where
  y : Sample
  cb : Sample
  cr : Sample
  deriving DecidableEq, Repr

/-- The blocks of an MCU in ENCODE's order (10_state.md R46, 46_encoder.md R319). -/
inductive BlockId where
  | y0 | y1 | y2 | y3 | cb | cr
  deriving DecidableEq, Repr

/-- The four unit steps of a block, each one atomic sub-step (46_encoder.md R314, R319). -/
inductive BlockStep where
  | extract | fdct | quant | entropy
  deriving DecidableEq, Repr

/-- The ENCODE sequencer's position (10_state.md R46). `block mr mc b u`: the next sub-step is step `u` of block `b`
of MCU `(mr, mc)`. Log 12. -/
inductive Seq where
  | validate
  | beginSession
  | headers
  | block (mr mc : Nat) (b : BlockId) (u : BlockStep)
  | flush
  | eoi
  | done
  deriving DecidableEq, Repr

/-- A memory: the bytes that are listed, addresses strictly rising. What an unlisted address reads as is `none`: in
POOL a byte with no value (10_state.md R53, log 7), in FRAME an unreadable address (60_exceptions.md R396 H-5, log 8). -/
abbrev Memory := List Host.Cell

/-- The width of a REG access (20_memory.md R97, R99). -/
inductive AccessWidth where
  | w8 | w16 | w32
  deriving DecidableEq, Repr

/-- Who reads POOL (47_pool.md R350). -/
inductive Agent where
  | producer | consumer
  deriving DecidableEq, Repr

/-- What the outside world does to the core, one atomic step each (20_memory.md R103). -/
inductive Input where
  /-- A host write of `v` at a REG offset (20_memory.md R99). -/
  | regWrite (width : AccessWidth) (off : BitVec 12) (v : Word)
  /-- A host read of a REG offset. -/
  | regRead (width : AccessWidth) (off : BitVec 12)
  /-- A read of the POOL byte at an address (47_pool.md R350). -/
  | poolRead (by_ : Agent) (addr : Word)
  /-- The frame source writes a FRAME byte (20_memory.md R92). -/
  | frameWrite (addr : Word) (v : Byte)
  /-- The hardware reset input, with the parameters it samples (70_reset_and_hazards.md R420). -/
  | reset (cfg : Config)
  /-- The arbiter gives a port its next step (47_pool.md R351). -/
  | grant (q : Port)
  deriving DecidableEq, Repr

/-- Why the machine stops. -/
inductive Fault where
  /-- Raised by EXTRACT_Y, EXTRACT_CB, EXTRACT_CR and ENCODE's extract sub-steps when a frame byte they read is at an
  address the launch did not make readable: "an unreadable address has no step (stuck)" (60_exceptions.md R396 H-5).
  Safe. -/
  | frameUnreadable
  /-- Raised by an admitted POOL read of a byte no session has written since reset: "fault a read of one" (10_state.md
  R53). No reachable state raises it. Safe. -/
  | poolByteNoValue
  /-- Raised by the sink when the session's slot is not one of the N slots, so that its address is not backed
  (20_memory.md R90). No reachable state raises it. Safe. -/
  | poolAddressUnbacked
  deriving DecidableEq, Repr

/-- Why the model gives no meaning. -/
inductive Refusal where
  /-- An instruction without a meaning yet: exec's refused arms only. Safe. -/
  | notModelled (mnemonic : String)
  /-- Raised by the reset input when the parameters are out of their legal ranges: "a model refuses a configuration
  outside the ranges: it has no initial state" (60_exceptions.md R396 H-14). Safe. -/
  | configOutOfRange
  deriving DecidableEq, Repr

/-- The whole machine. The fields down to `frame` are the spec's (INVENTORY.md, State); the last four are the model's
own (logs 1, 3, 4, 5, 9). -/
structure State where
  /-- The parameters (00_scope.md R8). -/
  cfg : Config
  /-- Command port P. -/
  portP : PortRegs
  /-- Command port C. -/
  portC : PortRegs
  err : Err
  /-- BLK (10_state.md R40). -/
  blk : Block
  sess : Session
  pred : Preds
  /-- The slot records, slot 0 first (10_state.md R41). -/
  slots : List Slot
  /-- FreeQueue, head first (10_state.md R42). -/
  freeQ : List Nat
  /-- FilledQueue, head first, oldest first (10_state.md R42). -/
  filledQ : List Nat
  /-- The ENCODE sequencer (10_state.md R46). -/
  seq : Option Seq
  /-- WAIT_ACTIVE (10_state.md R47). -/
  waitActive : Bool
  /-- POOL (20_memory.md R93). -/
  pool : Memory
  /-- FRAME (20_memory.md R92). -/
  frame : Memory
  /-- What the outside world does next, oldest first. -/
  inputs : List Input
  /-- What the last host read returned. -/
  readData : Word
  /-- A byte of the borrowed frame changes inside the window of port P's command: every byte it reads is free. -/
  frameChanged : Bool
  /-- How many free values were drawn. -/
  draws : Nat
  deriving DecidableEq, Repr

/-- STATUS after reset: BUSY 0, DONE 0, CODE OK, LAST_OP 0 (10_state.md R51). -/
def Status.reset : Status := ⟨false, false, .ok, 0⟩

/-- ERR after reset: 0 (10_state.md R51). -/
def Err.clear : Err := ⟨false, false, false, false, false, false, false⟩

/-- A port after reset (10_state.md R51). -/
def PortRegs.reset : PortRegs where
  cmd := 0
  arg := Vector.replicate 5 0
  status := Status.reset
  res := Vector.replicate 3 0
  latchWord := 0
  latchArg := Vector.replicate 5 0

/-- A slot after reset: Free, InFreeQueue, size 0 (10_state.md R51). -/
def Slot.reset : Slot := ⟨.free, .inFreeQueue, 0⟩

/-- The state after a reset that samples the parameters `k` (10_state.md R51, 70_reset_and_hazards.md R420). -/
def State.resetWith (k : Config) : State where
  cfg := k
  portP := PortRegs.reset
  portC := PortRegs.reset
  err := Err.clear
  blk := Vector.replicate 64 0
  sess := ⟨false, 0, []⟩
  pred := ⟨0, 0, 0⟩
  slots := List.replicate k.n Slot.reset
  freeQ := List.range k.n
  filledQ := []
  seq := none
  waitActive := false
  pool := []
  frame := []
  inputs := []
  readData := 0
  frameChanged := false
  draws := 0

/-- The machine right after reset, with the parameters of the spec's examples (log 2). -/
def State.reset : State := State.resetWith defaultConfig

end Sys2Proof.Machine
end

