-- ==== Sys2Proof/Machine/Flags.lean ====
section
/-! DEFINITION. The flags: STATUS at issue and at completion, the ERR bits, and the words software reads (10_state.md
R35 to R39, R43). -/

namespace Sys2Proof.Machine

/-- The number of a status code (10_state.md R37). -/
def StatusCode.number : StatusCode → BitVec 8
  | .ok => 0
  | .invalidArgument => 1
  | .capacityExceeded => 2
  | .outOfBounds => 3
  | .timeout => 4
  | .invalidState => 5
  | .notAvailable => 6
  | .illegalCommand => 7

/-- STATUS on an accepted issue (10_state.md R36). -/
def Status.issued (st : Status) : Status := { st with busy := true, done := false }

/-- STATUS on completion (10_state.md R36, 30_encoding.md R125). -/
def Status.completed (st : Status) (code : StatusCode) (op : BitVec 8) : Status :=
  { st with busy := false, done := true, code := code, lastOp := op }

/-- STATUS as a word (10_state.md R35). -/
def Status.word (st : Status) : Word :=
  (0 : BitVec 8) ++ st.lastOp ++ st.code.number ++ (0 : BitVec 6) ++ BitVec.ofBool st.done ++ BitVec.ofBool st.busy

/-- Setting one sticky bit (10_state.md R38). -/
def Err.setBit (e : Err) : ErrBit → Err
  | .protocol => { e with protocol := true }
  | .doubleRelease => { e with doubleRelease := true }
  | .foreignBuffer => { e with foreignBuffer := true }
  | .ownership => { e with ownership := true }
  | .cmdWhileBusy => { e with cmdWhileBusy := true }
  | .illegalCmd => { e with illegalCmd := true }
  | .badAccess => { e with badAccess := true }

/-- Reading one sticky bit. -/
def Err.has (e : Err) : ErrBit → Bool
  | .protocol => e.protocol
  | .doubleRelease => e.doubleRelease
  | .foreignBuffer => e.foreignBuffer
  | .ownership => e.ownership
  | .cmdWhileBusy => e.cmdWhileBusy
  | .illegalCmd => e.illegalCmd
  | .badAccess => e.badAccess

/-- ERR as a word (10_state.md R38). -/
def Err.word (e : Err) : Word :=
  (0 : BitVec 25) ++ BitVec.ofBool e.badAccess ++ BitVec.ofBool e.illegalCmd ++ BitVec.ofBool e.cmdWhileBusy
    ++ BitVec.ofBool e.ownership ++ BitVec.ofBool e.foreignBuffer ++ BitVec.ofBool e.doubleRelease
    ++ BitVec.ofBool e.protocol

/-- SESSION as a word: SLOT and ACC_N read 0 when no session is open (10_state.md R39). -/
def Session.word (x : Session) : Word :=
  if x.isOpen then
    (0 : BitVec 13) ++ BitVec.ofNat 3 x.acc.length ++ (0 : BitVec 2) ++ BitVec.ofNat 6 x.slot ++ (0 : BitVec 7)
      ++ (1 : BitVec 1)
  else 0

/-- The STATE field of SLOT_STAT (10_state.md R43). -/
def SlotState.number : SlotState → BitVec 2
  | .free => 0
  | .filled => 1
  | .checkedOut => 2

/-- The LOC field of SLOT_STAT (10_state.md R43). -/
def SlotLoc.number : SlotLoc → BitVec 2
  | .inFreeQueue => 0
  | .inFilledQueue => 1
  | .producerHeld => 2
  | .consumerHeld => 3

/-- SLOT_STAT as a word (10_state.md R43). -/
def Slot.statWord (x : Slot) : Word := (0 : BitVec 28) ++ x.loc.number ++ x.state.number

end Sys2Proof.Machine
end

