-- ==== Sys2Proof/Machine/Operands.lean ====
section
/-! DEFINITION. Operand assembly from the latched A0..A4 (30_encoding.md R122), the widenings of results, and the
arithmetic helpers of 00_scope.md R11. -/

namespace Sys2Proof.Machine

/-- The latched operands A0..A4. -/
abbrev Args := Vector Word 5

/-- `frame`: A0. -/
def opFrame (a : Args) : Nat := a[0].toNat
/-- `raw_len`: A1. -/
def opRawLen (a : Args) : Nat := a[1].toNat
/-- `width` of EXTRACT_* and ENCODE: A2. -/
def opWidth (a : Args) : Nat := a[2].toNat
/-- `height` of EXTRACT_* and ENCODE: A3. -/
def opHeight (a : Args) : Nat := a[3].toNat
/-- `row` of an origin: A4[31:16]. -/
def opRow (a : Args) : Nat := (a[4].extractLsb' 16 16).toNat
/-- `col` of an origin: A4[15:0]. -/
def opCol (a : Args) : Nat := (a[4].extractLsb' 0 16).toNat
/-- `slot` of ENCODE: A4. -/
def opEncodeSlot (a : Args) : Nat := a[4].toNat
/-- `slot` or `index` of SESSION_BEGIN and PUBLISH: A0. -/
def opIndex (a : Args) : Nat := a[0].toNat
/-- `width` of EMIT_HEADERS: A0. -/
def opHdrWidth (a : Args) : Nat := a[0].toNat
/-- `height` of EMIT_HEADERS: A1. -/
def opHdrHeight (a : Args) : Nat := a[1].toNat
/-- `value` of WRITE_BITS: A0. -/
def opBitsValue (a : Args) : Nat := a[0].toNat
/-- `n` of WRITE_BITS: A1. -/
def opBitsCount (a : Args) : Nat := a[1].toNat
/-- `i` of BLK_READ and BLK_WRITE: A0. -/
def opBlkIndex (a : Args) : Nat := a[0].toNat
/-- `v` of BLK_WRITE: `sext_16(A1[15:0])`, kept as the 16 bits; bits 31:16 are ignored. -/
def opBlkValue (a : Args) : Sample := a[1].extractLsb' 0 16
/-- `timeout` of ACQREAD: A0. -/
def opTimeout (a : Args) : Word := a[0]
/-- The timeout that waits forever. -/
def waitForever : Word := 0xFFFFFFFF
/-- `buffer` of RELEASE: A0. -/
def opBuffer (a : Args) : Nat := a[0].toNat

/-- `sext_16(v)` as a 32-bit result (40_extract.md R156). -/
def sext16 (v : Sample) : Word := v.signExtend 32
/-- `zext_16(v)` as a 32-bit result (30_encoding.md R123). -/
def zext16 (v : Sample) : Word := v.setWidth 32
/-- `wrap16(v)` (00_scope.md R11). -/
def wrap16 (v : Int) : Sample := BitVec.ofInt 16 v
/-- A count, size or address as a 32-bit result. -/
def resNat (v : Nat) : Word := BitVec.ofNat 32 v
/-- `bitlen(m)` (00_scope.md R11). -/
def bitlen (m : Nat) : Nat := if m = 0 then 0 else Nat.log2 m + 1
/-- `v >> k` on a signed value, `floor(v / 2^k)` (00_scope.md R11). -/
def asr (v : Int) (k : Nat) : Int := v / ((2 ^ k : Nat) : Int)

/-- Element `i` of a block as a signed number. -/
def blkAt (b : Block) (i : Nat) : Int := (b[i]?.getD 0).toInt

/-- A 16-bit dimension declared by the header: `H & ~7` (45_container.md R289). -/
def declared (d : Nat) : Nat := d / 8 * 8

/-- The declared dimensions as a result: the height above the width (45_container.md R290, 46_encoder.md R316). -/
def declaredWord (h w : Nat) : Word := BitVec.ofNat 16 (declared h) ++ BitVec.ofNat 16 (declared w)

end Sys2Proof.Machine
end

