-- ==== Sys2Proof/Machine/Ops.lean ====
section
/-! DEFINITION. The named operations every meaning is written over: memory, ports, completion and refusal of a
command (the core's whole exception mechanism, 60_exceptions.md R380, R381), slots, queues, and sub-steps that can
raise a status part-way. -/

namespace Sys2Proof.Machine

/-! ## Memory -/

/-- The byte at an address; none where nothing is listed. -/
def Memory.read (m : Memory) (a : Nat) : Option Byte := m.lookup a

/-- Writing a byte, keeping the addresses strictly rising. -/
def Memory.write : Memory → Nat → Byte → Memory
  | [], a, v => [(a, v)]
  | (b, u) :: rest, a, v =>
    if a < b then (a, v) :: (b, u) :: rest
    else if a = b then (a, v) :: rest
    else (b, u) :: Memory.write rest a v

/-- The canonical form: addresses strictly rising. An unlisted address reads as no value, which no entry equals. -/
abbrev Memory.wf (m : Memory) : Prop := List.Pairwise (fun x y : Host.Cell => x.1 < y.1) m

/-! ## Ports -/

/-- The registers of a port. -/
def State.port (s : State) : Port → PortRegs
  | .p => s.portP
  | .c => s.portC

/-- Replacing the registers of a port. -/
def State.setPort (s : State) (q : Port) (r : PortRegs) : State :=
  match q with
  | .p => { s with portP := r }
  | .c => { s with portC := r }

/-- The latched operands of a port (10_state.md R48). -/
def State.args (s : State) (q : Port) : Args := (s.port q).latchArg

/-- A port's registers when its command ends: `complete` of 30_encoding.md R125. -/
def PortRegs.completed (r : PortRegs) (code : StatusCode) (r0 r1 r2 : Word) : PortRegs :=
  { r with res := #v[r0, r1, r2], status := r.status.completed code (opcodeField r.latchWord) }

/-- `complete(code, r0, r1, r2)` on a port (30_encoding.md R125). -/
def complete (q : Port) (code : StatusCode) (r0 r1 r2 : Word) (s : State) : State :=
  s.setPort q ((s.port q).completed code r0 r1 r2)

/-- `raise Status(code)`: the command ends here, its results 0 (60_exceptions.md R381, R385). -/
def raiseStatus (q : Port) (code : StatusCode) (s : State) : State := complete q code 0 0 0 s

/-- `fault ERR.<bit>` (00_scope.md R12, 10_state.md R38). -/
def faultErr (bit : ErrBit) (s : State) : State := { s with err := s.err.setBit bit }

/-- A refused command: the sticky bit and the status outcome in the same step (60_exceptions.md R380, R384). -/
def failWith (q : Port) (bit : ErrBit) (code : StatusCode) (s : State) : State :=
  raiseStatus q code (faultErr bit s)

/-- The execution of an illegal word (30_encoding.md R127). -/
def execIllegal (q : Port) (s : State) : State := failWith q .illegalCmd .illegalCommand s

/-! ## Plain updates -/

def State.setBlk (s : State) (b : Block) : State := { s with blk := b }
def State.setSess (s : State) (x : Session) : State := { s with sess := x }
def State.setAcc (s : State) (bits : List Bool) : State := { s with sess := { s.sess with acc := bits } }
def State.setPreds (s : State) (x : Preds) : State := { s with pred := x }
def State.setFreeQ (s : State) (q : List Nat) : State := { s with freeQ := q }
def State.setFilledQ (s : State) (q : List Nat) : State := { s with filledQ := q }
def State.setSeq (s : State) (x : Option Seq) : State := { s with seq := x }
def State.setWait (s : State) (b : Bool) : State := { s with waitActive := b }
def State.setPool (s : State) (m : Memory) : State := { s with pool := m }
def State.setReadData (s : State) (w : Word) : State := { s with readData := w }
/-- `k` free values were drawn. -/
def State.draw (s : State) (k : Nat) : State := { s with draws := s.draws + k }

/-! ## Slots -/

/-- Slot `i`'s record; an index that is no slot's reads as a reset record (log 16). -/
def State.slot (s : State) (i : Nat) : Slot := s.slots[i]?.getD Slot.reset

/-- Changing slot `i`'s record. -/
def State.modSlot (s : State) (i : Nat) (f : Slot → Slot) : State := { s with slots := s.slots.modify i f }

def Slot.setSize (x : Slot) (k : Nat) : Slot := { x with size := k }
def Slot.move (x : Slot) (st : SlotState) (l : SlotLoc) : Slot := { x with state := st, loc := l }
def Slot.setLoc (x : Slot) (l : SlotLoc) : Slot := { x with loc := l }

/-- `BufAddr(i)` (47_pool.md R347). -/
def bufAddr (k : Config) (i : Nat) : Nat := k.poolBase + i * k.cap

/-- `Resolve(a)`: only a slot's exact start address resolves (47_pool.md R347). -/
def resolve (k : Config) (a : Nat) : Option Nat :=
  if k.poolBase ≤ a ∧ a < k.poolBase + k.n * k.cap ∧ (a - k.poolBase) % k.cap = 0 then
    some ((a - k.poolBase) / k.cap)
  else none

/-! ## Sub-steps -/

/-- How a codec unit step ends before its command completes: done, a status raised at a state (60_exceptions.md R381:
what changed before stays changed), or no step at all. -/
inductive Eff where
  | ok (s : State)
  | raised (code : StatusCode) (s : State)
  | stuck (f : Fault)
  deriving DecidableEq, Repr

/-- The next step of a unit, taken only when the one before it was done. -/
def Eff.bind : Eff → (State → Eff) → Eff
  | .ok s, k => k s
  | .raised c s, _ => .raised c s
  | .stuck f, _ => .stuck f

/-- A unit command of port P: its effect, then its completion, or the status it raised. -/
def finish (e : Eff) (done : State → State) : Host.Outcome State Fault Refusal :=
  match e with
  | .ok s => .next (done s)
  | .raised c s => .next (raiseStatus .p c s)
  | .stuck f => .fault f

end Sys2Proof.Machine
end

