-- ==== Sys2Proof/Machine/Bitstream.lean ====
section
/-! DEFINITION. The session, the sink and the BitstreamWriter (44_bitstream.md), with SESSION_BEGIN, WRITE_BITS and
FLUSH_BITS. -/

namespace Sys2Proof.Machine

/-- `slot[SESS_SLOT].size`. -/
def State.sessSize (s : State) : Nat := (s.slot s.sess.slot).size

/-- `AbortSession()` (R252): the slot's size becomes 0, the session closes, ACC empties; PRED and SESS_SLOT stay. -/
def abortSession (s : State) : State :=
  (s.modSlot s.sess.slot fun x => x.setSize 0).setSess { s.sess with isOpen := false, acc := [] }

/-- Opening a session on slot `k`, past its checks (R256, and ENCODE's Begin, 46_encoder.md R319). -/
def beginSession (k : Nat) (s : State) : State :=
  (((if s.sess.isOpen then abortSession s else s).modSlot k fun x => x.setSize 0).setSess ⟨true, k, []⟩).setPreds
    ⟨0, 0, 0⟩

/-- A unit step that needs an open session (R250): without one, InvalidState and ERR.PROTOCOL. -/
def needSession (s : State) (e : Eff) : Eff :=
  if s.sess.isOpen then e else .raised .invalidState (faultErr .protocol s)

/-- The POOL address the sink writes next: offset `size` of the session slot (R251). -/
def sinkAddr (s : State) : Nat := bufAddr s.cfg s.sess.slot + s.sessSize

/-- `SinkByte(v)` (R251). A session slot that is no slot has no backed address (20_memory.md R90, log 15). -/
def sinkByte (v : Byte) (s : State) : Eff :=
  if s.cfg.n ≤ s.sess.slot then .stuck .poolAddressUnbacked
  else if s.cfg.cap ≤ s.sessSize then .raised .capacityExceeded (abortSession s)
  else
    .ok ((s.setPool (s.pool.write (sinkAddr s) v)).modSlot s.sess.slot fun x => x.setSize (x.size + 1))

/-- A sequence of SinkByte calls (R251, 45_container.md R281). -/
def sinkBytes : List Byte → State → Eff
  | [], s => .ok s
  | v :: vs, s => (sinkByte v s).bind (sinkBytes vs)

/-- The low `n` bits of a value, bit `n-1` first (R253, 20_memory.md R91). -/
def bitsOf (value : Nat) : Nat → List Bool
  | 0 => []
  | n + 1 => value.testBit n :: bitsOf value n

/-- The byte of eight pending bits, the first one bit 7 (20_memory.md R91). -/
def byteOfBits (bits : List Bool) : Byte := BitVec.ofNat 8 (bits.foldl (fun a b => 2 * a + b.toNat) 0)

/-- One data byte through the sink, with its stuffing byte when it is 0xFF (R253). -/
def dataByte (b : Byte) (s : State) : Eff :=
  (sinkByte b s).bind fun t => if b = 0xFF then sinkByte 0 t else .ok t

/-- `k` turns of EmitBits' loop: the first eight bits of ACC leave as a data byte (R253). -/
def drain : Nat → State → Eff
  | 0, s => .ok s
  | k + 1, s => (dataByte (byteOfBits (s.sess.acc.take 8)) (s.setAcc (s.sess.acc.drop 8))).bind (drain k)

/-- `EmitBits(value, n)` (R253): the bits join ACC, then every complete byte leaves. -/
def emitBits (value n : Nat) (s : State) : Eff :=
  drain ((s.sess.acc.length + n) / 8) (s.setAcc (s.sess.acc ++ bitsOf value n))

/-- `Flush()` (R255): pads a partial byte with 1-bits. -/
def flushBits (s : State) : Eff :=
  if s.sess.acc.length = 0 then .ok s
  else emitBits (2 ^ (8 - s.sess.acc.length) - 1) (8 - s.sess.acc.length) s

/-- SESSION_BEGIN (R256). -/
def execSessionBegin (s : State) : Host.Outcome State Fault Refusal :=
  let k := opIndex (s.args .p)
  if s.cfg.n ≤ k then .next (raiseStatus .p .invalidArgument s)
  else if (s.slot k).loc ≠ .producerHeld then .next (failWith .p .protocol .invalidState s)
  else .next (complete .p .ok (resNat k) 0 0 (beginSession k s))

/-- WRITE_BITS (R257). -/
def execWriteBits (s : State) : Host.Outcome State Fault Refusal :=
  let n := opBitsCount (s.args .p)
  finish
    (needSession s (if 16 < n then .raised .invalidArgument s else emitBits (opBitsValue (s.args .p)) n s))
    fun t => complete .p .ok (resNat t.sessSize) (resNat t.sess.acc.length) 0 t

/-- FLUSH_BITS as a unit step (R258, 46_encoder.md R319). -/
def flushStep (s : State) : Eff := needSession s (flushBits s)

/-- FLUSH_BITS (R258). -/
def execFlushBits (s : State) : Host.Outcome State Fault Refusal :=
  finish (flushStep s) fun t => complete .p .ok (resNat t.sessSize) 0 0 t

end Sys2Proof.Machine
end

