-- ==== Sys2Proof/Machine/Container.lean ====
section
/-! DEFINITION. The ContainerWriter (45_container.md): the bytes of each segment, EMIT_HEADERS and EMIT_EOI. -/

namespace Sys2Proof.Machine

/-- A 16-bit field, high byte first (R280, 20_memory.md R94). -/
def be16 (v : Nat) : List Byte := [BitVec.ofNat 8 (v / 256), BitVec.ofNat 8 v]

/-- Table entries as bytes. -/
def natBytes (l : List Nat) : List Byte := l.map (BitVec.ofNat 8)

/-- SOI and APP0 (R282). -/
def soiApp0 : List Byte :=
  [0xFF, 0xD8, 0xFF, 0xE0] ++ be16 16 ++ [0x4A, 0x46, 0x49, 0x46, 0x00] ++ [1, 1] ++ [0] ++ be16 1 ++ be16 1 ++ [0, 0]

/-- A quantization table's 64 bytes in zig-zag order (R283). -/
def qtBytes (t : Vector Nat 64) : List Byte := natBytes (zigzag.toList.map fun i => t[i]?.getD 0)

/-- DQT (R283). -/
def dqt (k : Config) : List Byte :=
  [0xFF, 0xDB] ++ be16 132 ++ [0x00] ++ qtBytes k.qtLuma ++ [0x01] ++ qtBytes k.qtChroma

/-- SOF0 for the declared height and width (R284). -/
def sof0 (h' w' : Nat) : List Byte :=
  [0xFF, 0xC0] ++ be16 17 ++ [8] ++ be16 h' ++ be16 w' ++ [3] ++ [1, 0x22, 0] ++ [2, 0x11, 1] ++ [3, 0x11, 1]

/-- One table of the DHT segment: its class and id, BITS, HUFFVAL (R285). -/
def dhtTable (classId : Byte) (t : HuffSpec) : List Byte := classId :: natBytes t.bits ++ natBytes t.huffval

/-- DHT (R285). -/
def dht : List Byte :=
  [0xFF, 0xC4] ++ be16 418 ++ dhtTable 0x00 dcLumaSpec ++ dhtTable 0x10 acLumaSpec ++ dhtTable 0x01 dcChromaSpec
    ++ dhtTable 0x11 acChromaSpec

/-- SOS (R286). -/
def sos : List Byte :=
  [0xFF, 0xDA] ++ be16 12 ++ [3] ++ [1, 0x00] ++ [2, 0x11] ++ [3, 0x11] ++ [0x00, 0x3F, 0x00]

/-- The header of an image of height `h` and width `w` (R290): SOI to SOS, 607 bytes (R288). -/
def headerBytes (k : Config) (h w : Nat) : List Byte :=
  soiApp0 ++ dqt k ++ sof0 (declared h) (declared w) ++ dht ++ sos

/-- EOI (R287). -/
def eoiBytes : List Byte := [0xFF, 0xD9]

/-- EMIT_HEADERS past its checks (R290, and ENCODE's Headers, 46_encoder.md R319). -/
def headersStep (h w : Nat) (s : State) : Eff := sinkBytes (headerBytes s.cfg h w) s

/-- A dimension the core refuses: outside 1 to 65535 (R290, 40_extract.md R150). -/
def badDimension (d : Nat) : Bool := decide (d = 0 ∨ 65535 < d)

/-- EMIT_HEADERS (R290). -/
def execEmitHeaders (s : State) : Host.Outcome State Fault Refusal :=
  let w := opHdrWidth (s.args .p)
  let h := opHdrHeight (s.args .p)
  finish
    (needSession s (if badDimension w || badDimension h then .raised .invalidArgument s else headersStep h w s))
    fun t => complete .p .ok (resNat t.sessSize) (declaredWord h w) 0 t

/-- Closing the session after EOI: pending bits are discarded (R291). -/
def closeSession (s : State) : State := s.setSess { s.sess with isOpen := false, acc := [] }

/-- EMIT_EOI as a unit step (R291, 46_encoder.md R319). -/
def eoiStep (s : State) : Eff := needSession s ((sinkBytes eoiBytes s).bind fun t => .ok (closeSession t))

/-- EMIT_EOI (R291). -/
def execEmitEoi (s : State) : Host.Outcome State Fault Refusal :=
  finish (eoiStep s) fun t => complete .p .ok (resNat t.sessSize) 0 0 t

end Sys2Proof.Machine
end

