-- ==== Sys2Proof/Machine/Entropy.lean ====
section
/-! DEFINITION. The EntropyCoder (43_entropy.md): symbols, DC and AC coding, ENTROPY_Y, ENTROPY_CB and ENTROPY_CR. -/

namespace Sys2Proof.Machine

/-- The channel contexts (R210). -/
inductive Channel where
  | y | cb | cr
  deriving DecidableEq, Repr

/-- `DCTAB(ch)`'s specification (R210). -/
def dcSpec : Channel → HuffSpec
  | .y => dcLumaSpec
  | .cb | .cr => dcChromaSpec

/-- `ACTAB(ch)`'s specification (R210). -/
def acSpec : Channel → HuffSpec
  | .y => acLumaSpec
  | .cb | .cr => acChromaSpec

/-- `PRED[ch]`. -/
def Preds.get (x : Preds) : Channel → Sample
  | .y => x.y
  | .cb => x.cb
  | .cr => x.cr

/-- Writing `PRED[ch]`. -/
def Preds.put (x : Preds) (v : Sample) : Channel → Preds
  | .y => { x with y := v }
  | .cb => { x with cb := v }
  | .cr => { x with cr := v }

/-- `mag(v)` (R211). -/
def mag (v : Int) : Nat := bitlen v.natAbs

/-- `VLI(v, m)` as a number whose low `m` bits are emitted (R214). -/
def vli (v : Int) (m : Nat) : Nat := if 0 ≤ v then v.toNat else ((v - 1) % ((2 ^ m : Nat) : Int)).toNat

/-- One EmitBits call: its value and its count. -/
structure BitItem where
  value : Nat
  count : Nat
  deriving DecidableEq, Repr

/-- `EmitCode` of a symbol (R221). -/
def codeItem (t : HuffSpec) (sym : Nat) : BitItem := ⟨(t.codeOf sym).code, (t.codeOf sym).len⟩

/-- The VLI bits of a value (R214). -/
def vliItem (v : Int) : BitItem := ⟨vli v (mag v), mag v⟩

/-- The EmitBits calls of a DC difference (R215). -/
def dcItems (t : HuffSpec) (diff : Int) : List BitItem := [codeItem t (mag diff), vliItem diff]

/-- The EmitBits calls of the AC coefficients in scan order, after `run` zeros (R216). -/
def acItems (t : HuffSpec) : Nat → List Int → List BitItem
  | run, [] => if 0 < run then [codeItem t 0x00] else []
  | run, v :: vs =>
    if v = 0 then acItems t (run + 1) vs
    else
      List.replicate (run / 16) (codeItem t 0xF0) ++
        codeItem t (run % 16 * 16 + mag v) :: vliItem v :: acItems t 0 vs

/-- The AC coefficients in scan order: `BLK[ZZ[k]]` for k = 1 to 63 (R216). -/
def acScan (b : Block) : List Int := (zigzag.toList.drop 1).map (blkAt b)

/-- `BLK[0] - PRED[ch]` (R215). -/
def dcDiff (b : Block) (p : Sample) : Int := blkAt b 0 - p.toInt

/-- Every EmitBits call of a block, in order (R215, R216). -/
def blockItems (ch : Channel) (b : Block) (p : Sample) : List BitItem :=
  dcItems (dcSpec ch) (dcDiff b p) ++ acItems (acSpec ch) 0 (acScan b)

/-- `nbits`: code and VLI bits passed to EmitBits (R228). -/
def itemBits (l : List BitItem) : Nat := (l.map BitItem.count).sum

/-- `Codable(ch)` (R227). -/
def codable (b : Block) (p : Sample) : Bool :=
  decide (mag (dcDiff b p) ≤ 11) && (List.range' 1 63).all fun k => decide (mag (blkAt b k) ≤ 10)

/-- A sequence of EmitBits calls. -/
def emitItems : List BitItem → State → Eff
  | [], s => .ok s
  | x :: xs, s => (emitBits x.value x.count s).bind (emitItems xs)

/-- The shared body as a unit step (R228, 46_encoder.md R319): the checks, the predictor, then the bits. -/
def entropyStep (ch : Channel) (s : State) : Eff :=
  needSession s
    (if codable s.blk (s.pred.get ch) then
      emitItems (blockItems ch s.blk (s.pred.get ch)) (s.setPreds (s.pred.put s.blk[0] ch))
    else .raised .invalidArgument s)

/-- The completion of an ENTROPY command (R228). -/
def entropyDone (ch : Channel) (nbits : Nat) (t : State) : State :=
  complete .p .ok (resNat nbits) (resNat t.sessSize) (zext16 (t.pred.get ch)) t

/-- The body of the three commands: `Entropy(ch)` (R228). -/
def entropyCommand (ch : Channel) (s : State) : Host.Outcome State Fault Refusal :=
  finish (entropyStep ch s) (entropyDone ch (itemBits (blockItems ch s.blk (s.pred.get ch))))

/-- ENTROPY_Y (R223). -/
def execEntropyY (s : State) : Host.Outcome State Fault Refusal := entropyCommand .y s

/-- ENTROPY_CB (R224). -/
def execEntropyCb (s : State) : Host.Outcome State Fault Refusal := entropyCommand .cb s

/-- ENTROPY_CR (R225). -/
def execEntropyCr (s : State) : Host.Outcome State Fault Refusal := entropyCommand .cr s

end Sys2Proof.Machine
end

