-- ==== Sys2Proof/Machine/Extract.lean ====
section
/-! DEFINITION. The BlockExtractor (40_extract.md): EXTRACT_Y, EXTRACT_CB, EXTRACT_CR, BLK_READ and BLK_WRITE. -/

namespace Sys2Proof.Machine

/-- `ValidFrame(f, L, W, H)` (R150): bytes per pixel, or none where it raises InvalidArgument. -/
def validFrame (f l w h : Nat) : Option Nat :=
  if f = 0 then none
  else if w = 0 ∨ h = 0 then none
  else if 65535 < w ∨ 65535 < h then none
  else if 2 ^ 32 < f + l then none
  else if l / (w * h) < 2 then none
  else some (l / (w * h))

/-- `PixAddr(r, c)` (R151). -/
def pixAddr (f w bpp r c : Nat) : Nat := f + (r * w + c) * bpp

/-- `LOFF`: the luma byte's offset in the pixel (R152). -/
def lumaOffset : PixelOrder → Nat
  | .yuyv | .yvyu => 0
  | .uyvy | .vyuy => 1

/-- `CBPAR`: the column parity of the pixels whose chroma byte is Cb (R152). -/
def cbParity : PixelOrder → Nat
  | .yuyv | .uyvy => 0
  | .yvyu | .vyuy => 1

/-- The two chroma components (R154, R155). -/
inductive Chroma where
  | cb | cr
  deriving DecidableEq, Repr

/-- The column parity whose chroma byte is the component's (R154, R155). -/
def chromaParity (o : PixelOrder) : Chroma → Nat
  | .cb => cbParity o
  | .cr => 1 - cbParity o

/-- The frame byte at an address as the core's `k`-th read of this step gives it: the byte there, or any value when
the frame source changes the frame inside the command's window (20_memory.md R92, log 5). -/
def frameByte (s : State) (k a : Nat) : Nat :=
  if s.frameChanged then (Config.freeFrameByte (s.draws + k)).toNat else ((s.frame.read a).getD 0).toNat

/-- A frame address the launch made readable (60_exceptions.md R396 H-5). -/
def frameReadable (s : State) (a : Nat) : Bool := (s.frame.read a).isSome

/-- The state after a step that read `k` frame bytes into the block. -/
def loadBlock (s : State) (k : Nat) (b : Block) : State :=
  (s.setBlk b).draw (if s.frameChanged then k else 0)

/-- The address of luma element `i` of the block at origin `(r, c)` (R153). -/
def lumaAddr (o : PixelOrder) (f w bpp r c i : Nat) : Nat := pixAddr f w bpp (r + i / 8) (c + i % 8) + lumaOffset o

/-- EXTRACT_Y as a unit step (R153, 46_encoder.md R319). -/
def extractLuma (f l w h r c : Nat) (s : State) : Eff :=
  match validFrame f l w h with
  | none => .raised .invalidArgument s
  | some bpp =>
    let addr := lumaAddr s.cfg.pixelOrder f w bpp r c
    if h < r + 8 ∨ w < c + 8 then .raised .outOfBounds s
    else if ∀ i : Fin 64, frameReadable s (addr i) then
      .ok (loadBlock s 64 (Vector.ofFn fun i : Fin 64 => wrap16 (frameByte s i (addr i) - 128)))
    else .stuck .frameUnreadable

/-- The one column of `{c, c + 1}` with the wanted parity (R154). -/
def parityColumn (par c : Nat) : Nat := if c % 2 = par then c else c + 1

/-- The address of the chroma byte of element `i`, in the upper (`dy = 0`) or lower (`dy = 1`) of its two rows
(R154, R155). -/
def chromaAddr (o : PixelOrder) (ch : Chroma) (f w bpp r c dy i : Nat) : Nat :=
  pixAddr f w bpp (r + 2 * (i / 8) + dy) (parityColumn (chromaParity o ch) (c + 2 * (i % 8))) + (1 - lumaOffset o)

/-- The average of two chroma bytes, rounded down and centred (R154). -/
def chromaAverage (a b : Nat) : Sample := wrap16 (asr (a + b) 1 - 128)

/-- EXTRACT_CB and EXTRACT_CR as a unit step (R154, R155, 46_encoder.md R319). -/
def extractChroma (ch : Chroma) (f l w h r c : Nat) (s : State) : Eff :=
  match validFrame f l w h with
  | none => .raised .invalidArgument s
  | some bpp =>
    let addr := chromaAddr s.cfg.pixelOrder ch f w bpp r c
    if h < r + 16 ∨ w < c + 16 then .raised .outOfBounds s
    else if ∀ i : Fin 64, frameReadable s (addr 0 i) ∧ frameReadable s (addr 1 i) then
      .ok (loadBlock s 128 (Vector.ofFn fun i : Fin 64 =>
        chromaAverage (frameByte s (2 * i) (addr 0 i)) (frameByte s (2 * i + 1) (addr 1 i))))
    else .stuck .frameUnreadable

/-- EXTRACT_Y (R153). -/
def execExtractY (s : State) : Host.Outcome State Fault Refusal :=
  let a := s.args .p
  finish (extractLuma (opFrame a) (opRawLen a) (opWidth a) (opHeight a) (opRow a) (opCol a) s) (complete .p .ok 0 0 0)

/-- EXTRACT_CB (R154). -/
def execExtractCb (s : State) : Host.Outcome State Fault Refusal :=
  let a := s.args .p
  finish (extractChroma .cb (opFrame a) (opRawLen a) (opWidth a) (opHeight a) (opRow a) (opCol a) s)
    (complete .p .ok 0 0 0)

/-- EXTRACT_CR (R155). -/
def execExtractCr (s : State) : Host.Outcome State Fault Refusal :=
  let a := s.args .p
  finish (extractChroma .cr (opFrame a) (opRawLen a) (opWidth a) (opHeight a) (opRow a) (opCol a) s)
    (complete .p .ok 0 0 0)

/-- BLK_READ (R156). -/
def execBlkRead (s : State) : Host.Outcome State Fault Refusal :=
  let i := opBlkIndex (s.args .p)
  if 63 < i then .next (raiseStatus .p .invalidArgument s)
  else .next (complete .p .ok (sext16 (s.blk[i]?.getD 0)) 0 0 s)

/-- BLK_WRITE (R157). -/
def execBlkWrite (s : State) : Host.Outcome State Fault Refusal :=
  let i := opBlkIndex (s.args .p)
  if 63 < i then .next (raiseStatus .p .invalidArgument s)
  else .next (complete .p .ok 0 0 0 (s.setBlk (s.blk.setIfInBounds i (opBlkValue (s.args .p)))))

end Sys2Proof.Machine
end

