-- ==== Sys2Proof/Machine/Quantizer.lean ====
section
/-! DEFINITION. The Quantizer (42_quantizer.md): `quantize`, `qscale`, QUANT_Y and QUANT_C. -/

namespace Sys2Proof.Machine

/-- `signbit(c)` (R190). -/
def signbit (c : Int) : Int := if c < 0 then 1 else 0

/-- `quantize(c, qs)` (R190), SCALE_BITS = 10 and round_bias = 511. -/
def quantize (c : Int) (qs : Nat) : Int := asr (c * qs - signbit c + 511) 10

/-- `qscale(q)` (R193). -/
def qscale (q : Nat) : Nat := (2048 / q + 1) / 2

/-- Element `k` scaled by entry `k` of the table, both in natural order (R195). -/
def quantizeBlock (t : Vector Nat 64) (b : Block) : Block :=
  Vector.ofFn fun i : Fin 64 => wrap16 (quantize (blkAt b i) (qscale t[i]))

/-- QUANT_Y as a unit step (R195, 46_encoder.md R319). -/
def quantLumaStep (s : State) : State := s.setBlk (quantizeBlock s.cfg.qtLuma s.blk)

/-- QUANT_C as a unit step (R196, 46_encoder.md R319). -/
def quantChromaStep (s : State) : State := s.setBlk (quantizeBlock s.cfg.qtChroma s.blk)

/-- QUANT_Y (R195). -/
def execQuantY (s : State) : Host.Outcome State Fault Refusal := .next (complete .p .ok 0 0 0 (quantLumaStep s))

/-- QUANT_C (R196). -/
def execQuantC (s : State) : Host.Outcome State Fault Refusal := .next (complete .p .ok 0 0 0 (quantChromaStep s))

end Sys2Proof.Machine
end

