-- ==== Sys2Proof/Machine/Transform.lean ====
section
/-! DEFINITION. The ForwardTransform (41_fdct.md): the reference transform and FDCT. -/

namespace Sys2Proof.Machine

/-- The sum of products of two rows. -/
def dot (a b : List Int) : Int := (List.zipWith (· * ·) a b).sum

/-- Row `y` of a block as signed numbers. -/
def blockRow (b : Block) (y : Nat) : List Int := (List.range 8).map fun x => blkAt b (8 * y + x)

/-- Row `u` of the matrix `T` (R172). -/
def dctRow (u : Nat) : List Int := dctMatrix.getD u []

/-- The exact sum `S` of output `(v, u)` (R173). -/
def dctSum (b : Block) (v u : Nat) : Int :=
  dot (dctRow v) ((List.range 8).map fun y => dot (dctRow u) (blockRow b y))

/-- Division by 2^24, halves away from zero (R173): `sign(S) * ((|S| + 2^23) >> 24)`. -/
def round24 (x : Int) : Int := x.sign * (((x.natAbs + 2 ^ 23) / 2 ^ 24 : Nat) : Int)

/-- `RefFDCT` (R173). -/
def refFdct (b : Block) : Block :=
  Vector.ofFn fun i : Fin 64 => wrap16 (round24 (dctSum b (i / 8) (i % 8)))

/-- The transform the core was built with (R170). -/
def fdctOf : FdctImpl → Block → Block
  | .reference, b => refFdct b
  | .custom k, b => Config.customFdct k b

/-- FDCT as a unit step (R174, 46_encoder.md R319). -/
def fdctStep (s : State) : State := s.setBlk (fdctOf s.cfg.fdctImpl s.blk)

/-- FDCT (R174). -/
def execFdct (s : State) : Host.Outcome State Fault Refusal := .next (complete .p .ok 0 0 0 (fdctStep s))

end Sys2Proof.Machine
end

