-- ==== Sys2Proof/Machine/Encoder.lean ====
section
/-! DEFINITION. The JpegEncoder (46_encoder.md): ENCODE, one atomic sub-step at a time. -/

namespace Sys2Proof.Machine

/-- `Validate()` (R311): none when every check passes, else the refusal's state. -/
def encodeRefusal (s : State) : Option State :=
  let a := s.args .p
  let bad := some (raiseStatus .p .invalidArgument s)
  if opFrame a = 0 then bad
  else if s.cfg.n ≤ opEncodeSlot a then bad
  else if badDimension (opWidth a) || badDimension (opHeight a) then bad
  else if 2 ^ 32 < opFrame a + opRawLen a then bad
  else if opRawLen a / (opWidth a * opHeight a) < 2 then bad
  else if (s.slot (opEncodeSlot a)).loc ≠ .producerHeld then some (failWith .p .protocol .invalidState s)
  else none

/-- The Validate step: the sequencer moves to Begin, or ENCODE ends refused. -/
def encodeValidate (s : State) : State :=
  match encodeRefusal s with
  | some t => t.setSeq (some .done)
  | none => s.setSeq (some .beginSession)

/-- The origin of a block inside MCU `(mr, mc)` (R313). -/
def blockOrigin (mr mc : Nat) : BlockId → Nat × Nat
  | .y0 | .cb | .cr => (16 * mr, 16 * mc)
  | .y1 => (16 * mr, 16 * mc + 8)
  | .y2 => (16 * mr + 8, 16 * mc)
  | .y3 => (16 * mr + 8, 16 * mc + 8)

/-- The extract step of a block (R319). -/
def blockExtract (a : Args) (mr mc : Nat) (b : BlockId) (s : State) : Eff :=
  let o := blockOrigin mr mc b
  match b with
  | .y0 | .y1 | .y2 | .y3 => extractLuma (opFrame a) (opRawLen a) (opWidth a) (opHeight a) o.1 o.2 s
  | .cb => extractChroma .cb (opFrame a) (opRawLen a) (opWidth a) (opHeight a) o.1 o.2 s
  | .cr => extractChroma .cr (opFrame a) (opRawLen a) (opWidth a) (opHeight a) o.1 o.2 s

/-- The quantize step of a block (R319). -/
def blockQuant : BlockId → State → State
  | .y0, s | .y1, s | .y2, s | .y3, s => quantLumaStep s
  | .cb, s | .cr, s => quantChromaStep s

/-- The channel a block is coded in (R319). -/
def blockChannel : BlockId → Channel
  | .y0 | .y1 | .y2 | .y3 => .y
  | .cb => .cb
  | .cr => .cr

/-- The effect of the sub-step at a sequencer position (R319): that of the unit command it names. -/
def seqEffect (pos : Seq) (s : State) : Eff :=
  let a := s.args .p
  match pos with
  | .validate => .ok s
  | .beginSession => .ok (beginSession (opEncodeSlot a) s)
  | .headers => headersStep (opHeight a) (opWidth a) s
  | .block mr mc b .extract => blockExtract a mr mc b s
  | .block _ _ _ .fdct => .ok (fdctStep s)
  | .block _ _ b .quant => .ok (blockQuant b s)
  | .block _ _ b .entropy => entropyStep (blockChannel b) s
  | .flush => flushStep s
  | .eoi => eoiStep s
  | .done => .ok s

/-- The block after a block of the same MCU (R319). -/
def nextBlock : BlockId → Option BlockId
  | .y0 => some .y1
  | .y1 => some .y2
  | .y2 => some .y3
  | .y3 => some .cb
  | .cb => some .cr
  | .cr => none

/-- The first position of the MCU loop, for `MR` rows and `MC` columns of MCUs (R312). -/
def firstMcu (rows cols : Nat) : Seq :=
  if rows = 0 ∨ cols = 0 then .flush else .block 0 0 .y0 .extract

/-- The position after MCU `(mr, mc)`: row-major order (R319). -/
def nextMcu (rows cols mr mc : Nat) : Seq :=
  if mc + 1 < cols then .block mr (mc + 1) .y0 .extract
  else if mr + 1 < rows then .block (mr + 1) 0 .y0 .extract
  else .flush

/-- The sequencer's order (10_state.md R46, R319), for `MR` rows and `MC` columns of MCUs. -/
def nextSeq (rows cols : Nat) : Seq → Seq
  | .validate => .beginSession
  | .beginSession => .headers
  | .headers => firstMcu rows cols
  | .block mr mc b .extract => .block mr mc b .fdct
  | .block mr mc b .fdct => .block mr mc b .quant
  | .block mr mc b .quant => .block mr mc b .entropy
  | .block mr mc b .entropy =>
    match nextBlock b with
    | some b' => .block mr mc b' .extract
    | none => nextMcu rows cols mr mc
  | .flush => .eoi
  | .eoi => .done
  | .done => .done

/-- The completion of a successful ENCODE (R316): the size of its slot and the declared dimensions. -/
def encodeDone (s : State) : State :=
  let a := s.args .p
  complete .p .ok (resNat (s.slot (opEncodeSlot a)).size) (declaredWord (opHeight a) (opWidth a)) 0 s

/-- After a sub-step: the next position, completion after Eoi, or the end at the status it raised (R315). -/
def encodeAdvance (pos : Seq) (e : Eff) : Host.Outcome State Fault Refusal :=
  match e with
  | .ok s =>
    let next := nextSeq (opHeight (s.args .p) / 16) (opWidth (s.args .p) / 16) pos
    if next = .done then .next (encodeDone (s.setSeq (some .done))) else .next (s.setSeq (some next))
  | .raised c s => .next (raiseStatus .p c (s.setSeq (some .done)))
  | .stuck f => .fault f

/-- ENCODE (R310): one atomic step of it (R314). With no position yet, or at an old command's Done, it validates. -/
def execEncode (s : State) : Host.Outcome State Fault Refusal :=
  match s.seq with
  | none | some .validate | some .done => .next (encodeValidate s)
  | some pos => encodeAdvance pos (seqEffect pos s)

end Sys2Proof.Machine
end

