-- ==== Sys2Proof/Machine/Pool.lean ====
section
/-! DEFINITION. The FrameBufferPool (47_pool.md): ACQFILL, PUBLISH, ACQREAD with its wait, RELEASE, and the consumer's
read port. -/

namespace Sys2Proof.Machine

/-- The end of a successful ACQFILL that took index `i` (R341). -/
def grantFill (i : Nat) (s : State) : State :=
  complete .p .ok (resNat i) (resNat (bufAddr s.cfg i)) 0 (s.modSlot i fun x => x.setLoc .producerHeld)

/-- ACQFILL (R341). -/
def execAcqfill (s : State) : Host.Outcome State Fault Refusal :=
  match s.freeQ, s.filledQ with
  | i :: q, _ => .next (grantFill i (s.setFreeQ q))
  | [], i :: q => .next (grantFill i (s.setFilledQ q))
  | [], [] => .next (raiseStatus .p .notAvailable s)

/-- PUBLISH (R342). -/
def execPublish (s : State) : Host.Outcome State Fault Refusal :=
  let i := opIndex (s.args .p)
  if s.cfg.n ≤ i then .next (raiseStatus .p .invalidArgument s)
  else if (s.slot i).loc ≠ .producerHeld then .next (failWith .p .protocol .invalidState s)
  else if s.sess.isOpen ∧ s.sess.slot = i then .next (failWith .p .protocol .invalidState s)
  else
    .next (complete .p .ok (resNat i) (resNat (s.slot i).size) 0
      ((s.setFilledQ (s.filledQ ++ [i])).modSlot i fun x => x.move .filled .inFilledQueue))

/-- Index `i` is lost to the pool: in no queue and held by no port (R352). -/
abbrev lost (s : State) (i : Nat) : Prop :=
  i ∉ s.freeQ ∧ i ∉ s.filledQ ∧ (s.slot i).loc ≠ .producerHeld ∧ (s.slot i).loc ≠ .consumerHeld

/-- The head `i` of FilledQueue is popped and lost (R352): it stays in no queue, and no port holds it. -/
def dropIndex (i : Nat) (s : State) : State :=
  ((s.setFreeQ (s.freeQ.filter (· ≠ i))).setFilledQ (s.filledQ.filter (· ≠ i))).modSlot i fun x =>
    x.setLoc .inFilledQueue

/-- `TakeFilled()` on the head `i`, with `q` the rest (R343). A head that is not Filled is refused and lost (R352,
93_implementation_defined.md I13; log 26). -/
def takeFilled (i : Nat) (q : List Nat) (s : State) : State :=
  if (s.slot i).state ≠ .filled then failWith .c .protocol .invalidState (dropIndex i s)
  else
    complete .c .ok (resNat (bufAddr s.cfg i)) (resNat (s.slot i).size) (resNat i)
      ((s.setFilledQ q).modSlot i fun x => x.move .checkedOut .consumerHeld)

/-- The first evaluation of ACQREAD (R343). -/
def acqreadFirst (s : State) : State :=
  match s.filledQ with
  | i :: q => takeFilled i q s
  | [] => if opTimeout (s.args .c) = 0 then raiseStatus .c .timeout s else s.setWait true

/-- A later wait step of ACQREAD (R344). Whether a finite timeout fires is free at every such step (log 4). -/
def acqreadWait (s : State) : State :=
  match s.filledQ with
  | i :: q => takeFilled i q (s.setWait false)
  | [] =>
    if opTimeout (s.args .c) = waitForever then s
    else if Config.freeTimeout s.draws then raiseStatus .c .timeout ((s.setWait false).draw 1)
    else s.draw 1

/-- ACQREAD (R343, R344): one atomic step of it. -/
def execAcqread (s : State) : Host.Outcome State Fault Refusal :=
  .next (if s.waitActive then acqreadWait s else acqreadFirst s)

/-- RELEASE (R345). An index that ACQREAD lost stays lost until a reset (R352), so it is refused as one that is not
CheckedOut (log 25). -/
def execRelease (s : State) : Host.Outcome State Fault Refusal :=
  match resolve s.cfg (opBuffer (s.args .c)) with
  | none => .next (failWith .c .foreignBuffer .invalidArgument s)
  | some i =>
    if (s.slot i).state ≠ .checkedOut ∨ lost s i then .next (failWith .c .doubleRelease .invalidState s)
    else
      .next (complete .c .ok (resNat i) 0 0
        ((s.modSlot i fun x => x.move .free .inFreeQueue).setFreeQ (s.freeQ ++ [i])))

/-- The slot whose held contents hold address `a` (R350). -/
def admittedIn (s : State) (a i : Nat) : Bool :=
  decide ((s.slot i).loc = .consumerHeld ∧ bufAddr s.cfg i ≤ a ∧ a < bufAddr s.cfg i + (s.slot i).size)

/-- A POOL read of address `a` is admitted (R350). -/
def admitted (s : State) (a : Nat) : Bool := (List.range s.cfg.n).any (admittedIn s a)

/-- A read of the POOL byte at `a` (R350): admitted only for the consumer; any other returns 0 and sets
ERR.OWNERSHIP. An admitted byte that has no value is a fault (10_state.md R53). -/
def poolRead (who : Agent) (a : Nat) (s : State) : Host.Outcome State Fault Refusal :=
  if who = .consumer ∧ admitted s a then
    match s.pool.read a with
    | some v => .next (s.setReadData (v.setWidth 32))
    | none => .fault .poolByteNoValue
  else .next ((faultErr .ownership s).setReadData 0)

end Sys2Proof.Machine
end

