-- ==== Sys2Proof/Machine/Dispatch.lean ====
section
/-! DEFINITION. One arm per command: the meaning of the command the latch holds. -/

namespace Sys2Proof.Machine

def exec (i : Instr) (s : State) : Host.Outcome State Fault Refusal :=
  match i with
  | .acqfill => Sys2Proof.Machine.execAcqfill s
  | .publish => Sys2Proof.Machine.execPublish s
  | .encode => Sys2Proof.Machine.execEncode s
  | .sessionBegin => Sys2Proof.Machine.execSessionBegin s
  | .emitHeaders => Sys2Proof.Machine.execEmitHeaders s
  | .extractY => Sys2Proof.Machine.execExtractY s
  | .extractCb => Sys2Proof.Machine.execExtractCb s
  | .extractCr => Sys2Proof.Machine.execExtractCr s
  | .fdct => Sys2Proof.Machine.execFdct s
  | .quantY => Sys2Proof.Machine.execQuantY s
  | .quantC => Sys2Proof.Machine.execQuantC s
  | .entropyY => Sys2Proof.Machine.execEntropyY s
  | .entropyCb => Sys2Proof.Machine.execEntropyCb s
  | .entropyCr => Sys2Proof.Machine.execEntropyCr s
  | .writeBits => Sys2Proof.Machine.execWriteBits s
  | .flushBits => Sys2Proof.Machine.execFlushBits s
  | .emitEoi => Sys2Proof.Machine.execEmitEoi s
  | .blkRead => Sys2Proof.Machine.execBlkRead s
  | .blkWrite => Sys2Proof.Machine.execBlkWrite s
  | .acqread => Sys2Proof.Machine.execAcqread s
  | .release => Sys2Proof.Machine.execRelease s

end Sys2Proof.Machine
end

