-- ==== Sys2Proof/Machine/Borrow.lean ====
section
/-! DEFINITION. One step of a port, and the borrow window of the frame: from the accepted issue of a command that reads
the frame to its completion (20_memory.md R92, 70_reset_and_hazards.md R430). -/

namespace Sys2Proof.Machine

/-- The next step of a port that has a command in flight: the word in its latch is decoded (30_encoding.md R131), a
command executes its rule, an illegal word its refusal (R127). -/
def runPort (q : Port) (s : State) : Host.Outcome State Fault Refusal :=
  match decode q (s.port q).latchWord with
  | .cmd i => exec i s
  | .illegal _ => .next (execIllegal q s)

/-- The word is a command that borrows the frame (70_reset_and_hazards.md R430). -/
def borrowsFrame (w : Word) : Bool :=
  match decode .p w with
  | .cmd .extractY | .cmd .extractCb | .cmd .extractCr | .cmd .encode => true
  | _ => false

/-- Address `x` is a byte of the frame that the operands name (20_memory.md R92). -/
def inFrame (a : Args) (x : Nat) : Bool := decide (opFrame a ≤ x ∧ x < opFrame a + opRawLen a)

/-- A write of `v` at `x` changes a byte of the operands' frame, which holds `m`. -/
def changesFrame (a : Args) (m : Memory) (x : Nat) (v : Byte) : Bool := inFrame a x && decide (m.read x ≠ some v)

/-- How many steps of port P are granted before the first change of the operands' frame that is to come; none where
no change comes before a reset. -/
def changeAhead (a : Args) (m : Memory) : List Input → Option Nat
  | [] => none
  | x :: l =>
    match x with
    | .frameWrite y v => if changesFrame a m y.toNat v then some 0 else changeAhead a m l
    | .grant .p => (changeAhead a m l).map (· + 1)
    | .reset _ => none
    | .grant .c | .regWrite .. | .regRead .. | .poolRead .. => changeAhead a m l

/-- Port P's command is still in flight after each of its next `k` steps. -/
def runsOn : Nat → State → Bool
  | 0, s => s.portP.status.busy
  | k + 1, s =>
    s.portP.status.busy &&
      match runPort .p s with
      | .next t => runsOn k t
      | _ => false

/-- A change of the frame is to come before the command of port P, on the frame as it stands, completes: no step but
port P's moves that command (46_encoder.md R314, R321). -/
def windowChanges (s : State) : Bool :=
  match changeAhead (s.args .p) s.frame s.inputs with
  | some k => runsOn k s
  | none => false

/-- Address `a` is inside the window of port P's running command (20_memory.md R92). -/
def borrowed (s : State) (a : Nat) : Bool :=
  s.portP.status.busy && borrowsFrame s.portP.latchWord && inFrame s.portP.latchArg a

/-- The frame source writes a byte; changing a borrowed byte is remembered (20_memory.md R92, log 5). -/
def frameWrite (a : Nat) (v : Byte) (s : State) : State :=
  { s with
    frame := s.frame.write a v
    frameChanged := s.frameChanged || (borrowed s a && decide (s.frame.read a ≠ some v)) }

end Sys2Proof.Machine
end

