-- ==== Sys2Proof/Machine/Registers.lean ====
section
/-! DEFINITION. The REG window (20_memory.md R97 to R100): the register map, reads and writes, and the issue of a
command (30_encoding.md R120, R126). -/

namespace Sys2Proof.Machine

/-- A register of a port (10_state.md R31). -/
inductive PortReg where
  | cmd
  | arg (k : Fin 5)
  | status
  | res (k : Fin 3)
  deriving DecidableEq, Repr

/-- What stands at a REG offset (20_memory.md R100). -/
inductive Reg where
  | port (q : Port) (r : PortReg)
  | cfgN | cfgCap | cfgBase | err | freeqCount | filledqCount | session
  | slotStat (i : Nat)
  | slotSize (i : Nat)
  | reserved
  deriving DecidableEq, Repr

/-- The ten registers of a port by word number (10_state.md R31). -/
def portRegAt (q : Port) : Nat → Reg
  | 0 => .port q .cmd
  | 1 => .port q (.arg 0)
  | 2 => .port q (.arg 1)
  | 3 => .port q (.arg 2)
  | 4 => .port q (.arg 3)
  | 5 => .port q (.arg 4)
  | 6 => .port q .status
  | 7 => .port q (.res 0)
  | 8 => .port q (.res 1)
  | 9 => .port q (.res 2)
  | _ => .reserved

/-- The global registers by offset (10_state.md R38, R39). -/
def globalRegAt : Nat → Reg
  | 0x080 => .cfgN
  | 0x084 => .cfgCap
  | 0x088 => .cfgBase
  | 0x08C => .err
  | 0x090 => .freeqCount
  | 0x094 => .filledqCount
  | 0x098 => .session
  | _ => .reserved

/-- The REG map (20_memory.md R100), for an offset that is a multiple of 4. -/
def regAt (off : Nat) : Reg :=
  if off < 0x040 then portRegAt .p (off / 4)
  else if off < 0x080 then portRegAt .c ((off - 0x040) / 4)
  else if off < 0x100 then globalRegAt off
  else if off < 0x200 then .slotStat ((off - 0x100) / 4)
  else if off < 0x300 then .slotSize ((off - 0x200) / 4)
  else .reserved

/-- The byte offset of a port's registers (30_encoding.md R129). -/
def portBase : Port → Nat
  | .p => 0x000
  | .c => 0x040

/-- The access the core performs: 32-bit and aligned (20_memory.md R97). -/
def goodAccess (width : AccessWidth) (off : BitVec 12) : Bool := decide (width = .w32 ∧ off.toNat % 4 = 0)

/-- The value of a register of a port. -/
def PortRegs.readReg (r : PortRegs) : PortReg → Word
  | .cmd => r.cmd
  | .arg k => r.arg[k]
  | .status => r.status.word
  | .res k => r.res[k]

/-- The value a register reads as (10_state.md R31, R38, R39, R43). -/
def State.readReg (s : State) : Reg → Word
  | .port q r => (s.port q).readReg r
  | .cfgN => resNat s.cfg.n
  | .cfgCap => resNat s.cfg.cap
  | .cfgBase => resNat s.cfg.poolBase
  | .err => s.err.word
  | .freeqCount => resNat s.freeQ.length
  | .filledqCount => resNat s.filledQ.length
  | .session => s.sess.word
  | .slotStat i => if i < s.cfg.n then (s.slot i).statWord else 0
  | .slotSize i => if i < s.cfg.n then resNat (s.slot i).size else 0
  | .reserved => 0

/-- A host read (20_memory.md R97, R99): no side effect but ERR.BAD_ACCESS. -/
def regRead (width : AccessWidth) (off : BitVec 12) (s : State) : State :=
  if goodAccess width off then s.setReadData (s.readReg (regAt off.toNat))
  else (faultErr .badAccess s).setReadData 0

/-- The latch and STATUS of an accepted issue (30_encoding.md R120). -/
def PortRegs.issued (r : PortRegs) (w : Word) : PortRegs :=
  { r with cmd := w, latchWord := w, latchArg := r.arg, status := r.status.issued }

/-- What else an accepted issue starts: on port P an ENCODE's sequencer is at Validate (10_state.md R46), and the
borrow window of the frame opens (70_reset_and_hazards.md R430); a change that is to come inside it makes every byte
the command reads a free value (20_memory.md R92, log 5). -/
def openCommand (q : Port) (w : Word) (s : State) : State :=
  match q with
  | .p =>
    let t : State :=
      { s with
        frameChanged := false
        seq := if decode .p w = .cmd .encode then some .validate else s.seq }
    { t with frameChanged := borrowsFrame w && windowChanges t }
  | .c => s

/-- An accepted issue of a CMD word (30_encoding.md R120). -/
def issue (q : Port) (w : Word) (s : State) : State :=
  openCommand q w (s.setPort q ((s.port q).issued w))

/-- A CMD write (30_encoding.md R120, R126): accepted when the port is idle, refused with ERR.CMD_WHILE_BUSY else;
CMD takes the value either way (10_state.md R34). -/
def writeCmd (q : Port) (w : Word) (s : State) : State :=
  if (s.port q).status.busy then faultErr .cmdWhileBusy (s.setPort q { s.port q with cmd := w })
  else issue q w s

/-- An ARG write replaces the whole register (10_state.md R32). -/
def writeArg (q : Port) (k : Fin 5) (w : Word) (s : State) : State :=
  s.setPort q { s.port q with arg := (s.port q).arg.set k w }

/-- A host write (20_memory.md R97, R99, R100): read-only and reserved offsets ignore it. -/
def regWrite (width : AccessWidth) (off : BitVec 12) (w : Word) (s : State) : State :=
  if goodAccess width off then
    match regAt off.toNat with
    | .port q .cmd => writeCmd q w s
    | .port q (.arg k) => writeArg q k w s
    | _ => s
  else faultErr .badAccess s

end Sys2Proof.Machine
end

