-- ==== Sys2Proof/Machine/Run.lean ====
section
/-! DEFINITION. A granted step, and one action of the outside world (20_memory.md R103): what `step` calls. -/

namespace Sys2Proof.Machine

/-- A port that is granted a step takes it; an idle port has none. -/
def grantPort (q : Port) (s : State) : Host.Outcome State Fault Refusal :=
  if (s.port q).status.busy then runPort q s else .next s

/-- The hardware reset (70_reset_and_hazards.md R420, R421): every piece of the core's state takes its reset value;
FRAME is outside the core, and what is still to come stays to come. Log 17. -/
def hardReset (k : Config) (s : State) : Host.Outcome State Fault Refusal :=
  if k.legal then
    .next { State.resetWith k with
      frame := s.frame, inputs := s.inputs, readData := s.readData, draws := s.draws }
  else .refused .configOutOfRange

/-- One action of the outside world. -/
def applyInput (x : Input) (s : State) : Host.Outcome State Fault Refusal :=
  match x with
  | .regWrite width off v => .next (regWrite width off v s)
  | .regRead width off => .next (regRead width off s)
  | .poolRead who a => poolRead who a.toNat s
  | .frameWrite a v => .next (frameWrite a.toNat v s)
  | .reset k => hardReset k s
  | .grant q => grantPort q s

/-- With nothing to come, a port with a ready step takes it; with two, either may go first (47_pool.md R351, log 3);
with none, the core waits (70_reset_and_hazards.md R420, log 14). -/
def autoStep (s : State) : Host.Outcome State Fault Refusal :=
  match s.portP.status.busy, s.portC.status.busy with
  | true, false => runPort .p s
  | false, true => runPort .c s
  | true, true => if Config.freeArbiter s.draws then runPort .p (s.draw 1) else runPort .c (s.draw 1)
  | false, false => .next s

/-- Taking the oldest action off the inputs. -/
def State.setInputs (s : State) (l : List Input) : State := { s with inputs := l }

/-- A CMD word placed as an accepted issue on the port where it is legal, with the next step granted to that port. A
wait that stood there is over, as before any new command of port C (log 20). -/
def placeCommand (w : Word) (s : State) : State :=
  let q := portOfWord w
  let t := issue q w (s.setInputs (.grant q :: s.inputs))
  t.setWait (if q = .c then false else s.waitActive)

end Sys2Proof.Machine
end

