-- ==== Sys2Proof/Machine/Step.lean ====
section
/-! DEFINITION. One atomic step of the machine (20_memory.md R103). -/

namespace Sys2Proof.Machine

/-- The oldest action of the outside world happens; when none is left, a port steps. -/
def step (s : State) : Host.Outcome State Fault Refusal :=
  match s.inputs with
  | x :: rest => applyInput x (s.setInputs rest)
  | [] => autoStep s

/-- The word stored where step takes its next command from: the latch of the port it runs on, granted. -/
def State.withFetchWord (s : State) (nbits w : Nat) : State := placeCommand (tableWord nbits w) s

end Sys2Proof.Machine
end

