-- ==== Sys2Proof/Machine/HostProgram.lean ====
section
/-! DEFINITION. The program of this machine is a host program (30_encoding.md R132): REG writes and reads with
host-side branches and loops on the values read, lines of the assembler (R129), the pseudo-instructions PRODUCE, CONSUME
and ENCODE_STEPS (R130), and the two hosts running beside the core. -/

namespace Sys2Proof.Machine

/-- The ARG words of a line: an extract line packs row and column into A4 (30_encoding.md R122, R129). -/
def lineArgs (l : AsmLine) : List Word :=
  match l.instr, l.operands with
  | .extractY, [f, n, w, h, r, c] | .extractCb, [f, n, w, h, r, c] | .extractCr, [f, n, w, h, r, c] =>
    [f, n, w, h, r.extractLsb' 0 16 ++ c.extractLsb' 0 16]
  | _, ops => ops

/-- A REG write: its offset and its value. -/
abbrev RegWrite := BitVec 12 × Word

/-- ARGk is written at `portbase + 4 + 4k` (R129). -/
def argWrites (base : Nat) : Nat → List Word → List RegWrite
  | _, [] => []
  | k, w :: ws => (BitVec.ofNat 12 (base + 4 + 4 * k), w) :: argWrites base (k + 1) ws

/-- The REG writes of a line: the arguments, then CMD (R129). -/
def lineWrites (l : AsmLine) : List RegWrite :=
  argWrites (portBase l.port) 0 (lineArgs l) ++ [(BitVec.ofNat 12 (portBase l.port), encode l.instr)]

/-- The unit commands of one block (46_encoder.md R319). -/
def blockLines (f n w h : Word) (mr mc : Nat) (b : BlockId) : List AsmLine :=
  let o := blockOrigin mr mc b
  let ext (i : Instr) : AsmLine := ⟨.p, i, [f, n, w, h, resNat o.1, resNat o.2]⟩
  let line (i : Instr) : AsmLine := ⟨.p, i, []⟩
  match b with
  | .y0 | .y1 | .y2 | .y3 => [ext .extractY, line .fdct, line .quantY, line .entropyY]
  | .cb => [ext .extractCb, line .fdct, line .quantC, line .entropyCb]
  | .cr => [ext .extractCr, line .fdct, line .quantC, line .entropyCr]

/-- The unit commands of one MCU (46_encoder.md R319). -/
def mcuLines (f n w h : Word) (mr mc : Nat) : List AsmLine :=
  [BlockId.y0, .y1, .y2, .y3, .cb, .cr].flatMap (blockLines f n w h mr mc)

/-- `ENCODE_STEPS f, l, w, h, s` (R130). -/
def encodeStepsLines (f n w h k : Word) : List AsmLine :=
  [⟨.p, .sessionBegin, [k]⟩, ⟨.p, .emitHeaders, [w, h]⟩] ++
    ((List.range (h.toNat / 16)).flatMap fun mr =>
      (List.range (w.toNat / 16)).flatMap fun mc => mcuLines f n w h mr mc) ++
    [⟨.p, .flushBits, []⟩, ⟨.p, .emitEoi, []⟩]

/-! ## Host programs -/

/-- What one host does, given what it read, up to a jump (R132). -/
inductive HostProg where
  /-- The host issued its last command and reads no more. -/
  | stop
  /-- A REG write. -/
  | write (width : AccessWidth) (off : BitVec 12) (v : Word) (next : HostProg)
  /-- A REG read, and what the host does with the value. -/
  | read (width : AccessWidth) (off : BitVec 12) (next : Word → HostProg)
  /-- A read of a POOL byte: `C READ a` (R129), or a producer's, which is never admitted. -/
  | readPool (who : Agent) (a : Word) (next : Word → HostProg)
  /-- Reading a port's STATUS again and again until DONE = 1 (R129). -/
  | poll (q : Port) (next : HostProg)
  /-- Host control flow alone: go on at block `k` of the host's code, with the values the host carries (R132). -/
  | goto (k : Nat) (vals : List Word)

/-- The code of a host: blocks that jump to one another, so that a host may loop (R132). -/
abbrev HostCode := List (List Word → HostProg)

/-- Where a jump leads: the block it names, or the end of the program where the code has no such block. -/
def HostProg.jump (c : HostCode) : HostProg → HostProg
  | .goto k vals => (c.getD k fun _ => .stop) vals
  | p => p

/-- The offset of a port's STATUS (10_state.md R31). -/
def statusOffset (q : Port) : BitVec 12 := BitVec.ofNat 12 (portBase q + 0x18)

/-- The offset of a port's RESk (10_state.md R31). -/
def resOffset (q : Port) (k : Nat) : BitVec 12 := BitVec.ofNat 12 (portBase q + 0x1C + 4 * k)

/-- The host's next action, where it is one on the core, and the program after it by the value the action returned. -/
def HostProg.next : HostProg → Option (Input × (Word → HostProg))
  | .stop | .goto .. => none
  | .write width off v p => some (.regWrite width off v, fun _ => p)
  | .read width off p => some (.regRead width off, p)
  | .readPool who a p => some (.poolRead who a, p)
  | .poll q p => some (.regRead .w32 (statusOffset q), fun v => if v.getLsbD 1 then p else .poll q p)

/-- 32-bit REG writes in order. -/
def HostProg.writes : List RegWrite → HostProg → HostProg
  | [], p => p
  | (off, v) :: l, p => .write .w32 off v (HostProg.writes l p)

/-- A line: its writes, the poll of DONE, then CODE and RES0 to RES2 for the host to go on with (R129, R132). -/
def HostProg.line (l : AsmLine) (next : BitVec 8 → Vector Word 3 → HostProg) : HostProg :=
  .writes (lineWrites l) <| .poll l.port <| .read .w32 (statusOffset l.port) fun st =>
    .read .w32 (resOffset l.port 0) fun r0 => .read .w32 (resOffset l.port 1) fun r1 =>
      .read .w32 (resOffset l.port 2) fun r2 => next (st.extractLsb' 8 8) #v[r0, r1, r2]

/-- A list of lines, none looking at its result. -/
def HostProg.ofLines : List AsmLine → HostProg
  | [] => .stop
  | l :: ls => .line l fun _ _ => HostProg.ofLines ls

/-- `C READ a`, `C READ a+1`, ... for `k` bytes; the bytes read go on, the first one first. -/
def HostProg.readBytes : Nat → Word → (List Word → HostProg) → HostProg
  | 0, _, next => next []
  | k + 1, a, next => .readPool .consumer a fun v => HostProg.readBytes k (a + 1) fun vs => next (v :: vs)

/-- `P PRODUCE f, l, w, h` (R130, 46_encoder.md R322), then `next`: the slot is published whatever ENCODE returned. -/
def produceThen (f n w h : Word) (next : HostProg) : HostProg :=
  .line ⟨.p, .acqfill, []⟩ fun code res =>
    if code = StatusCode.ok.number then
      .line ⟨.p, .encode, [f, n, w, h, res[0]]⟩ fun _ _ => .line ⟨.p, .publish, [res[0]]⟩ fun _ _ => next
    else next

/-- `P PRODUCE f, l, w, h` alone. -/
def produce (f n w h : Word) : HostProg := produceThen f n w h .stop

/-- `C CONSUME t` (R130), then what the host does by the CODE of its ACQREAD. -/
def consumeThen (t : Word) (next : BitVec 8 → HostProg) : HostProg :=
  .line ⟨.c, .acqread, [t]⟩ fun code res =>
    if code = StatusCode.ok.number then
      .readBytes res[1].toNat res[0] fun _ => .line ⟨.c, .release, [res[0]]⟩ fun _ _ => next code
    else next code

/-- `C CONSUME t` alone. -/
def consume (t : Word) : HostProg := consumeThen t fun _ => .stop

/-- A producer that encodes in a loop (10_state.md R30): block 0 is PRODUCE and a jump back. -/
def producerLoop (f n w h : Word) : HostCode := [fun _ => produceThen f n w h (.goto 0 [])]

/-- A consumer that serves every image: block 0 is CONSUME and a jump back. -/
def consumerLoop (t : Word) : HostCode := [fun _ => consumeThen t fun _ => .goto 0 []]

/-- A consumer that polls for one image: on Timeout it goes back to its ACQREAD (95_test_vectors.md L3-1, lines 1, 2). -/
def pollingConsumer : HostCode :=
  [fun _ => consumeThen 0 fun code => if code = StatusCode.timeout.number then .goto 0 [] else .stop]

/-- `P ENCODE_STEPS f, l, w, h, s` (R130), the results not looked at (46_encoder.md R320). -/
def encodeSteps (f n w h k : Word) : HostProg := .ofLines (encodeStepsLines f n w h k)

/-- The program writes no register of the other port up to a jump: the duty of 60_exceptions.md R396 H-1. -/
def HostProg.keepsTo (q : Port) : HostProg → Prop
  | .stop | .goto .. => True
  | .write _ off _ p => (∀ q' r, regAt off.toNat = .port q' r → q' = q) ∧ p.keepsTo q
  | .read _ _ p => ∀ v, (p v).keepsTo q
  | .readPool _ _ p => ∀ v, (p v).keepsTo q
  | .poll _ p => p.keepsTo q

/-- No block of the code writes a register of the other port. -/
def HostCode.keepsTo (q : Port) (c : HostCode) : Prop := ∀ b ∈ c, ∀ vals, (b vals).keepsTo q

/-! ## The hosts and the core -/

/-- The core between its two hosts (10_state.md R30): what each host does next, and the code its jumps lead into. -/
structure System where
  producer : HostProg
  consumer : HostProg
  core : State
  producerCode : HostCode := []
  consumerCode : HostCode := []

/-- Whose turn it is. No other agent has a move (60_exceptions.md R396 H-1). -/
inductive Turn where
  /-- A host does its next action. -/
  | host (who : Agent)
  /-- The arbiter grants a port its step (47_pool.md R351). -/
  | grant (q : Port)
  /-- The frame source writes a byte (20_memory.md R92). -/
  | frame (a : Word) (v : Byte)
  /-- The platform resets the core (70_reset_and_hazards.md R420). -/
  | reset (k : Config)
  deriving DecidableEq, Repr

/-- What a turn that is no host's does to the core. -/
def Turn.input : Turn → Option Input
  | .host _ => none
  | .grant q => some (.grant q)
  | .frame a v => some (.frameWrite a v)
  | .reset k => some (.reset k)

/-- What is still to come from outside the hosts, which the core's borrow window depends on (log 5). -/
def outsideAhead (l : List Turn) : List Input := l.filterMap Turn.input

/-- The program of a host. -/
def System.prog (y : System) : Agent → HostProg
  | .producer => y.producer
  | .consumer => y.consumer

/-- The code of a host. -/
def System.code (y : System) : Agent → HostCode
  | .producer => y.producerCode
  | .consumer => y.consumerCode

/-- A host goes on with the program `p`. -/
def System.setProg (y : System) (who : Agent) (p : HostProg) : System :=
  match who with
  | .producer => { y with producer := p }
  | .consumer => { y with consumer := p }

/-- The core takes one action, with `rest` still to come; `after` is the system with the core's new state. -/
def System.act (y : System) (x : Input) (rest : List Turn) (after : State → System) :
    Host.Outcome System Fault Refusal :=
  match step (y.core.setInputs (x :: outsideAhead rest)) with
  | .next s => .next (after s)
  | .fault r => .fault r
  | .refused r => .refused r

/-- A host's turn: a host that polls stays where it is until it reads DONE = 1, a jump only leads on, and a host that
stopped does nothing. -/
def System.hostTurn (y : System) (who : Agent) (rest : List Turn) : Host.Outcome System Fault Refusal :=
  match (y.prog who).next with
  | none => .next (y.setProg who ((y.prog who).jump (y.code who)))
  | some (x, k) => y.act x rest fun s => { y with core := s }.setProg who (k s.readData)

/-- One turn, with `rest` still to come. -/
def System.turn (y : System) (t : Turn) (rest : List Turn) : Host.Outcome System Fault Refusal :=
  match t with
  | .host who => y.hostTurn who rest
  | .grant q => y.act (.grant q) rest fun s => { y with core := s }
  | .frame a v => y.act (.frameWrite a v) rest fun s => { y with core := s }
  | .reset k => y.act (.reset k) rest fun s => { y with core := s }

/-- A schedule of turns. Where it ends with a program not over, the system is where it got: no action was skipped. -/
def System.run : List Turn → System → Host.Outcome System Fault Refusal
  | [], y => .next y
  | t :: l, y =>
    match y.turn t l with
    | .next z => System.run l z
    | o => o

/-- A schedule of `k` turns of a host, each followed by a step of its port. -/
def hostTurns (who : Agent) (k : Nat) : List Turn :=
  let q := match who with | .producer => Port.p | .consumer => Port.c
  (List.replicate k [Turn.host who, .grant q]).flatten

end Sys2Proof.Machine
end

