-- ==== Sys2Proof/Safety.lean ====
section
/-! DEFINITION. What claims are stated in: memory frames, the invariants of 47_pool.md and 44_bitstream.md, the packed
bit stream, ENCODE in flight, runs, launch and end-of-run predicates (70_reset_and_hazards.md R422, 60_exceptions.md
R398) and the requirements on a transform (41_fdct.md R170). -/

namespace Sys2Proof.Machine

/-! ## Memory frames -/

/-- The bytes `l` stand from address `a` on. -/
def Memory.holds (m : Memory) (a : Nat) (l : List Byte) : Prop := ∀ k, k < l.length → m.read (a + k) = l[k]?

/-- Every byte outside the `len` bytes from `a` reads as before. -/
def Memory.sameOutside (m m' : Memory) (a len : Nat) : Prop := ∀ x, x < a ∨ a + len ≤ x → m'.read x = m.read x

/-- `t` is `u` in every field but POOL, and POOL is `u`'s with exactly the bytes `l` stored from address `a` on. -/
def storedIn (t u : State) (a : Nat) (l : List Byte) : Prop :=
  t.pool.holds a l ∧ u.pool.sameOutside t.pool a l.length ∧ { t with pool := u.pool } = u

/-- `t` is `u` in every field but POOL, and POOL is `u`'s outside the `len` bytes from address `a` on. -/
def sameButBytes (t u : State) (a len : Nat) : Prop :=
  u.pool.sameOutside t.pool a len ∧ { t with pool := u.pool } = u

/-! ## The pool -/

/-- Index `i` is where `slot[i].loc` says, once, and its state is one that place allows (10_state.md R44). -/
def ownedOnce (s : State) (i : Nat) : Prop :=
  match (s.slot i).loc with
  | .inFreeQueue => s.freeQ.count i = 1 ∧ s.filledQ.count i = 0 ∧ (s.slot i).state = .free
  | .inFilledQueue => s.freeQ.count i = 0 ∧ s.filledQ.count i = 1 ∧ (s.slot i).state = .filled
  | .producerHeld =>
    s.freeQ.count i = 0 ∧ s.filledQ.count i = 0 ∧ ((s.slot i).state = .free ∨ (s.slot i).state = .filled)
  | .consumerHeld => s.freeQ.count i = 0 ∧ s.filledQ.count i = 0 ∧ (s.slot i).state = .checkedOut

/-- The ownership invariant (10_state.md R44), with what makes it about N slots: legal parameters, N records, and no
other index in a queue. -/
structure PoolInv (s : State) : Prop where
  legal : s.cfg.legal = true
  count : s.slots.length = s.cfg.n
  owned : ∀ i < s.cfg.n, ownedOnce s i
  inRange : ∀ i, i ∈ s.freeQ ∨ i ∈ s.filledQ → i < s.cfg.n

/-- How many slots are at a location. -/
def slotsAt (s : State) (l : SlotLoc) : Nat := ((List.range s.cfg.n).filter fun i => decide ((s.slot i).loc = l)).length

/-- Port P has an ENCODE in flight. -/
def encoding (s : State) : Prop := s.portP.status.busy = true ∧ decode .p s.portP.latchWord = .cmd .encode

/-- The producer holds slot `i` of the pool. -/
def producerHolds (s : State) (i : Nat) : Prop := i < s.cfg.n ∧ (s.slot i).loc = .producerHeld

/-- The session-slot law (44_bitstream.md R259): the slot of an open session is held by the producer; so is the slot
that an ENCODE past Validate is about to begin on, and ENCODE's Headers come inside an open session. -/
structure SessionInv (s : State) : Prop extends PoolInv s where
  openHeld : s.sess.isOpen = true → producerHolds s s.sess.slot
  beginHeld : encoding s → s.seq = some .beginSession → producerHolds s (opEncodeSlot (s.args .p))
  headersOpen : encoding s → s.seq = some .headers → s.sess.isOpen = true

/-- The size law (44_bitstream.md R260) and the written-bytes law (10_state.md R53): a size is at most CAP, and every
byte below it has a value. -/
structure ContentInv (s : State) : Prop extends SessionInv s where
  sizeFits : ∀ i < s.cfg.n, (s.slot i).size ≤ s.cfg.cap
  written : ∀ i < s.cfg.n, ∀ o < (s.slot i).size, (s.pool.read (bufAddr s.cfg i + o)).isSome = true

/-- Port C waits only inside an ACQREAD with a nonzero timeout (10_state.md R47, 47_pool.md R343). -/
def WaitInv (s : State) : Prop :=
  s.waitActive = true →
    s.portC.status.busy = true ∧ decode .c s.portC.latchWord = .cmd .acqread ∧ opTimeout (s.args .c) ≠ 0

/-- What an address of POOL belongs to: the buffer of slot `i` (20_memory.md R93). -/
def inBuffer (k : Config) (i a : Nat) : Prop := bufAddr k i ≤ a ∧ a < bufAddr k i + k.cap

/-! ## The packed bit stream -/

/-- The whole bytes of a bit string, its first bit bit 7 of the first byte (20_memory.md R91). -/
def wholeBytes (bits : List Bool) : List Byte :=
  (List.range (bits.length / 8)).map fun k => byteOfBits ((bits.drop (8 * k)).take 8)

/-- The bits after the last whole byte. -/
def restBits (bits : List Bool) : List Bool := bits.drop (8 * (bits.length / 8))

/-- A 0x00 byte follows every 0xFF byte (44_bitstream.md R254). -/
def stuffed (l : List Byte) : List Byte := l.flatMap fun b => if b = 0xFF then [b, 0] else [b]

/-- The bits of a sequence of EmitBits calls. -/
def itemsBits (l : List BitItem) : List Bool := l.flatMap fun x => bitsOf x.value x.count

/-- The code of a symbol, bit by bit (43_entropy.md R221). -/
def codeBits (t : HuffSpec) (sym : Nat) : List Bool := bitsOf (t.codeOf sym).code (t.codeOf sym).len

/-- The VLI bits of a value: as many as its magnitude, a negative value one less in two's complement (43_entropy.md
R211, R214). -/
def vliBits (v : Int) : List Bool :=
  bitsOf (if 0 ≤ v then v.toNat else (v + 2 ^ Nat.size v.natAbs - 1).toNat) (Nat.size v.natAbs)

/-- The element of a block at scan position `k` (43_entropy.md R212). -/
def scanAt (b : Block) (k : Nat) : Int := blkAt b (zigzag.toList.getD k 0)

/-- The scan positions 1 to `k - 1` of nonzero elements, rising. -/
def nonzeroBelow (b : Block) (k : Nat) : List Nat := (List.range' 1 (k - 1)).filter fun j => scanAt b j ≠ 0

/-- How many zeros stand between position `k` and the nonzero AC element before it, or the DC. -/
def zerosBefore (b : Block) (k : Nat) : Nat := k - 1 - (nonzeroBelow b k).getLast?.getD 0

/-- The bits of the nonzero element at position `k`: a ZRL for every 16 zeros before it, the code of what is left of the
run with the magnitude, and the VLI (43_entropy.md R216). -/
def acBits (ch : Channel) (b : Block) (k : Nat) : List Bool :=
  (List.replicate (zerosBefore b k / 16) (codeBits (acSpec ch) 0xF0)).flatten ++
    codeBits (acSpec ch) (16 * (zerosBefore b k % 16) + Nat.size (scanAt b k).natAbs) ++ vliBits (scanAt b k)

/-- The bits of a block as 43_entropy.md R215 and R216 have them, read off the positions of its nonzero elements and not
off the coder's loop: the DC difference, each nonzero AC element in scan order, and EOB exactly when the last position
is zero. -/
def scanBits (ch : Channel) (b : Block) (p : Sample) : List Bool :=
  codeBits (dcSpec ch) (Nat.size (blkAt b 0 - p.toInt).natAbs) ++ vliBits (blkAt b 0 - p.toInt) ++
    (nonzeroBelow b 64).flatMap (acBits ch b) ++ if scanAt b 63 = 0 then codeBits (acSpec ch) 0x00 else []

/-- The ENTROPY command of a channel (43_entropy.md R223 to R225). -/
def entropyOf : Channel → Instr
  | .y => .entropyY
  | .cb => .entropyCb
  | .cr => .entropyCr

/-- The session slot's size is `k` and the session goes on with `bits` pending. -/
def sessionAt (s : State) (k : Nat) (bits : List Bool) : State :=
  { s with
    sess := { s.sess with acc := bits }
    slots := s.slots.modify s.sess.slot fun x => { x with size := k } }

/-- The state after AbortSession (44_bitstream.md R252): size 0, closed, no pending bits. -/
def sessionAborted (s : State) : State :=
  { s with
    sess := { s.sess with isOpen := false, acc := [] }
    slots := s.slots.modify s.sess.slot fun x => { x with size := 0 } }

/-- A session is open on a slot of the pool, with at most 7 pending bits (10_state.md R45) and a size of at most CAP
(44_bitstream.md R260). -/
def sessionReady (s : State) : Prop :=
  s.sess.isOpen = true ∧ s.sess.slot < s.cfg.n ∧ s.slots.length = s.cfg.n ∧ s.sess.acc.length ≤ 7 ∧
    s.sessSize ≤ s.cfg.cap

/-- A meaning that sends the bytes `out` to the sink: with room it ends in `done`, with those bytes stored from offset
`size` of the session slot on; without room it ends CapacityExceeded, the session aborted, and no byte outside the rest
of that slot's buffer stored (44_bitstream.md R251, R252). `s` is the state past the command's own updates. -/
def emitsBytes (r : Host.Outcome State Fault Refusal) (s done : State) (out : List Byte) : Prop :=
  (s.sessSize + out.length ≤ s.cfg.cap → ∃ t, r = .next t ∧ storedIn t done (sinkAddr s) out) ∧
  (s.cfg.cap < s.sessSize + out.length →
    ∃ t, r = .next t ∧
      sameButBytes t (complete .p .capacityExceeded 0 0 0 (sessionAborted s)) (sinkAddr s) (s.cfg.cap - s.sessSize))

/-! ## Frames -/

/-- The operands that ValidFrame accepts (40_extract.md R150). -/
def frameOperandsValid (a : Args) : Prop :=
  opFrame a ≠ 0 ∧ (1 ≤ opWidth a ∧ opWidth a ≤ 65535) ∧ (1 ≤ opHeight a ∧ opHeight a ≤ 65535) ∧
    opFrame a + opRawLen a ≤ 2 ^ 32 ∧ 2 ≤ opRawLen a / (opWidth a * opHeight a)

/-- The address of a byte of pixel `(row, col)` (40_extract.md R151). -/
def pixelByte (a : Args) (row col off : Nat) : Nat :=
  opFrame a + (row * opWidth a + col) * (opRawLen a / (opWidth a * opHeight a)) + off

/-- `LOFF` and `CBPAR` of 40_extract.md R152's table. -/
def pixelLayout : PixelOrder → Nat × Nat
  | .yuyv => (0, 0)
  | .uyvy => (1, 0)
  | .yvyu => (0, 1)
  | .vyuy => (1, 1)

/-- Every frame byte the operands name is readable (60_exceptions.md R396 H-5). -/
def frameGiven (s : State) : Prop :=
  ∀ a, opFrame (s.args .p) ≤ a → a < opFrame (s.args .p) + opRawLen (s.args .p) → frameReadable s a = true

/-! ## The transform -/

/-- Every sample is in -128..127 (40_extract.md R158). -/
def SampleRange (b : Block) : Prop := ∀ k < 64, -128 ≤ blkAt b k ∧ blkAt b k ≤ 127

/-- The bounds 42_quantizer.md R199 and 43_entropy.md R226 take from a conforming transform. -/
def CoefRange (b : Block) : Prop :=
  (-1025 ≤ blkAt b 0 ∧ blkAt b 0 ≤ 1017) ∧ ∀ k, 1 ≤ k → k < 64 → -1021 ≤ blkAt b k ∧ blkAt b k ≤ 1021

/-- A transform whose output on samples is within those bounds. -/
def FdctRange (f : Block → Block) : Prop := ∀ b, SampleRange b → CoefRange (f b)

/-- `F_exact[v][u]` (41_fdct.md R171). -/
noncomputable def exactDct (b : Block) (v u : Nat) : ℝ :=
  1 / 4 * (if u = 0 then 1 / Real.sqrt 2 else 1) * (if v = 0 then 1 / Real.sqrt 2 else 1) *
    ∑ y ∈ Finset.range 8, ∑ x ∈ Finset.range 8,
      (blkAt b (8 * y + x) : ℝ) * Real.cos ((2 * x + 1) * u * Real.pi / 16) * Real.cos ((2 * y + 1) * v * Real.pi / 16)

/-- Requirement 3 of 41_fdct.md R170 on FDCT_IMPL. Requirements 1 and 2 are its type. -/
def FdctConforms (f : Block → Block) : Prop :=
  ∀ b, SampleRange b → ∀ v < 8, ∀ u < 8, |(blkAt (f b) (8 * v + u) : ℝ) - exactDct b v u| ≤ 1

/-! ## ENCODE in flight -/

/-- The conditions on the operands that Validate checks (46_encoder.md R311). -/
def encodeOperandsValid (k : Config) (a : Args) : Prop := frameOperandsValid a ∧ opEncodeSlot a < k.n

/-- An ENCODE past Validate stands at a position: its operands are valid, the producer holds its slot, its session is
open after Begin, and a block is inside the MCU grid (46_encoder.md R312, R319). -/
structure EncodeAt (s : State) (pos : Seq) : Prop where
  inFlight : encoding s
  at_ : s.seq = some pos
  running : pos ≠ .validate ∧ pos ≠ .done
  operands : encodeOperandsValid s.cfg (s.args .p)
  held : (s.slot (opEncodeSlot (s.args .p))).loc = .producerHeld
  count : s.slots.length = s.cfg.n
  session : pos ≠ .beginSession → s.sess.isOpen = true ∧ s.sess.slot = opEncodeSlot (s.args .p)
  inGrid : ∀ mr mc b u, pos = .block mr mc b u →
    mr < opHeight (s.args .p) / 16 ∧ mc < opWidth (s.args .p) / 16

/-- What the encoder path keeps in BLK and PRED (40_extract.md R158, 43_entropy.md R226). -/
structure EncodePath (s : State) (pos : Seq) : Prop where
  predY : pos ≠ .beginSession → -1025 ≤ s.pred.y.toInt ∧ s.pred.y.toInt ≤ 1017
  predCb : pos ≠ .beginSession → -1025 ≤ s.pred.cb.toInt ∧ s.pred.cb.toInt ≤ 1017
  predCr : pos ≠ .beginSession → -1025 ≤ s.pred.cr.toInt ∧ s.pred.cr.toInt ≤ 1017
  samples : ∀ mr mc b, pos = .block mr mc b .fdct → SampleRange s.blk
  coefs : ∀ mr mc b u, pos = .block mr mc b u → u = .quant ∨ u = .entropy → CoefRange s.blk

/-- The origin word A4 of a block (30_encoding.md R122, 46_encoder.md R313). -/
def originWord (mr mc : Nat) (b : BlockId) : Word :=
  BitVec.ofNat 16 (blockOrigin mr mc b).1 ++ BitVec.ofNat 16 (blockOrigin mr mc b).2

/-- The unit command, with its operands, that a position's sub-step acts as (46_encoder.md R319). -/
def encodeUnit (a : Args) : Seq → Option (Instr × Args)
  | .beginSession => some (.sessionBegin, #v[a[4], 0, 0, 0, 0])
  | .headers => some (.emitHeaders, #v[a[2], a[3], 0, 0, 0])
  | .block mr mc b .extract =>
    let i : Instr := match b with | .y0 | .y1 | .y2 | .y3 => .extractY | .cb => .extractCb | .cr => .extractCr
    some (i, #v[a[0], a[1], a[2], a[3], originWord mr mc b])
  | .block _ _ _ .fdct => some (.fdct, a)
  | .block _ _ b .quant =>
    some (match b with | .y0 | .y1 | .y2 | .y3 => .quantY | .cb | .cr => .quantC, a)
  | .block _ _ b .entropy => some (entropyOf (blockChannel b), a)
  | .flush => some (.flushBits, a)
  | .eoi => some (.emitEoi, a)
  | .validate | .done => none

/-- The same state with a unit command in port P's latch. -/
def withUnit (i : Instr) (a : Args) (s : State) : State :=
  { s with portP := { s.portP with latchWord := encode i, latchArg := a } }

/-- ENCODE's positions after Validate, in order, for `rows` by `cols` MCUs (46_encoder.md R319). -/
def encodePositions (rows cols : Nat) : List Seq :=
  [.beginSession, .headers] ++
    ((List.range rows).flatMap fun mr => (List.range cols).flatMap fun mc =>
      [BlockId.y0, .y1, .y2, .y3, .cb, .cr].flatMap fun b =>
        [BlockStep.extract, .fdct, .quant, .entropy].map fun u => Seq.block mr mc b u) ++
    [.flush, .eoi]

/-- `k` atomic steps of one command. -/
def execTimes (i : Instr) : Nat → State → Host.Outcome State Fault Refusal
  | 0, s => .next s
  | k + 1, s =>
    match exec i s with
    | .next t => execTimes i k t
    | o => o

/-! ## Outcomes -/

/-- A change made to the state of an outcome that goes on. -/
def Outcome.mapNext (f : State → State) : Host.Outcome State Fault Refusal → Host.Outcome State Fault Refusal
  | .next s => .next (f s)
  | .fault r => .fault r
  | .refused r => .refused r

/-- The next step is not a hardware reset. -/
def notReset (s : State) : Prop := ∀ k, s.inputs.head? ≠ some (.reset k)

/-- The transitions of a slot's state and location (47_pool.md R346). -/
def slotMoves : List ((SlotState × SlotLoc) × (SlotState × SlotLoc)) :=
  [((.free, .inFreeQueue), (.free, .producerHeld)),
   ((.filled, .inFilledQueue), (.filled, .producerHeld)),
   ((.free, .producerHeld), (.filled, .inFilledQueue)),
   ((.filled, .producerHeld), (.filled, .inFilledQueue)),
   ((.filled, .inFilledQueue), (.checkedOut, .consumerHeld)),
   ((.checkedOut, .consumerHeld), (.free, .inFreeQueue))]

/-! ## Launch, runs and their end -/

/-- `ResetState(cfg)`: every field the spec gives the machine is R51's for `cfg`; FRAME and the model's own fields are
the launch's (70_reset_and_hazards.md R422). -/
def ResetState (k : Config) (s : State) : Prop :=
  s = { State.resetWith k with frame := s.frame, inputs := s.inputs, readData := s.readData, draws := s.draws }

/-- `Quiescent(cfg)` (70_reset_and_hazards.md R422). -/
structure Quiescent (k : Config) (s : State) : Prop where
  cfg : s.cfg = k
  idleP : s.portP.status.busy = false
  idleC : s.portC.status.busy = false
  noWait : s.waitActive = false
  noSession : s.sess.isOpen = false
  noErr : s.err = Err.clear
  pool : PoolInv s
  noneHeld : slotsAt s .producerHeld = 0 ∧ slotsAt s .consumerHeld = 0

/-- Both ports are idle: no command is in flight and no ACQREAD waits (60_exceptions.md R398). -/
def portsIdle (s : State) : Prop := s.portP.status.busy = false ∧ s.portC.status.busy = false

/-- What is to come before a reset. -/
def beforeReset (l : List Input) : List Input :=
  l.takeWhile fun x => match x with | .reset _ => false | _ => true

/-- A run is over: both ports idle, and no command issue is to come; only a 32-bit write of CMD is one (60_exceptions.md
R398, 20_memory.md R97). DESIGN CHOICE (log 24): R398 does not say whether a run goes on past a reset; here, as in
`System.over`, a reset ends it, and an issue after one belongs to a new launch. -/
def runOver (s : State) : Prop :=
  portsIdle s ∧
    ∀ off v, Input.regWrite .w32 off v ∈ beforeReset s.inputs → off.toNat ≠ portBase .p ∧ off.toNat ≠ portBase .c

/-- A run is clean: over, and no sticky bit set (60_exceptions.md R398). -/
def clean (s : State) : Prop := runOver s ∧ s.err = Err.clear

/-- The host's next action is a command issue: a 32-bit write of CMD (30_encoding.md R120, 20_memory.md R97). -/
def HostProg.issues (p : HostProg) : Prop :=
  ∃ off v k, p.next = some (.regWrite .w32 off v, k) ∧ (off.toNat = portBase .p ∨ off.toNat = portBase .c)

/-- The program issues no command, whatever it reads: REG and POOL reads, polls, writes of other registers or widths and
jumps are all it does. `R` says which jumps it takes. -/
def HostProg.quiet (R : Nat → List Word → Prop) : HostProg → Prop
  | .stop => True
  | .write width off _ p => ¬(width = .w32 ∧ (off.toNat = portBase .p ∨ off.toNat = portBase .c)) ∧ p.quiet R
  | .read _ _ p => ∀ v, (p v).quiet R
  | .readPool _ _ p => ∀ v, (p v).quiet R
  | .poll _ p => p.quiet R
  | .goto k vals => R k vals

/-- A host issues no command any more: neither its program nor any block its jumps lead to does. -/
def System.quiet (y : System) (R : Nat → List Word → Prop) (who : Agent) : Prop :=
  (y.prog who).quiet R ∧ ∀ k vals, R k vals → (HostProg.jump (y.code who) (.goto k vals)).quiet R

/-- A run of two host programs is over: both ports idle, and the hosts issued their last command, that is, however the
run goes on up to a reset, neither issues one; reads, ARG writes and polls may be left (60_exceptions.md R398). DESIGN
CHOICE (log 24): a reset ends the run, and an issue after one belongs to a new launch. -/
def System.over (y : System) : Prop :=
  portsIdle y.core ∧
    ∀ l z, (∀ k, Turn.reset k ∉ l) → System.run l y = .next z → ∀ who, ¬(z.prog who).issues

/-- A run of two host programs is clean (60_exceptions.md R398). -/
def System.clean (y : System) : Prop := y.over ∧ y.core.err = Err.clear

/-- The observation of a run (60_exceptions.md R398): every REG value, the pool state, the session state (44_bitstream.md
R250), BLK, and of each slot's buffer the bytes below its size. FRAME, POOL at or above a size, and the model's own
fields are not in it. -/
structure Observation where
  reg : List Word
  slots : List Slot
  freeQ : List Nat
  filledQ : List Nat
  sess : Session
  pred : Preds
  blk : Block
  images : List (List (Option Byte))
  deriving DecidableEq, Repr

/-- The POOL bytes of slot `i` below its size. -/
def State.image (s : State) (i : Nat) : List (Option Byte) :=
  (List.range (s.slot i).size).map fun o => s.pool.read (bufAddr s.cfg i + o)

/-- What is observed of a final state (60_exceptions.md R398). -/
def State.observation (s : State) : Observation where
  reg := (List.range 1024).map fun k => s.readReg (regAt (4 * k))
  slots := s.slots
  freeQ := s.freeQ
  filledQ := s.filledQ
  sess := s.sess
  pred := s.pred
  blk := s.blk
  images := (List.range s.cfg.n).map s.image

/-- An infinite run. -/
def Run (r : Nat → State) : Prop := ∀ k, step (r k) = .next (r (k + 1))

/-- Port `q` takes the next step. -/
def takesStep (q : Port) (s : State) : Prop :=
  (s.port q).status.busy = true ∧
    (s.inputs.head? = some (.grant q) ∨
      s.inputs = [] ∧
        ((s.portP.status.busy && s.portC.status.busy) = true → Config.freeArbiter s.draws = decide (q = .p)))

/-- Weak fairness of the arbiter: a port with a ready step eventually takes it (47_pool.md R351, log 18). -/
def ArbiterFair (r : Nat → State) : Prop :=
  ∀ q k, (∀ j, k ≤ j → ((r j).port q).status.busy = true) → ∃ j, k ≤ j ∧ takesStep q (r j)

/-- A wait with a finite timeout ends (47_pool.md R344, log 18). -/
def WaitFair (r : Nat → State) : Prop :=
  ∀ k, (r k).waitActive = true → opTimeout ((r k).args .c) ≠ waitForever → ∃ j, k ≤ j ∧ (r j).waitActive = false

end Sys2Proof.Machine
end

