-- ==== Sys2Proof/Certificates/Slice0/Obligations.lean ====
section
/-! DEFINITION. The statements for the provers: the numbered rules of spec/ over the model's own names. `complete` is
the completion of 30_encoding.md R125 (`CompletionWritesStatusAndResults`); a record update names every field that
changes, so an equation of states is also the frame. -/

section

open Sys2Proof Sys2Proof.Machine

/-! ## Encoding -/

/-- A word decodes to a command exactly on that command's port and exactly when it is that command's encoding. -/
def Obligations.DecodeInvertsEncode : Prop :=
  ∀ (q : Port) (w : Word) (i : Instr), decode q w = .cmd i ↔ q = i.port ∧ w = encode i

/-- 30_encoding.md R131, in its own terms: which words a port takes as commands, so that every other word is illegal,
and that the command is the one of the opcode field. -/
def Obligations.DecodeAcceptsTheListedWords : Prop :=
  ∀ (q : Port) (w : Word),
    ((∃ i, decode q w = .cmd i) ↔
      w.extractLsb' 8 24 = 0 ∧
        ((q = .p ∧ ((w.extractLsb' 0 8).toNat ∈ [0x01, 0x02, 0x03] ∨
            0x10 ≤ (w.extractLsb' 0 8).toNat ∧ (w.extractLsb' 0 8).toNat ≤ 0x1F)) ∨
          (q = .c ∧ (w.extractLsb' 0 8).toNat ∈ [0x21, 0x22]))) ∧
      ∀ i, decode q w = .cmd i → opcode i = w.extractLsb' 0 8

/-- Words written out from 30_encoding.md R123, one of each family, and three illegal ones. -/
def Obligations.SampleWordsDecode : Prop :=
  decode .p 0x00000001 = .cmd .acqfill ∧ decode .p 0x00000003 = .cmd .encode ∧
    decode .p 0x00000011 = .cmd .emitHeaders ∧ decode .p 0x00000013 = .cmd .extractCb ∧
    decode .p 0x00000015 = .cmd .fdct ∧ decode .p 0x00000017 = .cmd .quantC ∧
    decode .p 0x0000001A = .cmd .entropyCr ∧ decode .p 0x0000001B = .cmd .writeBits ∧
    decode .p 0x0000001F = .cmd .blkWrite ∧ decode .c 0x00000022 = .cmd .release ∧
    decode .c 0x00000003 = .illegal .otherPortOpcode ∧ decode .p 0x00000103 = .illegal .reservedBitsSet ∧
    decode .p 0x00000020 = .illegal .unassignedOpcode

/-! ## A step, an issue, a completion -/

/-- A busy port whose latch decodes to a command takes exactly that command's step: when the step is granted to it,
when the other port is idle, and when the arbiter picks it. -/
def Obligations.StepRunsTheDecodedCommand : Prop :=
  ∀ (s : State) (q : Port) (i : Instr), (s.port q).status.busy = true →
    decode q (s.port q).latchWord = .cmd i →
      (∀ rest, s.inputs = .grant q :: rest → step s = exec i { s with inputs := rest }) ∧
      (s.inputs = [] → (∀ q', q' ≠ q → (s.port q').status.busy = false) → step s = exec i s) ∧
      (s.inputs = [] → (∀ q', (s.port q').status.busy = true) → Config.freeArbiter s.draws = decide (q = .p) →
        step s = exec i { s with draws := s.draws + 1 })

/-- 30_encoding.md R127: an illegal word sets ERR.ILLEGAL_CMD, completes IllegalCommand with zero results and changes
nothing else. -/
def Obligations.IllegalWordIsRefused : Prop :=
  ∀ (s : State) (q : Port) (why : IllegalWord) (rest : List Input), (s.port q).status.busy = true →
    decode q (s.port q).latchWord = .illegal why → s.inputs = .grant q :: rest →
      step s = .next (State.setPort { s with inputs := rest, err := { s.err with illegalCmd := true } } q
        { s.port q with
          res := #v[0, 0, 0]
          status := ⟨false, true, .illegalCommand, (s.port q).latchWord.extractLsb' 0 8⟩ })

/-- The word placed for the next step runs as an accepted issue of the command on its port, with the arguments that
stand there. How a program is placed is the model's choice (log 1). -/
def Obligations.PlacedWordRuns : Prop :=
  ∀ (s : State) (i : Instr), step (s.withFetchWord 32 (encode i).toNat) =
    exec i { issue i.port (encode i) { s with inputs := .grant i.port :: s.inputs } with
      inputs := s.inputs
      waitActive := if i.port = .c then false else s.waitActive }

/-- 30_encoding.md R125: a completion writes RES0 to RES2, CODE, LAST_OP, BUSY and DONE of its port, and nothing else;
raising a status is completing with it and zero results. -/
def Obligations.CompletionWritesStatusAndResults : Prop :=
  ∀ (s : State) (q : Port) (code : StatusCode) (r0 r1 r2 : Word),
    complete q code r0 r1 r2 s =
        s.setPort q
          { s.port q with
            res := #v[r0, r1, r2]
            status := ⟨false, true, code, (s.port q).latchWord.extractLsb' 0 8⟩ } ∧
      raiseStatus q code s = complete q code 0 0 0 s ∧
      (∀ r, (s.setPort q r).port q = r ∧ (∀ q', q' ≠ q → (s.setPort q r).port q' = s.port q') ∧
        { s.setPort q r with portP := s.portP, portC := s.portC } = s)

/-- 30_encoding.md R120, 10_state.md R36: a CMD write to an idle port latches the word and the arguments, sets BUSY,
clears DONE and keeps CODE, LAST_OP and the results. On port P an ENCODE's sequencer is at Validate, and the borrow
window opens (20_memory.md R92, 70_reset_and_hazards.md R430): the frame counts as changed exactly when the word is a
command that borrows it and a change of one of its bytes is to come, before any reset, while the command, run on the
frame as it stands, is in flight after each step that port P was granted by then. (That what is to come stands in the
inputs is the model's choice, log 5.) -/
def Obligations.AcceptedIssueLatchesTheCommand : Prop :=
  ∀ (s : State) (w : Word),
    (s.portP.status.busy = false →
      ∀ u, u =
        { s with
          portP := { s.portP with
            cmd := w
            latchWord := w
            latchArg := s.portP.arg
            status := ⟨true, false, s.portP.status.code, s.portP.status.lastOp⟩ }
          frameChanged := false
          seq := if decode .p w = .cmd .encode then some .validate else s.seq } →
        ∃ b, regWrite .w32 0x000 w s = { u with frameChanged := b } ∧
          (b = true ↔ ∃ i, i ∈ [Instr.extractY, .extractCb, .extractCr, .encode] ∧ decode .p w = .cmd i ∧
            ∃ before a v after, s.inputs = before ++ .frameWrite a v :: after ∧
              s.portP.arg[0].toNat ≤ a.toNat ∧ a.toNat < s.portP.arg[0].toNat + s.portP.arg[1].toNat ∧
              s.frame.read a.toNat ≠ some v ∧ (∀ k, .reset k ∉ before) ∧
              ∀ j, j ≤ before.count (.grant .p) → ∃ t, execTimes i j u = .next t ∧ t.portP.status.busy = true)) ∧
    (s.portC.status.busy = false →
      regWrite .w32 0x040 w s =
        { s with
          portC := { s.portC with
            cmd := w
            latchWord := w
            latchArg := s.portC.arg
            status := ⟨true, false, s.portC.status.code, s.portC.status.lastOp⟩ } })

/-- 30_encoding.md R126. -/
def Obligations.CmdWriteToABusyPortIsRefused : Prop :=
  ∀ (s : State) (w : Word),
    (s.portP.status.busy = true →
      regWrite .w32 0x000 w s =
        { s with portP := { s.portP with cmd := w }, err := { s.err with cmdWhileBusy := true } }) ∧
    (s.portC.status.busy = true →
      regWrite .w32 0x040 w s =
        { s with portC := { s.portC with cmd := w }, err := { s.err with cmdWhileBusy := true } })

/-- 20_memory.md R97. -/
def Obligations.BadAccessIsNotPerformed : Prop :=
  ∀ (s : State) (width : AccessWidth) (off : BitVec 12) (w : Word), (width ≠ .w32 ∨ off.toNat % 4 ≠ 0) →
    regWrite width off w s = { s with err := { s.err with badAccess := true } } ∧
      regRead width off s = { s with err := { s.err with badAccess := true }, readData := 0 }

/-- 10_state.md R32, 20_memory.md R99, R100: an ARG write replaces that register; a write to any other offset that is
not a CMD is ignored; a read changes nothing but what it returned. -/
def Obligations.WritesReachOnlyCmdAndArg : Prop :=
  ∀ (s : State) (w : Word),
    (∀ k : Fin 5, regWrite .w32 (BitVec.ofNat 12 (0x004 + 4 * k)) w s =
      { s with portP := { s.portP with arg := s.portP.arg.set k w } }) ∧
    (∀ k : Fin 5, regWrite .w32 (BitVec.ofNat 12 (0x044 + 4 * k)) w s =
      { s with portC := { s.portC with arg := s.portC.arg.set k w } }) ∧
    (∀ off : BitVec 12, off.toNat % 4 = 0 → 0x014 < off.toNat → (off.toNat < 0x040 ∨ 0x054 < off.toNat) →
      regWrite .w32 off w s = s) ∧
    (∀ off : BitVec 12, off.toNat % 4 = 0 → ∃ v, regRead .w32 off s = { s with readData := v })

/-- 10_state.md R31, R32, R35, R38, R39, R43, 20_memory.md R100: what every register reads as, bit field by bit field,
and that reserved offsets read 0. -/
def Obligations.RegistersReadByFields : Prop :=
  ∀ (s : State),
    (∀ q : Port, ∀ v, v = (regRead .w32 (BitVec.ofNat 12 (portBase q + 0x18)) s).readData →
      v.getLsbD 0 = (s.port q).status.busy ∧ v.getLsbD 1 = (s.port q).status.done ∧ v.extractLsb' 2 6 = 0 ∧
        v.extractLsb' 8 8 = (s.port q).status.code.number ∧ v.extractLsb' 16 8 = (s.port q).status.lastOp ∧
        v.extractLsb' 24 8 = 0) ∧
    (∀ q : Port, (regRead .w32 (BitVec.ofNat 12 (portBase q)) s).readData = (s.port q).cmd) ∧
    (∀ (q : Port) (k : Fin 5),
      (regRead .w32 (BitVec.ofNat 12 (portBase q + 0x04 + 4 * k)) s).readData = (s.port q).arg[k]) ∧
    (∀ (q : Port) (k : Fin 3),
      (regRead .w32 (BitVec.ofNat 12 (portBase q + 0x1C + 4 * k)) s).readData = (s.port q).res[k]) ∧
    (∀ v, v = (regRead .w32 0x08C s).readData →
      v.getLsbD 0 = s.err.protocol ∧ v.getLsbD 1 = s.err.doubleRelease ∧ v.getLsbD 2 = s.err.foreignBuffer ∧
        v.getLsbD 3 = s.err.ownership ∧ v.getLsbD 4 = s.err.cmdWhileBusy ∧ v.getLsbD 5 = s.err.illegalCmd ∧
        v.getLsbD 6 = s.err.badAccess ∧ v.extractLsb' 7 25 = 0) ∧
    (regRead .w32 0x080 s).readData = BitVec.ofNat 32 s.cfg.n ∧
    (regRead .w32 0x084 s).readData = BitVec.ofNat 32 s.cfg.cap ∧
    (regRead .w32 0x088 s).readData = BitVec.ofNat 32 s.cfg.poolBase ∧
    (regRead .w32 0x090 s).readData = BitVec.ofNat 32 s.freeQ.length ∧
    (regRead .w32 0x094 s).readData = BitVec.ofNat 32 s.filledQ.length ∧
    (s.sess.isOpen = false → (regRead .w32 0x098 s).readData = 0) ∧
    (s.sess.isOpen = true → ∀ v, v = (regRead .w32 0x098 s).readData →
      v.getLsbD 0 = true ∧ v.extractLsb' 1 7 = 0 ∧ v.extractLsb' 8 6 = BitVec.ofNat 6 s.sess.slot ∧
        v.extractLsb' 14 2 = 0 ∧ v.extractLsb' 16 3 = BitVec.ofNat 3 s.sess.acc.length ∧ v.extractLsb' 19 13 = 0) ∧
    (∀ i, i < 64 → i < s.cfg.n →
      ∀ v, v = (regRead .w32 (BitVec.ofNat 12 (0x100 + 4 * i)) s).readData →
      v.extractLsb' 0 2 = (s.slot i).state.number ∧ v.extractLsb' 2 2 = (s.slot i).loc.number ∧
        v.extractLsb' 4 28 = 0 ∧
        (regRead .w32 (BitVec.ofNat 12 (0x200 + 4 * i)) s).readData = BitVec.ofNat 32 (s.slot i).size) ∧
    (∀ i, i < 64 → s.cfg.n ≤ i →
      (regRead .w32 (BitVec.ofNat 12 (0x100 + 4 * i)) s).readData = 0 ∧
        (regRead .w32 (BitVec.ofNat 12 (0x200 + 4 * i)) s).readData = 0) ∧
    (∀ off : BitVec 12, off.toNat % 4 = 0 →
      (0x028 ≤ off.toNat ∧ off.toNat < 0x040 ∨ 0x068 ≤ off.toNat ∧ off.toNat < 0x080 ∨
        0x09C ≤ off.toNat ∧ off.toNat < 0x100 ∨ 0x300 ≤ off.toNat) →
      (regRead .w32 off s).readData = 0)

/-- 10_state.md R32: an ARG write does not change what a running command does; the two commute. -/
def Obligations.ArgWritesDoNotReachARunningCommand : Prop :=
  ∀ (i : Instr) (s : State) (q : Port) (k : Fin 5) (w : Word),
    exec i (writeArg q k w s) = Outcome.mapNext (writeArg q k w) (exec i s)

/-! ## The pool commands -/

/-- 47_pool.md R341: ACQFILL takes the head of FreeQueue, else the head of FilledQueue, else NotAvailable. -/
def Obligations.AcqfillTakesTheOldestFreeOrSteals : Prop :=
  ∀ (s : State),
    (∀ i rest, s.freeQ = i :: rest →
      exec .acqfill s = .next (complete .p .ok (BitVec.ofNat 32 i) (BitVec.ofNat 32 (s.cfg.poolBase + i * s.cfg.cap)) 0
        { s with freeQ := rest, slots := s.slots.modify i fun x => { x with loc := .producerHeld } })) ∧
    (∀ i rest, s.freeQ = [] → s.filledQ = i :: rest →
      exec .acqfill s = .next (complete .p .ok (BitVec.ofNat 32 i) (BitVec.ofNat 32 (s.cfg.poolBase + i * s.cfg.cap)) 0
        { s with filledQ := rest, slots := s.slots.modify i fun x => { x with loc := .producerHeld } })) ∧
    (s.freeQ = [] → s.filledQ = [] → exec .acqfill s = .next (complete .p .notAvailable 0 0 0 s))

/-- 47_pool.md R342: PUBLISH queues a slot the producer holds and no open session writes, and refuses every other
index. -/
def Obligations.PublishQueuesAHeldSlot : Prop :=
  ∀ (s : State) (i : Nat), i = (s.args .p)[0].toNat →
    (s.cfg.n ≤ i → exec .publish s = .next (complete .p .invalidArgument 0 0 0 s)) ∧
    (i < s.cfg.n → ((s.slot i).loc ≠ .producerHeld ∨ s.sess.isOpen = true ∧ s.sess.slot = i) →
      exec .publish s =
        .next (complete .p .invalidState 0 0 0 { s with err := { s.err with protocol := true } })) ∧
    (i < s.cfg.n → (s.slot i).loc = .producerHeld → ¬(s.sess.isOpen = true ∧ s.sess.slot = i) →
      exec .publish s = .next (complete .p .ok (BitVec.ofNat 32 i) (BitVec.ofNat 32 (s.slot i).size) 0
        { s with
          filledQ := s.filledQ ++ [i]
          slots := s.slots.modify i fun x => { x with state := .filled, loc := .inFilledQueue } }))

/-- 47_pool.md R343, R344, R352: with FilledQueue not empty, the first evaluation of ACQREAD and every wait step check
out its head where it is Filled; any other head (never CheckedOut in a state with the ownership invariant) is refused and
lost. That a Free head is refused too, and that a lost index leaves a second place it stood in, are the model's choice
(logs 25, 26). -/
def Obligations.AcqreadChecksOutTheOldestFilled : Prop :=
  ∀ (s : State) (i : Nat) (rest : List Nat), s.filledQ = i :: rest →
    (PoolInv s → (s.slot i).state = .filled) ∧
    ((s.slot i).state = .filled →
      exec .acqread s =
        .next (complete .c .ok (BitVec.ofNat 32 (s.cfg.poolBase + i * s.cfg.cap)) (BitVec.ofNat 32 (s.slot i).size)
          (BitVec.ofNat 32 i)
          { s with
            filledQ := rest
            waitActive := false
            slots := s.slots.modify i fun x => { x with state := .checkedOut, loc := .consumerHeld } })) ∧
    ((s.slot i).state ≠ .filled →
      ∃ t, exec .acqread s = .next (complete .c .invalidState 0 0 0 t) ∧ lost t i ∧
        t = { s with
          freeQ := s.freeQ.filter (· ≠ i)
          filledQ := rest.filter (· ≠ i)
          waitActive := false
          err := { s.err with protocol := true }
          slots := s.slots.modify i fun x => { x with loc := .inFilledQueue } })

/-- 47_pool.md R343, R344: with FilledQueue empty, ACQREAD polls, starts a wait, waits forever, or waits until the
timeout, whose firing step is open, fires. -/
def Obligations.AcqreadPollsOrWaits : Prop :=
  ∀ (s : State), s.filledQ = [] →
    (s.waitActive = false → (s.args .c)[0] = 0 → exec .acqread s = .next (complete .c .timeout 0 0 0 s)) ∧
    (s.waitActive = false → (s.args .c)[0] ≠ 0 → exec .acqread s = .next { s with waitActive := true }) ∧
    (s.waitActive = true → (s.args .c)[0] = 0xFFFFFFFF → exec .acqread s = .next s) ∧
    (s.waitActive = true → (s.args .c)[0] ≠ 0xFFFFFFFF →
      exec .acqread s = .next
        (if Config.freeTimeout s.draws then
          complete .c .timeout 0 0 0 { s with waitActive := false, draws := s.draws + 1 }
        else { s with draws := s.draws + 1 }))

/-- 47_pool.md R345, R347: RELEASE of a checked-out slot's start address frees it; of another slot's start address it
is a double release; of any other address it is foreign. A lost index (47_pool.md R352) is not freed; how its RELEASE is
refused is the model's choice (log 25). -/
def Obligations.ReleaseFreesACheckedOutSlot : Prop :=
  ∀ (s : State), s.cfg.legal = true →
    (∀ i, i < s.cfg.n → (s.args .c)[0].toNat = s.cfg.poolBase + i * s.cfg.cap →
      ((s.slot i).state = .checkedOut → ¬lost s i →
        exec .release s = .next (complete .c .ok (BitVec.ofNat 32 i) 0 0
          { s with
            freeQ := s.freeQ ++ [i]
            slots := s.slots.modify i fun x => { x with state := .free, loc := .inFreeQueue } })) ∧
      (((s.slot i).state ≠ .checkedOut ∨ lost s i) →
        exec .release s =
          .next (complete .c .invalidState 0 0 0 { s with err := { s.err with doubleRelease := true } }))) ∧
    ((∀ i, i < s.cfg.n → (s.args .c)[0].toNat ≠ s.cfg.poolBase + i * s.cfg.cap) →
      exec .release s =
        .next (complete .c .invalidArgument 0 0 0 { s with err := { s.err with foreignBuffer := true } }))

/-- 47_pool.md R350, 10_state.md R53: a consumer read below the size of a slot it holds returns the byte that stands
there and never stops; any other read returns 0 and sets ERR.OWNERSHIP. -/
def Obligations.ConsumerReadsOnlyItsSlots : Prop :=
  ∀ (s : State) (a : Word),
    (ContentInv s → ∀ i o, i < s.cfg.n → (s.slot i).loc = .consumerHeld → o < (s.slot i).size →
      a.toNat = s.cfg.poolBase + i * s.cfg.cap + o →
        ∃ v, s.pool.read a.toNat = some v ∧
          applyInput (.poolRead .consumer a) s = .next { s with readData := v.setWidth 32 }) ∧
    (∀ who, (who = .producer ∨ ∀ i, i < s.cfg.n → (s.slot i).loc = .consumerHeld →
        a.toNat < s.cfg.poolBase + i * s.cfg.cap ∨ s.cfg.poolBase + i * s.cfg.cap + (s.slot i).size ≤ a.toNat) →
      applyInput (.poolRead who a) s = .next { s with err := { s.err with ownership := true }, readData := 0 })

/-- 47_pool.md R348: every step keeps the ownership invariant. -/
def Obligations.StepKeepsThePoolInvariant : Prop :=
  ∀ s t : State, PoolInv s → step s = .next t → PoolInv t

/-- The invariants hold at reset. -/
def Obligations.InvariantsHoldAtReset : Prop :=
  ContentInv State.reset ∧ WaitInv State.reset ∧ State.reset.pool.wf ∧ State.reset.frame.wf ∧
    State.reset.sess.acc.length ≤ 7 ∧
    (∀ q : Port, ¬((State.reset.port q).status.busy = true ∧ (State.reset.port q).status.done = true))

/-- 70_reset_and_hazards.md R420 to R422: a reset at any step, whatever the core was doing, gives the state of R51 for
the legal parameters it samples, and that state is quiescent. -/
def Obligations.ResetGivesTheQuiescentResetState : Prop :=
  ∀ (s : State) (k : Config) (rest : List Input), s.inputs = .reset k :: rest → k.legal = true →
    step s = .next { State.resetWith k with
      frame := s.frame, inputs := rest, readData := s.readData, draws := s.draws } ∧
    (∀ t, ResetState k t → Quiescent k t ∧ ContentInv t)

/-- 47_pool.md R346: every change of a slot's state or location by a step is one of the listed transitions, and a size
changes only while the producer holds the slot. R352: a lost index stays lost, and its slot where it is, until a reset. -/
def Obligations.SlotsMoveOnlyAsListed : Prop :=
  ∀ (s t : State) (i : Nat), step s = .next t → notReset s →
    (SessionInv s → i < s.cfg.n →
      (((s.slot i).state, (s.slot i).loc) = ((t.slot i).state, (t.slot i).loc) ∨
        (((s.slot i).state, (s.slot i).loc), ((t.slot i).state, (t.slot i).loc)) ∈ slotMoves) ∧
      ((t.slot i).size ≠ (s.slot i).size → (s.slot i).loc = .producerHeld)) ∧
    (lost s i → lost t i ∧ (t.slot i).state = (s.slot i).state ∧ (t.slot i).loc = (s.slot i).loc)

/-- 47_pool.md R349, R353: every index is queued once or held, so the counts add up to N and no queue overflows;
and ACQFILL succeeds exactly when fewer than N slots are held. -/
def Obligations.QueuesAndHeldSlotsAddUpToN : Prop :=
  ∀ s : State, PoolInv s →
    s.freeQ.length + s.filledQ.length + slotsAt s .producerHeld + slotsAt s .consumerHeld = s.cfg.n ∧
      (∀ i, s.freeQ.count i ≤ 1 ∧ s.filledQ.count i ≤ 1) ∧
      ((∃ t, exec .acqfill s = .next t ∧ t.portP.status.code = .ok) ↔
        slotsAt s .producerHeld + slotsAt s .consumerHeld < s.cfg.n)

/-! ## The session and the bit stream -/

/-- 44_bitstream.md R256: SESSION_BEGIN on a slot the producer holds aborts an open session, then opens one with size,
pending bits and predictors 0; on any other slot it is refused. -/
def Obligations.SessionBeginOpensASession : Prop :=
  ∀ (s : State) (k : Nat), k = (s.args .p)[0].toNat →
    (s.cfg.n ≤ k → exec .sessionBegin s = .next (complete .p .invalidArgument 0 0 0 s)) ∧
    (k < s.cfg.n → (s.slot k).loc ≠ .producerHeld →
      exec .sessionBegin s =
        .next (complete .p .invalidState 0 0 0 { s with err := { s.err with protocol := true } })) ∧
    (k < s.cfg.n → (s.slot k).loc = .producerHeld →
      exec .sessionBegin s = .next (complete .p .ok (BitVec.ofNat 32 k) 0 0
        { s with
          sess := ⟨true, k, []⟩
          pred := ⟨0, 0, 0⟩
          slots := (if s.sess.isOpen then s.slots.modify s.sess.slot fun x => { x with size := 0 } else s.slots).modify
            k fun x => { x with size := 0 } }))

/-- 44_bitstream.md R250: the commands that need an open session raise InvalidState and set ERR.PROTOCOL without
one. -/
def Obligations.NoSessionIsRefused : Prop :=
  ∀ (s : State) (i : Instr),
    i ∈ [Instr.entropyY, .entropyCb, .entropyCr, .writeBits, .flushBits, .emitHeaders, .emitEoi] →
    s.sess.isOpen = false →
      exec i s = .next (complete .p .invalidState 0 0 0 { s with err := { s.err with protocol := true } })

/-- 44_bitstream.md R253, R257: WRITE_BITS appends the low `n` bits of `value`, bit `n-1` first, and every whole byte
leaves through the sink, stuffed; more than 16 bits are refused. -/
def Obligations.WriteBitsPacksItsBits : Prop :=
  ∀ (s : State) (n : Nat) (bits : List Bool) (out : List Byte), sessionReady s → n = (s.args .p)[1].toNat →
    bits = s.sess.acc ++ (List.range n).reverse.map (fun j => (s.args .p)[0].getLsbD j) →
    out = stuffed (wholeBytes bits) →
    (n ≤ 16 →
      emitsBytes (exec .writeBits s) s
        (complete .p .ok (BitVec.ofNat 32 (s.sessSize + out.length)) (BitVec.ofNat 32 (bits.length % 8)) 0
          (sessionAt s (s.sessSize + out.length) (restBits bits)))
        out) ∧
    (16 < n → exec .writeBits s = .next (complete .p .invalidArgument 0 0 0 s))

/-- 44_bitstream.md R255, R258: FLUSH_BITS pads the pending bits with 1-bits to one byte, which leaves stuffed; with
none pending it writes nothing. -/
def Obligations.FlushBitsPadsWithOnes : Prop :=
  ∀ (s : State), sessionReady s →
    (s.sess.acc = [] →
      exec .flushBits s = .next (complete .p .ok (BitVec.ofNat 32 s.sessSize) 0 0 s)) ∧
    (s.sess.acc ≠ [] → ∀ out, out = stuffed [byteOfBits (s.sess.acc ++ List.replicate (8 - s.sess.acc.length) true)] →
      emitsBytes (exec .flushBits s) s
        (complete .p .ok (BitVec.ofNat 32 (s.sessSize + out.length)) 0 0 (sessionAt s (s.sessSize + out.length) []))
        out)

/-- 45_container.md R290: EMIT_HEADERS stores the header for its declared dimensions, unstuffed, past the pending bits;
a dimension outside 1 to 65535 is refused. -/
def Obligations.EmitHeadersStoresTheHeader : Prop :=
  ∀ (s : State) (w h : Nat), sessionReady s → w = (s.args .p)[0].toNat → h = (s.args .p)[1].toNat →
    (1 ≤ w → w ≤ 65535 → 1 ≤ h → h ≤ 65535 →
      emitsBytes (exec .emitHeaders s) s
        (complete .p .ok (BitVec.ofNat 32 (s.sessSize + 607))
          (BitVec.ofNat 16 (h / 8 * 8) ++ BitVec.ofNat 16 (w / 8 * 8)) 0 (sessionAt s (s.sessSize + 607) s.sess.acc))
        (headerBytes s.cfg h w)) ∧
    ((w < 1 ∨ 65535 < w ∨ h < 1 ∨ 65535 < h) →
      exec .emitHeaders s = .next (complete .p .invalidArgument 0 0 0 s))

/-- 45_container.md R288, R289, R283, R284: the header is 607 bytes; only bytes 0x09F to 0x0A2 depend on the
dimensions, and they are the declared height and width, high byte first; bytes 0x019 and 0x05A on are the two
quantization tables in zig-zag order. -/
def Obligations.HeaderIs607Bytes : Prop :=
  ∀ (k : Config) (h w : Nat), h ≤ 65535 → w ≤ 65535 →
    (headerBytes k h w).length = 607 ∧
    (∀ (h' w' i : Nat), (i < 0x09F ∨ 0x0A2 < i) → (headerBytes k h w)[i]? = (headerBytes k h' w')[i]?) ∧
    ((headerBytes k h w)[0x09F]? = some (BitVec.ofNat 8 (h / 8 * 8 / 256)) ∧
      (headerBytes k h w)[0x0A0]? = some (BitVec.ofNat 8 (h / 8 * 8 % 256)) ∧
      (headerBytes k h w)[0x0A1]? = some (BitVec.ofNat 8 (w / 8 * 8 / 256)) ∧
      (headerBytes k h w)[0x0A2]? = some (BitVec.ofNat 8 (w / 8 * 8 % 256))) ∧
    (∀ (j z : Nat), zigzag[j]? = some z →
      (headerBytes k h w)[0x019 + j]? = (k.qtLuma[z]?).map (BitVec.ofNat 8) ∧
        (headerBytes k h w)[0x05A + j]? = (k.qtChroma[z]?).map (BitVec.ofNat 8))

/-- 45_container.md R291: EMIT_EOI stores FF D9 and closes the session, its pending bits lost. -/
def Obligations.EmitEoiClosesTheSession : Prop :=
  ∀ (s : State), sessionReady s →
    emitsBytes (exec .emitEoi s) s
      (complete .p .ok (BitVec.ofNat 32 (s.sessSize + 2)) 0 0
        { s with
          sess := ⟨false, s.sess.slot, []⟩
          slots := s.slots.modify s.sess.slot fun x => { x with size := s.sessSize + 2 } })
      [0xFF, 0xD9]

/-- 44_bitstream.md R259: every step keeps the session-slot law. -/
def Obligations.StepKeepsTheSessionSlotLaw : Prop :=
  ∀ s t : State, SessionInv s → step s = .next t → SessionInv t

/-- 44_bitstream.md R260, 10_state.md R53: every step keeps sizes within CAP and every byte below a size written. -/
def Obligations.StepKeepsSlotContents : Prop :=
  ∀ s t : State, ContentInv s → step s = .next t → ContentInv t

/-- Every step keeps both memories in their canonical form. -/
def Obligations.StepKeepsMemoryCanonical : Prop :=
  ∀ s t : State, s.pool.wf → s.frame.wf → step s = .next t → t.pool.wf ∧ t.frame.wf

/-- 10_state.md R36, R45, R47: every step keeps BUSY and DONE exclusive on a port, the pending bits at most 7, and a
wait inside an ACQREAD with a nonzero timeout. -/
def Obligations.StepKeepsPortLaws : Prop :=
  ∀ s t : State, step s = .next t →
    (∀ q : Port, ¬((s.port q).status.busy = true ∧ (s.port q).status.done = true) →
      ¬((t.port q).status.busy = true ∧ (t.port q).status.done = true)) ∧
    (s.sess.acc.length ≤ 7 → t.sess.acc.length ≤ 7) ∧
    (WaitInv s → WaitInv t)

/-- 20_memory.md R93, R102, R104: a step changes POOL bytes only inside the buffer of a slot the producer holds. -/
def Obligations.PoolBytesChangeOnlyInHeldSlots : Prop :=
  ∀ (s t : State) (a : Nat), SessionInv s → step s = .next t → notReset s → t.pool.read a ≠ s.pool.read a →
    ∃ i, producerHolds s i ∧ inBuffer s.cfg i a

/-- 60_exceptions.md R380, 70_reset_and_hazards.md R420, 20_memory.md R92: no step but a reset clears an ERR bit or
changes a parameter, and none but the frame source's writes changes FRAME. -/
def Obligations.OnlyResetClearsErrAndParameters : Prop :=
  ∀ s t : State, step s = .next t →
    (notReset s → (∀ b, s.err.has b = true → t.err.has b = true) ∧ t.cfg = s.cfg) ∧
    ((∀ a v, s.inputs.head? ≠ some (.frameWrite a v)) → t.frame = s.frame)

/-- 60_exceptions.md R394: port C's commands reach neither the block, the session, the predictors, the sequencer, POOL
nor port P; port P's commands do not reach port C's registers or its wait. -/
def Obligations.PortsAreIsolated : Prop :=
  ∀ (i : Instr) (s t : State), exec i s = .next t →
    (i.port = .c → t.blk = s.blk ∧ t.sess = s.sess ∧ t.pred = s.pred ∧ t.seq = s.seq ∧ t.pool = s.pool ∧
      t.frame = s.frame ∧ t.portP = s.portP ∧ t.cfg = s.cfg) ∧
    (i.port = .p → t.portC = s.portC ∧ t.waitActive = s.waitActive ∧ t.cfg = s.cfg)

/-- 46_encoder.md R314, R321: what a codec command does depends on nothing that port C's commands change but the slot
records: not on port C's registers, its wait, the queues, nor what a host last read. -/
def Obligations.CodecCommandsIgnoreTheQueues : Prop :=
  ∀ (i : Instr) (s : State) (c : PortRegs) (w : Bool) (fq flq : List Nat) (d : Word),
    i.port = .p → i ≠ .acqfill → i ≠ .publish →
      exec i { s with portC := c, waitActive := w, freeQ := fq, filledQ := flq, readData := d } =
        Outcome.mapNext
          (fun t => { t with portC := c, waitActive := w, freeQ := fq, filledQ := flq, readData := d }) (exec i s)

/-! ## Extraction and the block register -/

/-- 40_extract.md R151 to R153: EXTRACT_Y loads the centred luma bytes of the 8x8 block at its origin. -/
def Obligations.ExtractYLoadsTheLumaBlock : Prop :=
  ∀ (s : State) (a : Args) (r c loff : Nat), a = s.args .p → r = (a[4].extractLsb' 16 16).toNat →
    c = (a[4].extractLsb' 0 16).toNat → loff = (pixelLayout s.cfg.pixelOrder).1 → s.frameChanged = false →
    frameOperandsValid a → r + 8 ≤ opHeight a → c + 8 ≤ opWidth a →
    (∀ y x, y < 8 → x < 8 → (s.frame.read (pixelByte a (r + y) (c + x) loff)).isSome = true) →
      ∃ b, exec .extractY s = .next (complete .p .ok 0 0 0 { s with blk := b }) ∧
        ∀ y x v, y < 8 → x < 8 → s.frame.read (pixelByte a (r + y) (c + x) loff) = some v →
          blkAt b (8 * y + x) = (v.toNat : Int) - 128

/-- 40_extract.md R152, R154, R155: EXTRACT_CB and EXTRACT_CR load, for each pair of columns and pair of rows, the
centred average, rounded down, of the component's two chroma bytes. -/
def Obligations.ExtractChromaAveragesRowPairs : Prop :=
  ∀ (s : State) (a : Args) (r c coff : Nat), a = s.args .p → r = (a[4].extractLsb' 16 16).toNat →
    c = (a[4].extractLsb' 0 16).toNat → coff = 1 - (pixelLayout s.cfg.pixelOrder).1 → s.frameChanged = false →
    frameOperandsValid a → r + 16 ≤ opHeight a → c + 16 ≤ opWidth a →
    ∀ i par, (i = Instr.extractCb ∧ par = (pixelLayout s.cfg.pixelOrder).2 ∨
        i = Instr.extractCr ∧ par = 1 - (pixelLayout s.cfg.pixelOrder).2) →
      (∀ y x, y < 16 → x < 16 → (c + x) % 2 = par →
        (s.frame.read (pixelByte a (r + y) (c + x) coff)).isSome = true) →
      ∃ b, exec i s = .next (complete .p .ok 0 0 0 { s with blk := b }) ∧
        ∀ y x pc v v', y < 8 → x < 8 → (pc = c + 2 * x ∨ pc = c + 2 * x + 1) → pc % 2 = par →
          s.frame.read (pixelByte a (r + 2 * y) pc coff) = some v →
          s.frame.read (pixelByte a (r + 2 * y + 1) pc coff) = some v' →
            blkAt b (8 * y + x) = (((v.toNat + v'.toNat) / 2 : Nat) : Int) - 128

/-- 40_extract.md R150, R153 to R155: operands ValidFrame refuses give InvalidArgument, a region outside the frame
gives OutOfBounds, and neither changes BLK or sets an ERR bit. -/
def Obligations.ExtractRefusesBadFrames : Prop :=
  ∀ (s : State) (a : Args) (r c size : Nat) (i : Instr), a = s.args .p → r = (a[4].extractLsb' 16 16).toNat →
    c = (a[4].extractLsb' 0 16).toNat →
    (i = .extractY ∧ size = 8 ∨ i = .extractCb ∧ size = 16 ∨ i = .extractCr ∧ size = 16) →
    (¬frameOperandsValid a → exec i s = .next (complete .p .invalidArgument 0 0 0 s)) ∧
    (frameOperandsValid a → (opHeight a < r + size ∨ opWidth a < c + size) →
      exec i s = .next (complete .p .outOfBounds 0 0 0 s))

/-- 40_extract.md R158: after an EXTRACT that succeeds every element is in -128..127, also when the frame source changed
the frame inside the command's window and the bytes read are any values (20_memory.md R92); and on a frame given in full
(R151: every address is inside it) an EXTRACT inside the frame does succeed. -/
def Obligations.ExtractedSamplesAreInRange : Prop :=
  ∀ (s : State) (a : Args) (r c size : Nat) (i : Instr), a = s.args .p → r = (a[4].extractLsb' 16 16).toNat →
    c = (a[4].extractLsb' 0 16).toNat →
    (i = .extractY ∧ size = 8 ∨ i = .extractCb ∧ size = 16 ∨ i = .extractCr ∧ size = 16) →
    (∀ t, exec i s = .next t → t.portP.status.code = .ok → SampleRange t.blk) ∧
    (frameOperandsValid a → r + size ≤ opHeight a → c + size ≤ opWidth a → frameGiven s →
      ∃ b k, exec i s = .next (complete .p .ok 0 0 0 { s with blk := b, draws := s.draws + k }))

/-- 40_extract.md R156, R157: BLK_READ returns the sign-extended element, BLK_WRITE sets it to the low 16 bits of A1;
an index above 63 is refused. -/
def Obligations.BlkReadAndWriteOneElement : Prop :=
  ∀ (s : State),
    (∀ h : (s.args .p)[0].toNat < 64,
      exec .blkRead s = .next (complete .p .ok ((s.blk[(s.args .p)[0].toNat]'h).signExtend 32) 0 0 s) ∧
      exec .blkWrite s = .next (complete .p .ok 0 0 0
        { s with blk := s.blk.set (s.args .p)[0].toNat ((s.args .p)[1].extractLsb' 0 16) h })) ∧
    (64 ≤ (s.args .p)[0].toNat → ∀ i, i = Instr.blkRead ∨ i = Instr.blkWrite →
      exec i s = .next (complete .p .invalidArgument 0 0 0 s))

/-! ## Transform and quantizer -/

/-- 41_fdct.md R173, R174: FDCT replaces the block by the reference transform's double sum, divided by 2^24 with halves
away from zero and wrapped to 16 bits; with another transform, by that function of the block. -/
def Obligations.FdctComputesTheTransform : Prop :=
  ∀ (s : State),
    (s.cfg.fdctImpl = .reference →
      ∃ b, exec .fdct s = .next (complete .p .ok 0 0 0 { s with blk := b }) ∧
        ∀ (v u : Nat) (S : Int), v < 8 → u < 8 →
          S = ∑ y ∈ Finset.range 8, ∑ x ∈ Finset.range 8,
            (dctMatrix.getD v []).getD y 0 * (dctMatrix.getD u []).getD x 0 * blkAt s.blk (8 * y + x) →
          blkAt b (8 * v + u) = (BitVec.ofInt 16 (S.sign * ((|S| + 2 ^ 23) / 2 ^ 24))).toInt) ∧
    (∀ k, s.cfg.fdctImpl = .custom k →
      exec .fdct s = .next (complete .p .ok 0 0 0 { s with blk := Config.customFdct k s.blk }))

/-- 41_fdct.md R176: a uniform block transforms to its DC alone. -/
def Obligations.UniformBlockHasOnlyDc : Prop :=
  ∀ (s : State) (k : Int), s.cfg.fdctImpl = .reference → -128 ≤ k → k ≤ 127 →
    (∀ i, i < 64 → blkAt s.blk i = k) →
      ∃ t, exec .fdct s = .next t ∧ blkAt t.blk 0 = k.sign * ((64 * 1448 ^ 2 * |k| + 2 ^ 23) / 2 ^ 24) ∧
        ∀ i, 1 ≤ i → i < 64 → blkAt t.blk i = 0

/-- 41_fdct.md R175: the range of the reference transform on samples. -/
def Obligations.ReferenceTransformRange : Prop :=
  ∀ b : Block, SampleRange b →
    (-1024 ≤ blkAt (refFdct b) 0 ∧ blkAt (refFdct b) 0 ≤ 1016) ∧
      ∀ k, 1 ≤ k → k < 64 → |blkAt (refFdct b) k| ≤ 1020

/-- 41_fdct.md R170 requirement 3, R175: the reference transform is within 1 of the exact transform on samples. -/
def Obligations.ReferenceTransformConforms : Prop := FdctConforms refFdct

/-- 42_quantizer.md R190, R193 to R196: QUANT_Y and QUANT_C scale element k by entry k of their table, exactly. -/
def Obligations.QuantScalesEachElement : Prop :=
  ∀ (s : State) (i : Instr) (table : Vector Nat 64), s.cfg.legal = true →
    (i = .quantY ∧ table = s.cfg.qtLuma ∨ i = .quantC ∧ table = s.cfg.qtChroma) →
      ∃ b, exec i s = .next (complete .p .ok 0 0 0 { s with blk := b }) ∧
        ∀ (k q : Nat), table[k]? = some q →
          blkAt b k =
            (blkAt s.blk k * ((2048 / q + 1) / 2 : Nat) - (if blkAt s.blk k < 0 then 1 else 0) + 511) / 1024

/-- 42_quantizer.md R193, R197 to R199: the range of qscale, the zero law, the identity at q = 1, and the ranges of
the encoder path. -/
def Obligations.QuantizeLaws : Prop :=
  (∀ q, 1 ≤ q → q ≤ 255 → 4 ≤ qscale q ∧ qscale q ≤ 1024) ∧
    (∀ qs, quantize 0 qs = 0) ∧ (∀ c, quantize c (qscale 1) = c) ∧
    (∀ c qs, qs ≤ 1024 → |c| ≤ 1021 → |quantize c qs| ≤ 1021) ∧
    (∀ c qs, qs ≤ 1024 → -1025 ≤ c → c ≤ 1017 → -1025 ≤ quantize c qs ∧ quantize c qs ≤ 1017)

/-- 42_quantizer.md R198: for every table entry and every coefficient up to 2090 the result is within 1 of the
nearest integer to c/q, under either rounding of halves; at c = 2091, q = 89 it is not. -/
def Obligations.QuantizeIsWithinOneOfTheQuotient : Prop :=
  (∀ (c r : Int) (q : Nat), 1 ≤ q → q ≤ 255 → |c| ≤ 2090 → 2 * |c - r * q| ≤ q → |quantize c (qscale q) - r| ≤ 1) ∧
    quantize 2091 (qscale 89) = 25

/-! ## Entropy coding -/

/-- 43_entropy.md R215, R216, R223 to R225, R228: an ENTROPY command on a codable block sends the block's bits, packed
after the pending ones and stuffed, to the sink, sets its channel's predictor to the DC, and returns the number of bits,
the size and the predictor; without room the session aborts, the predictor already set. `scanBits` (Safety.lean) reads
the bits off the positions of the nonzero elements, not off the coder's loop. -/
def Obligations.EntropyPacksTheBlock : Prop :=
  ∀ (s u : State) (ch : Channel) (bits : List Bool) (out : List Byte), sessionReady s →
    |blkAt s.blk 0 - (s.pred.get ch).toInt| < 2 ^ 11 → (∀ k, 1 ≤ k → k < 64 → |blkAt s.blk k| < 2 ^ 10) →
    u = { s with pred := s.pred.put s.blk[0] ch } →
    bits = s.sess.acc ++ scanBits ch s.blk (s.pred.get ch) → out = stuffed (wholeBytes bits) →
      emitsBytes (exec (entropyOf ch) s) u
        (complete .p .ok (BitVec.ofNat 32 (scanBits ch s.blk (s.pred.get ch)).length)
          (BitVec.ofNat 32 (s.sessSize + out.length)) (s.blk[0].setWidth 32)
          (sessionAt u (s.sessSize + out.length) (restBits bits)))
        out

/-- 43_entropy.md R227: a block that is not codable is refused, and nothing changes. -/
def Obligations.EntropyRefusesUncodableBlocks : Prop :=
  ∀ (s : State) (ch : Channel), s.sess.isOpen = true →
    (2 ^ 11 ≤ |blkAt s.blk 0 - (s.pred.get ch).toInt| ∨ ∃ k, 1 ≤ k ∧ k < 64 ∧ 2 ^ 10 ≤ |blkAt s.blk k|) →
      exec (entropyOf ch) s = .next (complete .p .invalidArgument 0 0 0 s)

/-- 43_entropy.md R229: a block of a DC and 63 zeros codes as the DC code, its VLI and one EOB, `1010` in luma and `00`
in chroma; RES0 counts those bits. R216: one nonzero AC element at scan position `k` adds a ZRL for every 16 zeros
before it, the code of the rest of the run with its magnitude, and its VLI; EOB follows unless `k` is the last position.
These are the bits that the coder's calls of EmitBits carry. -/
def Obligations.UniformBlockCodesAsDcAndEob : Prop :=
  (∀ (s : State) (ch : Channel) (diff : Int) (m : Nat), sessionReady s → s.sessSize + 10 ≤ s.cfg.cap →
    diff = blkAt s.blk 0 - (s.pred.get ch).toInt → m = Nat.size diff.natAbs → m ≤ 11 →
    (∀ k, 1 ≤ k → k < 64 → blkAt s.blk k = 0) →
      itemsBits (blockItems ch s.blk (s.pred.get ch)) =
          bitsOf ((dcSpec ch).codeOf m).code ((dcSpec ch).codeOf m).len ++
            bitsOf (if 0 ≤ diff then diff.toNat else (diff + 2 ^ m - 1).toNat) m ++
            (if ch = .y then [true, false, true, false] else [false, false]) ∧
        ∃ t, exec (entropyOf ch) s = .next t ∧
          t.portP.res[0] = BitVec.ofNat 32 (((dcSpec ch).codeOf m).len + m + if ch = .y then 4 else 2)) ∧
  (∀ (ch : Channel) (b : Block) (p : Sample) (k z : Nat) (v diff : Int) (m : Nat), 1 ≤ k → zigzag[k]? = some z →
    v = blkAt b z → v ≠ 0 → (∀ i, 1 ≤ i → i < 64 → i ≠ z → blkAt b i = 0) →
    diff = blkAt b 0 - p.toInt → m = Nat.size v.natAbs →
      itemsBits (blockItems ch b p) =
        codeBits (dcSpec ch) (Nat.size diff.natAbs) ++ vliBits diff ++
          (List.replicate ((k - 1) / 16)
            (if ch = .y then [true, true, true, true, true, true, true, true, false, false, true]
              else [true, true, true, true, true, true, true, false, true, false])).flatten ++
          bitsOf ((acSpec ch).codeOf (16 * ((k - 1) % 16) + m)).code ((acSpec ch).codeOf (16 * ((k - 1) % 16) + m)).len ++
          bitsOf (if 0 ≤ v then v.toNat else (v + 2 ^ m - 1).toNat) m ++
          (if k = 63 then [] else if ch = .y then [true, false, true, false] else [false, false]))

/-- 43_entropy.md R230: an ENTROPY command that completes OK emitted at most 1660 bits. -/
def Obligations.EntropyBitBudget : Prop :=
  ∀ (s t : State) (ch : Channel), exec (entropyOf ch) s = .next t → t.portP.status.code = .ok →
    t.portP.res[0].toNat ≤ 1660

/-! ## ENCODE -/

/-- 46_encoder.md R311: Validate refuses bad operands with InvalidArgument, a slot the producer does not hold with
InvalidState and ERR.PROTOCOL, and otherwise moves the sequencer to Begin, changing nothing else. -/
def Obligations.EncodeValidatesFirst : Prop :=
  ∀ (s : State) (a : Args), a = s.args .p → (s.seq = none ∨ s.seq = some .validate ∨ s.seq = some .done) →
    ((¬frameOperandsValid a ∨ s.cfg.n ≤ a[4].toNat) →
      exec .encode s = .next (complete .p .invalidArgument 0 0 0 { s with seq := some .done })) ∧
    (frameOperandsValid a → a[4].toNat < s.cfg.n → (s.slot a[4].toNat).loc ≠ .producerHeld →
      exec .encode s = .next (complete .p .invalidState 0 0 0
        { s with seq := some .done, err := { s.err with protocol := true } })) ∧
    (frameOperandsValid a → a[4].toNat < s.cfg.n → (s.slot a[4].toNat).loc = .producerHeld →
      exec .encode s = .next { s with seq := some .beginSession })

/-- 46_encoder.md R315, R319, R320: each sub-step of ENCODE leaves the state that the unit command it names leaves,
port P's registers and the sequencer apart; it writes no STATUS or RES unless it ends the command: after Eoi, with the
slot's size and the declared dimensions, or with the status the unit command raised. (That a status other than
CapacityExceeded ends ENCODE too is the model's choice, log 13.) Where the unit command stops, so does ENCODE. -/
def Obligations.EncodeSubStepsAreUnitCommands : Prop :=
  ∀ (s : State) (pos : Seq) (i : Instr) (a : Args), EncodeAt s pos → encodeUnit (s.args .p) pos = some (i, a) →
    (∀ f, exec i (withUnit i a s) = .fault f → exec .encode s = .fault f) ∧
    (∀ u, exec i (withUnit i a s) = .next u →
      ∃ t, exec .encode s = .next t ∧ { t with portP := u.portP, seq := u.seq } = u ∧
        (u.portP.status.code = .ok → pos ≠ .eoi →
          t.portP = s.portP ∧
            t.seq = some (nextSeq (opHeight (s.args .p) / 16) (opWidth (s.args .p) / 16) pos)) ∧
        (u.portP.status.code = .ok → pos = .eoi →
          t.seq = some .done ∧
            t.portP = s.portP.completed .ok (BitVec.ofNat 32 (u.slot (opEncodeSlot (s.args .p))).size)
              (BitVec.ofNat 16 (opHeight (s.args .p) / 8 * 8) ++ BitVec.ofNat 16 (opWidth (s.args .p) / 8 * 8)) 0) ∧
        (u.portP.status.code ≠ .ok →
          t.seq = some .done ∧ t.portP = s.portP.completed u.portP.status.code 0 0 0))

/-- 46_encoder.md R312, R319, 70_reset_and_hazards.md R441: from Begin the sequencer goes through the listed positions,
4 + 24 * rows * cols of them, and from the last to Done. -/
def Obligations.EncodeFollowsTheListedOrder : Prop :=
  ∀ rows cols : Nat,
    (encodePositions rows cols).length = 4 + 24 * rows * cols ∧
      (∀ k p p', (encodePositions rows cols)[k]? = some p → (encodePositions rows cols)[k + 1]? = some p' →
        nextSeq rows cols p = p') ∧
      (∀ p, (encodePositions rows cols)[3 + 24 * rows * cols]? = some p → nextSeq rows cols p = .done)

/-- 70_reset_and_hazards.md R441, 46_encoder.md R315 to R317: an ENCODE past Validate, on a frame given in full and
with a transform within the bounds of 42_quantizer.md R199, completes within 4 + 24*MR*MC sub-steps, either OK, with an
image of RES0 bytes that begins FF D8 and ends FF D9, or CapacityExceeded, with size 0; never with another status. -/
def Obligations.EncodeTerminates : Prop :=
  ∀ (s : State) (k : Nat), SessionInv s → EncodeAt s .beginSession → frameGiven s →
    FdctRange (fdctOf s.cfg.fdctImpl) → k = opEncodeSlot (s.args .p) →
      ∃ n t, n ≤ 4 + 24 * (opHeight (s.args .p) / 16) * (opWidth (s.args .p) / 16) ∧
        execTimes .encode n s = .next t ∧ t.portP.status.busy = false ∧ t.portP.status.done = true ∧
        t.seq = some .done ∧ t.sess.isOpen = false ∧ (t.slot k).loc = .producerHeld ∧
        ((t.portP.status.code = .ok ∧ 609 ≤ (t.slot k).size ∧ (t.slot k).size ≤ s.cfg.cap ∧
            t.portP.res = #v[BitVec.ofNat 32 (t.slot k).size,
              BitVec.ofNat 16 (opHeight (s.args .p) / 8 * 8) ++ BitVec.ofNat 16 (opWidth (s.args .p) / 8 * 8), 0] ∧
            t.pool.holds (bufAddr s.cfg k) [0xFF, 0xD8] ∧
            t.pool.holds (bufAddr s.cfg k + (t.slot k).size - 2) [0xFF, 0xD9]) ∨
          (t.portP.status.code = .capacityExceeded ∧ (t.slot k).size = 0 ∧ t.portP.res = #v[0, 0, 0]))

/-- 46_encoder.md R316, R319: ENCODE's last sub-step, with room for two bytes, stores FF D9, closes the session and
completes OK with the image length and the declared dimensions. -/
def Obligations.EncodeCompletesAtEoi : Prop :=
  ∀ (s : State) (a : Args), a = s.args .p → EncodeAt s .eoi → s.sessSize + 2 ≤ s.cfg.cap →
    ∃ t, exec .encode s = .next t ∧
      storedIn t
        (complete .p .ok (BitVec.ofNat 32 (s.sessSize + 2))
          (BitVec.ofNat 16 (opHeight a / 8 * 8) ++ BitVec.ofNat 16 (opWidth a / 8 * 8)) 0
          { s with
            seq := some .done
            sess := ⟨false, s.sess.slot, []⟩
            slots := s.slots.modify s.sess.slot fun x => { x with size := s.sessSize + 2 } })
        (sinkAddr s) [0xFF, 0xD9]

end
end

