-- ==== Sys2Proof/Laws/State.lean ====
section
/-! SUPPORT. One lemma per field per update of State, each true by unfolding the update once; later proofs cite
these through simp and unfold no update. -/

namespace Sys2Proof.Machine

/-! ## State.setBlk -/

@[simp] theorem State.setBlk_cfg (s : State) (b : Block) : (s.setBlk b).cfg = s.cfg := rfl
@[simp] theorem State.setBlk_portP (s : State) (b : Block) : (s.setBlk b).portP = s.portP := rfl
@[simp] theorem State.setBlk_portC (s : State) (b : Block) : (s.setBlk b).portC = s.portC := rfl
@[simp] theorem State.setBlk_err (s : State) (b : Block) : (s.setBlk b).err = s.err := rfl
@[simp] theorem State.setBlk_blk (s : State) (b : Block) : (s.setBlk b).blk = b := rfl
@[simp] theorem State.setBlk_sess (s : State) (b : Block) : (s.setBlk b).sess = s.sess := rfl
@[simp] theorem State.setBlk_pred (s : State) (b : Block) : (s.setBlk b).pred = s.pred := rfl
@[simp] theorem State.setBlk_slots (s : State) (b : Block) : (s.setBlk b).slots = s.slots := rfl
@[simp] theorem State.setBlk_freeQ (s : State) (b : Block) : (s.setBlk b).freeQ = s.freeQ := rfl
@[simp] theorem State.setBlk_filledQ (s : State) (b : Block) : (s.setBlk b).filledQ = s.filledQ := rfl
@[simp] theorem State.setBlk_seq (s : State) (b : Block) : (s.setBlk b).seq = s.seq := rfl
@[simp] theorem State.setBlk_waitActive (s : State) (b : Block) : (s.setBlk b).waitActive = s.waitActive := rfl
@[simp] theorem State.setBlk_pool (s : State) (b : Block) : (s.setBlk b).pool = s.pool := rfl
@[simp] theorem State.setBlk_frame (s : State) (b : Block) : (s.setBlk b).frame = s.frame := rfl
@[simp] theorem State.setBlk_inputs (s : State) (b : Block) : (s.setBlk b).inputs = s.inputs := rfl
@[simp] theorem State.setBlk_readData (s : State) (b : Block) : (s.setBlk b).readData = s.readData := rfl
@[simp] theorem State.setBlk_frameChanged (s : State) (b : Block) : (s.setBlk b).frameChanged = s.frameChanged := rfl
@[simp] theorem State.setBlk_draws (s : State) (b : Block) : (s.setBlk b).draws = s.draws := rfl

/-! ## State.setSess -/

@[simp] theorem State.setSess_cfg (s : State) (x : Session) : (s.setSess x).cfg = s.cfg := rfl
@[simp] theorem State.setSess_portP (s : State) (x : Session) : (s.setSess x).portP = s.portP := rfl
@[simp] theorem State.setSess_portC (s : State) (x : Session) : (s.setSess x).portC = s.portC := rfl
@[simp] theorem State.setSess_err (s : State) (x : Session) : (s.setSess x).err = s.err := rfl
@[simp] theorem State.setSess_blk (s : State) (x : Session) : (s.setSess x).blk = s.blk := rfl
@[simp] theorem State.setSess_sess (s : State) (x : Session) : (s.setSess x).sess = x := rfl
@[simp] theorem State.setSess_pred (s : State) (x : Session) : (s.setSess x).pred = s.pred := rfl
@[simp] theorem State.setSess_slots (s : State) (x : Session) : (s.setSess x).slots = s.slots := rfl
@[simp] theorem State.setSess_freeQ (s : State) (x : Session) : (s.setSess x).freeQ = s.freeQ := rfl
@[simp] theorem State.setSess_filledQ (s : State) (x : Session) : (s.setSess x).filledQ = s.filledQ := rfl
@[simp] theorem State.setSess_seq (s : State) (x : Session) : (s.setSess x).seq = s.seq := rfl
@[simp] theorem State.setSess_waitActive (s : State) (x : Session) : (s.setSess x).waitActive = s.waitActive := rfl
@[simp] theorem State.setSess_pool (s : State) (x : Session) : (s.setSess x).pool = s.pool := rfl
@[simp] theorem State.setSess_frame (s : State) (x : Session) : (s.setSess x).frame = s.frame := rfl
@[simp] theorem State.setSess_inputs (s : State) (x : Session) : (s.setSess x).inputs = s.inputs := rfl
@[simp] theorem State.setSess_readData (s : State) (x : Session) : (s.setSess x).readData = s.readData := rfl
@[simp] theorem State.setSess_frameChanged (s : State) (x : Session) : (s.setSess x).frameChanged = s.frameChanged := rfl
@[simp] theorem State.setSess_draws (s : State) (x : Session) : (s.setSess x).draws = s.draws := rfl

/-! ## State.setAcc -/

@[simp] theorem State.setAcc_cfg (s : State) (l : List Bool) : (s.setAcc l).cfg = s.cfg := rfl
@[simp] theorem State.setAcc_portP (s : State) (l : List Bool) : (s.setAcc l).portP = s.portP := rfl
@[simp] theorem State.setAcc_portC (s : State) (l : List Bool) : (s.setAcc l).portC = s.portC := rfl
@[simp] theorem State.setAcc_err (s : State) (l : List Bool) : (s.setAcc l).err = s.err := rfl
@[simp] theorem State.setAcc_blk (s : State) (l : List Bool) : (s.setAcc l).blk = s.blk := rfl
@[simp] theorem State.setAcc_sess (s : State) (l : List Bool) : (s.setAcc l).sess = { s.sess with acc := l } := rfl
@[simp] theorem State.setAcc_pred (s : State) (l : List Bool) : (s.setAcc l).pred = s.pred := rfl
@[simp] theorem State.setAcc_slots (s : State) (l : List Bool) : (s.setAcc l).slots = s.slots := rfl
@[simp] theorem State.setAcc_freeQ (s : State) (l : List Bool) : (s.setAcc l).freeQ = s.freeQ := rfl
@[simp] theorem State.setAcc_filledQ (s : State) (l : List Bool) : (s.setAcc l).filledQ = s.filledQ := rfl
@[simp] theorem State.setAcc_seq (s : State) (l : List Bool) : (s.setAcc l).seq = s.seq := rfl
@[simp] theorem State.setAcc_waitActive (s : State) (l : List Bool) : (s.setAcc l).waitActive = s.waitActive := rfl
@[simp] theorem State.setAcc_pool (s : State) (l : List Bool) : (s.setAcc l).pool = s.pool := rfl
@[simp] theorem State.setAcc_frame (s : State) (l : List Bool) : (s.setAcc l).frame = s.frame := rfl
@[simp] theorem State.setAcc_inputs (s : State) (l : List Bool) : (s.setAcc l).inputs = s.inputs := rfl
@[simp] theorem State.setAcc_readData (s : State) (l : List Bool) : (s.setAcc l).readData = s.readData := rfl
@[simp] theorem State.setAcc_frameChanged (s : State) (l : List Bool) : (s.setAcc l).frameChanged = s.frameChanged := rfl
@[simp] theorem State.setAcc_draws (s : State) (l : List Bool) : (s.setAcc l).draws = s.draws := rfl

/-! ## State.setPreds -/

@[simp] theorem State.setPreds_cfg (s : State) (x : Preds) : (s.setPreds x).cfg = s.cfg := rfl
@[simp] theorem State.setPreds_portP (s : State) (x : Preds) : (s.setPreds x).portP = s.portP := rfl
@[simp] theorem State.setPreds_portC (s : State) (x : Preds) : (s.setPreds x).portC = s.portC := rfl
@[simp] theorem State.setPreds_err (s : State) (x : Preds) : (s.setPreds x).err = s.err := rfl
@[simp] theorem State.setPreds_blk (s : State) (x : Preds) : (s.setPreds x).blk = s.blk := rfl
@[simp] theorem State.setPreds_sess (s : State) (x : Preds) : (s.setPreds x).sess = s.sess := rfl
@[simp] theorem State.setPreds_pred (s : State) (x : Preds) : (s.setPreds x).pred = x := rfl
@[simp] theorem State.setPreds_slots (s : State) (x : Preds) : (s.setPreds x).slots = s.slots := rfl
@[simp] theorem State.setPreds_freeQ (s : State) (x : Preds) : (s.setPreds x).freeQ = s.freeQ := rfl
@[simp] theorem State.setPreds_filledQ (s : State) (x : Preds) : (s.setPreds x).filledQ = s.filledQ := rfl
@[simp] theorem State.setPreds_seq (s : State) (x : Preds) : (s.setPreds x).seq = s.seq := rfl
@[simp] theorem State.setPreds_waitActive (s : State) (x : Preds) : (s.setPreds x).waitActive = s.waitActive := rfl
@[simp] theorem State.setPreds_pool (s : State) (x : Preds) : (s.setPreds x).pool = s.pool := rfl
@[simp] theorem State.setPreds_frame (s : State) (x : Preds) : (s.setPreds x).frame = s.frame := rfl
@[simp] theorem State.setPreds_inputs (s : State) (x : Preds) : (s.setPreds x).inputs = s.inputs := rfl
@[simp] theorem State.setPreds_readData (s : State) (x : Preds) : (s.setPreds x).readData = s.readData := rfl
@[simp] theorem State.setPreds_frameChanged (s : State) (x : Preds) : (s.setPreds x).frameChanged = s.frameChanged := rfl
@[simp] theorem State.setPreds_draws (s : State) (x : Preds) : (s.setPreds x).draws = s.draws := rfl

/-! ## State.setFreeQ -/

@[simp] theorem State.setFreeQ_cfg (s : State) (l : List Nat) : (s.setFreeQ l).cfg = s.cfg := rfl
@[simp] theorem State.setFreeQ_portP (s : State) (l : List Nat) : (s.setFreeQ l).portP = s.portP := rfl
@[simp] theorem State.setFreeQ_portC (s : State) (l : List Nat) : (s.setFreeQ l).portC = s.portC := rfl
@[simp] theorem State.setFreeQ_err (s : State) (l : List Nat) : (s.setFreeQ l).err = s.err := rfl
@[simp] theorem State.setFreeQ_blk (s : State) (l : List Nat) : (s.setFreeQ l).blk = s.blk := rfl
@[simp] theorem State.setFreeQ_sess (s : State) (l : List Nat) : (s.setFreeQ l).sess = s.sess := rfl
@[simp] theorem State.setFreeQ_pred (s : State) (l : List Nat) : (s.setFreeQ l).pred = s.pred := rfl
@[simp] theorem State.setFreeQ_slots (s : State) (l : List Nat) : (s.setFreeQ l).slots = s.slots := rfl
@[simp] theorem State.setFreeQ_freeQ (s : State) (l : List Nat) : (s.setFreeQ l).freeQ = l := rfl
@[simp] theorem State.setFreeQ_filledQ (s : State) (l : List Nat) : (s.setFreeQ l).filledQ = s.filledQ := rfl
@[simp] theorem State.setFreeQ_seq (s : State) (l : List Nat) : (s.setFreeQ l).seq = s.seq := rfl
@[simp] theorem State.setFreeQ_waitActive (s : State) (l : List Nat) : (s.setFreeQ l).waitActive = s.waitActive := rfl
@[simp] theorem State.setFreeQ_pool (s : State) (l : List Nat) : (s.setFreeQ l).pool = s.pool := rfl
@[simp] theorem State.setFreeQ_frame (s : State) (l : List Nat) : (s.setFreeQ l).frame = s.frame := rfl
@[simp] theorem State.setFreeQ_inputs (s : State) (l : List Nat) : (s.setFreeQ l).inputs = s.inputs := rfl
@[simp] theorem State.setFreeQ_readData (s : State) (l : List Nat) : (s.setFreeQ l).readData = s.readData := rfl
@[simp] theorem State.setFreeQ_frameChanged (s : State) (l : List Nat) : (s.setFreeQ l).frameChanged = s.frameChanged := rfl
@[simp] theorem State.setFreeQ_draws (s : State) (l : List Nat) : (s.setFreeQ l).draws = s.draws := rfl

/-! ## State.setFilledQ -/

@[simp] theorem State.setFilledQ_cfg (s : State) (l : List Nat) : (s.setFilledQ l).cfg = s.cfg := rfl
@[simp] theorem State.setFilledQ_portP (s : State) (l : List Nat) : (s.setFilledQ l).portP = s.portP := rfl
@[simp] theorem State.setFilledQ_portC (s : State) (l : List Nat) : (s.setFilledQ l).portC = s.portC := rfl
@[simp] theorem State.setFilledQ_err (s : State) (l : List Nat) : (s.setFilledQ l).err = s.err := rfl
@[simp] theorem State.setFilledQ_blk (s : State) (l : List Nat) : (s.setFilledQ l).blk = s.blk := rfl
@[simp] theorem State.setFilledQ_sess (s : State) (l : List Nat) : (s.setFilledQ l).sess = s.sess := rfl
@[simp] theorem State.setFilledQ_pred (s : State) (l : List Nat) : (s.setFilledQ l).pred = s.pred := rfl
@[simp] theorem State.setFilledQ_slots (s : State) (l : List Nat) : (s.setFilledQ l).slots = s.slots := rfl
@[simp] theorem State.setFilledQ_freeQ (s : State) (l : List Nat) : (s.setFilledQ l).freeQ = s.freeQ := rfl
@[simp] theorem State.setFilledQ_filledQ (s : State) (l : List Nat) : (s.setFilledQ l).filledQ = l := rfl
@[simp] theorem State.setFilledQ_seq (s : State) (l : List Nat) : (s.setFilledQ l).seq = s.seq := rfl
@[simp] theorem State.setFilledQ_waitActive (s : State) (l : List Nat) : (s.setFilledQ l).waitActive = s.waitActive := rfl
@[simp] theorem State.setFilledQ_pool (s : State) (l : List Nat) : (s.setFilledQ l).pool = s.pool := rfl
@[simp] theorem State.setFilledQ_frame (s : State) (l : List Nat) : (s.setFilledQ l).frame = s.frame := rfl
@[simp] theorem State.setFilledQ_inputs (s : State) (l : List Nat) : (s.setFilledQ l).inputs = s.inputs := rfl
@[simp] theorem State.setFilledQ_readData (s : State) (l : List Nat) : (s.setFilledQ l).readData = s.readData := rfl
@[simp] theorem State.setFilledQ_frameChanged (s : State) (l : List Nat) : (s.setFilledQ l).frameChanged = s.frameChanged := rfl
@[simp] theorem State.setFilledQ_draws (s : State) (l : List Nat) : (s.setFilledQ l).draws = s.draws := rfl

/-! ## State.setSeq -/

@[simp] theorem State.setSeq_cfg (s : State) (x : Option Seq) : (s.setSeq x).cfg = s.cfg := rfl
@[simp] theorem State.setSeq_portP (s : State) (x : Option Seq) : (s.setSeq x).portP = s.portP := rfl
@[simp] theorem State.setSeq_portC (s : State) (x : Option Seq) : (s.setSeq x).portC = s.portC := rfl
@[simp] theorem State.setSeq_err (s : State) (x : Option Seq) : (s.setSeq x).err = s.err := rfl
@[simp] theorem State.setSeq_blk (s : State) (x : Option Seq) : (s.setSeq x).blk = s.blk := rfl
@[simp] theorem State.setSeq_sess (s : State) (x : Option Seq) : (s.setSeq x).sess = s.sess := rfl
@[simp] theorem State.setSeq_pred (s : State) (x : Option Seq) : (s.setSeq x).pred = s.pred := rfl
@[simp] theorem State.setSeq_slots (s : State) (x : Option Seq) : (s.setSeq x).slots = s.slots := rfl
@[simp] theorem State.setSeq_freeQ (s : State) (x : Option Seq) : (s.setSeq x).freeQ = s.freeQ := rfl
@[simp] theorem State.setSeq_filledQ (s : State) (x : Option Seq) : (s.setSeq x).filledQ = s.filledQ := rfl
@[simp] theorem State.setSeq_seq (s : State) (x : Option Seq) : (s.setSeq x).seq = x := rfl
@[simp] theorem State.setSeq_waitActive (s : State) (x : Option Seq) : (s.setSeq x).waitActive = s.waitActive := rfl
@[simp] theorem State.setSeq_pool (s : State) (x : Option Seq) : (s.setSeq x).pool = s.pool := rfl
@[simp] theorem State.setSeq_frame (s : State) (x : Option Seq) : (s.setSeq x).frame = s.frame := rfl
@[simp] theorem State.setSeq_inputs (s : State) (x : Option Seq) : (s.setSeq x).inputs = s.inputs := rfl
@[simp] theorem State.setSeq_readData (s : State) (x : Option Seq) : (s.setSeq x).readData = s.readData := rfl
@[simp] theorem State.setSeq_frameChanged (s : State) (x : Option Seq) : (s.setSeq x).frameChanged = s.frameChanged := rfl
@[simp] theorem State.setSeq_draws (s : State) (x : Option Seq) : (s.setSeq x).draws = s.draws := rfl

/-! ## State.setWait -/

@[simp] theorem State.setWait_cfg (s : State) (b : Bool) : (s.setWait b).cfg = s.cfg := rfl
@[simp] theorem State.setWait_portP (s : State) (b : Bool) : (s.setWait b).portP = s.portP := rfl
@[simp] theorem State.setWait_portC (s : State) (b : Bool) : (s.setWait b).portC = s.portC := rfl
@[simp] theorem State.setWait_err (s : State) (b : Bool) : (s.setWait b).err = s.err := rfl
@[simp] theorem State.setWait_blk (s : State) (b : Bool) : (s.setWait b).blk = s.blk := rfl
@[simp] theorem State.setWait_sess (s : State) (b : Bool) : (s.setWait b).sess = s.sess := rfl
@[simp] theorem State.setWait_pred (s : State) (b : Bool) : (s.setWait b).pred = s.pred := rfl
@[simp] theorem State.setWait_slots (s : State) (b : Bool) : (s.setWait b).slots = s.slots := rfl
@[simp] theorem State.setWait_freeQ (s : State) (b : Bool) : (s.setWait b).freeQ = s.freeQ := rfl
@[simp] theorem State.setWait_filledQ (s : State) (b : Bool) : (s.setWait b).filledQ = s.filledQ := rfl
@[simp] theorem State.setWait_seq (s : State) (b : Bool) : (s.setWait b).seq = s.seq := rfl
@[simp] theorem State.setWait_waitActive (s : State) (b : Bool) : (s.setWait b).waitActive = b := rfl
@[simp] theorem State.setWait_pool (s : State) (b : Bool) : (s.setWait b).pool = s.pool := rfl
@[simp] theorem State.setWait_frame (s : State) (b : Bool) : (s.setWait b).frame = s.frame := rfl
@[simp] theorem State.setWait_inputs (s : State) (b : Bool) : (s.setWait b).inputs = s.inputs := rfl
@[simp] theorem State.setWait_readData (s : State) (b : Bool) : (s.setWait b).readData = s.readData := rfl
@[simp] theorem State.setWait_frameChanged (s : State) (b : Bool) : (s.setWait b).frameChanged = s.frameChanged := rfl
@[simp] theorem State.setWait_draws (s : State) (b : Bool) : (s.setWait b).draws = s.draws := rfl

/-! ## State.setPool -/

@[simp] theorem State.setPool_cfg (s : State) (m : Memory) : (s.setPool m).cfg = s.cfg := rfl
@[simp] theorem State.setPool_portP (s : State) (m : Memory) : (s.setPool m).portP = s.portP := rfl
@[simp] theorem State.setPool_portC (s : State) (m : Memory) : (s.setPool m).portC = s.portC := rfl
@[simp] theorem State.setPool_err (s : State) (m : Memory) : (s.setPool m).err = s.err := rfl
@[simp] theorem State.setPool_blk (s : State) (m : Memory) : (s.setPool m).blk = s.blk := rfl
@[simp] theorem State.setPool_sess (s : State) (m : Memory) : (s.setPool m).sess = s.sess := rfl
@[simp] theorem State.setPool_pred (s : State) (m : Memory) : (s.setPool m).pred = s.pred := rfl
@[simp] theorem State.setPool_slots (s : State) (m : Memory) : (s.setPool m).slots = s.slots := rfl
@[simp] theorem State.setPool_freeQ (s : State) (m : Memory) : (s.setPool m).freeQ = s.freeQ := rfl
@[simp] theorem State.setPool_filledQ (s : State) (m : Memory) : (s.setPool m).filledQ = s.filledQ := rfl
@[simp] theorem State.setPool_seq (s : State) (m : Memory) : (s.setPool m).seq = s.seq := rfl
@[simp] theorem State.setPool_waitActive (s : State) (m : Memory) : (s.setPool m).waitActive = s.waitActive := rfl
@[simp] theorem State.setPool_pool (s : State) (m : Memory) : (s.setPool m).pool = m := rfl
@[simp] theorem State.setPool_frame (s : State) (m : Memory) : (s.setPool m).frame = s.frame := rfl
@[simp] theorem State.setPool_inputs (s : State) (m : Memory) : (s.setPool m).inputs = s.inputs := rfl
@[simp] theorem State.setPool_readData (s : State) (m : Memory) : (s.setPool m).readData = s.readData := rfl
@[simp] theorem State.setPool_frameChanged (s : State) (m : Memory) : (s.setPool m).frameChanged = s.frameChanged := rfl
@[simp] theorem State.setPool_draws (s : State) (m : Memory) : (s.setPool m).draws = s.draws := rfl

/-! ## State.setReadData -/

@[simp] theorem State.setReadData_cfg (s : State) (w : Word) : (s.setReadData w).cfg = s.cfg := rfl
@[simp] theorem State.setReadData_portP (s : State) (w : Word) : (s.setReadData w).portP = s.portP := rfl
@[simp] theorem State.setReadData_portC (s : State) (w : Word) : (s.setReadData w).portC = s.portC := rfl
@[simp] theorem State.setReadData_err (s : State) (w : Word) : (s.setReadData w).err = s.err := rfl
@[simp] theorem State.setReadData_blk (s : State) (w : Word) : (s.setReadData w).blk = s.blk := rfl
@[simp] theorem State.setReadData_sess (s : State) (w : Word) : (s.setReadData w).sess = s.sess := rfl
@[simp] theorem State.setReadData_pred (s : State) (w : Word) : (s.setReadData w).pred = s.pred := rfl
@[simp] theorem State.setReadData_slots (s : State) (w : Word) : (s.setReadData w).slots = s.slots := rfl
@[simp] theorem State.setReadData_freeQ (s : State) (w : Word) : (s.setReadData w).freeQ = s.freeQ := rfl
@[simp] theorem State.setReadData_filledQ (s : State) (w : Word) : (s.setReadData w).filledQ = s.filledQ := rfl
@[simp] theorem State.setReadData_seq (s : State) (w : Word) : (s.setReadData w).seq = s.seq := rfl
@[simp] theorem State.setReadData_waitActive (s : State) (w : Word) : (s.setReadData w).waitActive = s.waitActive := rfl
@[simp] theorem State.setReadData_pool (s : State) (w : Word) : (s.setReadData w).pool = s.pool := rfl
@[simp] theorem State.setReadData_frame (s : State) (w : Word) : (s.setReadData w).frame = s.frame := rfl
@[simp] theorem State.setReadData_inputs (s : State) (w : Word) : (s.setReadData w).inputs = s.inputs := rfl
@[simp] theorem State.setReadData_readData (s : State) (w : Word) : (s.setReadData w).readData = w := rfl
@[simp] theorem State.setReadData_frameChanged (s : State) (w : Word) : (s.setReadData w).frameChanged = s.frameChanged := rfl
@[simp] theorem State.setReadData_draws (s : State) (w : Word) : (s.setReadData w).draws = s.draws := rfl

/-! ## State.draw -/

@[simp] theorem State.draw_cfg (s : State) (k : Nat) : (s.draw k).cfg = s.cfg := rfl
@[simp] theorem State.draw_portP (s : State) (k : Nat) : (s.draw k).portP = s.portP := rfl
@[simp] theorem State.draw_portC (s : State) (k : Nat) : (s.draw k).portC = s.portC := rfl
@[simp] theorem State.draw_err (s : State) (k : Nat) : (s.draw k).err = s.err := rfl
@[simp] theorem State.draw_blk (s : State) (k : Nat) : (s.draw k).blk = s.blk := rfl
@[simp] theorem State.draw_sess (s : State) (k : Nat) : (s.draw k).sess = s.sess := rfl
@[simp] theorem State.draw_pred (s : State) (k : Nat) : (s.draw k).pred = s.pred := rfl
@[simp] theorem State.draw_slots (s : State) (k : Nat) : (s.draw k).slots = s.slots := rfl
@[simp] theorem State.draw_freeQ (s : State) (k : Nat) : (s.draw k).freeQ = s.freeQ := rfl
@[simp] theorem State.draw_filledQ (s : State) (k : Nat) : (s.draw k).filledQ = s.filledQ := rfl
@[simp] theorem State.draw_seq (s : State) (k : Nat) : (s.draw k).seq = s.seq := rfl
@[simp] theorem State.draw_waitActive (s : State) (k : Nat) : (s.draw k).waitActive = s.waitActive := rfl
@[simp] theorem State.draw_pool (s : State) (k : Nat) : (s.draw k).pool = s.pool := rfl
@[simp] theorem State.draw_frame (s : State) (k : Nat) : (s.draw k).frame = s.frame := rfl
@[simp] theorem State.draw_inputs (s : State) (k : Nat) : (s.draw k).inputs = s.inputs := rfl
@[simp] theorem State.draw_readData (s : State) (k : Nat) : (s.draw k).readData = s.readData := rfl
@[simp] theorem State.draw_frameChanged (s : State) (k : Nat) : (s.draw k).frameChanged = s.frameChanged := rfl
@[simp] theorem State.draw_draws (s : State) (k : Nat) : (s.draw k).draws = s.draws + k := rfl

/-! ## State.setInputs -/

@[simp] theorem State.setInputs_cfg (s : State) (l : List Input) : (s.setInputs l).cfg = s.cfg := rfl
@[simp] theorem State.setInputs_portP (s : State) (l : List Input) : (s.setInputs l).portP = s.portP := rfl
@[simp] theorem State.setInputs_portC (s : State) (l : List Input) : (s.setInputs l).portC = s.portC := rfl
@[simp] theorem State.setInputs_err (s : State) (l : List Input) : (s.setInputs l).err = s.err := rfl
@[simp] theorem State.setInputs_blk (s : State) (l : List Input) : (s.setInputs l).blk = s.blk := rfl
@[simp] theorem State.setInputs_sess (s : State) (l : List Input) : (s.setInputs l).sess = s.sess := rfl
@[simp] theorem State.setInputs_pred (s : State) (l : List Input) : (s.setInputs l).pred = s.pred := rfl
@[simp] theorem State.setInputs_slots (s : State) (l : List Input) : (s.setInputs l).slots = s.slots := rfl
@[simp] theorem State.setInputs_freeQ (s : State) (l : List Input) : (s.setInputs l).freeQ = s.freeQ := rfl
@[simp] theorem State.setInputs_filledQ (s : State) (l : List Input) : (s.setInputs l).filledQ = s.filledQ := rfl
@[simp] theorem State.setInputs_seq (s : State) (l : List Input) : (s.setInputs l).seq = s.seq := rfl
@[simp] theorem State.setInputs_waitActive (s : State) (l : List Input) : (s.setInputs l).waitActive = s.waitActive := rfl
@[simp] theorem State.setInputs_pool (s : State) (l : List Input) : (s.setInputs l).pool = s.pool := rfl
@[simp] theorem State.setInputs_frame (s : State) (l : List Input) : (s.setInputs l).frame = s.frame := rfl
@[simp] theorem State.setInputs_inputs (s : State) (l : List Input) : (s.setInputs l).inputs = l := rfl
@[simp] theorem State.setInputs_readData (s : State) (l : List Input) : (s.setInputs l).readData = s.readData := rfl
@[simp] theorem State.setInputs_frameChanged (s : State) (l : List Input) : (s.setInputs l).frameChanged = s.frameChanged := rfl
@[simp] theorem State.setInputs_draws (s : State) (l : List Input) : (s.setInputs l).draws = s.draws := rfl

/-! ## State.modSlot -/

@[simp] theorem State.modSlot_cfg (s : State) (i : Nat) (f : Slot → Slot) : (s.modSlot i f).cfg = s.cfg := rfl
@[simp] theorem State.modSlot_portP (s : State) (i : Nat) (f : Slot → Slot) : (s.modSlot i f).portP = s.portP := rfl
@[simp] theorem State.modSlot_portC (s : State) (i : Nat) (f : Slot → Slot) : (s.modSlot i f).portC = s.portC := rfl
@[simp] theorem State.modSlot_err (s : State) (i : Nat) (f : Slot → Slot) : (s.modSlot i f).err = s.err := rfl
@[simp] theorem State.modSlot_blk (s : State) (i : Nat) (f : Slot → Slot) : (s.modSlot i f).blk = s.blk := rfl
@[simp] theorem State.modSlot_sess (s : State) (i : Nat) (f : Slot → Slot) : (s.modSlot i f).sess = s.sess := rfl
@[simp] theorem State.modSlot_pred (s : State) (i : Nat) (f : Slot → Slot) : (s.modSlot i f).pred = s.pred := rfl
@[simp] theorem State.modSlot_slots (s : State) (i : Nat) (f : Slot → Slot) : (s.modSlot i f).slots = s.slots.modify i f := rfl
@[simp] theorem State.modSlot_freeQ (s : State) (i : Nat) (f : Slot → Slot) : (s.modSlot i f).freeQ = s.freeQ := rfl
@[simp] theorem State.modSlot_filledQ (s : State) (i : Nat) (f : Slot → Slot) : (s.modSlot i f).filledQ = s.filledQ := rfl
@[simp] theorem State.modSlot_seq (s : State) (i : Nat) (f : Slot → Slot) : (s.modSlot i f).seq = s.seq := rfl
@[simp] theorem State.modSlot_waitActive (s : State) (i : Nat) (f : Slot → Slot) : (s.modSlot i f).waitActive = s.waitActive := rfl
@[simp] theorem State.modSlot_pool (s : State) (i : Nat) (f : Slot → Slot) : (s.modSlot i f).pool = s.pool := rfl
@[simp] theorem State.modSlot_frame (s : State) (i : Nat) (f : Slot → Slot) : (s.modSlot i f).frame = s.frame := rfl
@[simp] theorem State.modSlot_inputs (s : State) (i : Nat) (f : Slot → Slot) : (s.modSlot i f).inputs = s.inputs := rfl
@[simp] theorem State.modSlot_readData (s : State) (i : Nat) (f : Slot → Slot) : (s.modSlot i f).readData = s.readData := rfl
@[simp] theorem State.modSlot_frameChanged (s : State) (i : Nat) (f : Slot → Slot) : (s.modSlot i f).frameChanged = s.frameChanged := rfl
@[simp] theorem State.modSlot_draws (s : State) (i : Nat) (f : Slot → Slot) : (s.modSlot i f).draws = s.draws := rfl

/-! ## faultErr -/

@[simp] theorem faultErr_cfg (s : State) (b : ErrBit) : (faultErr b s).cfg = s.cfg := rfl
@[simp] theorem faultErr_portP (s : State) (b : ErrBit) : (faultErr b s).portP = s.portP := rfl
@[simp] theorem faultErr_portC (s : State) (b : ErrBit) : (faultErr b s).portC = s.portC := rfl
@[simp] theorem faultErr_err (s : State) (b : ErrBit) : (faultErr b s).err = s.err.setBit b := rfl
@[simp] theorem faultErr_blk (s : State) (b : ErrBit) : (faultErr b s).blk = s.blk := rfl
@[simp] theorem faultErr_sess (s : State) (b : ErrBit) : (faultErr b s).sess = s.sess := rfl
@[simp] theorem faultErr_pred (s : State) (b : ErrBit) : (faultErr b s).pred = s.pred := rfl
@[simp] theorem faultErr_slots (s : State) (b : ErrBit) : (faultErr b s).slots = s.slots := rfl
@[simp] theorem faultErr_freeQ (s : State) (b : ErrBit) : (faultErr b s).freeQ = s.freeQ := rfl
@[simp] theorem faultErr_filledQ (s : State) (b : ErrBit) : (faultErr b s).filledQ = s.filledQ := rfl
@[simp] theorem faultErr_seq (s : State) (b : ErrBit) : (faultErr b s).seq = s.seq := rfl
@[simp] theorem faultErr_waitActive (s : State) (b : ErrBit) : (faultErr b s).waitActive = s.waitActive := rfl
@[simp] theorem faultErr_pool (s : State) (b : ErrBit) : (faultErr b s).pool = s.pool := rfl
@[simp] theorem faultErr_frame (s : State) (b : ErrBit) : (faultErr b s).frame = s.frame := rfl
@[simp] theorem faultErr_inputs (s : State) (b : ErrBit) : (faultErr b s).inputs = s.inputs := rfl
@[simp] theorem faultErr_readData (s : State) (b : ErrBit) : (faultErr b s).readData = s.readData := rfl
@[simp] theorem faultErr_frameChanged (s : State) (b : ErrBit) : (faultErr b s).frameChanged = s.frameChanged := rfl
@[simp] theorem faultErr_draws (s : State) (b : ErrBit) : (faultErr b s).draws = s.draws := rfl

/-! ## loadBlock -/

@[simp] theorem loadBlock_cfg (s : State) (k : Nat) (b : Block) : (loadBlock s k b).cfg = s.cfg := rfl
@[simp] theorem loadBlock_portP (s : State) (k : Nat) (b : Block) : (loadBlock s k b).portP = s.portP := rfl
@[simp] theorem loadBlock_portC (s : State) (k : Nat) (b : Block) : (loadBlock s k b).portC = s.portC := rfl
@[simp] theorem loadBlock_err (s : State) (k : Nat) (b : Block) : (loadBlock s k b).err = s.err := rfl
@[simp] theorem loadBlock_blk (s : State) (k : Nat) (b : Block) : (loadBlock s k b).blk = b := rfl
@[simp] theorem loadBlock_sess (s : State) (k : Nat) (b : Block) : (loadBlock s k b).sess = s.sess := rfl
@[simp] theorem loadBlock_pred (s : State) (k : Nat) (b : Block) : (loadBlock s k b).pred = s.pred := rfl
@[simp] theorem loadBlock_slots (s : State) (k : Nat) (b : Block) : (loadBlock s k b).slots = s.slots := rfl
@[simp] theorem loadBlock_freeQ (s : State) (k : Nat) (b : Block) : (loadBlock s k b).freeQ = s.freeQ := rfl
@[simp] theorem loadBlock_filledQ (s : State) (k : Nat) (b : Block) : (loadBlock s k b).filledQ = s.filledQ := rfl
@[simp] theorem loadBlock_seq (s : State) (k : Nat) (b : Block) : (loadBlock s k b).seq = s.seq := rfl
@[simp] theorem loadBlock_waitActive (s : State) (k : Nat) (b : Block) : (loadBlock s k b).waitActive = s.waitActive := rfl
@[simp] theorem loadBlock_pool (s : State) (k : Nat) (b : Block) : (loadBlock s k b).pool = s.pool := rfl
@[simp] theorem loadBlock_frame (s : State) (k : Nat) (b : Block) : (loadBlock s k b).frame = s.frame := rfl
@[simp] theorem loadBlock_inputs (s : State) (k : Nat) (b : Block) : (loadBlock s k b).inputs = s.inputs := rfl
@[simp] theorem loadBlock_readData (s : State) (k : Nat) (b : Block) : (loadBlock s k b).readData = s.readData := rfl
@[simp] theorem loadBlock_frameChanged (s : State) (k : Nat) (b : Block) : (loadBlock s k b).frameChanged = s.frameChanged := rfl
@[simp] theorem loadBlock_draws (s : State) (k : Nat) (b : Block) : (loadBlock s k b).draws = s.draws + if s.frameChanged then k else 0 := rfl

/-! ## closeSession -/

@[simp] theorem closeSession_cfg (s : State)  : (closeSession s).cfg = s.cfg := rfl
@[simp] theorem closeSession_portP (s : State)  : (closeSession s).portP = s.portP := rfl
@[simp] theorem closeSession_portC (s : State)  : (closeSession s).portC = s.portC := rfl
@[simp] theorem closeSession_err (s : State)  : (closeSession s).err = s.err := rfl
@[simp] theorem closeSession_blk (s : State)  : (closeSession s).blk = s.blk := rfl
@[simp] theorem closeSession_sess (s : State)  : (closeSession s).sess = { s.sess with isOpen := false, acc := [] } := rfl
@[simp] theorem closeSession_pred (s : State)  : (closeSession s).pred = s.pred := rfl
@[simp] theorem closeSession_slots (s : State)  : (closeSession s).slots = s.slots := rfl
@[simp] theorem closeSession_freeQ (s : State)  : (closeSession s).freeQ = s.freeQ := rfl
@[simp] theorem closeSession_filledQ (s : State)  : (closeSession s).filledQ = s.filledQ := rfl
@[simp] theorem closeSession_seq (s : State)  : (closeSession s).seq = s.seq := rfl
@[simp] theorem closeSession_waitActive (s : State)  : (closeSession s).waitActive = s.waitActive := rfl
@[simp] theorem closeSession_pool (s : State)  : (closeSession s).pool = s.pool := rfl
@[simp] theorem closeSession_frame (s : State)  : (closeSession s).frame = s.frame := rfl
@[simp] theorem closeSession_inputs (s : State)  : (closeSession s).inputs = s.inputs := rfl
@[simp] theorem closeSession_readData (s : State)  : (closeSession s).readData = s.readData := rfl
@[simp] theorem closeSession_frameChanged (s : State)  : (closeSession s).frameChanged = s.frameChanged := rfl
@[simp] theorem closeSession_draws (s : State)  : (closeSession s).draws = s.draws := rfl

/-! ## abortSession -/

@[simp] theorem abortSession_cfg (s : State)  : (abortSession s).cfg = s.cfg := rfl
@[simp] theorem abortSession_portP (s : State)  : (abortSession s).portP = s.portP := rfl
@[simp] theorem abortSession_portC (s : State)  : (abortSession s).portC = s.portC := rfl
@[simp] theorem abortSession_err (s : State)  : (abortSession s).err = s.err := rfl
@[simp] theorem abortSession_blk (s : State)  : (abortSession s).blk = s.blk := rfl
@[simp] theorem abortSession_sess (s : State)  : (abortSession s).sess = { s.sess with isOpen := false, acc := [] } := rfl
@[simp] theorem abortSession_pred (s : State)  : (abortSession s).pred = s.pred := rfl
@[simp] theorem abortSession_slots (s : State)  : (abortSession s).slots = s.slots.modify s.sess.slot fun x => x.setSize 0 := rfl
@[simp] theorem abortSession_freeQ (s : State)  : (abortSession s).freeQ = s.freeQ := rfl
@[simp] theorem abortSession_filledQ (s : State)  : (abortSession s).filledQ = s.filledQ := rfl
@[simp] theorem abortSession_seq (s : State)  : (abortSession s).seq = s.seq := rfl
@[simp] theorem abortSession_waitActive (s : State)  : (abortSession s).waitActive = s.waitActive := rfl
@[simp] theorem abortSession_pool (s : State)  : (abortSession s).pool = s.pool := rfl
@[simp] theorem abortSession_frame (s : State)  : (abortSession s).frame = s.frame := rfl
@[simp] theorem abortSession_inputs (s : State)  : (abortSession s).inputs = s.inputs := rfl
@[simp] theorem abortSession_readData (s : State)  : (abortSession s).readData = s.readData := rfl
@[simp] theorem abortSession_frameChanged (s : State)  : (abortSession s).frameChanged = s.frameChanged := rfl
@[simp] theorem abortSession_draws (s : State)  : (abortSession s).draws = s.draws := rfl

/-! ## State.setPort -/

@[simp] theorem State.setPort_cfg (s : State) (q : Port) (r : PortRegs) : (s.setPort q r).cfg = s.cfg := by cases q <;> rfl
@[simp] theorem State.setPort_err (s : State) (q : Port) (r : PortRegs) : (s.setPort q r).err = s.err := by cases q <;> rfl
@[simp] theorem State.setPort_blk (s : State) (q : Port) (r : PortRegs) : (s.setPort q r).blk = s.blk := by cases q <;> rfl
@[simp] theorem State.setPort_sess (s : State) (q : Port) (r : PortRegs) : (s.setPort q r).sess = s.sess := by cases q <;> rfl
@[simp] theorem State.setPort_pred (s : State) (q : Port) (r : PortRegs) : (s.setPort q r).pred = s.pred := by cases q <;> rfl
@[simp] theorem State.setPort_slots (s : State) (q : Port) (r : PortRegs) : (s.setPort q r).slots = s.slots := by cases q <;> rfl
@[simp] theorem State.setPort_freeQ (s : State) (q : Port) (r : PortRegs) : (s.setPort q r).freeQ = s.freeQ := by cases q <;> rfl
@[simp] theorem State.setPort_filledQ (s : State) (q : Port) (r : PortRegs) : (s.setPort q r).filledQ = s.filledQ := by cases q <;> rfl
@[simp] theorem State.setPort_seq (s : State) (q : Port) (r : PortRegs) : (s.setPort q r).seq = s.seq := by cases q <;> rfl
@[simp] theorem State.setPort_waitActive (s : State) (q : Port) (r : PortRegs) : (s.setPort q r).waitActive = s.waitActive := by cases q <;> rfl
@[simp] theorem State.setPort_pool (s : State) (q : Port) (r : PortRegs) : (s.setPort q r).pool = s.pool := by cases q <;> rfl
@[simp] theorem State.setPort_frame (s : State) (q : Port) (r : PortRegs) : (s.setPort q r).frame = s.frame := by cases q <;> rfl
@[simp] theorem State.setPort_inputs (s : State) (q : Port) (r : PortRegs) : (s.setPort q r).inputs = s.inputs := by cases q <;> rfl
@[simp] theorem State.setPort_readData (s : State) (q : Port) (r : PortRegs) : (s.setPort q r).readData = s.readData := by cases q <;> rfl
@[simp] theorem State.setPort_frameChanged (s : State) (q : Port) (r : PortRegs) : (s.setPort q r).frameChanged = s.frameChanged := by cases q <;> rfl
@[simp] theorem State.setPort_draws (s : State) (q : Port) (r : PortRegs) : (s.setPort q r).draws = s.draws := by cases q <;> rfl

/-! ## complete -/

@[simp] theorem complete_cfg (s : State) (q : Port) (c : StatusCode) (a b d : Word) : (complete q c a b d s).cfg = s.cfg := by cases q <;> rfl
@[simp] theorem complete_err (s : State) (q : Port) (c : StatusCode) (a b d : Word) : (complete q c a b d s).err = s.err := by cases q <;> rfl
@[simp] theorem complete_blk (s : State) (q : Port) (c : StatusCode) (a b d : Word) : (complete q c a b d s).blk = s.blk := by cases q <;> rfl
@[simp] theorem complete_sess (s : State) (q : Port) (c : StatusCode) (a b d : Word) : (complete q c a b d s).sess = s.sess := by cases q <;> rfl
@[simp] theorem complete_pred (s : State) (q : Port) (c : StatusCode) (a b d : Word) : (complete q c a b d s).pred = s.pred := by cases q <;> rfl
@[simp] theorem complete_slots (s : State) (q : Port) (c : StatusCode) (a b d : Word) : (complete q c a b d s).slots = s.slots := by cases q <;> rfl
@[simp] theorem complete_freeQ (s : State) (q : Port) (c : StatusCode) (a b d : Word) : (complete q c a b d s).freeQ = s.freeQ := by cases q <;> rfl
@[simp] theorem complete_filledQ (s : State) (q : Port) (c : StatusCode) (a b d : Word) : (complete q c a b d s).filledQ = s.filledQ := by cases q <;> rfl
@[simp] theorem complete_seq (s : State) (q : Port) (c : StatusCode) (a b d : Word) : (complete q c a b d s).seq = s.seq := by cases q <;> rfl
@[simp] theorem complete_waitActive (s : State) (q : Port) (c : StatusCode) (a b d : Word) : (complete q c a b d s).waitActive = s.waitActive := by cases q <;> rfl
@[simp] theorem complete_pool (s : State) (q : Port) (c : StatusCode) (a b d : Word) : (complete q c a b d s).pool = s.pool := by cases q <;> rfl
@[simp] theorem complete_frame (s : State) (q : Port) (c : StatusCode) (a b d : Word) : (complete q c a b d s).frame = s.frame := by cases q <;> rfl
@[simp] theorem complete_inputs (s : State) (q : Port) (c : StatusCode) (a b d : Word) : (complete q c a b d s).inputs = s.inputs := by cases q <;> rfl
@[simp] theorem complete_readData (s : State) (q : Port) (c : StatusCode) (a b d : Word) : (complete q c a b d s).readData = s.readData := by cases q <;> rfl
@[simp] theorem complete_frameChanged (s : State) (q : Port) (c : StatusCode) (a b d : Word) : (complete q c a b d s).frameChanged = s.frameChanged := by cases q <;> rfl
@[simp] theorem complete_draws (s : State) (q : Port) (c : StatusCode) (a b d : Word) : (complete q c a b d s).draws = s.draws := by cases q <;> rfl

/-! ## raiseStatus -/

@[simp] theorem raiseStatus_cfg (s : State) (q : Port) (c : StatusCode) : (raiseStatus q c s).cfg = s.cfg := by cases q <;> rfl
@[simp] theorem raiseStatus_err (s : State) (q : Port) (c : StatusCode) : (raiseStatus q c s).err = s.err := by cases q <;> rfl
@[simp] theorem raiseStatus_blk (s : State) (q : Port) (c : StatusCode) : (raiseStatus q c s).blk = s.blk := by cases q <;> rfl
@[simp] theorem raiseStatus_sess (s : State) (q : Port) (c : StatusCode) : (raiseStatus q c s).sess = s.sess := by cases q <;> rfl
@[simp] theorem raiseStatus_pred (s : State) (q : Port) (c : StatusCode) : (raiseStatus q c s).pred = s.pred := by cases q <;> rfl
@[simp] theorem raiseStatus_slots (s : State) (q : Port) (c : StatusCode) : (raiseStatus q c s).slots = s.slots := by cases q <;> rfl
@[simp] theorem raiseStatus_freeQ (s : State) (q : Port) (c : StatusCode) : (raiseStatus q c s).freeQ = s.freeQ := by cases q <;> rfl
@[simp] theorem raiseStatus_filledQ (s : State) (q : Port) (c : StatusCode) : (raiseStatus q c s).filledQ = s.filledQ := by cases q <;> rfl
@[simp] theorem raiseStatus_seq (s : State) (q : Port) (c : StatusCode) : (raiseStatus q c s).seq = s.seq := by cases q <;> rfl
@[simp] theorem raiseStatus_waitActive (s : State) (q : Port) (c : StatusCode) : (raiseStatus q c s).waitActive = s.waitActive := by cases q <;> rfl
@[simp] theorem raiseStatus_pool (s : State) (q : Port) (c : StatusCode) : (raiseStatus q c s).pool = s.pool := by cases q <;> rfl
@[simp] theorem raiseStatus_frame (s : State) (q : Port) (c : StatusCode) : (raiseStatus q c s).frame = s.frame := by cases q <;> rfl
@[simp] theorem raiseStatus_inputs (s : State) (q : Port) (c : StatusCode) : (raiseStatus q c s).inputs = s.inputs := by cases q <;> rfl
@[simp] theorem raiseStatus_readData (s : State) (q : Port) (c : StatusCode) : (raiseStatus q c s).readData = s.readData := by cases q <;> rfl
@[simp] theorem raiseStatus_frameChanged (s : State) (q : Port) (c : StatusCode) : (raiseStatus q c s).frameChanged = s.frameChanged := by cases q <;> rfl
@[simp] theorem raiseStatus_draws (s : State) (q : Port) (c : StatusCode) : (raiseStatus q c s).draws = s.draws := by cases q <;> rfl

/-! ## failWith -/

@[simp] theorem failWith_cfg (s : State) (q : Port) (b : ErrBit) (c : StatusCode) : (failWith q b c s).cfg = s.cfg := by cases q <;> rfl
@[simp] theorem failWith_err (s : State) (q : Port) (b : ErrBit) (c : StatusCode) : (failWith q b c s).err = s.err.setBit b := by cases q <;> rfl
@[simp] theorem failWith_blk (s : State) (q : Port) (b : ErrBit) (c : StatusCode) : (failWith q b c s).blk = s.blk := by cases q <;> rfl
@[simp] theorem failWith_sess (s : State) (q : Port) (b : ErrBit) (c : StatusCode) : (failWith q b c s).sess = s.sess := by cases q <;> rfl
@[simp] theorem failWith_pred (s : State) (q : Port) (b : ErrBit) (c : StatusCode) : (failWith q b c s).pred = s.pred := by cases q <;> rfl
@[simp] theorem failWith_slots (s : State) (q : Port) (b : ErrBit) (c : StatusCode) : (failWith q b c s).slots = s.slots := by cases q <;> rfl
@[simp] theorem failWith_freeQ (s : State) (q : Port) (b : ErrBit) (c : StatusCode) : (failWith q b c s).freeQ = s.freeQ := by cases q <;> rfl
@[simp] theorem failWith_filledQ (s : State) (q : Port) (b : ErrBit) (c : StatusCode) : (failWith q b c s).filledQ = s.filledQ := by cases q <;> rfl
@[simp] theorem failWith_seq (s : State) (q : Port) (b : ErrBit) (c : StatusCode) : (failWith q b c s).seq = s.seq := by cases q <;> rfl
@[simp] theorem failWith_waitActive (s : State) (q : Port) (b : ErrBit) (c : StatusCode) : (failWith q b c s).waitActive = s.waitActive := by cases q <;> rfl
@[simp] theorem failWith_pool (s : State) (q : Port) (b : ErrBit) (c : StatusCode) : (failWith q b c s).pool = s.pool := by cases q <;> rfl
@[simp] theorem failWith_frame (s : State) (q : Port) (b : ErrBit) (c : StatusCode) : (failWith q b c s).frame = s.frame := by cases q <;> rfl
@[simp] theorem failWith_inputs (s : State) (q : Port) (b : ErrBit) (c : StatusCode) : (failWith q b c s).inputs = s.inputs := by cases q <;> rfl
@[simp] theorem failWith_readData (s : State) (q : Port) (b : ErrBit) (c : StatusCode) : (failWith q b c s).readData = s.readData := by cases q <;> rfl
@[simp] theorem failWith_frameChanged (s : State) (q : Port) (b : ErrBit) (c : StatusCode) : (failWith q b c s).frameChanged = s.frameChanged := by cases q <;> rfl
@[simp] theorem failWith_draws (s : State) (q : Port) (b : ErrBit) (c : StatusCode) : (failWith q b c s).draws = s.draws := by cases q <;> rfl

/-! ## Ports -/

@[simp] theorem State.setPort_port_self (s : State) (q : Port) (r : PortRegs) : (s.setPort q r).port q = r := by
  cases q <;> rfl

@[simp] theorem State.setPort_c_portP (s : State) (r : PortRegs) : (s.setPort .c r).portP = s.portP := rfl
@[simp] theorem State.setPort_p_portP (s : State) (r : PortRegs) : (s.setPort .p r).portP = r := rfl
@[simp] theorem State.setPort_c_portC (s : State) (r : PortRegs) : (s.setPort .c r).portC = r := rfl
@[simp] theorem State.setPort_p_portC (s : State) (r : PortRegs) : (s.setPort .p r).portC = s.portC := rfl

@[simp] theorem complete_p_portP (s : State) (c : StatusCode) (a b d : Word) :
    (complete .p c a b d s).portP = s.portP.completed c a b d := rfl
@[simp] theorem complete_c_portP (s : State) (c : StatusCode) (a b d : Word) :
    (complete .c c a b d s).portP = s.portP := rfl
@[simp] theorem complete_p_portC (s : State) (c : StatusCode) (a b d : Word) :
    (complete .p c a b d s).portC = s.portC := rfl
@[simp] theorem complete_c_portC (s : State) (c : StatusCode) (a b d : Word) :
    (complete .c c a b d s).portC = s.portC.completed c a b d := rfl

/-- A completion leaves the latch and the argument registers alone. -/
@[simp] theorem PortRegs.completed_latchWord (r : PortRegs) (c : StatusCode) (a b d : Word) :
    (r.completed c a b d).latchWord = r.latchWord := rfl
@[simp] theorem PortRegs.completed_latchArg (r : PortRegs) (c : StatusCode) (a b d : Word) :
    (r.completed c a b d).latchArg = r.latchArg := rfl
@[simp] theorem PortRegs.completed_busy (r : PortRegs) (c : StatusCode) (a b d : Word) :
    (r.completed c a b d).status.busy = false := rfl
@[simp] theorem PortRegs.completed_done (r : PortRegs) (c : StatusCode) (a b d : Word) :
    (r.completed c a b d).status.done = true := rfl
@[simp] theorem PortRegs.completed_code (r : PortRegs) (c : StatusCode) (a b d : Word) :
    (r.completed c a b d).status.code = c := rfl

/-! ## Slots -/

/-- The record of the changed slot, when the index is one. -/
theorem State.slot_modSlot_self (s : State) (i : Nat) (f : Slot → Slot) (h : i < s.slots.length) :
    (s.modSlot i f).slot i = f (s.slot i) := by
  simp [State.slot, State.modSlot, h]

/-- No other slot's record changes. -/
theorem State.slot_modSlot_other (s : State) {i j : Nat} (f : Slot → Slot) (h : j ≠ i) :
    (s.modSlot i f).slot j = s.slot j := by
  simp [State.slot, State.modSlot, Ne.symm h]

/-- A slot's record depends on the records only. -/
theorem State.slot_congr {s t : State} (h : s.slots = t.slots) (i : Nat) : s.slot i = t.slot i := by
  simp [State.slot, h]

/-! ## Sub-steps -/

@[simp] theorem Eff.bind_ok (s : State) (k : State → Eff) : (Eff.ok s).bind k = k s := rfl
@[simp] theorem Eff.bind_raised (c : StatusCode) (s : State) (k : State → Eff) :
    (Eff.raised c s).bind k = .raised c s := rfl
@[simp] theorem Eff.bind_stuck (f : Fault) (k : State → Eff) : (Eff.stuck f).bind k = .stuck f := rfl
@[simp] theorem finish_ok (s : State) (d : State → State) : finish (.ok s) d = .next (d s) := rfl
@[simp] theorem finish_raised (c : StatusCode) (s : State) (d : State → State) :
    finish (.raised c s) d = .next (raiseStatus .p c s) := rfl
@[simp] theorem finish_stuck (f : Fault) (d : State → State) : finish (.stuck f) d = .fault f := rfl

end Sys2Proof.Machine
end

