-- ==== Sys2Proof/Laws/Memory.lean ====
section
/-! SUPPORT. The laws of the memories: read after write, frames, and that every operation keeps the canonical form. -/

namespace Sys2Proof.Machine

@[simp] theorem Memory.read_nil (a : Nat) : Memory.read [] a = none := rfl

theorem Memory.read_cons (c : Host.Cell) (m : Memory) (a : Nat) :
    Memory.read (c :: m) a = if a = c.1 then some c.2 else Memory.read m a := by
  obtain ⟨b, v⟩ := c
  by_cases h : a = b
  · simp [Memory.read, h]
  · have hb : (a == b) = false := by simpa using h
    simp [Memory.read, List.lookup, hb, h]

/-- A read after a write to the same address gives the byte written. -/
@[simp] theorem Memory.read_write_same (m : Memory) (a : Nat) (v : Byte) : (m.write a v).read a = some v := by
  induction m with
  | nil => simp [Memory.write, Memory.read_cons]
  | cons c m ih =>
    obtain ⟨b, u⟩ := c
    simp only [Memory.write]
    split
    · simp [Memory.read_cons]
    split
    · simp [Memory.read_cons]
    · rename_i h1 h2; simp [Memory.read_cons, h2, ih]

/-- A write leaves every other address alone. -/
theorem Memory.read_write_other (m : Memory) {a x : Nat} (v : Byte) (h : x ≠ a) :
    (m.write a v).read x = m.read x := by
  induction m with
  | nil => simp [Memory.write, Memory.read_cons, h]
  | cons c m ih =>
    obtain ⟨b, u⟩ := c
    simp only [Memory.write]
    split
    · simp [Memory.read_cons, h]
    split
    · rename_i h2; subst h2; simp [Memory.read_cons, h]
    · simp [Memory.read_cons, ih]

/-- A write removes no byte. -/
theorem Memory.isSome_write (m : Memory) (a x : Nat) (v : Byte) (h : (m.read x).isSome = true) :
    ((m.write a v).read x).isSome = true := by
  by_cases hx : x = a
  · subst hx; simp
  · rw [Memory.read_write_other m v hx]; exact h

theorem Memory.mem_write {m : Memory} {a : Nat} {v : Byte} {c : Host.Cell} (h : c ∈ m.write a v) :
    c = (a, v) ∨ c ∈ m := by
  induction m with
  | nil => simpa [Memory.write] using h
  | cons d m ih =>
    obtain ⟨b, u⟩ := d
    simp only [Memory.write] at h
    split at h
    · simpa using h
    split at h
    · rcases List.mem_cons.mp h with h | h
      · exact .inl h
      · exact .inr (List.mem_cons_of_mem _ h)
    · rcases List.mem_cons.mp h with h | h
      · exact .inr (by simp [h])
      · rcases ih h with h | h
        · exact .inl h
        · exact .inr (List.mem_cons_of_mem _ h)

/-- A write keeps the canonical form. -/
theorem Memory.wf_write {m : Memory} (a : Nat) (v : Byte) (h : m.wf) : (m.write a v).wf := by
  induction m with
  | nil => simp [Memory.write]
  | cons c m ih =>
    obtain ⟨b, u⟩ := c
    replace h := List.pairwise_cons.mp h
    simp only [Memory.write]
    split
    · rename_i h1
      refine List.pairwise_cons.mpr ⟨?_, List.pairwise_cons.mpr h⟩
      intro d hd
      rcases List.mem_cons.mp hd with rfl | hd
      · exact h1
      · exact Nat.lt_trans h1 (h.1 d hd)
    split
    · rename_i h1 h2
      subst h2
      exact List.pairwise_cons.mpr ⟨h.1, h.2⟩
    · rename_i h1 h2
      refine List.pairwise_cons.mpr ⟨?_, ih h.2⟩
      intro d hd
      rcases Memory.mem_write hd with rfl | hd
      · exact by simp only; omega
      · exact h.1 d hd

/-- Reset memory is canonical. -/
theorem State.resetWith_memory_wf (k : Config) : (State.resetWith k).pool.wf ∧ (State.resetWith k).frame.wf :=
  ⟨List.Pairwise.nil, List.Pairwise.nil⟩

/-! ## Frames -/

theorem Memory.sameOutside_refl (m : Memory) (a len : Nat) : m.sameOutside m a len := fun _ _ => rfl

@[simp] theorem Memory.holds_nil (m : Memory) (a : Nat) : m.holds a [] := fun _ h => absurd h (Nat.not_lt_zero _)

theorem Memory.sameOutside_write (m : Memory) (a : Nat) (v : Byte) : m.sameOutside (m.write a v) a 1 := by
  intro x hx
  exact Memory.read_write_other m v (by omega)

theorem Memory.sameOutside_mono {m m' : Memory} {a b len len' : Nat} (h : m.sameOutside m' a len)
    (h1 : b ≤ a) (h2 : a + len ≤ b + len') : m.sameOutside m' b len' := by
  intro x hx
  exact h x (by omega)

theorem Memory.sameOutside_trans {m₁ m₂ m₃ : Memory} {a len : Nat} (h : m₁.sameOutside m₂ a len)
    (h' : m₂.sameOutside m₃ a len) : m₁.sameOutside m₃ a len := by
  intro x hx
  rw [h' x hx, h x hx]

/-- Two adjacent stores are one. -/
theorem Memory.sameOutside_append {m₁ m₂ m₃ : Memory} {a k l : Nat} (h : m₁.sameOutside m₂ a k)
    (h' : m₂.sameOutside m₃ (a + k) l) : m₁.sameOutside m₃ a (k + l) :=
  Memory.sameOutside_trans (Memory.sameOutside_mono h (Nat.le_refl _) (by omega))
    (Memory.sameOutside_mono h' (by omega) (by omega))

theorem Memory.holds_append {m₁ m₂ : Memory} {a : Nat} {l l' : List Byte} (h : m₁.holds a l)
    (hs : m₁.sameOutside m₂ (a + l.length) l'.length) (h' : m₂.holds (a + l.length) l') : m₂.holds a (l ++ l') := by
  intro k hk
  by_cases hl : k < l.length
  · rw [hs _ (by omega), h k hl, List.getElem?_append_left hl]
  · rw [List.getElem?_append_right (by omega)]
    have := h' (k - l.length) (by simp at hk; omega)
    rwa [show a + l.length + (k - l.length) = a + k by omega] at this

end Sys2Proof.Machine
end

