-- ==== Sys2Proof/Laws/Bitstream.lean ====
section
/-! SUPPORT. What the sink, EmitBits and a sequence of EmitBits calls do, each said once: with room they store the
packed, stuffed bytes of the bits from the sink's offset on, without room they abort (44_bitstream.md R251 to R253). -/

namespace Sys2Proof.Machine

/-! ## Packing -/

theorem bitsOf_length (v n : Nat) : (bitsOf v n).length = n := by
  induction n with
  | zero => rfl
  | succ n ih => simp [bitsOf, ih]

theorem itemsBits_length (l : List BitItem) : (itemsBits l).length = itemBits l := by
  induction l with
  | nil => rfl
  | cons x l ih => simp_all [itemsBits, itemBits, bitsOf_length]

theorem wholeBytes_short {l : List Bool} (h : l.length < 8) : wholeBytes l = [] := by
  simp [wholeBytes, Nat.div_eq_of_lt h]

theorem restBits_short {l : List Bool} (h : l.length < 8) : restBits l = l := by
  simp [restBits, Nat.div_eq_of_lt h]

theorem restBits_length (l : List Bool) : (restBits l).length = l.length % 8 := by
  simp only [restBits, List.length_drop]; omega

/-- The first whole byte, then the others. -/
theorem wholeBytes_cons {l : List Bool} (h : 8 ≤ l.length) :
    wholeBytes l = byteOfBits (l.take 8) :: wholeBytes (l.drop 8) := by
  have hd : l.length / 8 = (l.length - 8) / 8 + 1 := by omega
  simp only [wholeBytes, List.length_drop, hd, List.range_succ_eq_map, List.map_cons, List.map_map, List.drop_drop]
  refine congrArg₂ _ (by simp) (List.map_congr_left fun k _ => ?_)
  simp [Nat.mul_add, Nat.add_comm]

theorem restBits_drop {l : List Bool} (h : 8 ≤ l.length) : restBits (l.drop 8) = restBits l := by
  simp only [restBits, List.drop_drop, List.length_drop]
  congr 1
  omega

theorem restBits_append {l m : List Bool} : restBits (restBits l ++ m) = restBits (l ++ m) := by
  induction hn : l.length / 8 generalizing l with
  | zero => rw [restBits_short (l := l) (by omega)]
  | succ k ih =>
    have h8 : 8 ≤ l.length := by omega
    rw [← restBits_drop h8, ih (by simp; omega), ← restBits_drop (l := l ++ m) (by simp; omega),
      List.drop_append_of_le_length h8]

/-- Packing goes on where it stopped. -/
theorem wholeBytes_append {l m : List Bool} :
    wholeBytes (l ++ m) = wholeBytes l ++ wholeBytes (restBits l ++ m) := by
  induction hn : l.length / 8 generalizing l with
  | zero => rw [wholeBytes_short (l := l) (by omega), restBits_short (l := l) (by omega), List.nil_append]
  | succ k ih =>
    have h8 : 8 ≤ l.length := by omega
    rw [wholeBytes_cons (l := l ++ m) (by simp; omega), wholeBytes_cons h8, List.take_append_of_le_length h8,
      List.drop_append_of_le_length h8, ih (by simp; omega), restBits_drop h8, List.cons_append]

theorem stuffed_append (l m : List Byte) : stuffed (l ++ m) = stuffed l ++ stuffed m := by simp [stuffed]

/-! ## What an emission does -/

/-- The session's slot is a slot of the pool, and its size is at most CAP. -/
structure SinkReady (s : State) : Prop where
  slot : s.sess.slot < s.cfg.n
  count : s.slots.length = s.cfg.n
  size : s.sessSize ≤ s.cfg.cap

/-- `t` is `s` after the sink took `out`, with `bits` pending. -/
def Stored (s t : State) (out : List Byte) (bits : List Bool) : Prop :=
  storedIn t (sessionAt s (s.sessSize + out.length) bits) (sinkAddr s) out

/-- `t` is `s` after the sink refused a byte. -/
def Aborted (s t : State) : Prop := sameButBytes t (sessionAborted s) (sinkAddr s) (s.cfg.cap - s.sessSize)

/-- A sub-step that sends `out` to the sink and leaves `bits` pending. -/
def Emits (e : Eff) (s : State) (out : List Byte) (bits : List Bool) : Prop :=
  (s.sessSize + out.length ≤ s.cfg.cap → ∃ t, e = .ok t ∧ Stored s t out bits) ∧
    (s.cfg.cap < s.sessSize + out.length → ∃ t, e = .raised .capacityExceeded t ∧ Aborted s t)

theorem slot_modify_const (l : List Slot) (i k k' : Nat) :
    (l.modify i fun x => { x with size := k }).modify i (fun x => { x with size := k' }) =
      l.modify i fun x => { x with size := k' } := by
  apply List.ext_getElem?
  intro j
  simp only [List.getElem?_modify]
  by_cases h : i = j <;> cases l[j]? <;> simp [h]

/-- A `Stored` state is the expected one, its POOL put aside. -/
theorem Stored.eq {s t : State} {out : List Byte} {bits : List Bool} (h : Stored s t out bits) :
    t = { sessionAt s (s.sessSize + out.length) bits with pool := t.pool } := by
  have h3 := h.2.2
  rw [← h3]

theorem Aborted.eq {s t : State} (h : Aborted s t) : t = { sessionAborted s with pool := t.pool } := by
  have h3 := h.2
  rw [← h3]

theorem Stored.cfg {s t : State} {out : List Byte} {bits : List Bool} (h : Stored s t out bits) : t.cfg = s.cfg := by
  rw [h.eq]; rfl

theorem Stored.sess {s t : State} {out : List Byte} {bits : List Bool} (h : Stored s t out bits) :
    t.sess = { s.sess with acc := bits } := by rw [h.eq]; rfl

theorem Stored.slots {s t : State} {out : List Byte} {bits : List Bool} (h : Stored s t out bits) :
    t.slots = s.slots.modify s.sess.slot fun x => { x with size := s.sessSize + out.length } := by rw [h.eq]; rfl

theorem Stored.sessSize {s t : State} {out : List Byte} {bits : List Bool} (hr : SinkReady s)
    (h : Stored s t out bits) : t.sessSize = s.sessSize + out.length := by
  have hs : s.sess.slot < s.slots.length := by rw [hr.count]; exact hr.slot
  simp [State.sessSize, State.slot, h.sess, h.slots, hs]

theorem Stored.sinkAddr {s t : State} {out : List Byte} {bits : List Bool} (hr : SinkReady s)
    (h : Stored s t out bits) : sinkAddr t = sinkAddr s + out.length := by
  simp only [Machine.sinkAddr, h.sess, h.cfg, h.sessSize hr]; omega

theorem Stored.ready {s t : State} {out : List Byte} {bits : List Bool} (hr : SinkReady s)
    (h : Stored s t out bits) (hf : s.sessSize + out.length ≤ s.cfg.cap) : SinkReady t where
  slot := by rw [h.sess, h.cfg]; exact hr.slot
  count := by rw [h.slots, h.cfg, List.length_modify]; exact hr.count
  size := by rw [h.sessSize hr, h.cfg]; exact hf

/-- Two emissions in a row are one. -/
theorem Stored.append {s t u : State} {o o' : List Byte} {b b' : List Bool} (hr : SinkReady s) (h : Stored s t o b)
    (h' : Stored t u o' b') : Stored s u (o ++ o') b' := by
  have hadr := h.sinkAddr hr
  have hsz := h.sessSize hr
  obtain ⟨p1, p2, -⟩ := id h
  obtain ⟨q1, q2, -⟩ := id h'
  rw [hadr] at q1 q2
  refine ⟨Memory.holds_append p1 q2 q1, ?_, ?_⟩
  · rw [List.length_append]
    exact Memory.sameOutside_append p2 q2
  · rw [h'.eq, hsz, List.length_append]
    have e := h.eq
    generalize t.pool = pl at e
    subst e
    simp only [sessionAt, slot_modify_const, Nat.add_assoc]

/-- An emission followed by a refused byte is a refusal. -/
theorem Stored.aborted {s t u : State} {o : List Byte} {b : List Bool} (hr : SinkReady s) (h : Stored s t o b)
    (hf : s.sessSize + o.length ≤ s.cfg.cap) (h' : Aborted t u) : Aborted s u := by
  have hadr := h.sinkAddr hr
  have hsz := h.sessSize hr
  obtain ⟨-, p2, -⟩ := id h
  obtain ⟨q2, -⟩ := id h'
  rw [hadr, hsz, h.cfg] at q2
  refine ⟨?_, ?_⟩
  · refine Memory.sameOutside_trans (Memory.sameOutside_mono p2 (Nat.le_refl _) (by omega)) ?_
    exact Memory.sameOutside_mono q2 (by omega) (by omega)
  · rw [h'.eq]
    have e := h.eq
    generalize t.pool = pl at e
    subst e
    simp only [sessionAt, sessionAborted, slot_modify_const]

/-- A sequence of two emissions. -/
theorem Emits.bind {e : Eff} {k : State → Eff} {s : State} {o o' : List Byte} {b b' : List Bool} (hr : SinkReady s)
    (h : Emits e s o b)
    (h' : ∀ t, Stored s t o b → SinkReady t → Emits (k t) t o' b') : Emits (e.bind k) s (o ++ o') b' := by
  by_cases hf : s.sessSize + o.length ≤ s.cfg.cap
  · obtain ⟨t, rfl, ht⟩ := h.1 hf
    have hrt := ht.ready hr hf
    have hk := h' t ht hrt
    rw [Emits, ht.sessSize hr, ht.cfg] at hk
    constructor
    · intro hfit
      rw [List.length_append] at hfit
      obtain ⟨u, hu, hs⟩ := hk.1 (by omega)
      exact ⟨u, hu, ht.append hr hs⟩
    · intro hno
      rw [List.length_append] at hno
      obtain ⟨u, hu, hs⟩ := hk.2 (by omega)
      exact ⟨u, hu, ht.aborted hr hf hs⟩
  · obtain ⟨t, rfl, ht⟩ := h.2 (by omega)
    constructor
    · intro hfit
      rw [List.length_append] at hfit
      omega
    · intro _
      exact ⟨t, rfl, ht⟩

/-- What is pending when an emission starts does not matter to what it does. -/
theorem Emits.of_setAcc {e : Eff} {s : State} {l : List Bool} {o : List Byte} {b : List Bool}
    (h : Emits e (s.setAcc l) o b) : Emits e s o b := h

theorem SinkReady.setAcc {s : State} (hr : SinkReady s) (l : List Bool) : SinkReady (s.setAcc l) :=
  ⟨hr.slot, hr.count, hr.size⟩

theorem sessionAt_self (s : State) : sessionAt s s.sessSize s.sess.acc = s := by
  have : s.slots.modify s.sess.slot (fun x => { x with size := s.sessSize }) = s.slots := by
    apply List.ext_getElem?
    intro j
    rw [List.getElem?_modify]
    by_cases h : s.sess.slot = j
    · subst h
      cases hj : s.slots[s.sess.slot]? <;> simp [State.sessSize, State.slot, hj]
    · cases s.slots[j]? <;> simp [h]
  simp [sessionAt, this]

/-- Sending nothing changes nothing. -/
theorem Emits.nil {s : State} (hr : SinkReady s) : Emits (.ok s) s [] s.sess.acc := by
  refine ⟨fun _ => ⟨s, rfl, ?_⟩, fun h => ?_⟩
  · simp only [Stored, List.length_nil, Nat.add_zero, sessionAt_self]
    exact ⟨Memory.holds_nil _ _, Memory.sameOutside_refl _ _ _, rfl⟩
  · have := hr.size
    simp at h
    omega

/-! ## The sink -/

/-- One byte through the sink (R251, R252). -/
theorem sinkByte_emits (v : Byte) {s : State} (hr : SinkReady s) : Emits (sinkByte v s) s [v] s.sess.acc := by
  have hn : ¬ s.cfg.n ≤ s.sess.slot := Nat.not_le.mpr hr.slot
  constructor
  · intro hf
    simp only [List.length_cons, List.length_nil, Nat.zero_add] at hf
    refine ⟨_, by rw [sinkByte, if_neg hn, if_neg (by omega)], ?_, ?_, ?_⟩
    · intro k hk
      obtain rfl : k = 0 := by simpa using hk
      simp
    · exact Memory.sameOutside_write _ _ _
    · simp only [sessionAt, State.modSlot, State.setPool]
      congr 1
      apply List.ext_getElem?
      intro j
      rw [List.getElem?_modify, List.getElem?_modify]
      by_cases h : s.sess.slot = j
      · subst h
        cases hj : s.slots[s.sess.slot]? <;> simp [State.sessSize, State.slot, hj, Slot.setSize]
      · cases s.slots[j]? <;> simp [h]
  · intro hf
    simp only [List.length_cons, List.length_nil, Nat.zero_add] at hf
    refine ⟨_, by rw [sinkByte, if_neg hn, if_pos (by omega)], ?_, ?_⟩
    · exact Memory.sameOutside_refl _ _ _
    · rfl

/-- A run of bytes through the sink (R251, 45_container.md R281). -/
theorem sinkBytes_emits (l : List Byte) {s : State} (hr : SinkReady s) : Emits (sinkBytes l s) s l s.sess.acc := by
  induction l generalizing s with
  | nil => exact Emits.nil hr
  | cons v l ih =>
    rw [← List.singleton_append]
    refine Emits.bind hr (sinkByte_emits v hr) fun t ht hrt => ?_
    have := ih hrt
    rw [ht.sess] at this
    exact this

/-! ## Bits -/

/-- A data byte leaves with its stuffing (R253). -/
theorem dataByte_emits (b : Byte) {s : State} (hr : SinkReady s) :
    Emits (dataByte b s) s (stuffed [b]) s.sess.acc := by
  by_cases hb : b = 0xFF
  · have : stuffed [b] = [b] ++ [0] := by simp [stuffed, hb]
    rw [this]
    refine Emits.bind hr (sinkByte_emits b hr) fun t ht hrt => ?_
    rw [if_pos hb]
    have := sinkByte_emits 0 hrt
    rw [ht.sess] at this
    exact this
  · have : stuffed [b] = [b] ++ [] := by
      rw [stuffed, List.flatMap_cons, if_neg hb]; rfl
    rw [this]
    refine Emits.bind hr (sinkByte_emits b hr) fun t ht hrt => ?_
    rw [if_neg hb]
    have := Emits.nil hrt
    rw [ht.sess] at this
    exact this

/-- As many turns of EmitBits' loop as there are whole bytes (R253). -/
theorem drain_emits {s : State} (hr : SinkReady s) :
    Emits (drain (s.sess.acc.length / 8) s) s (stuffed (wholeBytes s.sess.acc)) (restBits s.sess.acc) := by
  generalize hn : s.sess.acc.length / 8 = n
  induction n generalizing s with
  | zero =>
    have h8 : s.sess.acc.length < 8 := by omega
    rw [wholeBytes_short h8, restBits_short h8]
    exact Emits.nil hr
  | succ n ih =>
    have h8 : 8 ≤ s.sess.acc.length := by omega
    rw [wholeBytes_cons h8, ← restBits_drop h8, ← List.singleton_append (x := byteOfBits _), stuffed_append]
    refine Emits.of_setAcc (l := s.sess.acc.drop 8) ?_
    refine Emits.bind (hr.setAcc _) (dataByte_emits _ (hr.setAcc _)) fun t ht hrt => ?_
    have hacc : t.sess.acc = s.sess.acc.drop 8 := by rw [ht.sess]; rfl
    have := ih hrt (by rw [hacc, List.length_drop]; omega)
    rw [hacc] at this
    exact this

/-- `EmitBits` (R253): the bits join the pending ones, and every whole byte leaves, stuffed. -/
theorem emitBits_emits (v n : Nat) {s : State} (hr : SinkReady s) :
    Emits (emitBits v n s) s (stuffed (wholeBytes (s.sess.acc ++ bitsOf v n))) (restBits (s.sess.acc ++ bitsOf v n)) := by
  refine Emits.of_setAcc (l := s.sess.acc ++ bitsOf v n) ?_
  have := drain_emits (hr.setAcc (s.sess.acc ++ bitsOf v n))
  simp only [State.setAcc_sess, List.length_append, bitsOf_length] at this
  exact this

/-- A sequence of EmitBits calls packs its bits as one string. -/
theorem emitItems_emits (l : List BitItem) {s : State} (hr : SinkReady s) (hs : s.sess.acc.length < 8) :
    Emits (emitItems l s) s (stuffed (wholeBytes (s.sess.acc ++ itemsBits l)))
      (restBits (s.sess.acc ++ itemsBits l)) := by
  induction l generalizing s with
  | nil =>
    simp only [itemsBits, List.flatMap_nil, List.append_nil, wholeBytes_short hs, restBits_short hs]
    exact Emits.nil hr
  | cons x l ih =>
    have e : s.sess.acc ++ itemsBits (x :: l) = (s.sess.acc ++ bitsOf x.value x.count) ++ itemsBits l := by
      simp [itemsBits]
    rw [e, wholeBytes_append, ← restBits_append (l := s.sess.acc ++ bitsOf x.value x.count), stuffed_append]
    refine Emits.bind hr (emitBits_emits x.value x.count hr) fun t ht hrt => ?_
    have hacc : t.sess.acc = restBits (s.sess.acc ++ bitsOf x.value x.count) := by rw [ht.sess]
    have := ih hrt (by rw [hacc, restBits_length]; omega)
    rw [hacc] at this
    exact this

end Sys2Proof.Machine
end

