-- ==== Sys2Proof/Laws/Entropy.lean ====
section
/-! SUPPORT. The bits the entropy coder's loop emits for a block are those of 43_entropy.md R215 and R216, read off the
block's nonzero positions. -/

namespace Sys2Proof.Machine

/-- The two ways to say a magnitude category agree (43_entropy.md R211). -/
theorem mag_eq_size (v : Int) : mag v = Nat.size v.natAbs := by
  unfold mag bitlen
  generalize v.natAbs = n
  split
  · rename_i h; simp [h]
  · rename_i h
    apply Nat.le_antisymm
    · have h1 : 2 ^ Nat.log2 n ≤ n := Nat.log2_self_le h
      exact Nat.lt_size.mpr h1
    · exact Nat.size_le.mpr Nat.lt_log2_self

/-- The VLI of a negative value as a sum instead of a remainder (43_entropy.md R214). -/
theorem vli_eq (v : Int) :
    vli v (Nat.size v.natAbs) = if 0 ≤ v then v.toNat else (v + 2 ^ Nat.size v.natAbs - 1).toNat := by
  unfold vli
  split
  · rfl
  · rename_i h
    have hs : v.natAbs < 2 ^ Nat.size v.natAbs := Nat.lt_size_self _
    congr 1
    rw [← Int.add_emod_right, Int.emod_eq_of_lt] <;> push_cast <;> zify at hs <;>
      rw [abs_of_neg (by omega)] at hs <;> omega

@[simp] theorem itemsBits_nil : itemsBits [] = [] := rfl

@[simp] theorem itemsBits_cons (x : BitItem) (l : List BitItem) :
    itemsBits (x :: l) = bitsOf x.value x.count ++ itemsBits l := by simp [itemsBits]

@[simp] theorem itemsBits_append (l m : List BitItem) : itemsBits (l ++ m) = itemsBits l ++ itemsBits m := by
  simp [itemsBits]

theorem itemsBits_replicate (k : Nat) (x : BitItem) :
    itemsBits (List.replicate k x) = (List.replicate k (bitsOf x.value x.count)).flatten := by
  induction k with
  | zero => rfl
  | succ k ih => simp [List.replicate_succ, ih]

theorem bitsOf_vliItem (v : Int) : bitsOf (vliItem v).value (vliItem v).count = vliBits v := by
  simp only [vliItem, vliBits, mag_eq_size, vli_eq]

/-- One more position: it joins the nonzero ones or not. -/
theorem nonzeroBelow_succ (b : Block) (n : Nat) :
    nonzeroBelow b (n + 2) = nonzeroBelow b (n + 1) ++ if scanAt b (n + 1) ≠ 0 then [n + 1] else [] := by
  simp only [nonzeroBelow, Nat.add_sub_cancel, show n + 2 - 1 = n + 1 by omega, List.range'_1_concat,
    List.filter_append]
  by_cases h : scanAt b (1 + n) = 0 <;> simp [h, Nat.add_comm n 1]

theorem nonzeroBelow_last_le (b : Block) (n : Nat) : (nonzeroBelow b (n + 1)).getLast?.getD 0 ≤ n := by
  induction n with
  | zero => simp [nonzeroBelow]
  | succ n ih =>
    rw [nonzeroBelow_succ]
    split
    · simp
    · simp; omega

/-- The coder's loop from position `n + 1` on, `run` zeros after the last nonzero one (43_entropy.md R216). -/
theorem acItems_bits (ch : Channel) (b : Block) (m n run : Nat) (hrun : run = n - (nonzeroBelow b (n + 1)).getLast?.getD 0) :
    itemsBits (acItems (acSpec ch) run ((List.range' (n + 1) m).map (scanAt b))) =
      ((List.range' (n + 1) m).filter fun k => scanAt b k ≠ 0).flatMap (acBits ch b) ++
        if (nonzeroBelow b (n + m + 1)).getLast?.getD 0 < n + m then codeBits (acSpec ch) 0x00 else [] := by
  induction m generalizing n run with
  | zero =>
    have := nonzeroBelow_last_le b n
    by_cases h : (nonzeroBelow b (n + 1)).getLast?.getD 0 < n
    · have h0 : 0 < run := by omega
      simp [acItems, h0, h, codeItem, codeBits]
    · have h0 : ¬0 < run := by omega
      simp [acItems, h0, h]
  | succ m ih =>
    have hs := nonzeroBelow_succ b n
    have hle := nonzeroBelow_last_le b n
    rw [List.range'_succ, List.map_cons, acItems]
    by_cases hv : scanAt b (n + 1) = 0
    · rw [if_pos hv, ih (n + 1) (run + 1) (by rw [hs]; simp [hv]; omega)]
      simp [hv, Nat.add_assoc, Nat.add_comm 1 m]
    · have hz : zerosBefore b (n + 1) = run := by simp [zerosBefore, hrun]
      rw [if_neg hv, itemsBits_append, itemsBits_cons, itemsBits_cons,
        ih (n + 1) 0 (by rw [hs]; simp [hv]), itemsBits_replicate, bitsOf_vliItem]
      simp [hv, acBits, hz, codeItem, codeBits, mag_eq_size, Nat.mul_comm, Nat.add_assoc, Nat.add_comm 1 m]

/-- The AC elements in scan order, by position. -/
theorem acScan_eq (b : Block) : acScan b = (List.range' 1 63).map (scanAt b) := by
  unfold acScan scanAt
  rw [show zigzag.toList.drop 1 = (List.range' 1 63).map fun k => zigzag.toList.getD k 0 by decide +kernel, List.map_map]
  rfl

/-- The bits the coder emits for a block are the block's bits (43_entropy.md R215, R216). -/
theorem itemsBits_blockItems (ch : Channel) (b : Block) (p : Sample) :
    itemsBits (blockItems ch b p) = scanBits ch b p := by
  have h := acItems_bits ch b 63 0 0 (by simp)
  have hlast : ((nonzeroBelow b 64).getLast?.getD 0 < 63) ↔ scanAt b 63 = 0 := by
    have hs := nonzeroBelow_succ b 62
    have hle : (nonzeroBelow b 63).getLast?.getD 0 ≤ 62 := nonzeroBelow_last_le b 62
    rw [show (64 : Nat) = 62 + 2 from rfl, hs]
    by_cases hv : scanAt b 63 = 0 <;> simp [hv]; omega
  rw [blockItems, itemsBits_append, acScan_eq, h, scanBits]
  simp only [Nat.zero_add, hlast, dcItems, itemsBits_cons, itemsBits_nil, bitsOf_vliItem, dcDiff, codeItem, codeBits,
    mag_eq_size, List.append_nil, List.append_assoc]
  rfl

end Sys2Proof.Machine
end

