-- ==== Sys2Proof/Laws/Frame.lean ====
section
/-! SUPPORT. What no codec command touches, said once (46_encoder.md R314, 60_exceptions.md R394): `CodecFrame`, kept
by every shared operation and by every command of port P but ACQFILL and PUBLISH. -/

namespace Sys2Proof.Machine

/-- Between `s` and `t` only port P's STATUS and results, ERR, BLK, the session, the predictors, slot sizes, the
sequencer, POOL and the count of draws may differ. -/
structure CodecFrame (s t : State) : Prop where
  cfg : t.cfg = s.cfg
  portC : t.portC = s.portC
  cmd : t.portP.cmd = s.portP.cmd
  arg : t.portP.arg = s.portP.arg
  latchWord : t.portP.latchWord = s.portP.latchWord
  latchArg : t.portP.latchArg = s.portP.latchArg
  count : t.slots.length = s.slots.length
  state : ∀ i, (t.slot i).state = (s.slot i).state
  loc : ∀ i, (t.slot i).loc = (s.slot i).loc
  freeQ : t.freeQ = s.freeQ
  filledQ : t.filledQ = s.filledQ
  waitActive : t.waitActive = s.waitActive
  frame : t.frame = s.frame
  inputs : t.inputs = s.inputs
  readData : t.readData = s.readData
  frameChanged : t.frameChanged = s.frameChanged

theorem CodecFrame.refl (s : State) : CodecFrame s s := by constructor <;> intros <;> rfl

theorem CodecFrame.trans {s t u : State} (h : CodecFrame s t) (h' : CodecFrame t u) : CodecFrame s u where
  cfg := h'.cfg.trans h.cfg
  portC := h'.portC.trans h.portC
  cmd := h'.cmd.trans h.cmd
  arg := h'.arg.trans h.arg
  latchWord := h'.latchWord.trans h.latchWord
  latchArg := h'.latchArg.trans h.latchArg
  count := h'.count.trans h.count
  state i := (h'.state i).trans (h.state i)
  loc i := (h'.loc i).trans (h.loc i)
  freeQ := h'.freeQ.trans h.freeQ
  filledQ := h'.filledQ.trans h.filledQ
  waitActive := h'.waitActive.trans h.waitActive
  frame := h'.frame.trans h.frame
  inputs := h'.inputs.trans h.inputs
  readData := h'.readData.trans h.readData
  frameChanged := h'.frameChanged.trans h.frameChanged

/-! ## The updates -/

theorem codecFrame_complete (s : State) (c : StatusCode) (a b d : Word) : CodecFrame s (complete .p c a b d s) := by
  constructor <;> intros <;> rfl

theorem codecFrame_raiseStatus (s : State) (c : StatusCode) : CodecFrame s (raiseStatus .p c s) :=
  codecFrame_complete s c 0 0 0

theorem codecFrame_faultErr (s : State) (b : ErrBit) : CodecFrame s (faultErr b s) := by
  constructor <;> intros <;> rfl

theorem codecFrame_setBlk (s : State) (b : Block) : CodecFrame s (s.setBlk b) := by constructor <;> intros <;> rfl
theorem codecFrame_setSess (s : State) (x : Session) : CodecFrame s (s.setSess x) := by
  constructor <;> intros <;> rfl
theorem codecFrame_setAcc (s : State) (l : List Bool) : CodecFrame s (s.setAcc l) := by
  constructor <;> intros <;> rfl
theorem codecFrame_setPreds (s : State) (x : Preds) : CodecFrame s (s.setPreds x) := by
  constructor <;> intros <;> rfl
theorem codecFrame_setPool (s : State) (m : Memory) : CodecFrame s (s.setPool m) := by
  constructor <;> intros <;> rfl
theorem codecFrame_setSeq (s : State) (x : Option Seq) : CodecFrame s (s.setSeq x) := by
  constructor <;> intros <;> rfl
theorem codecFrame_loadBlock (s : State) (k : Nat) (b : Block) : CodecFrame s (loadBlock s k b) := by
  constructor <;> intros <;> rfl

/-- Changing sizes only. -/
theorem codecFrame_modSlot (s : State) (i : Nat) (f : Slot → Slot) (hs : ∀ x, (f x).state = x.state)
    (hl : ∀ x, (f x).loc = x.loc) : CodecFrame s (s.modSlot i f) := by
  have key : ∀ j, (s.modSlot i f).slot j = s.slot j ∨ (s.modSlot i f).slot j = f (s.slot j) := by
    intro j
    by_cases h : j = i
    · subst h
      by_cases hj : j < s.slots.length
      · exact .inr (State.slot_modSlot_self s j f hj)
      · left
        simp [State.slot, State.modSlot, List.getElem?_eq_none (Nat.le_of_not_lt hj)]
    · exact .inl (State.slot_modSlot_other s f h)
  constructor
  case count => simp
  case state => intro j; rcases key j with h | h <;> simp [h, hs]
  case loc => intro j; rcases key j with h | h <;> simp [h, hl]
  all_goals rfl

theorem codecFrame_abortSession (s : State) : CodecFrame s (abortSession s) :=
  (codecFrame_modSlot s s.sess.slot (fun x => x.setSize 0) (fun _ => rfl) fun _ => rfl).trans
    (codecFrame_setSess _ _)

theorem codecFrame_beginSession (k : Nat) (s : State) : CodecFrame s (beginSession k s) := by
  unfold beginSession
  refine CodecFrame.trans ?_ (codecFrame_setPreds _ _)
  refine CodecFrame.trans ?_ (codecFrame_setSess _ _)
  refine CodecFrame.trans ?_ (codecFrame_modSlot _ k (fun x => x.setSize 0) (fun _ => rfl) fun _ => rfl)
  split
  · exact codecFrame_abortSession s
  · exact CodecFrame.refl s

/-! ## Sub-steps -/

/-- However the sub-step ends, the state it ends in is in the frame. -/
def Eff.Framed (e : Eff) (s : State) : Prop :=
  (∀ t, e = .ok t → CodecFrame s t) ∧ ∀ c t, e = .raised c t → CodecFrame s t

theorem framed_ok {s t : State} (h : CodecFrame s t) : (Eff.ok t).Framed s :=
  ⟨fun _ e => by cases e; exact h, fun _ _ e => by cases e⟩

theorem framed_raised {s t : State} (c : StatusCode) (h : CodecFrame s t) : (Eff.raised c t).Framed s :=
  ⟨fun _ e => (by cases e), fun _ _ e => by cases e; exact h⟩

theorem framed_stuck {s : State} (f : Fault) : (Eff.stuck f).Framed s :=
  ⟨fun _ e => (by cases e), fun _ _ e => by cases e⟩

theorem framed_bind {e : Eff} {k : State → Eff} {s : State} (h : e.Framed s) (hk : ∀ t, (k t).Framed t) :
    (e.bind k).Framed s := by
  cases e with
  | ok t =>
    have ht := h.1 t rfl
    exact ⟨fun u e => ht.trans ((hk t).1 u e), fun c u e => ht.trans ((hk t).2 c u e)⟩
  | raised c t => exact framed_raised c (h.2 c t rfl)
  | stuck f => exact framed_stuck f

theorem framed_of {e : Eff} {s t : State} (h : CodecFrame s t) (he : e.Framed t) : e.Framed s :=
  ⟨fun u hu => h.trans (he.1 u hu), fun c u hu => h.trans (he.2 c u hu)⟩

theorem framed_needSession {e : Eff} {s : State} (h : e.Framed s) : (needSession s e).Framed s := by
  unfold needSession
  split
  · exact h
  · exact framed_raised _ (codecFrame_faultErr s _)

theorem framed_sinkByte (v : Byte) (s : State) : (sinkByte v s).Framed s := by
  unfold sinkByte
  split
  · exact framed_stuck _
  split
  · exact framed_raised _ (codecFrame_abortSession s)
  · exact framed_ok ((codecFrame_setPool s _).trans (codecFrame_modSlot _ _ (fun x => x.setSize (x.size + 1))
      (fun _ => rfl) fun _ => rfl))

theorem framed_sinkBytes (l : List Byte) (s : State) : (sinkBytes l s).Framed s := by
  induction l generalizing s with
  | nil => exact framed_ok (CodecFrame.refl s)
  | cons v l ih => exact framed_bind (framed_sinkByte v s) ih

theorem framed_dataByte (b : Byte) (s : State) : (dataByte b s).Framed s := by
  refine framed_bind (framed_sinkByte b s) fun t => ?_
  split
  · exact framed_sinkByte 0 t
  · exact framed_ok (CodecFrame.refl t)

theorem framed_drain (k : Nat) (s : State) : (drain k s).Framed s := by
  induction k generalizing s with
  | zero => exact framed_ok (CodecFrame.refl s)
  | succ k ih => exact framed_of (codecFrame_setAcc s _) (framed_bind (framed_dataByte _ _) ih)

theorem framed_emitBits (v n : Nat) (s : State) : (emitBits v n s).Framed s :=
  framed_of (codecFrame_setAcc s _) (framed_drain _ _)

theorem framed_emitItems (l : List BitItem) (s : State) : (emitItems l s).Framed s := by
  induction l generalizing s with
  | nil => exact framed_ok (CodecFrame.refl s)
  | cons x l ih => exact framed_bind (framed_emitBits _ _ s) ih

theorem framed_flushBits (s : State) : (flushBits s).Framed s := by
  unfold flushBits
  split
  · exact framed_ok (CodecFrame.refl s)
  · exact framed_emitBits _ _ s

theorem framed_eoiStep (s : State) : (eoiStep s).Framed s :=
  framed_needSession (framed_bind (framed_sinkBytes _ s) fun t => framed_ok (codecFrame_setSess t _))

theorem framed_entropyStep (ch : Channel) (s : State) : (entropyStep ch s).Framed s := by
  refine framed_needSession ?_
  split
  · exact framed_of (codecFrame_setPreds s _) (framed_emitItems _ _)
  · exact framed_raised _ (CodecFrame.refl s)

theorem framed_extractLuma (f l w h r c : Nat) (s : State) : (extractLuma f l w h r c s).Framed s := by
  unfold extractLuma
  split
  · exact framed_raised _ (CodecFrame.refl s)
  dsimp only
  split
  · exact framed_raised _ (CodecFrame.refl s)
  split
  · exact framed_ok (codecFrame_loadBlock s _ _)
  · exact framed_stuck _

theorem framed_extractChroma (ch : Chroma) (f l w h r c : Nat) (s : State) :
    (extractChroma ch f l w h r c s).Framed s := by
  unfold extractChroma
  split
  · exact framed_raised _ (CodecFrame.refl s)
  dsimp only
  split
  · exact framed_raised _ (CodecFrame.refl s)
  split
  · exact framed_ok (codecFrame_loadBlock s _ _)
  · exact framed_stuck _

theorem framed_seqEffect (pos : Seq) (s : State) : (seqEffect pos s).Framed s := by
  unfold seqEffect
  dsimp only
  split
  · exact framed_ok (CodecFrame.refl s)
  · exact framed_ok (codecFrame_beginSession _ s)
  · exact framed_sinkBytes _ s
  · rename_i b
    cases b <;> first | exact framed_extractLuma _ _ _ _ _ _ s | exact framed_extractChroma _ _ _ _ _ _ _ s
  · exact framed_ok (codecFrame_setBlk s _)
  · rename_i b
    cases b <;> exact framed_ok (codecFrame_setBlk s _)
  · exact framed_entropyStep _ s
  · exact framed_needSession (framed_flushBits s)
  · exact framed_eoiStep s
  · exact framed_ok (CodecFrame.refl s)

/-! ## The commands -/

theorem framed_finish {e : Eff} {done : State → State} {s t : State} (he : e.Framed s)
    (hd : ∀ u, CodecFrame u (done u)) (h : finish e done = .next t) : CodecFrame s t := by
  cases e with
  | ok u => cases h; exact (he.1 u rfl).trans (hd u)
  | raised c u => cases h; exact (he.2 c u rfl).trans (codecFrame_raiseStatus u c)
  | stuck f => cases h

theorem framed_encodeValidate (s : State) : CodecFrame s (encodeValidate s) := by
  have h : ∀ t, encodeRefusal s = some t → CodecFrame s t := by
    intro t ht
    unfold encodeRefusal at ht
    dsimp only at ht
    repeat' split at ht
    all_goals first
      | (cases ht; exact codecFrame_raiseStatus s _)
      | (cases ht; exact (codecFrame_faultErr s _).trans (codecFrame_raiseStatus _ _))
      | cases ht
  unfold encodeValidate
  split
  · rename_i t ht
    exact (h t ht).trans (codecFrame_setSeq t _)
  · exact codecFrame_setSeq s _

theorem framed_encodeAdvance {pos : Seq} {e : Eff} {s t : State} (he : e.Framed s)
    (h : encodeAdvance pos e = .next t) : CodecFrame s t := by
  cases e with
  | ok u =>
    simp only [encodeAdvance] at h
    split at h <;> cases h
    · exact (he.1 u rfl).trans ((codecFrame_setSeq u _).trans (codecFrame_complete _ _ _ _ _))
    · exact (he.1 u rfl).trans (codecFrame_setSeq u _)
  | raised c u =>
    cases h
    exact (he.2 c u rfl).trans ((codecFrame_setSeq u _).trans (codecFrame_raiseStatus _ _))
  | stuck f => cases h

/-- Every command of port P but ACQFILL and PUBLISH keeps the frame. -/
theorem exec_codecFrame {i : Instr} {s t : State} (hp : i.port = .p) (h1 : i ≠ .acqfill) (h2 : i ≠ .publish)
    (h : exec i s = .next t) : CodecFrame s t := by
  cases i with
  | acqfill => exact absurd rfl h1
  | publish => exact absurd rfl h2
  | acqread => cases hp
  | release => cases hp
  | encode =>
    simp only [exec, execEncode] at h
    split at h
    · cases h; exact framed_encodeValidate s
    · cases h; exact framed_encodeValidate s
    · cases h; exact framed_encodeValidate s
    · exact framed_encodeAdvance (framed_seqEffect _ s) h
  | sessionBegin =>
    simp only [exec, execSessionBegin] at h
    split at h
    · cases h; exact codecFrame_raiseStatus s _
    split at h
    · cases h; exact (codecFrame_faultErr s _).trans (codecFrame_raiseStatus _ _)
    · cases h; exact (codecFrame_beginSession _ s).trans (codecFrame_complete _ _ _ _ _)
  | emitHeaders =>
    refine framed_finish (framed_needSession ?_) (fun u => codecFrame_complete u _ _ _ _) h
    split
    · exact framed_raised _ (CodecFrame.refl s)
    · exact framed_sinkBytes _ s
  | extractY => exact framed_finish (framed_extractLuma _ _ _ _ _ _ s) (fun u => codecFrame_complete u _ _ _ _) h
  | extractCb =>
    exact framed_finish (framed_extractChroma _ _ _ _ _ _ _ s) (fun u => codecFrame_complete u _ _ _ _) h
  | extractCr =>
    exact framed_finish (framed_extractChroma _ _ _ _ _ _ _ s) (fun u => codecFrame_complete u _ _ _ _) h
  | fdct => cases h; exact (codecFrame_setBlk s _).trans (codecFrame_complete _ _ _ _ _)
  | quantY => cases h; exact (codecFrame_setBlk s _).trans (codecFrame_complete _ _ _ _ _)
  | quantC => cases h; exact (codecFrame_setBlk s _).trans (codecFrame_complete _ _ _ _ _)
  | entropyY => exact framed_finish (framed_entropyStep _ s) (fun u => codecFrame_complete u _ _ _ _) h
  | entropyCb => exact framed_finish (framed_entropyStep _ s) (fun u => codecFrame_complete u _ _ _ _) h
  | entropyCr => exact framed_finish (framed_entropyStep _ s) (fun u => codecFrame_complete u _ _ _ _) h
  | writeBits =>
    refine framed_finish (framed_needSession ?_) (fun u => codecFrame_complete u _ _ _ _) h
    split
    · exact framed_raised _ (CodecFrame.refl s)
    · exact framed_emitBits _ _ s
  | flushBits =>
    exact framed_finish (framed_needSession (framed_flushBits s)) (fun u => codecFrame_complete u _ _ _ _) h
  | emitEoi => exact framed_finish (framed_eoiStep s) (fun u => codecFrame_complete u _ _ _ _) h
  | blkRead =>
    simp only [exec, execBlkRead] at h
    split at h <;> cases h
    · exact codecFrame_raiseStatus s _
    · exact codecFrame_complete s _ _ _ _
  | blkWrite =>
    simp only [exec, execBlkWrite] at h
    split at h <;> cases h
    · exact codecFrame_raiseStatus s _
    · exact (codecFrame_setBlk s _).trans (codecFrame_complete _ _ _ _ _)

end Sys2Proof.Machine
end

