-- ==== Sys2Proof/Laws/HostProgram.lean ====
section
/-! SUPPORT. When a run of two host programs is over (60_exceptions.md R398). -/

namespace Sys2Proof.Machine

/-- A quiet program goes on quietly, whatever value its action returned. -/
theorem HostProg.quiet_next {R : Nat → List Word → Prop} {p : HostProg} (h : p.quiet R) {x : Input}
    {k : Word → HostProg} (hn : p.next = some (x, k)) (v : Word) : (k v).quiet R := by
  cases p with
  | stop => cases hn
  | goto k vals => cases hn
  | write width off w p => cases hn; exact h.2
  | read width off p => cases hn; exact h v
  | readPool who a p => cases hn; exact h v
  | poll q p =>
    cases hn
    have hp : p.quiet R := h
    show (if v.getLsbD 1 = true then p else .poll q p).quiet R
    split <;> assumption

theorem HostProg.quiet_not_issues {R : Nat → List Word → Prop} {p : HostProg} (h : p.quiet R) : ¬p.issues := by
  rintro ⟨off, v, k, hn, ho⟩
  cases p with
  | write width off' w p => cases hn; exact h.1 ⟨rfl, ho⟩
  | _ => cases hn

/-- Where a quiet program has no action on the core, it jumps to a quiet one. -/
theorem System.quiet_jump {y : System} {R : Nat → List Word → Prop} {who : Agent} (h : y.quiet R who) :
    ((y.prog who).jump (y.code who)).quiet R := by
  obtain ⟨hp, hR⟩ := h
  cases hq : y.prog who with
  | goto k vals => rw [hq] at hp; exact hR k vals hp
  | _ => rw [hq] at hp; exact hp

/-- A host that goes on quietly stays quiet, and so does the other one. -/
theorem System.quiet_setProg {y : System} {R : Agent → Nat → List Word → Prop} (h : ∀ who, y.quiet (R who) who)
    {who : Agent} {p : HostProg} (hp : p.quiet (R who)) (s : State) :
    ∀ who', ({ y with core := s }.setProg who p).quiet (R who') who' := by
  intro who'
  cases who <;> cases who' <;>
    first
    | exact ⟨hp, (h _).2⟩
    | exact h _

/-- The core's part of a turn leaves the system as `after` says. -/
theorem System.act_next {y z : System} {x : Input} {rest : List Turn} {after : State → System}
    (h : y.act x rest after = .next z) : ∃ s, z = after s := by
  unfold System.act at h
  split at h <;> cases h
  exact ⟨_, rfl⟩

/-- A turn keeps both hosts quiet. -/
theorem System.turn_quiet {y z : System} {R : Agent → Nat → List Word → Prop} {t : Turn} {rest : List Turn}
    (hq : ∀ who, y.quiet (R who) who) (h : y.turn t rest = .next z) : ∀ who, z.quiet (R who) who := by
  cases t with
  | host who =>
    simp only [System.turn, System.hostTurn] at h
    split at h
    · cases h; exact System.quiet_setProg hq (System.quiet_jump (hq who)) y.core
    · rename_i x k hn
      obtain ⟨s, rfl⟩ := System.act_next h
      exact System.quiet_setProg hq (HostProg.quiet_next (hq who).1 hn s.readData) s
  | grant q | frame a v | reset k =>
    simp only [System.turn] at h
    obtain ⟨s, rfl⟩ := System.act_next h
    intro who
    cases who <;> exact hq _

/-- With both ports idle, a run is over as soon as neither host issues a command any more; both need not have stopped,
and may loop on (60_exceptions.md R398). -/
theorem System.over_of_quiet {y : System} (R : Agent → Nat → List Word → Prop) (hi : portsIdle y.core)
    (hq : ∀ who, y.quiet (R who) who) : y.over := by
  refine ⟨hi, fun l z hl h => ?_⟩
  suffices hz : ∀ who, z.quiet (R who) who from fun who => HostProg.quiet_not_issues (hz who).1
  clear hi hl
  induction l generalizing y with
  | nil => cases h; exact hq
  | cons t l ih =>
    unfold System.run at h
    split at h
    · rename_i u hu
      exact ih (System.turn_quiet hq hu) h
    · rename_i hne
      exact absurd h (hne z)

end Sys2Proof.Machine
end

