-- ==== Sys2Proof/Laws/PerInstr.lean ====
section
/-! SUPPORT. Per command: its word has zero RSVD bits and its opcode below them, and that opcode is its own in the map of
30_encoding.md R123. -/

namespace Sys2Proof.Laws.EncodingShape

/-- The CMD32 shape of a command (30_encoding.md R121, R123). -/
def Statement (i : Instr) : Prop :=
  rsvdField (encode i) = 0 ∧ opcodeField (encode i) = opcode i ∧ instrOfOpcode (opcode i).toNat = some i

theorem acqfill : Statement .acqfill := by unfold Statement; decide
theorem publish : Statement .publish := by unfold Statement; decide
theorem encode : Statement .encode := by unfold Statement; decide
theorem sessionBegin : Statement .sessionBegin := by unfold Statement; decide
theorem emitHeaders : Statement .emitHeaders := by unfold Statement; decide
theorem extractY : Statement .extractY := by unfold Statement; decide
theorem extractCb : Statement .extractCb := by unfold Statement; decide
theorem extractCr : Statement .extractCr := by unfold Statement; decide
theorem fdct : Statement .fdct := by unfold Statement; decide
theorem quantY : Statement .quantY := by unfold Statement; decide
theorem quantC : Statement .quantC := by unfold Statement; decide
theorem entropyY : Statement .entropyY := by unfold Statement; decide
theorem entropyCb : Statement .entropyCb := by unfold Statement; decide
theorem entropyCr : Statement .entropyCr := by unfold Statement; decide
theorem writeBits : Statement .writeBits := by unfold Statement; decide
theorem flushBits : Statement .flushBits := by unfold Statement; decide
theorem emitEoi : Statement .emitEoi := by unfold Statement; decide
theorem blkRead : Statement .blkRead := by unfold Statement; decide
theorem blkWrite : Statement .blkWrite := by unfold Statement; decide
theorem acqread : Statement .acqread := by unfold Statement; decide
theorem release : Statement .release := by unfold Statement; decide

end Sys2Proof.Laws.EncodingShape
end

