-- ==== Sys2Proof/Laws/Pool.lean ====
section
/-! SUPPORT. Address resolution, and what the ownership invariant says of an index (47_pool.md R347, 10_state.md
R44). -/

namespace Sys2Proof.Machine

theorem Config.cap_pos {k : Config} (h : k.legal = true) : 0 < k.cap := by
  simp only [Config.legal, Bool.and_eq_true, decide_eq_true_eq] at h
  omega

/-- A slot's start address resolves to it (47_pool.md R347). -/
theorem resolve_bufAddr {k : Config} (h : k.legal = true) {i : Nat} (hi : i < k.n) :
    resolve k (bufAddr k i) = some i := by
  have hc := Config.cap_pos h
  have hlt : i * k.cap < k.n * k.cap := Nat.mul_lt_mul_of_pos_right hi hc
  have he : bufAddr k i - k.poolBase = i * k.cap := by simp [bufAddr]
  rw [resolve, he, if_pos ⟨by simp [bufAddr], by simp [bufAddr]; exact hlt, Nat.mul_mod_left _ _⟩,
    Nat.mul_div_cancel _ hc]

/-- Only slots' start addresses resolve (47_pool.md R347). -/
theorem resolve_some {k : Config} (h : k.legal = true) {a i : Nat} (hr : resolve k a = some i) :
    i < k.n ∧ a = bufAddr k i := by
  have hc := Config.cap_pos h
  unfold resolve at hr
  split at hr
  · rename_i hcond
    obtain ⟨h1, h2, h3⟩ := hcond
    cases hr
    have hd := Nat.div_add_mod (a - k.poolBase) k.cap
    rw [h3, Nat.add_zero, Nat.mul_comm] at hd
    refine ⟨?_, by simp only [bufAddr, hd]; omega⟩
    rw [Nat.div_lt_iff_lt_mul hc]
    omega
  · cases hr

/-- A queued free index is Free and in FreeQueue. -/
theorem PoolInv.free {s : State} (h : PoolInv s) {i : Nat} (hi : i ∈ s.freeQ) :
    (s.slot i).loc = .inFreeQueue ∧ (s.slot i).state = .free := by
  have ho := h.owned i (h.inRange i (.inl hi))
  have hc := List.count_pos_iff.mpr hi
  unfold ownedOnce at ho
  cases hl : (s.slot i).loc <;> rw [hl] at ho <;> simp_all

/-- A queued filled index is Filled and in FilledQueue: ACQREAD's check never fires (47_pool.md R352). -/
theorem PoolInv.filled {s : State} (h : PoolInv s) {i : Nat} (hi : i ∈ s.filledQ) :
    (s.slot i).loc = .inFilledQueue ∧ (s.slot i).state = .filled := by
  have ho := h.owned i (h.inRange i (.inr hi))
  have hc := List.count_pos_iff.mpr hi
  unfold ownedOnce at ho
  cases hl : (s.slot i).loc <;> rw [hl] at ho <;> simp_all

/-- A CheckedOut slot is held by port C. -/
theorem PoolInv.checkedOut {s : State} (h : PoolInv s) {i : Nat} (hi : i < s.cfg.n)
    (hs : (s.slot i).state = .checkedOut) : (s.slot i).loc = .consumerHeld := by
  have ho := h.owned i hi
  unfold ownedOnce at ho
  cases hl : (s.slot i).loc <;> rw [hl] at ho <;> simp_all

/-- No port can hold or queue a lost index: under the invariant there is none (47_pool.md R352). -/
theorem PoolInv.not_lost {s : State} (h : PoolInv s) {i : Nat} (hi : i < s.cfg.n) : ¬lost s i := by
  have ho := h.owned i hi
  rintro ⟨hf, hq, hp, hc⟩
  unfold ownedOnce at ho
  cases hl : (s.slot i).loc <;> rw [hl] at ho hp hc <;> simp_all [List.count_eq_zero_of_not_mem]

/-- What ACQREAD drops is lost (47_pool.md R352). -/
theorem lost_dropIndex (i : Nat) (s : State) : lost (dropIndex i s) i := by
  have hl : ((dropIndex i s).slot i).loc = .inFilledQueue ∨ ((dropIndex i s).slot i).loc = .inFreeQueue := by
    simp only [State.slot, dropIndex, State.modSlot_slots, State.setFilledQ_slots, State.setFreeQ_slots,
      List.getElem?_modify]
    cases s.slots[i]? <;> simp [Slot.setLoc, Slot.reset]
  refine ⟨by simp [dropIndex], by simp [dropIndex], ?_, ?_⟩ <;> rcases hl with hl | hl <;> rw [hl] <;> decide

/-- Whether an index is lost depends on the queues and the slots' locations only. -/
theorem lost_of_frame {s t : State} (hf : CodecFrame s t) {i : Nat} (h : lost s i) : lost t i := by
  unfold lost at h ⊢
  rw [hf.freeQ, hf.filledQ, hf.loc]
  exact h

/-- The invariant depends on the parameters, the queues and the slots' states and locations only. -/
theorem PoolInv.of_frame {s t : State} (h : PoolInv s) (hf : CodecFrame s t) : PoolInv t where
  legal := by rw [hf.cfg]; exact h.legal
  count := by rw [hf.count, hf.cfg]; exact h.count
  owned i hi := by
    have ho := h.owned i (by rw [← hf.cfg]; exact hi)
    unfold ownedOnce at ho ⊢
    rw [hf.loc, hf.state, hf.freeQ, hf.filledQ]
    exact ho
  inRange i hi := by
    rw [hf.cfg]
    exact h.inRange i (by rw [← hf.freeQ, ← hf.filledQ]; exact hi)

/-- After reset every index is in FreeQueue, once (47_pool.md R348). -/
theorem PoolInv.resetWith {k : Config} (h : k.legal = true) : PoolInv (State.resetWith k) where
  legal := h
  count := by simp [State.resetWith]
  owned i hi := by
    have hi' : i < k.n := hi
    have hs : (State.resetWith k).slot i = Slot.reset := by
      simp [State.slot, State.resetWith]
    unfold ownedOnce
    rw [hs]
    refine ⟨?_, rfl, rfl⟩
    exact List.count_eq_one_of_mem List.nodup_range (List.mem_range.mpr hi')
  inRange i hi := by
    rcases hi with hi | hi
    · exact List.mem_range.mp hi
    · cases hi

end Sys2Proof.Machine
end

