-- ==== Sys2Proof/Laws/Step.lean ====
section
/-! SUPPORT. What one step can do, said once: an action of the outside world, or the next atomic step of a port. -/

namespace Sys2Proof.Machine

@[simp] theorem Status.reset_busy : Status.reset.busy = false := rfl
@[simp] theorem Status.issued_busy (st : Status) : st.issued.busy = true := rfl
@[simp] theorem Status.issued_done (st : Status) : st.issued.done = false := rfl
@[simp] theorem PortRegs.issued_latchWord (r : PortRegs) (w : Word) : (r.issued w).latchWord = w := rfl
@[simp] theorem PortRegs.issued_latchArg (r : PortRegs) (w : Word) : (r.issued w).latchArg = r.arg := rfl

/-- The first change to come is one that `k` grants of port P and no reset come before. -/
theorem changeAhead_some {a : Args} {m : Memory} {l : List Input} {k : Nat} (h : changeAhead a m l = some k) :
    ∃ before y v after, l = before ++ .frameWrite y v :: after ∧ changesFrame a m y.toNat v = true ∧
      (∀ c, .reset c ∉ before) ∧ before.count (.grant .p) = k := by
  induction l generalizing k with
  | nil => cases h
  | cons x l ih =>
    have skip : ∀ j, (∀ c, x ≠ .reset c) → changeAhead a m l = some j → [x].count (.grant .p) + j = k →
        ∃ before y v after, x :: l = before ++ .frameWrite y v :: after ∧ changesFrame a m y.toNat v = true ∧
          (∀ c, .reset c ∉ before) ∧ before.count (.grant .p) = k := by
      intro j hx hj hk
      obtain ⟨before, y, v, after, rfl, h1, h2, rfl⟩ := ih hj
      refine ⟨x :: before, y, v, after, rfl, h1, fun c hc => ?_, ?_⟩
      · rcases List.mem_cons.mp hc with hc | hc
        · exact hx c hc.symm
        · exact h2 c hc
      · rw [← List.singleton_append, List.count_append]; exact hk
    cases x with
    | frameWrite y v =>
      simp only [changeAhead] at h
      split at h
      · rename_i hc
        cases h
        exact ⟨[], y, v, l, rfl, hc, by simp, rfl⟩
      · exact skip k (by simp) h (by simp)
    | grant q =>
      cases q with
      | p =>
        obtain ⟨j, hj, rfl⟩ := Option.map_eq_some_iff.mp h
        exact skip j (by simp) hj (by simp [Nat.add_comm])
      | c => exact skip k (by simp) h (by simp)
    | reset c => cases h
    | regWrite w off v => exact skip k (by simp) h (by simp)
    | regRead w off => exact skip k (by simp) h (by simp)
    | poolRead who y => exact skip k (by simp) h (by simp)

/-- A change to come that no reset comes before is the first one, or the first one comes no later. -/
theorem changeAhead_le {a : Args} {m : Memory} {before after : List Input} {y : Word} {v : Byte}
    (hc : changesFrame a m y.toNat v = true) (hr : ∀ c, .reset c ∉ before) :
    ∃ k, changeAhead a m (before ++ .frameWrite y v :: after) = some k ∧ k ≤ before.count (.grant .p) := by
  induction before with
  | nil => exact ⟨0, by simp [changeAhead, hc], Nat.le_refl _⟩
  | cons x before ih =>
    obtain ⟨k, hk, hle⟩ := ih fun c hm => hr c (List.mem_cons_of_mem _ hm)
    have hcount : before.count (.grant .p) ≤ (x :: before).count (.grant .p) := List.count_le_count_cons
    rw [List.cons_append]
    cases x with
    | frameWrite z u =>
      simp only [changeAhead]
      split
      · exact ⟨0, rfl, Nat.zero_le _⟩
      · exact ⟨k, hk, hle.trans hcount⟩
    | grant q =>
      cases q with
      | p => exact ⟨k + 1, by simp [changeAhead, hk], by simpa using hle⟩
      | c => exact ⟨k, hk, hle.trans hcount⟩
    | reset c => exact absurd (by simp) (hr c)
    | regWrite w off u => exact ⟨k, hk, hle.trans hcount⟩
    | regRead w off => exact ⟨k, hk, hle.trans hcount⟩
    | poolRead who z => exact ⟨k, hk, hle.trans hcount⟩

/-- A port that runs executes the command its latch decodes to, or refuses an illegal word. -/
theorem runPort_cases {q : Port} {s t : State} (h : runPort q s = .next t) :
    (∃ i, decode q (s.port q).latchWord = .cmd i ∧ exec i s = .next t) ∨
      (∃ why, decode q (s.port q).latchWord = .illegal why) ∧ t = execIllegal q s := by
  unfold runPort at h
  split at h
  · rename_i i hi
    exact .inl ⟨i, hi, h⟩
  · rename_i why hw
    cases h
    exact .inr ⟨⟨why, hw⟩, rfl⟩

/-- A command in flight after `k` steps is in flight after fewer. -/
theorem runsOn_le {j k : Nat} {s : State} (h : runsOn k s = true) (hj : j ≤ k) : runsOn j s = true := by
  induction k generalizing j s with
  | zero => rwa [Nat.le_zero.mp hj]
  | succ k ih =>
    rw [runsOn, Bool.and_eq_true] at h
    cases j with
    | zero => exact h.1
    | succ j =>
      rw [runsOn, Bool.and_eq_true]
      refine ⟨h.1, ?_⟩
      have h2 := h.2
      split at h2
      · exact ih h2 (Nat.le_of_succ_le_succ hj)
      · cases h2

/-- The frame counts as changed exactly when a change that no reset comes before is to come while the command is in
flight on the frame as it stands (70_reset_and_hazards.md R430). -/
theorem windowChanges_iff (s : State) :
    windowChanges s = true ↔
      ∃ before y v after, s.inputs = before ++ .frameWrite y v :: after ∧
        changesFrame (s.args .p) s.frame y.toNat v = true ∧ (∀ c, .reset c ∉ before) ∧
        runsOn (before.count (.grant .p)) s = true := by
  unfold windowChanges
  constructor
  · intro h
    split at h
    · rename_i k hk
      obtain ⟨before, y, v, after, h1, h2, h3, rfl⟩ := changeAhead_some hk
      exact ⟨before, y, v, after, h1, h2, h3, h⟩
    · cases h
  · rintro ⟨before, y, v, after, h1, h2, h3, h4⟩
    obtain ⟨k, hk, hle⟩ := changeAhead_le (after := after) h2 h3
    rw [h1, hk]
    exact runsOn_le h4 hle

/-- What the state was when the port of a step ran: the inputs' head is off, or a free value was drawn. -/
inductive Before (s : State) : State → Prop where
  | granted (rest : List Input) : Before s (s.setInputs rest)
  | alone : Before s s
  | arbitrated : Before s (s.draw 1)

/-- A step that goes on is an action of the outside world or one atomic step of a busy port. -/
theorem step_cases {s t : State} (h : step s = .next t) :
    (∃ q u, Before s u ∧ (u.port q).status.busy = true ∧ runPort q u = .next t) ∨
      (∃ rest w off v, s.inputs = .regWrite w off v :: rest ∧ t = regWrite w off v (s.setInputs rest)) ∨
      (∃ rest w off, s.inputs = .regRead w off :: rest ∧ t = regRead w off (s.setInputs rest)) ∨
      (∃ rest who a, s.inputs = .poolRead who a :: rest ∧ poolRead who a.toNat (s.setInputs rest) = .next t) ∨
      (∃ rest a v, s.inputs = .frameWrite a v :: rest ∧ t = frameWrite a.toNat v (s.setInputs rest)) ∨
      (∃ rest k, s.inputs = .reset k :: rest ∧ hardReset k (s.setInputs rest) = .next t) ∨
      (∃ rest q, s.inputs = .grant q :: rest ∧ (s.port q).status.busy = false ∧ t = s.setInputs rest) ∨
      (s.inputs = [] ∧ s.portP.status.busy = false ∧ s.portC.status.busy = false ∧ t = s) := by
  cases hi : s.inputs with
  | nil =>
    simp only [step, hi, autoStep] at h
    split at h
    · rename_i hp _
      exact .inl ⟨.p, s, .alone, hp, h⟩
    · rename_i _ hc
      exact .inl ⟨.c, s, .alone, hc, h⟩
    · rename_i hp hc
      split at h
      · exact .inl ⟨.p, _, .arbitrated, hp, h⟩
      · exact .inl ⟨.c, _, .arbitrated, hc, h⟩
    · rename_i hp hc
      cases h
      exact .inr (.inr (.inr (.inr (.inr (.inr (.inr ⟨rfl, hp, hc, rfl⟩))))))
  | cons x rest =>
    simp only [step, hi, applyInput] at h
    cases x with
    | regWrite w off v => cases h; exact .inr (.inl ⟨rest, w, off, v, rfl, rfl⟩)
    | regRead w off => cases h; exact .inr (.inr (.inl ⟨rest, w, off, rfl, rfl⟩))
    | poolRead who a => exact .inr (.inr (.inr (.inl ⟨rest, who, a, rfl, h⟩)))
    | frameWrite a v => cases h; exact .inr (.inr (.inr (.inr (.inl ⟨rest, a, v, rfl, rfl⟩))))
    | reset k => exact .inr (.inr (.inr (.inr (.inr (.inl ⟨rest, k, rfl, h⟩)))))
    | grant q =>
      simp only [grantPort] at h
      split at h
      · rename_i hb
        exact .inl ⟨q, _, .granted rest, hb, h⟩
      · rename_i hb
        cases h
        refine .inr (.inr (.inr (.inr (.inr (.inr (.inl ⟨rest, q, rfl, ?_, rfl⟩))))))
        have : ((s.setInputs rest).port q) = s.port q := by cases q <;> rfl
        rw [this] at hb
        simpa using hb

/-- A CMD write reaches only port registers, ERR, the sequencer and the frame window (30_encoding.md R120, R126). -/
theorem regWrite_cases (w : AccessWidth) (off : BitVec 12) (v : Word) (s : State) :
    regWrite w off v s = s ∨ regWrite w off v s = faultErr .badAccess s ∨
      (∃ q, regWrite w off v s = writeCmd q v s) ∨ ∃ q k, regWrite w off v s = writeArg q k v s := by
  unfold regWrite
  split
  · split
    · exact .inr (.inr (.inl ⟨_, rfl⟩))
    · exact .inr (.inr (.inr ⟨_, _, rfl⟩))
    · exact .inl rfl
  · exact .inr (.inl rfl)

/-- A POOL read changes only what was read and ERR (47_pool.md R350). -/
theorem poolRead_cases {who : Agent} {a : Nat} {s t : State} (h : poolRead who a s = .next t) :
    (∃ v, s.pool.read a = some v ∧ t = s.setReadData (v.setWidth 32)) ∨ t = (faultErr .ownership s).setReadData 0 := by
  unfold poolRead at h
  split at h
  · split at h
    · rename_i v hv
      cases h
      exact .inl ⟨v, hv, rfl⟩
    · cases h
  · cases h
    exact .inr rfl

end Sys2Proof.Machine
end

