-- ==== Sys2Proof/Laws/Transform.lean ====
section
/-! SUPPORT. The interval of a sum of products, and from it the range of the reference transform on samples: what
41_fdct.md R175 says of it, in the form 42_quantizer.md R199 needs. -/

namespace Sys2Proof.Machine

/-- Every number of a list is in an interval. -/
def Within (lo hi : Int) (l : List Int) : Prop := ∀ x ∈ l, lo ≤ x ∧ x ≤ hi

/-- The least and the greatest sum of products with numbers of `[lo, hi]`. -/
def dotLow (lo hi : Int) (c : List Int) : Int := (c.map fun k => if 0 ≤ k then k * lo else k * hi).sum
def dotHigh (lo hi : Int) (c : List Int) : Int := (c.map fun k => if 0 ≤ k then k * hi else k * lo).sum

theorem dot_within {lo hi : Int} {c l : List Int} (h : Within lo hi l) (hl : l.length = c.length) :
    dotLow lo hi c ≤ dot c l ∧ dot c l ≤ dotHigh lo hi c := by
  induction c generalizing l with
  | nil => simp [dot, dotLow, dotHigh]
  | cons k c ih =>
    cases l with
    | nil => simp at hl
    | cons x l =>
      have hx := h x (List.mem_cons_self ..)
      have := ih (l := l) (fun y hy => h y (List.mem_cons_of_mem _ hy)) (by simpa using hl)
      simp only [dot, dotLow, dotHigh, List.zipWith_cons_cons, List.sum_cons, List.map_cons] at this ⊢
      split
      · constructor <;> nlinarith [this.1, this.2]
      · constructor <;> nlinarith [this.1, this.2]

theorem blockRow_within {b : Block} (h : SampleRange b) {y : Nat} (hy : y < 8) : Within (-128) 127 (blockRow b y) := by
  intro x hx
  simp only [blockRow, List.mem_map, List.mem_range] at hx
  obtain ⟨k, hk, rfl⟩ := hx
  exact h _ (by omega)

/-- The interval of output `(v, u)` before its division. -/
def sumLow (v u : Nat) : Int := dotLow (dotLow (-128) 127 (dctRow u)) (dotHigh (-128) 127 (dctRow u)) (dctRow v)
def sumHigh (v u : Nat) : Int := dotHigh (dotLow (-128) 127 (dctRow u)) (dotHigh (-128) 127 (dctRow u)) (dctRow v)

theorem dctRow_length : ∀ u < 8, (dctRow u).length = 8 := by decide

theorem dctSum_within {b : Block} (h : SampleRange b) {v u : Nat} (hv : v < 8) (hu : u < 8) :
    sumLow v u ≤ dctSum b v u ∧ dctSum b v u ≤ sumHigh v u := by
  refine dot_within (fun x hx => ?_) (by simp [dctRow_length v hv])
  simp only [List.mem_map, List.mem_range] at hx
  obtain ⟨y, hy, rfl⟩ := hx
  exact dot_within (blockRow_within h hy) (by simp [blockRow, dctRow_length u hu])

/-- Rounded division keeps an interval that is a multiple of the divisor. -/
theorem round24_within {x : Int} {lo hi : Int} (h1 : 2 ^ 24 * lo - 2 ^ 23 < x) (h2 : x < 2 ^ 24 * hi + 2 ^ 23) :
    lo ≤ round24 x ∧ round24 x ≤ hi := by
  simp only [round24, Nat.reducePow, Int.reducePow] at *
  rcases lt_trichotomy x 0 with hx | hx | hx
  · rw [Int.sign_eq_neg_one_of_neg hx]; omega
  · subst hx; simp; omega
  · rw [Int.sign_eq_one_of_pos hx]; omega

theorem sums_fit : ∀ v < 8, ∀ u < 8,
    2 ^ 24 * (if v = 0 ∧ u = 0 then -1025 else -1021) - 2 ^ 23 < sumLow v u ∧
      sumHigh v u < 2 ^ 24 * (if v = 0 ∧ u = 0 then 1017 else 1021) + 2 ^ 23 := by decide +kernel

/-- The reference transform of samples is in the encoder path's range. -/
theorem refFdct_range : FdctRange refFdct := by
  intro b hb
  have key : ∀ k, k < 64 → (if k = 0 then -1025 else -1021) ≤ blkAt (refFdct b) k ∧
      blkAt (refFdct b) k ≤ (if k = 0 then 1017 else 1021) := by
    intro k hk
    have hv : k / 8 < 8 := by omega
    have hu : k % 8 < 8 := by omega
    have hs := dctSum_within hb hv hu
    have hf := sums_fit _ hv _ hu
    have h0 : (k / 8 = 0 ∧ k % 8 = 0) ↔ k = 0 := by omega
    simp only [h0] at hf
    have hr := round24_within (lt_of_lt_of_le hf.1 hs.1) (lt_of_le_of_lt hs.2 hf.2)
    have e : blkAt (refFdct b) k = round24 (dctSum b (k / 8) (k % 8)) := by
      simp only [blkAt, refFdct, wrap16, Vector.getElem?_ofFn, hk, dite_true, Option.getD_some]
      apply BitVec.toInt_ofInt_eq_self (by omega)
      · split at hr <;> omega
      · split at hr <;> omega
    rw [e]
    exact hr
  refine ⟨by simpa using key 0 (by omega), fun k h1 h2 => ?_⟩
  have := key k h2
  rw [if_neg (by omega), if_neg (by omega)] at this
  exact this

end Sys2Proof.Machine
end

