-- ==== Sys2Proof/Tests/Slice0.lean ====
section
/-! SUPPORT. Tests: what is ill-formed is refused; every command's word, written out from the spec, decodes; one or two
steps of each command against the spec's own vectors; and a witness for the hypotheses of every statement. -/

namespace Sys2Proof.Tests

open Sys2Proof.Machine

/-! ## Well-formedness: an ill-formed term for each check -/

theorem test_wellFormed_refuses_other_port :
    Instr.acqread.wellFormedOn .p = false ∧ Instr.encode.wellFormedOn .c = false ∧ Instr.encode.wellFormedOn .p = true := by
  decide

theorem test_wellFormed_refuses_line_on_other_port :
    AsmLine.wellFormed ⟨.c, .fdct, []⟩ = false ∧ AsmLine.wellFormed ⟨.p, .fdct, []⟩ = true := by decide

theorem test_wellFormed_refuses_operand_count :
    AsmLine.wellFormed ⟨.p, .encode, [1, 2, 3, 4]⟩ = false ∧ AsmLine.wellFormed ⟨.p, .encode, [1, 2, 3, 4, 5]⟩ = true := by
  decide

theorem test_wellFormed_refuses_wide_origin :
    AsmLine.wellFormed ⟨.p, .extractY, [1, 2, 3, 4, 0x10000, 0]⟩ = false ∧
      AsmLine.wellFormed ⟨.p, .extractY, [1, 2, 3, 4, 0xFFFF, 0]⟩ = true := by decide

theorem test_config_refuses_slot_counts :
    Config.legal { defaultConfig with n := 0 } = false ∧ Config.legal { defaultConfig with n := 65 } = false ∧
      defaultConfig.legal = true := by decide +kernel

theorem test_config_refuses_capacities :
    Config.legal { defaultConfig with cap := 0 } = false ∧
      Config.legal { defaultConfig with cap := 2 ^ 24 + 1 } = false := by decide +kernel

theorem test_config_refuses_bases :
    Config.legal { defaultConfig with poolBase := 0 } = false ∧
      Config.legal { defaultConfig with poolBase := 0x40000002 } = false ∧
      Config.legal { defaultConfig with poolBase := 0xFFFFF000 } = false := by decide +kernel

theorem test_config_refuses_tables_and_tick :
    Config.legal { defaultConfig with qtLuma := defaultConfig.qtLuma.set 63 0 } = false ∧
      Config.legal { defaultConfig with qtChroma := defaultConfig.qtChroma.set 0 256 } = false ∧
      Config.legal { defaultConfig with tick := 0 } = false := by decide +kernel

/-! ## Decoding: the words of 30_encoding.md R123 -/

theorem test_decode_pool_words :
    decode .p 0x00000001 = .cmd .acqfill ∧ decode .p 0x00000002 = .cmd .publish ∧
      decode .c 0x00000021 = .cmd .acqread ∧ decode .c 0x00000022 = .cmd .release := by decide

theorem test_decode_encoder_word : decode .p 0x00000003 = .cmd .encode := by decide

theorem test_decode_session_words :
    decode .p 0x00000010 = .cmd .sessionBegin ∧ decode .p 0x0000001B = .cmd .writeBits ∧
      decode .p 0x0000001C = .cmd .flushBits := by decide

theorem test_decode_container_words :
    decode .p 0x00000011 = .cmd .emitHeaders ∧ decode .p 0x0000001D = .cmd .emitEoi := by decide

theorem test_decode_extract_words :
    decode .p 0x00000012 = .cmd .extractY ∧ decode .p 0x00000013 = .cmd .extractCb ∧
      decode .p 0x00000014 = .cmd .extractCr ∧ decode .p 0x0000001E = .cmd .blkRead ∧
      decode .p 0x0000001F = .cmd .blkWrite := by decide

theorem test_decode_transform_words :
    decode .p 0x00000015 = .cmd .fdct ∧ decode .p 0x00000016 = .cmd .quantY ∧ decode .p 0x00000017 = .cmd .quantC := by
  decide

theorem test_decode_entropy_words :
    decode .p 0x00000018 = .cmd .entropyY ∧ decode .p 0x00000019 = .cmd .entropyCb ∧
      decode .p 0x0000001A = .cmd .entropyCr := by decide

/-- The illegal words of 95_test_vectors.md, Part 2. -/
theorem test_decode_illegal_words :
    decode .c 0x00000003 = .illegal .otherPortOpcode ∧ decode .p 0x00000021 = .illegal .otherPortOpcode ∧
      decode .p 0x00000000 = .illegal .unassignedOpcode ∧ decode .p 0x00000004 = .illegal .unassignedOpcode ∧
      decode .p 0x0000000F = .illegal .unassignedOpcode ∧ decode .p 0x00000020 = .illegal .unassignedOpcode ∧
      decode .c 0x00000023 = .illegal .unassignedOpcode ∧ decode .p 0x00000103 = .illegal .reservedBitsSet ∧
      decode .c 0x80000021 = .illegal .reservedBitsSet ∧ decode .p 0xFFFFFFFF = .illegal .reservedBitsSet := by decide

theorem test_decodeTableWord :
    decodeTableWord 32 0x12 = some .extractY ∧ decodeTableWord 32 0x22 = some .release ∧
      decodeTableWord 32 0x112 = none ∧ decodeTableWord 32 0x20 = none := by decide

/-! ## States -/

/-- The state an outcome goes on in. -/
def after : Host.Outcome State Fault Refusal → Option State
  | .next s => some s
  | _ => none

/-- A command in flight on port P. -/
def onP (i : Instr) (a : Args) (s : State) : State :=
  { s with
    portP := { s.portP with latchWord := encode i, latchArg := a, status := s.portP.status.issued }
    seq := if i = .encode then some .validate else s.seq }

/-- A command in flight on port C. -/
def onC (i : Instr) (a : Word) (s : State) : State :=
  { s with
    portC := { s.portC with latchWord := encode i, latchArg := #v[a, 0, 0, 0, 0], status := s.portC.status.issued } }

def args1 (a : Word) : Args := #v[a, 0, 0, 0, 0]
def args2 (a b : Word) : Args := #v[a, b, 0, 0, 0]

/-- The producer holds slot 0, of size `k`. -/
def held (k : Nat) : State := { State.reset with freeQ := [1], slots := [⟨.free, .producerHeld, k⟩, Slot.reset] }

/-- A session is open on slot 0, of size `k`, with `bits` pending. -/
def session (k : Nat) (bits : List Bool) : State := { held k with sess := ⟨true, 0, bits⟩ }

/-- Slot 0, of size 2, is queued for the consumer. -/
def queued : State :=
  { State.reset with
    freeQ := [1], filledQ := [0], slots := [⟨.filled, .inFilledQueue, 2⟩, Slot.reset]
    pool := [(0x40000000, 0xAA), (0x40000001, 0xBB)] }

/-- The consumer holds slot 0, of size 2. -/
def checkedOut : State :=
  { State.reset with
    freeQ := [1], slots := [⟨.checkedOut, .consumerHeld, 2⟩, Slot.reset]
    pool := [(0x40000000, 0xAA), (0x40000001, 0xBB)] }

/-- Slot 0 was popped CheckedOut and lost (47_pool.md R352): a state no run reaches. -/
def lostOne : State := { State.reset with freeQ := [1], slots := [⟨.checkedOut, .inFilledQueue, 2⟩, Slot.reset] }

/-- The bytes `k < n` of a frame at 0x10000000 that `keep` picks, byte `k` being `f k`. -/
def frameOf (n : Nat) (keep : Nat → Bool) (f : Nat → Nat) : Memory :=
  ((List.range n).filter keep).map fun k => (0x10000000 + k, BitVec.ofNat 8 (f k))

/-- Of GRAD of 95_test_vectors.md, 32 by 16 pixels of 2 bytes, the byte `lo` of the pixels in the first `size` rows
and columns whose column parity is picked. -/
def grad (size lo : Nat) (par : Nat → Bool) : Memory :=
  frameOf 1024 (fun k => decide (k % 2 = lo ∧ k % 64 / 2 < size ∧ k / 64 < size) && par (k % 64 / 2 % 2)) fun k =>
    let r := k / 64
    let c := k % 64 / 2
    if k % 2 = 0 then 4 * c + 8 * r else if c % 2 = 0 then 96 + 2 * r else 160 + 40 * (c / 16) - r

/-- GRAD's operands at an origin. -/
def gradArgs (origin : Word) : Args := #v[0x10000000, 1024, 32, 16, origin]

/-- A block with the listed elements, the others `d`. -/
def blockOf (l : List (Nat × Int)) (d : Int := 0) : Block :=
  Vector.ofFn fun i : Fin 64 => BitVec.ofInt 16 ((l.lookup i.val).getD d)

/-- What a test of a port P command looks at: CODE and the results. -/
def resultP (o : Host.Outcome State Fault Refusal) : Option (StatusCode × List Word) :=
  (after o).map fun t => (t.portP.status.code, t.portP.res.toList)

def resultC (o : Host.Outcome State Fault Refusal) : Option (StatusCode × List Word) :=
  (after o).map fun t => (t.portC.status.code, t.portC.res.toList)

/-- The bytes of slot 0 below its size. -/
def bytes0 (o : Host.Outcome State Fault Refusal) : Option (List (Option Byte)) :=
  (after o).map fun t => (List.range (t.slot 0).size).map fun k => t.pool.read (0x40000000 + k)

/-! ## Commands against the spec's vectors -/

/-- 47_pool.md R355 line 1; STATUS from 95_test_vectors.md, Register access. -/
theorem test_acqfill_after_reset :
    (after (exec .acqfill (onP .acqfill (args1 0) State.reset))).map
        (fun t => (t.portP.res.toList, t.portP.status.word, t.freeQ, (t.slot 0).loc)) =
      some ([0, 0x40000000, 0], 0x00010002, [1], .producerHeld) := by decide

/-- 47_pool.md R341: a stolen slot stays Filled and keeps its size. -/
theorem test_acqfill_steals_the_oldest :
    (after (exec .acqfill (onP .acqfill (args1 0) { queued with freeQ := [] }))).map
        (fun t => (t.portP.res.toList, t.filledQ, t.slot 0)) =
      some ([0, 0x40000000, 0], [], ⟨.filled, .producerHeld, 2⟩) := by decide

/-- 47_pool.md R342, the example: SLOT_STAT[0] = 5. -/
theorem test_publish_613 :
    (after (exec .publish (onP .publish (args1 0) (held 613)))).map
        (fun t => (t.portP.res.toList, t.filledQ, (t.slot 0).statWord)) = some ([0, 613, 0], [0], 5) := by decide

theorem test_publish_refuses_the_session_slot :
    (after (exec .publish (onP .publish (args1 0) (session 607 [])))).map
        (fun t => (t.portP.status.code, t.err.word, t.filledQ)) = some (.invalidState, 1, []) := by decide

/-- 47_pool.md R343: the published slot and its size. -/
theorem test_acqread_takes_the_published_slot :
    (after (exec .acqread (onC .acqread 0 queued))).map
        (fun t => (t.portC.res.toList, t.filledQ, t.slot 0)) =
      some ([0x40000000, 2, 0], [], ⟨.checkedOut, .consumerHeld, 2⟩) := by decide

/-- The source's poll of an empty queue; STATUS from 95_test_vectors.md. -/
theorem test_acqread_poll_times_out :
    (after (exec .acqread (onC .acqread 0 State.reset))).map (fun t => (t.portC.status.word, t.waitActive)) =
      some (0x00210402, false) := by decide

/-- 47_pool.md R345, the example. -/
theorem test_release_frees :
    (after (exec .release (onC .release 0x40000000 checkedOut))).map
        (fun t => (t.portC.res.toList, t.freeQ, t.slot 0)) = some ([0, 0, 0], [1, 0], ⟨.free, .inFreeQueue, 2⟩) := by
  decide

/-- Program L3-6 line 4. -/
theorem test_release_foreign :
    (after (exec .release (onC .release 0x40000010 checkedOut))).map (fun t => (t.portC.status.code, t.err.word)) =
      some (.invalidArgument, 4) := by decide

/-- 44_bitstream.md R256, the example: SESSION reads 1. -/
theorem test_sessionBegin_opens :
    (after (exec .sessionBegin (onP .sessionBegin (args1 0) (held 9)))).map
        (fun t => (t.portP.res.toList, t.sess.word, (t.slot 0).size)) = some ([0, 0, 0], 1, 0) := by decide

/-- 95_test_vectors.md, session vectors: slot 0's size becomes 0, SESSION reads 0x0101. -/
theorem test_sessionBegin_aborts_the_open_session :
    (after (exec .sessionBegin (onP .sessionBegin (args1 1)
        { session 607 [] with freeQ := [], slots := [⟨.free, .producerHeld, 607⟩, ⟨.free, .producerHeld, 0⟩] }))).map
        (fun t => (t.sess.word, (t.slot 0).size)) = some (0x0101, 0) := by decide

/-- 44_bitstream.md R261, the first row. -/
theorem test_writeBits_stuffs :
    bytes0 (exec .writeBits (onP .writeBits (args2 0xFF 8) (session 0 []))) = some [some 0xFF, some 0x00] ∧
      resultP (exec .writeBits (onP .writeBits (args2 0xFF 8) (session 0 []))) = some (.ok, [2, 0, 0]) := by decide

/-- 44_bitstream.md R261: CAP = 1, the stuffing byte is refused. -/
theorem test_writeBits_aborts_without_room :
    (after (exec .writeBits (onP .writeBits (args2 0xFF 8)
        { session 0 [] with cfg := { defaultConfig with cap := 1 } }))).map
        (fun t => (t.portP.status.code, (t.slot 0).size, t.sess)) =
      some (.capacityExceeded, 0, ⟨false, 0, []⟩) := by decide

/-- 44_bitstream.md R261: pending 101 flushes as BF. -/
theorem test_flushBits_pads :
    bytes0 (exec .flushBits (onP .flushBits (args1 0) (session 0 [true, false, true]))) = some [some 0xBF] := by decide

/-- 44_bitstream.md R261: pending 1111 flushes as FF 00. -/
theorem test_flushBits_stuffs :
    bytes0 (exec .flushBits (onP .flushBits (args1 0) (session 0 [true, true, true, true]))) =
      some [some 0xFF, some 0x00] := by decide

/-- 45_container.md R288, R290, R292: length 607; the first, the dimension and the last bytes of the header. -/
theorem test_header_16_by_16 :
    (headerBytes defaultConfig 16 16).length = 607 ∧
      [0, 1, 2, 3, 0x9F, 0xA0, 0xA1, 0xA2, 606].map (fun k => (headerBytes defaultConfig 16 16)[k]?) =
        [some 0xFF, some 0xD8, some 0xFF, some 0xE0, some 0, some 0x10, some 0, some 0x10, some 0] := by
  decide +kernel

/-- 44_bitstream.md R252: without room for the header the session aborts. -/
theorem test_emitHeaders_without_room :
    (after (exec .emitHeaders (onP .emitHeaders (args2 16 16)
        { session 0 [] with cfg := { defaultConfig with cap := 2 } }))).map
        (fun t => (t.portP.res.toList, t.portP.status.code, t.sess.isOpen, (t.slot 0).size)) =
      some ([0, 0, 0], .capacityExceeded, false, 0) := by decide +kernel

/-- 45_container.md R291, the example: RES0 = 613. -/
theorem test_emitEoi_closes :
    (after (exec .emitEoi (onP .emitEoi (args1 0) (session 611 [true])))).map
        (fun t => (t.portP.res.toList, t.sess.word, t.sess.acc, t.pool)) =
      some ([613, 0, 0], 0, [], [(0x40000000 + 611, 0xFF), (0x40000000 + 612, 0xD9)]) := by decide

/-- 95_test_vectors.md, BlockExtractor: GRAD, origin (0, 0), rows 0 and 7. -/
theorem test_extractY_grad :
    (after (exec .extractY (onP .extractY (gradArgs 0) { State.reset with frame := grad 8 0 fun _ => true }))).map
        (fun t => [0, 1, 7, 56].map (blkAt t.blk)) = some [-128, -124, -100, -72] := by decide +kernel

/-- 95_test_vectors.md: origin (9, 0) is out of bounds. -/
theorem test_extractY_out_of_bounds :
    resultP (exec .extractY (onP .extractY (gradArgs 0x00090000) State.reset)) = some (.outOfBounds, [0, 0, 0]) := by
  decide +kernel

/-- 95_test_vectors.md: GRAD, origin (0, 0), column 0 is -31, -27, ..., -3. -/
theorem test_extractCb_grad :
    (after (exec .extractCb (onP .extractCb (gradArgs 0) { State.reset with frame := grad 16 1 (· == 0) }))).map
        (fun t => [0, 8, 56, 63].map (blkAt t.blk)) = some [-31, -27, -3, -3] := by decide +kernel

/-- 95_test_vectors.md: GRAD, origin (0, 0): an odd sum rounds down. -/
theorem test_extractCr_grad :
    (after (exec .extractCr (onP .extractCr (gradArgs 0) { State.reset with frame := grad 16 1 (· == 1) }))).map
        (fun t => [0, 7, 56].map (blkAt t.blk)) = some [31, 31, 17] := by decide +kernel

/-- 40_extract.md R156: -1 reads as 0xFFFFFFFF. -/
theorem test_blkRead_sign_extends :
    resultP (exec .blkRead (onP .blkRead (args1 5) { State.reset with blk := blockOf [(5, -1)] })) =
      some (.ok, [0xFFFFFFFF, 0, 0]) := by decide

/-- 95_test_vectors.md: BLK_WRITE 5, 0x00018000 writes -32768. -/
theorem test_blkWrite_takes_the_low_half :
    (after (exec .blkWrite (onP .blkWrite (args2 5 0x00018000) State.reset))).map
        (fun t => (blkAt t.blk 5, blkAt t.blk 4)) = some (-32768, 0) := by decide

/-- 41_fdct.md R178: the horizontal ramp. -/
theorem test_fdct_ramp :
    (after (exec .fdct (onP .fdct (args1 0)
        { State.reset with blk := Vector.ofFn fun i : Fin 64 => BitVec.ofInt 16 (16 * (i % 8 : Nat) - 56) }))).map
        (fun t => [0, 1, 2, 3, 5, 7, 8].map (blkAt t.blk)) = some [0, -292, 0, -30, -9, -2, 0] := by decide +kernel

/-- 41_fdct.md R173: all 8192 wraps to -14. -/
theorem test_fdct_wraps :
    (after (exec .fdct (onP .fdct (args1 0) { State.reset with blk := blockOf [] 8192 }))).map
        (fun t => [0, 1].map (blkAt t.blk)) = some [-14, 0] := by decide +kernel

/-- 95_test_vectors.md, Quantizer: the ramp's output under QUANT_Y. -/
theorem test_quantY_ramp :
    (after (exec .quantY (onP .quantY (args1 0)
        { State.reset with blk := blockOf [(1, -292), (3, -30), (5, -9), (7, -2)] }))).map
        (fun t => [0, 1, 3, 5, 7].map (blkAt t.blk)) = some [0, -27, -2, 0, 0] := by decide +kernel

/-- 95_test_vectors.md, Quantizer: -1024 under QUANT_C. -/
theorem test_quantC_dc :
    (after (exec .quantC (onP .quantC (args1 0) { State.reset with blk := blockOf [(0, -1024)] }))).map
        (fun t => blkAt t.blk 0) = some (-60) := by decide +kernel

/-- 43_entropy.md R231: DC 5 in luma, 10 bits, two pending. -/
theorem test_entropyY_dc5 :
    (after (exec .entropyY (onP .entropyY (args1 0) { session 0 [] with blk := blockOf [(0, 5)] }))).map
        (fun t => (t.portP.res.toList, t.sess.acc, t.pool.read 0x40000000)) =
      some ([10, 1, 5], [true, false], some 0x96) := by decide +kernel

/-- 43_entropy.md R231: position 17 needs a ZRL. -/
theorem test_entropyY_zrl :
    bytes0 (exec .entropyY (onP .entropyY (args1 0) { session 0 [] with blk := blockOf [(19, 1)] })) =
        some [some 0x3F, some 0xC9] ∧ zigzag[17] = 19 := by decide +kernel

/-- 43_entropy.md R224, the example. -/
theorem test_entropyCb_minus3 :
    (after (exec .entropyCb (onP .entropyCb (args1 0) { session 0 [] with blk := blockOf [(0, -3)] }))).map
        (fun t => (t.portP.res.toList, t.pred)) = some ([6, 0, 0x0000FFFD], ⟨0, -3, 0⟩) := by decide +kernel

/-- 43_entropy.md R231: position 1 is 1023 in chroma; 3F D3 FF 00, two bits pending. -/
theorem test_entropyCr_1023 :
    bytes0 (exec .entropyCr (onP .entropyCr (args1 0) { session 0 [] with blk := blockOf [(1, 1023)] })) =
        some [some 0x3F, some 0xD3, some 0xFF, some 0x00] ∧
      resultP (exec .entropyCr (onP .entropyCr (args1 0) { session 0 [] with blk := blockOf [(1, 1023)] })) =
        some (.ok, [26, 4, 0]) := by decide +kernel

/-- ENCODE's operands for the source's gray frame. -/
def grayArgs : Args := #v[0x10000000, 512, 16, 16, 0]

/-- 46_encoder.md R311: a valid ENCODE moves to Begin and completes nothing yet. -/
theorem test_encode_validates :
    (after (exec .encode (onP .encode grayArgs (held 5)))).map
        (fun t => (t.seq, t.portP.status.busy, (t.slot 0).size)) = some (some .beginSession, true, 5) := by decide

/-- 46_encoder.md R324: Eoi at size 611 completes with 613 and 0x00100010. -/
theorem test_encode_completes_after_eoi :
    (after (exec .encode { onP .encode grayArgs (session 611 []) with seq := some .eoi })).map
        (fun t => (t.portP.res.toList, t.portP.status.word, t.seq)) =
      some ([613, 0x00100010, 0], 0x00030002, some .done) := by decide

/-- 43_entropy.md R213, R221: the symbols a block can need have codes; no code is all ones; lengths at most 9, 11,
16, 16. -/
theorem test_huffman_codes_exist :
    ((List.range 12).all fun m => dcLumaSpec.huffval.contains m && dcChromaSpec.huffval.contains m) = true ∧
      ((List.range 16).all fun r => (List.range' 1 10).all fun m =>
        acLumaSpec.huffval.contains (r * 16 + m) && acChromaSpec.huffval.contains (r * 16 + m)) = true ∧
      ([(dcLumaSpec, 9), (dcChromaSpec, 11), (acLumaSpec, 16), (acChromaSpec, 16)].all fun p =>
        (genCodes p.1).all fun x => decide (1 ≤ x.2.len ∧ x.2.len ≤ p.2 ∧ x.2.code + 1 < 2 ^ x.2.len)) = true := by
  decide +kernel

/-- 43_entropy.md R222: codes of each table. -/
theorem test_huffman_codes_of_the_spec :
    dcLumaSpec.codeOf 11 = ⟨0b111111110, 9⟩ ∧ dcChromaSpec.codeOf 11 = ⟨0b11111111110, 11⟩ ∧
      acLumaSpec.codeOf 0xF0 = ⟨0b11111111001, 11⟩ ∧ acChromaSpec.codeOf 0xF0 = ⟨0b1111111010, 10⟩ ∧
      acLumaSpec.codeOf 0 = ⟨0b1010, 4⟩ ∧ acChromaSpec.codeOf 0 = ⟨0b00, 2⟩ := by decide +kernel

/-- A word placed for the next step runs as the first command after reset. -/
theorem test_withFetchWord_runs :
    (after (step (State.reset.withFetchWord 32 0x01))).map (fun t => (t.portP.res.toList, t.inputs)) =
      some ([0, 0x40000000, 0], []) := by decide

/-- 70_reset_and_hazards.md R424: what the registers read as after reset, and a byte read at C.ARG1. -/
theorem test_boot_reads :
    ([0x080, 0x084, 0x088, 0x08C, 0x090, 0x094, 0x098, 0x018, 0x058, 0x100, 0x108, 0x200, 0x300].map fun off =>
        (regRead .w32 off State.reset).readData) = [2, 0x1000, 0x40000000, 0, 2, 0, 0, 0, 0, 0, 0, 0, 0] ∧
      (regRead .w8 0x048 State.reset).readData = 0 ∧ (regRead .w8 0x048 State.reset).err.word = 0x40 := by
  decide +kernel

/-! ## The borrow window, host programs, the observation -/

/-- Slot 0 of 2 bytes is held, port P is idle with `args` in ARG0 to ARG4, and `l` is to come. -/
def waiting (args : Args) (l : List Input) : State :=
  { held 0 with cfg := { defaultConfig with cap := 2 }, portP := { PortRegs.reset with arg := args }, inputs := l }

/-- 70_reset_and_hazards.md R430: the window of an ENCODE ends at its completion, here its third step, where the header
finds no room (46_encoder.md R315); that of an ENCODE refused at Validate and of an EXTRACT after one step; a reset
ends it. -/
theorem test_window_of_a_change :
    let change : Input := .frameWrite 0x10000001 7
    let issued (w : Word) (slot : Word) (l : List Input) :=
      (regWrite .w32 0 w (waiting #v[0x10000000, 2, 1, 1, slot] l)).frameChanged
    issued 0x03 0 [.grant .p, .grant .c, .grant .p, change] = true ∧
      issued 0x03 0 [.grant .p, .grant .p, .grant .p, change] = false ∧
      issued 0x03 1 [change] = true ∧ issued 0x03 1 [.grant .p, change] = false ∧
      issued 0x12 0 [.grant .c, change] = true ∧ issued 0x12 0 [.grant .p, change] = false ∧
      issued 0x03 0 [.reset defaultConfig, change] = false ∧ issued 0x15 0 [change] = false ∧
      issued 0x03 0 [.frameWrite 0x10000002 7] = false := by decide +kernel

/-- 47_pool.md R352: a CheckedOut head is refused, and its index lost: a RELEASE does not bring it back. -/
theorem test_lost_index :
    exec .acqread (onC .acqread 0 { lostOne with filledQ := [0] }) =
        .next (complete .c .invalidState 0 0 0
          { onC .acqread 0 lostOne with err := { Err.clear with protocol := true } }) ∧
      exec .release (onC .release 0x40000000 lostOne) =
        .next (complete .c .invalidState 0 0 0
          { onC .release 0x40000000 lostOne with err := { Err.clear with doubleRelease := true } }) := ⟨rfl, rfl⟩

/-- Where a run of the two hosts gets. -/
def systemAfter (o : Host.Outcome System Fault Refusal) : Option State :=
  match o with
  | .next y => some y.core
  | _ => none

/-- 30_encoding.md R129, R132: a host issues ACQFILL, polls DONE, reads the results, and branches on FREEQ_COUNT. -/
theorem test_host_branches_on_a_register :
    (systemAfter (System.run (hostTurns .producer 7)
        ⟨.line ⟨.p, .acqfill, []⟩ fun _ _ => .read .w32 0x090 fun v =>
          if v = 1 then .write .w32 0x004 0xABCD .stop else .stop, .stop, State.reset, [], []⟩)).map
        (fun s => (s.freeQ, s.portP.res.toList, s.portP.arg[0])) = some ([1], [0, 0x40000000, 0], 0) ∧
    (systemAfter (System.run (hostTurns .producer 8)
        ⟨.line ⟨.p, .acqfill, []⟩ fun _ _ => .read .w32 0x090 fun v =>
          if v = 1 then .write .w32 0x004 0xABCD .stop else .stop, .stop, State.reset, [], []⟩)).map
        (fun s => s.portP.arg[0]) = some 0xABCD := by decide +kernel

/-- 30_encoding.md R129: a host that waits for an ACQREAD polls on and issues no other command. -/
theorem test_host_polls_until_done :
    (systemAfter (System.run (hostTurns .consumer 20)
        ⟨.stop, .line ⟨.c, .acqread, [0xFFFFFFFF]⟩ fun _ _ => .line ⟨.c, .release, [0]⟩ fun _ _ => .stop,
          State.reset, [], []⟩)).map
        (fun s => (s.portC.cmd, s.portC.status.busy, s.waitActive, s.err.word)) = some (0x21, true, true, 0) := by
  decide +kernel

/-- 60_exceptions.md R398, log 24: a command issue after a reset belongs to a new launch; one before it does not. -/
theorem test_over_before_a_reset (k : Config) :
    runOver (State.reset.setInputs [.reset k, .regWrite .w32 0x000 1]) ∧
      ¬runOver (State.reset.setInputs [.regWrite .w32 0x000 1, .reset k]) :=
  ⟨⟨⟨rfl, rfl⟩, fun _ _ h => by simp [State.setInputs, beforeReset] at h⟩,
    fun h => (h.2 0x000 1 (by simp [State.setInputs, beforeReset])).1 rfl⟩

/-- 95_test_vectors.md L3-1 lines 1, 2: the consumer's first ACQREAD times out, it goes back to line 1, and after the
producer's PUBLISH its second ACQREAD gets the image, which it releases. -/
theorem test_host_loops_on_timeout :
    (systemAfter (System.run (hostTurns .consumer 8 ++ hostTurns .producer 14 ++ hostTurns .consumer 15)
        { producer := .line ⟨.p, .acqfill, []⟩ fun _ res => .line ⟨.p, .publish, [res[0]]⟩ fun _ _ => .stop
          consumer := .goto 0 [], core := State.reset, consumerCode := pollingConsumer })).map
        (fun s => (s.freeQ, s.filledQ, s.portC.latchWord, s.portC.status.code, s.err.word)) =
      some ([1, 0], [], 0x22, .ok, 0) := by decide +kernel

/-- 60_exceptions.md R398: a poll, a read and an ARG write are left, and a host reads STATUS in a loop; the run is
over. -/
theorem test_over_with_reads_left :
    System.over { producer := .poll .p (.read .w32 0x08C fun _ => .write .w32 0x004 1 .stop)
                  consumer := .goto 0 [], core := State.reset
                  consumerCode := [fun _ => .read .w32 0x058 fun _ => .goto 0 []] } :=
  System.over_of_quiet (fun _ k _ => k = 0) ⟨rfl, rfl⟩ fun who => by
    cases who
    · exact ⟨fun _ => ⟨by simp [portBase], trivial⟩, fun _ _ _ => trivial⟩
    · exact ⟨rfl, fun k _ hk => by subst hk; exact fun _ => rfl⟩

/-- 60_exceptions.md R398: POOL bytes at or above a size are not observed. -/
theorem test_observation :
    checkedOut.observation = { checkedOut with pool := checkedOut.pool ++ [(0x40000002, 0xCC)] }.observation ∧
      checkedOut.observation.images = [[some 0xAA, some 0xBB], []] := by decide +kernel

/-! ## Witnesses: states and operands that meet the hypotheses of each statement, clause by clause -/

/-- The ownership invariant of a two-slot state. -/
theorem poolInv_two {s : State} (hc : s.cfg = defaultConfig) (hl : s.slots.length = 2) (h0 : ownedOnce s 0)
    (h1 : ownedOnce s 1) (hq : (s.freeQ ++ s.filledQ).all (· < 2) = true) : PoolInv s where
  legal := by rw [hc]; decide +kernel
  count := by rw [hl, hc]; rfl
  owned i hi := by
    rw [hc] at hi
    have hi : i < 2 := hi
    match i, hi with
    | 0, _ => exact h0
    | 1, _ => exact h1
  inRange i hi := by
    rw [hc]
    exact of_decide_eq_true (List.all_eq_true.mp hq i (List.mem_append.mpr hi))

/-- Nothing of an ENCODE is in flight in a state whose port P is idle. -/
theorem sessionInv_idle {s : State} (hp : PoolInv s) (hb : s.portP.status.busy = false)
    (ho : s.sess.isOpen = true → producerHolds s s.sess.slot) : SessionInv s where
  toPoolInv := hp
  openHeld := ho
  beginHeld h := by simp [encoding, hb] at h
  headersOpen h := by simp [encoding, hb] at h

theorem witness_poolInv_held (k : Nat) : PoolInv (held k) :=
  poolInv_two rfl rfl (And.intro rfl (And.intro rfl (.inl rfl))) (And.intro rfl (And.intro rfl rfl)) rfl

theorem witness_poolInv_queued : PoolInv queued :=
  poolInv_two rfl rfl (And.intro rfl (And.intro rfl rfl)) (And.intro rfl (And.intro rfl rfl)) (by decide)

theorem witness_poolInv_checkedOut : PoolInv checkedOut :=
  poolInv_two rfl rfl (And.intro rfl (And.intro rfl rfl)) (And.intro rfl (And.intro rfl rfl)) (by decide)

/-- The invariant looks at neither port, nor the sequencer, nor the session, nor the inputs. -/
theorem poolInv_of_eq {s t : State} (h : PoolInv s) (hc : t.cfg = s.cfg) (hs : t.slots = s.slots)
    (hf : t.freeQ = s.freeQ) (hl : t.filledQ = s.filledQ) : PoolInv t :=
  ⟨by rw [hc]; exact h.legal, by rw [hs, hc]; exact h.count,
    fun i hi => by
      have := h.owned i (by rw [← hc]; exact hi)
      simpa only [ownedOnce, State.slot, hs, hf, hl] using this,
    fun i hi => by rw [hc]; exact h.inRange i (by rw [← hf, ← hl]; exact hi)⟩

/-- A session open on slot 0, nothing in flight on port P. -/
theorem witness_sessionInv_session (bits : List Bool) : SessionInv (session 0 bits) :=
  sessionInv_idle (poolInv_of_eq (witness_poolInv_held 0) rfl rfl rfl rfl) rfl fun _ => And.intro Nat.two_pos rfl

/-- The same with a codec command other than ENCODE in flight and inputs to come. -/
def running (i : Instr) (a : Args) (bits : List Bool) (l : List Input) : State :=
  { onP i a (session 0 bits) with inputs := l }

theorem witness_sessionInv_running (a : Args) (bits : List Bool) (l : List Input) :
    SessionInv (running .writeBits a bits l) where
  toPoolInv := poolInv_of_eq (witness_poolInv_held 0) rfl rfl rfl rfl
  openHeld _ := And.intro Nat.two_pos rfl
  beginHeld h := absurd h.2 (by decide : ¬decode .p (encode .writeBits) = .cmd .encode)
  headersOpen h := absurd h.2 (by decide : ¬decode .p (encode .writeBits) = .cmd .encode)

theorem witness_contentInv_running (a : Args) (bits : List Bool) (l : List Input) :
    ContentInv (running .writeBits a bits l) where
  toSessionInv := witness_sessionInv_running a bits l
  sizeFits i hi := by
    have hi : i < 2 := hi
    match i, hi with
    | 0, _ => exact Nat.zero_le _
    | 1, _ => exact Nat.zero_le _
  written i hi o ho := by
    have hi : i < 2 := hi
    match i, hi with
    | 0, _ => exact absurd ho (Nat.not_lt_zero o)
    | 1, _ => exact absurd ho (Nat.not_lt_zero o)

theorem witness_contentInv_checkedOut : ContentInv checkedOut where
  toSessionInv := sessionInv_idle witness_poolInv_checkedOut rfl (fun h => by cases h)
  sizeFits i hi := by
    have hi : i < 2 := hi
    match i, hi with
    | 0, _ => exact (by decide : 2 ≤ 4096)
    | 1, _ => exact Nat.zero_le _
  written i hi o ho := by
    have hi : i < 2 := hi
    match i, hi with
    | 0, _ =>
      have ho : o < 2 := ho
      match o, ho with
      | 0, _ => decide
      | 1, _ => decide
    | 1, _ => exact absurd ho (Nat.not_lt_zero o)

/-! ### Steps, issues, registers -/

theorem witness_StepRunsTheDecodedCommand_granted :
    let s := { onP .fdct (args1 0) State.reset with inputs := [.grant .p] }
    (s.port .p).status.busy = true ∧ decode .p (s.port .p).latchWord = .cmd .fdct ∧ s.inputs = .grant .p :: [] := by
  decide

theorem witness_StepRunsTheDecodedCommand_alone :
    let s := onC .release 0 State.reset
    (s.port .c).status.busy = true ∧ decode .c (s.port .c).latchWord = .cmd .release ∧ s.inputs = [] ∧
      ∀ q', q' ≠ .c → (s.port q').status.busy = false := by
  refine ⟨rfl, by decide, rfl, fun q' h => ?_⟩
  cases q'
  · rfl
  · exact absurd rfl h

/-- Whatever the arbiter's free value is, it picks one of the two running ports. -/
theorem witness_StepRunsTheDecodedCommand_arbitrated :
    ∃ (q : Port) (i : Instr), ∃ s, s = onP .fdct (args1 0) (onC .release 0 State.reset) ∧
      decode q (s.port q).latchWord = .cmd i ∧ s.inputs = [] ∧ (∀ q', (s.port q').status.busy = true) ∧
      Config.freeArbiter s.draws = decide (q = .p) := by
  cases h : Config.freeArbiter 0 with
  | true => exact ⟨.p, .fdct, _, rfl, by decide, rfl, fun q' => by cases q' <;> rfl, h⟩
  | false => exact ⟨.c, .release, _, rfl, by decide, rfl, fun q' => by cases q' <;> rfl, h⟩

/-- Port P runs the word of `95_test_vectors.md` with reserved bits set; port C an opcode of port P. -/
theorem witness_IllegalWordIsRefused :
    (let s := { onP .fdct (args1 0) State.reset with
        portP := { PortRegs.reset with latchWord := 0x103, status := ⟨true, false, .ok, 0⟩ }, inputs := [.grant .p] };
      s.portP.status.busy = true ∧ decode .p s.portP.latchWord = .illegal .reservedBitsSet ∧
        s.inputs = [.grant .p]) ∧
    (let s := { onC .fdct 0 State.reset with inputs := [.grant .c] };
      s.portC.status.busy = true ∧ decode .c s.portC.latchWord = .illegal .otherPortOpcode ∧
        s.inputs = [.grant .c]) := by
  decide

/-- Both ports idle, and a change to come before the last step of an ENCODE. -/
theorem witness_AcceptedIssueLatchesTheCommand :
    (State.reset.portP.status.busy = false ∧ State.reset.portC.status.busy = false) ∧
      (let before : List Input := List.replicate 2 (.grant .p);
        let s := waiting #v[0x10000000, 2, 1, 1, 0] (before ++ [.frameWrite 0x10000001 7]);
        s.portP.status.busy = false ∧ s.inputs = before ++ .frameWrite 0x10000001 7 :: [] ∧
          s.portP.arg[0].toNat ≤ (0x10000001 : Word).toNat ∧ s.frame.read (0x10000001 : Word).toNat ≠ some 7 ∧
          ∀ j ≤ before.count (.grant .p),
            (after (execTimes .encode j (onP .encode s.portP.arg s))).map (fun t => t.portP.status.busy) =
              some true) := by
  decide +kernel

theorem witness_CmdWriteToABusyPortIsRefused :
    (onP .fdct (args1 0) State.reset).portP.status.busy = true ∧
      (onC .acqread 0 State.reset).portC.status.busy = true := by decide

theorem witness_BadAccessIsNotPerformed :
    (AccessWidth.w8 ≠ .w32 ∨ (0x000 : BitVec 12).toNat % 4 ≠ 0) ∧
      (AccessWidth.w32 ≠ .w32 ∨ (0x001 : BitVec 12).toNat % 4 ≠ 0) := by decide

/-- The ends of the ranges of offsets that ignore writes. -/
theorem witness_WritesReachOnlyCmdAndArg :
    ∀ off ∈ [(0x018 : BitVec 12), 0x03C, 0x058, 0xFFC],
      off.toNat % 4 = 0 ∧ 0x014 < off.toNat ∧ (off.toNat < 0x040 ∨ 0x054 < off.toNat) := by simp

/-- The ends of the reserved ranges, slots below and from N on, and both states of the session. -/
theorem witness_RegistersReadByFields :
    (∀ off ∈ [(0x028 : BitVec 12), 0x03C, 0x068, 0x07C, 0x09C, 0x0FC, 0x300, 0xFFC], off.toNat % 4 = 0 ∧
      (0x028 ≤ off.toNat ∧ off.toNat < 0x040 ∨ 0x068 ≤ off.toNat ∧ off.toNat < 0x080 ∨
        0x09C ≤ off.toNat ∧ off.toNat < 0x100 ∨ 0x300 ≤ off.toNat)) ∧
    (∀ i ∈ [0, 1], i < 64 ∧ i < State.reset.cfg.n) ∧ (∀ i ∈ [2, 63], i < 64 ∧ State.reset.cfg.n ≤ i) ∧
    State.reset.sess.isOpen = false ∧ (session 0 []).sess.isOpen = true := by
  refine ⟨by simp, by decide, by decide, rfl, rfl⟩

/-! ### Pool -/

theorem witness_AcqfillTakesTheOldestFreeOrSteals :
    State.reset.freeQ = 0 :: [1] ∧
      (let s := { queued with freeQ := [] };
        s.freeQ = [] ∧ s.filledQ = 0 :: []) ∧
      (let s := { held 0 with freeQ := [] };
        s.freeQ = [] ∧ s.filledQ = []) := by decide

theorem witness_PublishQueuesAHeldSlot :
    (let s := onP .publish (args1 2) (held 5);
      s.cfg.n ≤ (s.args .p)[0].toNat) ∧
    (let s := onP .publish (args1 1) (held 5);
      (s.args .p)[0].toNat < s.cfg.n ∧ (s.slot 1).loc ≠ .producerHeld) ∧
    (let s := onP .publish (args1 0) (session 5 []);
      (s.args .p)[0].toNat < s.cfg.n ∧ s.sess.isOpen = true ∧ s.sess.slot = (s.args .p)[0].toNat) ∧
    (let s := onP .publish (args1 0) (held 5);
      (s.args .p)[0].toNat < s.cfg.n ∧ (s.slot 0).loc = .producerHeld ∧
        ¬(s.sess.isOpen = true ∧ s.sess.slot = (s.args .p)[0].toNat)) := by decide

theorem witness_AcqreadChecksOutTheOldestFilled :
    (queued.filledQ = 0 :: [] ∧ PoolInv queued ∧ (queued.slot 0).state = .filled) ∧
      (let s := { checkedOut with filledQ := [0] };
        s.filledQ = 0 :: [] ∧ (s.slot 0).state ≠ .filled) :=
  ⟨⟨rfl, witness_poolInv_queued, rfl⟩, by decide⟩

theorem witness_AcqreadPollsOrWaits :
    (let s := onC .acqread 0 State.reset;
      s.filledQ = [] ∧ s.waitActive = false ∧ (s.args .c)[0] = 0) ∧
    (let s := onC .acqread 1 State.reset;
      s.filledQ = [] ∧ s.waitActive = false ∧ (s.args .c)[0] ≠ 0) ∧
    (let s := { onC .acqread 0xFFFFFFFF State.reset with waitActive := true };
      s.filledQ = [] ∧ s.waitActive = true ∧ (s.args .c)[0] = 0xFFFFFFFF) ∧
    (let s := { onC .acqread 0xFFFFFFFE State.reset with waitActive := true };
      s.filledQ = [] ∧ s.waitActive = true ∧ (s.args .c)[0] ≠ 0xFFFFFFFF) := by decide

theorem witness_ReleaseFreesACheckedOutSlot :
    (let s := onC .release 0x40000000 checkedOut;
      s.cfg.legal = true ∧ (s.args .c)[0].toNat = s.cfg.poolBase + 0 * s.cfg.cap ∧
        (s.slot 0).state = .checkedOut ∧ ¬lost s 0) ∧
    (let s := onC .release 0x40001000 checkedOut;
      s.cfg.legal = true ∧ (s.args .c)[0].toNat = s.cfg.poolBase + 1 * s.cfg.cap ∧
        (s.slot 1).state ≠ .checkedOut) ∧
    (let s := onC .release 0x40000000 lostOne;
      s.cfg.legal = true ∧ (s.args .c)[0].toNat = s.cfg.poolBase + 0 * s.cfg.cap ∧
        (s.slot 0).state = .checkedOut ∧ lost s 0) ∧
    (let s := onC .release 0x40002000 checkedOut;
      s.cfg.legal = true ∧ ∀ i, i < s.cfg.n → (s.args .c)[0].toNat ≠ s.cfg.poolBase + i * s.cfg.cap) := by
  decide +kernel

theorem witness_ConsumerReadsOnlyItsSlots :
    (ContentInv checkedOut ∧ ∀ o < 2, (checkedOut.slot 0).loc = .consumerHeld ∧ o < (checkedOut.slot 0).size) ∧
    (∀ i, i < checkedOut.cfg.n → (checkedOut.slot i).loc = .consumerHeld →
      (0x40000002 : Word).toNat < checkedOut.cfg.poolBase + i * checkedOut.cfg.cap ∨
        checkedOut.cfg.poolBase + i * checkedOut.cfg.cap + (checkedOut.slot i).size ≤ (0x40000002 : Word).toNat) :=
  ⟨⟨witness_contentInv_checkedOut, by decide⟩, by decide⟩

theorem witness_StepKeepsThePoolInvariant :
    let s := { onC .acqread 0 queued with inputs := [.grant .c] }
    ∃ t, PoolInv s ∧ step s = .next t ∧ t.filledQ ≠ s.filledQ :=
  ⟨_, poolInv_of_eq witness_poolInv_queued rfl rfl rfl rfl, rfl, by decide⟩

theorem witness_ResetGivesTheQuiescentResetState :
    let s := { session 600 [true] with inputs := [.reset defaultConfig] }
    s.inputs = .reset defaultConfig :: [] ∧ defaultConfig.legal = true ∧
      ResetState defaultConfig State.reset := ⟨rfl, by decide +kernel, rfl⟩

/-- A WRITE_BITS of 0xFF changes the size and two bytes of POOL. -/
def writing : State := running .writeBits (args2 0xFF 8) [] [.grant .p]

theorem witness_SlotsMoveOnlyAsListed :
    (∃ t, SessionInv writing ∧ step writing = .next t ∧ notReset writing ∧ 0 < writing.cfg.n ∧
      (t.slot 0).size ≠ (writing.slot 0).size) ∧
    (let s := { onC .release 0x40000000 lostOne with inputs := [.grant .c] };
      ∃ t, step s = .next t ∧ notReset s ∧ lost s 0) :=
  ⟨⟨_, witness_sessionInv_running _ _ _, rfl, fun k h => (by simp [writing, running] at h), by decide, by decide⟩,
    ⟨_, rfl, fun k h => (by simp at h), by decide⟩⟩

theorem witness_QueuesAndHeldSlotsAddUpToN : PoolInv (held 7) := witness_poolInv_held 7

/-! ### Session, bits, container -/

theorem witness_SessionBeginOpensASession :
    (let s := onP .sessionBegin (args1 2) (held 5);
      s.cfg.n ≤ (s.args .p)[0].toNat) ∧
    (let s := onP .sessionBegin (args1 1) (held 5);
      (s.args .p)[0].toNat < s.cfg.n ∧ (s.slot 1).loc ≠ .producerHeld) ∧
    (let s := onP .sessionBegin (args1 0) (session 5 []);
      (s.args .p)[0].toNat < s.cfg.n ∧ (s.slot 0).loc = .producerHeld) := by decide

theorem witness_NoSessionIsRefused : (held 5).sess.isOpen = false := rfl

theorem witness_sessionReady (k : Nat) (bits : List Bool) (hk : k ≤ 4096) (hb : bits.length ≤ 7) :
    sessionReady (session k bits) := ⟨rfl, Nat.two_pos, rfl, hb, hk⟩

/-- A WRITE_BITS of 0, 16 and 17 bits, with none and seven pending. -/
theorem witness_WriteBitsPacksItsBits :
    ∀ n ∈ [0, 16, 17], ∀ bits ∈ [[], List.replicate 7 true], sessionReady (onP .writeBits (args2 5 n) (session 0 bits)) :=
  fun n _ bits hb => ⟨rfl, Nat.two_pos, rfl, (by decide : ∀ b ∈ [[], List.replicate 7 true], b.length ≤ 7) bits hb,
    Nat.zero_le _⟩

theorem witness_FlushBitsPadsWithOnes :
    (sessionReady (session 607 []) ∧ (session 607 []).sess.acc = []) ∧
      sessionReady (session 4096 [true]) ∧ (session 4096 [true]).sess.acc ≠ [] :=
  ⟨⟨witness_sessionReady _ _ (by decide) (by decide), rfl⟩, witness_sessionReady _ _ (by decide) (by decide), by decide⟩

/-- The dimensions' ends, inside and outside. -/
theorem witness_EmitHeadersStoresTheHeader :
    (1 ≤ (1 : Word).toNat ∧ (1 : Word).toNat ≤ 65535 ∧ 1 ≤ (65535 : Word).toNat ∧ (65535 : Word).toNat ≤ 65535) ∧
      ((0 : Word).toNat < 1 ∧ 65535 < (65536 : Word).toNat) ∧
      ∀ w h, sessionReady (onP .emitHeaders (args2 w h) (session 0 [])) :=
  ⟨by decide +kernel, by decide +kernel, fun _ _ => ⟨rfl, Nat.two_pos, rfl, Nat.zero_le _, Nat.zero_le _⟩⟩

theorem witness_HeaderIs607Bytes :
    (∀ i ∈ [0, 0x09E, 0x0A3, 606], i < 0x09F ∨ 0x0A2 < i) ∧ zigzag[0]? = some 0 ∧ zigzag[63]? = some 63 := by decide

theorem witness_EmitEoiClosesTheSession : sessionReady (session 611 [true]) ∧ sessionReady (session 4095 []) :=
  ⟨witness_sessionReady _ _ (by decide) (by decide), witness_sessionReady _ _ (by decide) (by decide)⟩

theorem witness_StepKeepsTheSessionSlotLaw : ∃ t, SessionInv writing ∧ step writing = .next t :=
  ⟨_, witness_sessionInv_running _ _ _, rfl⟩

theorem witness_StepKeepsSlotContents : ∃ t, ContentInv writing ∧ step writing = .next t :=
  ⟨_, witness_contentInv_running _ _ _, rfl⟩

theorem witness_StepKeepsMemoryCanonical : ∃ t, writing.pool.wf ∧ writing.frame.wf ∧ step writing = .next t :=
  ⟨_, List.Pairwise.nil, List.Pairwise.nil, rfl⟩

theorem witness_StepKeepsPortLaws :
    (∃ t, step writing = .next t) ∧ (∀ q, ¬((writing.port q).status.busy = true ∧ (writing.port q).status.done = true)) ∧
      writing.sess.acc.length ≤ 7 ∧
      (let s := { onC .acqread 1 State.reset with waitActive := true };
        (∃ t, step s = .next t) ∧ s.waitActive = true ∧ WaitInv s) :=
  ⟨⟨_, rfl⟩, fun q => by cases q <;> decide, by decide, ⟨_, rfl⟩, rfl, fun _ => by decide⟩

theorem witness_PoolBytesChangeOnlyInHeldSlots :
    ∃ t, SessionInv writing ∧ step writing = .next t ∧ notReset writing ∧
      t.pool.read 0x40000000 ≠ writing.pool.read 0x40000000 :=
  ⟨_, witness_sessionInv_running _ _ _, rfl, fun k h => (by simp [writing, running] at h), by decide⟩

theorem witness_OnlyResetClearsErrAndParameters :
    let s := { writing with err := { Err.clear with protocol := true } }
    ∃ t, step s = .next t ∧ notReset s ∧ s.err.has .protocol = true ∧
      ∀ a v, s.inputs.head? ≠ some (.frameWrite a v) :=
  ⟨_, rfl, fun k h => (by simp [writing, running] at h), rfl, fun a v h => (by simp [writing, running] at h)⟩

theorem witness_PortsAreIsolated :
    (∃ t, Instr.release.port = .c ∧ exec .release (onC .release 0x40000000 checkedOut) = .next t) ∧
      ∃ t, Instr.writeBits.port = .p ∧ exec .writeBits writing = .next t := ⟨⟨_, rfl, rfl⟩, _, rfl, rfl⟩

theorem witness_CodecCommandsIgnoreTheQueues :
    Instr.encode.port = .p ∧ Instr.encode ≠ .acqfill ∧ Instr.encode ≠ .publish := by decide

/-! ### Blocks -/

/-- A frame of 8 by 8 or 16 by 16 pixels, every byte 128. -/
def gray (w : Word) (n : Nat) (i : Instr) : State :=
  { onP i #v[0x10000000, BitVec.ofNat 32 n, w, w, 0] State.reset with
    frame := frameOf n (fun _ => true) fun _ => 128 }

theorem witness_frameGiven (w : Word) (n : Nat) (i : Instr) (h : n < 2 ^ 32) : frameGiven (gray w n i) := by
  intro a h1 h2
  have h1 : 0x10000000 ≤ a := h1
  have h2 : a < 0x10000000 + (BitVec.ofNat 32 n).toNat := h2
  have hk : a - 0x10000000 < n := by simp at h2; omega
  have hm : ∀ (l : List Nat) (a : Nat), a - 0x10000000 ∈ l → 0x10000000 ≤ a →
      (List.lookup a (l.map fun k => (0x10000000 + k, (128 : Byte)))).isSome = true := by
    intro l
    induction l with
    | nil => intro a h; simp at h
    | cons x l ih =>
      intro a h hle
      rw [List.map_cons, List.lookup_cons]
      by_cases hx : a = 0x10000000 + x
      · simp [hx]
      · rw [beq_false_of_ne hx]
        refine ih a ?_ hle
        rcases List.mem_cons.mp h with h | h
        · omega
        · exact h
  have := hm (List.range n) a (List.mem_range.mpr hk) h1
  simpa [frameReadable, gray, frameOf, Memory.read] using this

theorem witness_frameOperandsValid :
    frameOperandsValid ((gray 8 128 .extractY).args .p) ∧ frameOperandsValid ((gray 16 512 .extractCb).args .p) ∧
      ¬frameOperandsValid ((gray 0 128 .extractY).args .p) ∧ ¬frameOperandsValid ((gray 16 511 .extractY).args .p) := by
  unfold frameOperandsValid
  decide

/-- Every byte of the frame is given, so the bytes an EXTRACT reads are. -/
theorem witness_ExtractYLoadsTheLumaBlock :
    let s := gray 8 128 .extractY
    s.frameChanged = false ∧ frameOperandsValid (s.args .p) ∧ opRow (s.args .p) + 8 ≤ opHeight (s.args .p) ∧
      opCol (s.args .p) + 8 ≤ opWidth (s.args .p) ∧
      ∀ y < 8, ∀ x < 8, (s.frame.read (pixelByte (s.args .p) (0 + y) (0 + x) 0)).isSome = true :=
  ⟨rfl, witness_frameOperandsValid.1, by decide, by decide, by decide +kernel⟩

theorem witness_ExtractChromaAveragesRowPairs :
    let s := gray 16 512 .extractCb
    s.frameChanged = false ∧ frameOperandsValid (s.args .p) ∧ opRow (s.args .p) + 16 ≤ opHeight (s.args .p) ∧
      opCol (s.args .p) + 16 ≤ opWidth (s.args .p) ∧
      ∀ y < 16, ∀ x < 16, (s.frame.read (pixelByte (s.args .p) (0 + y) (0 + x) 1)).isSome = true := by
  refine ⟨rfl, witness_frameOperandsValid.2.1, by decide, by decide, fun y hy x hx => ?_⟩
  refine witness_frameGiven 16 512 .extractCb (by decide) _ ?_ ?_
  · show 0x10000000 ≤ 0x10000000 + ((0 + y) * 16 + (0 + x)) * 2 + 1
    omega
  · show 0x10000000 + ((0 + y) * 16 + (0 + x)) * 2 + 1 < 0x10000000 + 512
    omega

/-- Bad operands; and valid ones with the origin one pixel too far. -/
theorem witness_ExtractRefusesBadFrames :
    ¬frameOperandsValid ((gray 0 128 .extractY).args .p) ∧
      (let s := onP .extractY #v[0x10000000, 128, 8, 8, 1] State.reset;
        frameOperandsValid (s.args .p) ∧ opWidth (s.args .p) < opCol (s.args .p) + 8) :=
  ⟨witness_frameOperandsValid.2.2.1, by unfold frameOperandsValid; decide⟩

theorem witness_ExtractedSamplesAreInRange :
    (let s := gray 16 512 .extractCr;
      frameOperandsValid (s.args .p) ∧ 0 + 16 ≤ opHeight (s.args .p) ∧ 0 + 16 ≤ opWidth (s.args .p) ∧ frameGiven s) ∧
    ∃ t, exec .extractY (gray 8 128 .extractY) = .next t ∧ t.portP.status.code = .ok :=
  ⟨⟨witness_frameOperandsValid.2.1, by decide, by decide, witness_frameGiven 16 512 _ (by decide)⟩, by
    have h : (after (exec .extractY (gray 8 128 .extractY))).map (fun t => t.portP.status.code) = some .ok := by
      decide +kernel
    cases he : exec .extractY (gray 8 128 .extractY) <;> simp_all [after]⟩

theorem witness_BlkReadAndWriteOneElement :
    ((onP .blkRead (args1 63) State.reset).args .p)[0].toNat < 64 ∧
      64 ≤ ((onP .blkRead (args1 64) State.reset).args .p)[0].toNat := by decide

theorem witness_FdctComputesTheTransform :
    State.reset.cfg.fdctImpl = .reference ∧
      (State.resetWith { defaultConfig with fdctImpl := .custom 7 }).cfg.fdctImpl = .custom 7 := by decide

theorem witness_UniformBlockHasOnlyDc :
    ∀ k ∈ [(-128 : Int), 127], -128 ≤ k ∧ k ≤ 127 ∧ ∀ i < 64, blkAt (blockOf [] k) i = k := by decide +kernel

theorem witness_ReferenceTransformRange : SampleRange (blockOf [(0, 127)] (-128)) := by
  unfold SampleRange
  decide +kernel

theorem witness_QuantScalesEachElement : State.reset.cfg.legal = true ∧ State.reset.cfg.qtLuma[0]? = some 16 := by
  decide +kernel

theorem witness_QuantizeLaws :
    (∀ q ∈ [1, 255], 1 ≤ q ∧ q ≤ 255) ∧ (∀ c ∈ [(-1021 : Int), 1021], |c| ≤ 1021) ∧
      ∀ c ∈ [(-1025 : Int), 1017], -1025 ≤ c ∧ c ≤ 1017 := by decide

theorem witness_QuantizeIsWithinOneOfTheQuotient :
    (|(2090 : Int)| ≤ 2090 ∧ 2 * |(2090 : Int) - 8 * (255 : Nat)| ≤ (255 : Nat)) ∧
      2 * |(-1 : Int) - (-1) * (2 : Nat)| ≤ (2 : Nat) ∧ 2 * |(-1 : Int) - 0 * (2 : Nat)| ≤ (2 : Nat) := by decide

/-- The largest codable difference and AC element. -/
theorem witness_EntropyPacksTheBlock :
    let s := { session 0 [true] with blk := blockOf [(0, -2047), (63, 1023)] }
    sessionReady s ∧ |blkAt s.blk 0 - (s.pred.get .y).toInt| < 2 ^ 11 ∧
      ∀ k, 1 ≤ k → k < 64 → |blkAt s.blk k| < 2 ^ 10 := by
  refine ⟨⟨rfl, by decide, rfl, by decide, Nat.zero_le _⟩, by decide +kernel, ?_⟩
  have : ∀ k < 64, 1 ≤ k → |blkAt (blockOf [(0, -2047), (63, 1023)]) k| < 2 ^ 10 := by decide +kernel
  exact fun k h1 h2 => this k h2 h1

theorem witness_EntropyRefusesUncodableBlocks :
    (session 0 []).sess.isOpen = true ∧ 2 ^ 11 ≤ |blkAt (blockOf [(0, 2048)]) 0 - (0 : Sample).toInt| ∧
      2 ^ 10 ≤ |blkAt (blockOf [(63, -1024)]) 63| := by decide +kernel

/-- A difference of 0, and the largest one. -/
theorem witness_UniformBlockCodesAsDcAndEob :
    ∀ d ∈ [(0 : Int), 2047], (let s := { session 0 [] with blk := blockOf [(0, d)] };
      s.sessSize + 10 ≤ s.cfg.cap ∧ Nat.size (blkAt s.blk 0 - (s.pred.get .y).toInt).natAbs ≤ 11 ∧
        ∀ k < 64, 1 ≤ k → blkAt s.blk k = 0) := by decide +kernel

/-- One AC element, at the last scan position and at position 33, after two runs of 16 zeros. -/
theorem witness_UniformBlockCodesAsDcAndEob_one :
    ∀ k z, (k, z) = (63, 63) ∨ (k, z) = (33, 42) → 1 ≤ k ∧ zigzag[k]? = some z ∧
      blkAt (blockOf [(z, -1)]) z ≠ 0 ∧ ∀ i < 64, 1 ≤ i → i ≠ z → blkAt (blockOf [(z, -1)]) i = 0 := by
  rintro k z (h | h) <;> cases h <;> decide +kernel

theorem witness_EntropyBitBudget :
    ∃ t, exec .entropyY (onP .entropyY (args1 0) { session 0 [] with blk := blockOf [(0, 5)] }) = .next t ∧
      t.portP.status.code = .ok := by
  have h' : (after (exec .entropyY (onP .entropyY (args1 0) { session 0 [] with blk := blockOf [(0, 5)] }))).map
      (fun t => t.portP.status.code) = some .ok := by decide +kernel
  cases he : exec .entropyY (onP .entropyY (args1 0) { session 0 [] with blk := blockOf [(0, 5)] }) <;>
    simp_all [after]

/-! ### ENCODE -/

/-- An ENCODE of one pixel at a position, its session (open past Begin) on slot 0 of size `k`. -/
def encodingAt (pos : Seq) (k : Nat) (isOpen : Bool) : State :=
  { onP .encode #v[0x10000000, 2, 1, 1, 0] (held k) with
    seq := some pos, sess := ⟨isOpen, 0, []⟩, frame := frameOf 2 (fun _ => true) fun _ => 128 }

theorem witness_encodeOperandsValid : encodeOperandsValid defaultConfig #v[0x10000000, 2, 1, 1, 0] := by
  unfold encodeOperandsValid frameOperandsValid
  decide

theorem witness_encodeAt {pos : Seq} {k : Nat} {o : Bool} (hr : pos ≠ .validate ∧ pos ≠ .done)
    (hs : pos ≠ .beginSession → o = true) (hb : ∀ mr mc b u, pos ≠ .block mr mc b u) :
    EncodeAt (encodingAt pos k o) pos where
  inFlight := And.intro rfl (by decide : decode .p (encode .encode) = .cmd .encode)
  at_ := rfl
  running := hr
  operands := witness_encodeOperandsValid
  held := rfl
  count := rfl
  session h := ⟨hs h, rfl⟩
  inGrid mr mc b u h := absurd h (hb mr mc b u)

theorem witness_EncodeValidatesFirst :
    (let s := onP .encode #v[0, 2, 1, 1, 0] (held 0);
      s.seq = some .validate ∧ ¬frameOperandsValid (s.args .p)) ∧
    (let s := onP .encode #v[0x10000000, 2, 1, 1, 2] (held 0);
      s.seq = some .validate ∧ s.cfg.n ≤ (s.args .p)[4].toNat) ∧
    (let s := onP .encode #v[0x10000000, 2, 1, 1, 1] (held 0);
      s.seq = some .validate ∧ frameOperandsValid (s.args .p) ∧ (s.args .p)[4].toNat < s.cfg.n ∧
        (s.slot 1).loc ≠ .producerHeld) ∧
    (let s := onP .encode #v[0x10000000, 2, 1, 1, 0] (held 0);
      s.seq = some .validate ∧ frameOperandsValid (s.args .p) ∧ (s.args .p)[4].toNat < s.cfg.n ∧
        (s.slot 0).loc = .producerHeld) := by
  unfold frameOperandsValid
  decide

/-- A sub-step that goes on, the last one, and one that raises a status. -/
theorem witness_EncodeSubStepsAreUnitCommands :
    (EncodeAt (encodingAt .beginSession 0 false) .beginSession ∧
      ∃ i a u, encodeUnit ((encodingAt .beginSession 0 false).args .p) .beginSession = some (i, a) ∧
        exec i (withUnit i a (encodingAt .beginSession 0 false)) = .next u ∧ u.portP.status.code = .ok) ∧
    (EncodeAt (encodingAt .eoi 607 true) .eoi ∧
      ∃ i a u, encodeUnit ((encodingAt .eoi 607 true).args .p) .eoi = some (i, a) ∧
        exec i (withUnit i a (encodingAt .eoi 607 true)) = .next u ∧ u.portP.status.code = .ok) ∧
    (EncodeAt (encodingAt .eoi 4095 true) .eoi ∧
      ∃ i a u, encodeUnit ((encodingAt .eoi 4095 true).args .p) .eoi = some (i, a) ∧
        exec i (withUnit i a (encodingAt .eoi 4095 true)) = .next u ∧ u.portP.status.code ≠ .ok) :=
  ⟨⟨witness_encodeAt (by decide) (by decide) (by simp), _, _, _, rfl, rfl, by decide⟩,
    ⟨witness_encodeAt (by decide) (by decide) (by simp), _, _, _, rfl, rfl, by decide⟩,
    witness_encodeAt (by decide) (by decide) (by simp), _, _, _, rfl, rfl, by decide⟩

/-- ENCODE's first EXTRACT of a 16 by 16 frame that was not given. -/
def unreadable : State :=
  { onP .encode #v[0x10000000, 512, 16, 16, 0] (held 607) with
    seq := some (.block 0 0 .y0 .extract), sess := ⟨true, 0, []⟩ }

theorem witness_EncodeSubStepsAreUnitCommands_fault :
    EncodeAt unreadable (.block 0 0 .y0 .extract) ∧
      ∃ i a, encodeUnit (unreadable.args .p) (.block 0 0 .y0 .extract) = some (i, a) ∧
        exec i (withUnit i a unreadable) = .fault .frameUnreadable := by
  refine ⟨{ inFlight := And.intro rfl (by decide : decode .p (encode .encode) = .cmd .encode), at_ := rfl,
            running := by decide, operands := ?_, held := rfl, count := rfl, session := fun _ => ⟨rfl, rfl⟩,
            inGrid := fun mr mc b u h => ?_ }, _, _, rfl, ?_⟩
  · unfold encodeOperandsValid frameOperandsValid
    decide
  · cases h
    exact ⟨Nat.one_pos, Nat.one_pos⟩
  · have h : (match exec .extractY (withUnit .extractY #v[0x10000000, 512, 16, 16, originWord 0 0 .y0] unreadable) with
        | .fault f => decide (f = .frameUnreadable)
        | _ => false) = true := by decide +kernel
    split at h
    · rename_i f hf
      rw [of_decide_eq_true h] at hf
      exact hf
    · cases h

theorem witness_EncodeFollowsTheListedOrder :
    (encodePositions 1 1)[0]? = some .beginSession ∧ (encodePositions 1 1)[1]? = some .headers ∧
      (encodePositions 1 1)[3 + 24 * 1 * 1]? = some .eoi := by decide

theorem witness_EncodeTerminates :
    let s := encodingAt .beginSession 0 false
    SessionInv s ∧ EncodeAt s .beginSession ∧ frameGiven s ∧ FdctRange (fdctOf s.cfg.fdctImpl) := by
  refine ⟨?_, witness_encodeAt (by decide) (by decide) (by simp), ?_, refFdct_range⟩
  · exact
      { toPoolInv := poolInv_of_eq (witness_poolInv_held 0) rfl rfl rfl rfl
        openHeld := fun h => by cases h
        beginHeld := fun _ _ => ⟨by decide, rfl⟩
        headersOpen := fun _ h => by cases h }
  · intro a h1 h2
    have h1 : 0x10000000 ≤ a := h1
    have h2 : a < 0x10000000 + 2 := h2
    obtain rfl | rfl : a = 0x10000000 ∨ a = 0x10000001 := by omega
    · decide
    · decide

theorem witness_EncodeCompletesAtEoi :
    EncodeAt (encodingAt .eoi 4094 true) .eoi ∧
      (encodingAt .eoi 4094 true).sessSize + 2 ≤ (encodingAt .eoi 4094 true).cfg.cap :=
  ⟨witness_encodeAt (by decide) (by decide) (by simp), by decide⟩

end Sys2Proof.Tests
end

section
/-! PROOFS. The REG window (10_state.md R31 to R43, 20_memory.md R97 to R100): where each register stands, which
offsets a write reaches, and what every register reads as, by bit fields. -/

namespace Sys2Proof.Machine

/-! ## The REG map -/

theorem portBase_cases (q : Port) : portBase q = 0x000 ∨ portBase q = 0x040 := by
  cases q <;> decide

theorem regAt_portBase_add (q : Port) {n : Nat} (h : n < 16) : regAt (portBase q + 4 * n) = portRegAt q n := by
  cases q
  · rw [portBase, regAt, if_pos (by omega)]
    congr 1; omega
  · rw [portBase, regAt, if_neg (by omega), if_pos (by omega)]
    congr 1; omega

theorem regAt_arg (q : Port) (k : Fin 5) : regAt (portBase q + 0x04 + 4 * k) = .port q (.arg k) := by
  cases q <;> revert k <;> decide

theorem regAt_res (q : Port) (k : Fin 3) : regAt (portBase q + 0x1C + 4 * k) = .port q (.res k) := by
  cases q <;> revert k <;> decide

theorem regAt_slotStat {i : Nat} (h : i < 64) : regAt (0x100 + 4 * i) = .slotStat i := by
  rw [regAt, if_neg (by omega), if_neg (by omega), if_neg (by omega), if_pos (by omega)]
  congr 1; omega

theorem regAt_slotSize {i : Nat} (h : i < 64) : regAt (0x200 + 4 * i) = .slotSize i := by
  rw [regAt, if_neg (by omega), if_neg (by omega), if_neg (by omega), if_neg (by omega), if_pos (by omega)]
  congr 1; omega

theorem portRegAt_reserved (q : Port) {n : Nat} (h : 10 ≤ n) : portRegAt q n = .reserved := by
  obtain ⟨m, rfl⟩ := Nat.exists_eq_add_of_le' h
  rfl

theorem globalRegAt_reserved {off : Nat} (h : 0x09C ≤ off) : globalRegAt off = .reserved := by
  unfold globalRegAt
  split <;> simp_all

/-- The reserved offsets of the map (20_memory.md R100). -/
theorem regAt_reserved {off : Nat} (h : 0x028 ≤ off ∧ off < 0x040 ∨ 0x068 ≤ off ∧ off < 0x080 ∨
    0x09C ≤ off ∧ off < 0x100 ∨ 0x300 ≤ off) : regAt off = .reserved := by
  obtain ⟨h1, h2⟩ | ⟨h1, h2⟩ | ⟨h1, h2⟩ | h1 := h
  · rw [regAt, if_pos h2]
    exact portRegAt_reserved .p (by omega)
  · rw [regAt, if_neg (by omega), if_pos h2]
    exact portRegAt_reserved .c (by omega)
  · rw [regAt, if_neg (by omega), if_neg (by omega), if_pos h2]
    exact globalRegAt_reserved h1
  · rw [regAt, if_neg (by omega), if_neg (by omega), if_neg (by omega), if_neg (by omega), if_neg (by omega)]

/-- The registers that a host write reaches: CMD and ARG (10_state.md R32, 20_memory.md R99). -/
def Reg.writable : Reg → Bool
  | .port _ .cmd | .port _ (.arg _) => true
  | _ => false

theorem portRegAt_not_writable (q : Port) {n : Nat} (h : 6 ≤ n) : (portRegAt q n).writable = false := by
  unfold portRegAt
  split <;> simp_all [Reg.writable]

theorem globalRegAt_not_writable (off : Nat) : (globalRegAt off).writable = false := by
  unfold globalRegAt
  split <;> rfl

/-- No offset but those of CMD and ARG is writable (20_memory.md R100). -/
theorem regAt_not_writable {off : Nat} (h4 : off % 4 = 0) (h : 0x014 < off) (h' : off < 0x040 ∨ 0x054 < off) :
    (regAt off).writable = false := by
  unfold regAt
  split
  · exact portRegAt_not_writable .p (by omega)
  split
  · exact portRegAt_not_writable .c (by omega)
  split
  · exact globalRegAt_not_writable off
  split
  · rfl
  split <;> rfl

/-! ## Writes -/

theorem goodAccess_aligned {off : BitVec 12} (h : off.toNat % 4 = 0) : goodAccess .w32 off = true := by
  simp [goodAccess, h]

theorem toNat_ofNat12 {n : Nat} (h : n < 0x1000) : (BitVec.ofNat 12 n).toNat = n := Nat.mod_eq_of_lt h

theorem regWrite_arg (q : Port) (k : Fin 5) (w : Word) (s : State) :
    regWrite .w32 (BitVec.ofNat 12 (portBase q + 0x04 + 4 * k)) w s = writeArg q k w s := by
  have hb := portBase_cases q
  have ho := toNat_ofNat12 (n := portBase q + 0x04 + 4 * k) (by omega)
  rw [regWrite, if_pos (goodAccess_aligned (by omega)), ho, regAt_arg]

theorem regWrite_not_writable {off : BitVec 12} (h4 : off.toNat % 4 = 0) (h : (regAt off.toNat).writable = false)
    (w : Word) (s : State) : regWrite .w32 off w s = s := by
  rw [regWrite, if_pos (goodAccess_aligned h4)]
  split
  · rename_i hr; rw [hr] at h; cases h
  · rename_i hr; rw [hr] at h; cases h
  · rfl

/-! ## Reads -/

theorem regRead_aligned {off : BitVec 12} (h : off.toNat % 4 = 0) (s : State) :
    regRead .w32 off s = s.setReadData (s.readReg (regAt off.toNat)) := by
  rw [regRead, if_pos (goodAccess_aligned h)]

/-- A read returns the register that the map has at its offset (20_memory.md R99, R100). -/
theorem regRead_readData {n : Nat} {r : Reg} (hr : regAt n = r) (h : n < 0x1000) (h4 : n % 4 = 0) (s : State) :
    (regRead .w32 (BitVec.ofNat 12 n) s).readData = s.readReg r := by
  have ho := toNat_ofNat12 h
  rw [regRead_aligned (by rw [ho, h4]), ho, hr, State.setReadData_readData]

theorem regRead_portReg (q : Port) (n : Nat) (h : n < 16) (s : State) :
    (regRead .w32 (BitVec.ofNat 12 (portBase q + 4 * n)) s).readData = s.readReg (portRegAt q n) := by
  have hb := portBase_cases q
  exact regRead_readData (regAt_portBase_add q h) (by omega) (by omega) s

/-! ## Registers by fields

Each field is compared bit by bit. -/

theorem Status.word_fields (st : Status) :
    st.word.getLsbD 0 = st.busy ∧ st.word.getLsbD 1 = st.done ∧ st.word.extractLsb' 2 6 = 0 ∧
      st.word.extractLsb' 8 8 = st.code.number ∧ st.word.extractLsb' 16 8 = st.lastOp ∧
      st.word.extractLsb' 24 8 = 0 := by
  unfold Status.word
  refine ⟨by grind, by grind, ?_, ?_, ?_, ?_⟩ <;> (ext j hj; grind)

theorem Err.word_fields (e : Err) :
    e.word.getLsbD 0 = e.protocol ∧ e.word.getLsbD 1 = e.doubleRelease ∧ e.word.getLsbD 2 = e.foreignBuffer ∧
      e.word.getLsbD 3 = e.ownership ∧ e.word.getLsbD 4 = e.cmdWhileBusy ∧ e.word.getLsbD 5 = e.illegalCmd ∧
      e.word.getLsbD 6 = e.badAccess ∧ e.word.extractLsb' 7 25 = 0 := by
  unfold Err.word
  refine ⟨by grind, by grind, by grind, by grind, by grind, by grind, by grind, ?_⟩
  ext j hj
  grind

theorem Session.word_fields {x : Session} (h : x.isOpen = true) :
    x.word.getLsbD 0 = true ∧ x.word.extractLsb' 1 7 = 0 ∧ x.word.extractLsb' 8 6 = BitVec.ofNat 6 x.slot ∧
      x.word.extractLsb' 14 2 = 0 ∧ x.word.extractLsb' 16 3 = BitVec.ofNat 3 x.acc.length ∧
      x.word.extractLsb' 19 13 = 0 := by
  rw [Session.word, if_pos h]
  refine ⟨by grind, ?_, ?_, ?_, ?_, ?_⟩ <;> (ext j hj; grind)

theorem Session.word_closed {x : Session} (h : x.isOpen = false) : x.word = 0 := by
  simp [Session.word, h]

theorem Slot.statWord_fields (x : Slot) :
    x.statWord.extractLsb' 0 2 = x.state.number ∧ x.statWord.extractLsb' 2 2 = x.loc.number ∧
      x.statWord.extractLsb' 4 28 = 0 := by
  unfold Slot.statWord
  refine ⟨?_, ?_, ?_⟩ <;> (ext j hj; grind)

/-! ## The statements -/

/-- Settles O11: the offsets of ARG map to `writeArg`, and every other offset in the statement maps to a register that
ignores writes. -/
theorem writesReachOnlyCmdAndArg : Obligations.WritesReachOnlyCmdAndArg := by
  intro s w
  refine ⟨fun k => ?_, (regWrite_arg .c · w s), fun off h4 h h' => ?_, fun off h4 => ?_⟩
  · simpa [portBase, writeArg, State.setPort, State.port] using regWrite_arg .p k w s
  · exact regWrite_not_writable h4 (regAt_not_writable h4 h h') w s
  · exact ⟨_, regRead_aligned h4 s⟩

/-- Settles O12: each offset is looked up in the map, and the register there is read by its fields. -/
theorem registersReadByFields : Obligations.RegistersReadByFields := by
  intro s
  have port := fun q n h => regRead_portReg q n h s
  have at_ := fun {n r} (hr : regAt n = r) h h4 => regRead_readData hr h h4 s
  refine ⟨?status, ?cmd, ?arg, ?res, ?err, at_ rfl (by decide) (by decide), at_ rfl (by decide) (by decide),
    at_ rfl (by decide) (by decide), at_ rfl (by decide) (by decide), at_ rfl (by decide) (by decide), ?closed, ?opened,
    ?slots, ?noSlot, ?reserved⟩
  case status =>
    rintro q v rfl
    rw [port q 6 (by decide)]
    exact (s.port q).status.word_fields
  case cmd => exact fun q => port q 0 (by decide)
  case arg =>
    intro q k
    have hb := portBase_cases q
    exact at_ (regAt_arg q k) (by omega) (by omega)
  case res =>
    intro q k
    have hb := portBase_cases q
    exact at_ (regAt_res q k) (by omega) (by omega)
  case err =>
    rintro v rfl
    exact s.err.word_fields
  case closed => exact fun h => (at_ rfl (by decide) (by decide)).trans (Session.word_closed h)
  case opened =>
    rintro h v rfl
    exact Session.word_fields h
  case slots =>
    rintro i hi hn v rfl
    rw [at_ (regAt_slotStat hi) (by omega) (by omega), at_ (regAt_slotSize hi) (by omega) (by omega), State.readReg,
      State.readReg, if_pos hn, if_pos hn]
    obtain ⟨h1, h2, h3⟩ := (s.slot i).statWord_fields
    exact ⟨h1, h2, h3, rfl⟩
  case noSlot =>
    intro i hi hn
    rw [at_ (regAt_slotStat hi) (by omega) (by omega), at_ (regAt_slotSize hi) (by omega) (by omega), State.readReg,
      State.readReg, if_neg (by omega), if_neg (by omega)]
    exact ⟨rfl, rfl⟩
  case reserved =>
    intro off h4 h
    rw [regRead_aligned h4, regAt_reserved h]
    rfl

end Sys2Proof.Machine
end

section
/-! PROOFS. The invariants at reset (10_state.md R44, R51, 47_pool.md R348), for any legal parameters and whatever the
reset leaves of FRAME and the model's own fields. -/

namespace Sys2Proof.Machine

/-- The reset state that a reset during a run gives (70_reset_and_hazards.md R420): FRAME and the model's own fields are
what they were. -/
abbrev resetKeeping (k : Config) (f : Memory) (l : List Input) (w : Word) (d : Nat) : State :=
  { State.resetWith k with frame := f, inputs := l, readData := w, draws := d }

section

variable {k : Config} {f : Memory} {l : List Input} {w : Word} {d : Nat}

theorem resetKeeping_slot (i : Nat) : (resetKeeping k f l w d).slot i = Slot.reset := by
  simp only [State.slot, State.resetWith, List.getElem?_replicate]
  split <;> rfl

theorem contentInv_resetKeeping (h : k.legal = true) : ContentInv (resetKeeping k f l w d) :=
  have pool := PoolInv.resetWith h
  { legal := pool.legal
    count := pool.count
    owned := pool.owned
    inRange := pool.inRange
    openHeld := fun ho => by cases ho
    beginHeld := fun _ hb => by cases hb
    headersOpen := fun _ hh => by cases hh
    sizeFits := fun i _ => by rw [resetKeeping_slot]; exact Nat.zero_le _
    written := fun i _ o ho => by rw [resetKeeping_slot] at ho; exact absurd ho (Nat.not_lt_zero o) }

theorem waitInv_resetKeeping : WaitInv (resetKeeping k f l w d) := fun h => by cases h

theorem resetKeeping_idle (q : Port) : ((resetKeeping k f l w d).port q).status.busy = false := by
  cases q <;> rfl

end

/-- Settles O21: the reset state of the spec's example parameters, which are legal. -/
theorem invariantsHoldAtReset : Obligations.InvariantsHoldAtReset := by
  have legal : defaultConfig.legal = true := by decide
  obtain ⟨hpool, hframe⟩ := State.resetWith_memory_wf defaultConfig
  refine ⟨contentInv_resetKeeping legal, waitInv_resetKeeping, hpool, hframe, Nat.zero_le _, ?_⟩
  rintro q ⟨hb, -⟩
  have idle : (State.reset.port q).status.busy = false := resetKeeping_idle q
  rw [idle] at hb
  cases hb

end Sys2Proof.Machine
end

section
/-! PROOFS. An ARG write commutes with every operation of a command (10_state.md R32, R48): the operations read the
latched operands, never ARG, and keep ARG. -/

namespace Sys2Proof.Machine

section

variable (q : Port) (k : Fin 5) (w : Word) (s : State)

/-! ## What an ARG write leaves unchanged -/

@[simp] theorem writeArg_cfg : (writeArg q k w s).cfg = s.cfg := State.setPort_cfg _ _ _
@[simp] theorem writeArg_blk : (writeArg q k w s).blk = s.blk := State.setPort_blk _ _ _
@[simp] theorem writeArg_sess : (writeArg q k w s).sess = s.sess := State.setPort_sess _ _ _
@[simp] theorem writeArg_pred : (writeArg q k w s).pred = s.pred := State.setPort_pred _ _ _
@[simp] theorem writeArg_slots : (writeArg q k w s).slots = s.slots := State.setPort_slots _ _ _
@[simp] theorem writeArg_freeQ : (writeArg q k w s).freeQ = s.freeQ := State.setPort_freeQ _ _ _
@[simp] theorem writeArg_filledQ : (writeArg q k w s).filledQ = s.filledQ := State.setPort_filledQ _ _ _
@[simp] theorem writeArg_seq : (writeArg q k w s).seq = s.seq := State.setPort_seq _ _ _
@[simp] theorem writeArg_waitActive : (writeArg q k w s).waitActive = s.waitActive := State.setPort_waitActive _ _ _
@[simp] theorem writeArg_pool : (writeArg q k w s).pool = s.pool := State.setPort_pool _ _ _
@[simp] theorem writeArg_frame : (writeArg q k w s).frame = s.frame := State.setPort_frame _ _ _
@[simp] theorem writeArg_frameChanged : (writeArg q k w s).frameChanged = s.frameChanged :=
  State.setPort_frameChanged _ _ _
@[simp] theorem writeArg_draws : (writeArg q k w s).draws = s.draws := State.setPort_draws _ _ _

@[simp] theorem writeArg_args (q' : Port) : (writeArg q k w s).args q' = s.args q' := by cases q <;> cases q' <;> rfl
@[simp] theorem writeArg_slot (i : Nat) : (writeArg q k w s).slot i = s.slot i := by simp [State.slot]
@[simp] theorem writeArg_sessSize : (writeArg q k w s).sessSize = s.sessSize := by simp [State.sessSize]
@[simp] theorem writeArg_sinkAddr : sinkAddr (writeArg q k w s) = sinkAddr s := by simp [sinkAddr]
@[simp] theorem writeArg_frameByte (n a : Nat) : frameByte (writeArg q k w s) n a = frameByte s n a := by
  simp [frameByte]
@[simp] theorem writeArg_frameReadable (a : Nat) : frameReadable (writeArg q k w s) a = frameReadable s a := by
  simp [frameReadable]

/-! ## The updates -/

@[simp] theorem setBlk_writeArg (b : Block) : (writeArg q k w s).setBlk b = writeArg q k w (s.setBlk b) := by
  cases q <;> rfl
@[simp] theorem setSess_writeArg (x : Session) : (writeArg q k w s).setSess x = writeArg q k w (s.setSess x) := by
  cases q <;> rfl
@[simp] theorem setAcc_writeArg (l : List Bool) : (writeArg q k w s).setAcc l = writeArg q k w (s.setAcc l) := by
  cases q <;> rfl
@[simp] theorem setPreds_writeArg (x : Preds) : (writeArg q k w s).setPreds x = writeArg q k w (s.setPreds x) := by
  cases q <;> rfl
@[simp] theorem setFreeQ_writeArg (l : List Nat) : (writeArg q k w s).setFreeQ l = writeArg q k w (s.setFreeQ l) := by
  cases q <;> rfl
@[simp] theorem setFilledQ_writeArg (l : List Nat) :
    (writeArg q k w s).setFilledQ l = writeArg q k w (s.setFilledQ l) := by cases q <;> rfl
@[simp] theorem setSeq_writeArg (x : Option Seq) : (writeArg q k w s).setSeq x = writeArg q k w (s.setSeq x) := by
  cases q <;> rfl
@[simp] theorem setWait_writeArg (b : Bool) : (writeArg q k w s).setWait b = writeArg q k w (s.setWait b) := by
  cases q <;> rfl
@[simp] theorem setPool_writeArg (m : Memory) : (writeArg q k w s).setPool m = writeArg q k w (s.setPool m) := by
  cases q <;> rfl
@[simp] theorem draw_writeArg (n : Nat) : (writeArg q k w s).draw n = writeArg q k w (s.draw n) := by
  cases q <;> rfl
@[simp] theorem modSlot_writeArg (i : Nat) (f : Slot → Slot) :
    (writeArg q k w s).modSlot i f = writeArg q k w (s.modSlot i f) := by cases q <;> rfl

@[simp] theorem faultErr_writeArg (b : ErrBit) : faultErr b (writeArg q k w s) = writeArg q k w (faultErr b s) := by
  cases q <;> rfl
@[simp] theorem complete_writeArg (q' : Port) (c : StatusCode) (a b d : Word) :
    complete q' c a b d (writeArg q k w s) = writeArg q k w (complete q' c a b d s) := by
  cases q <;> cases q' <;> rfl
@[simp] theorem raiseStatus_writeArg (q' : Port) (c : StatusCode) :
    raiseStatus q' c (writeArg q k w s) = writeArg q k w (raiseStatus q' c s) := complete_writeArg ..
@[simp] theorem failWith_writeArg (q' : Port) (b : ErrBit) (c : StatusCode) :
    failWith q' b c (writeArg q k w s) = writeArg q k w (failWith q' b c s) := by simp [failWith]
@[simp] theorem abortSession_writeArg : abortSession (writeArg q k w s) = writeArg q k w (abortSession s) := by
  simp [abortSession]
@[simp] theorem closeSession_writeArg : closeSession (writeArg q k w s) = writeArg q k w (closeSession s) := by
  simp [closeSession]
@[simp] theorem beginSession_writeArg (i : Nat) :
    beginSession i (writeArg q k w s) = writeArg q k w (beginSession i s) := by
  unfold beginSession
  rw [writeArg_sess]
  split <;> simp
@[simp] theorem loadBlock_writeArg (n : Nat) (b : Block) :
    loadBlock (writeArg q k w s) n b = writeArg q k w (loadBlock s n b) := by simp [loadBlock]
@[simp] theorem fdctStep_writeArg : fdctStep (writeArg q k w s) = writeArg q k w (fdctStep s) := by simp [fdctStep]
@[simp] theorem quantLumaStep_writeArg : quantLumaStep (writeArg q k w s) = writeArg q k w (quantLumaStep s) := by
  simp [quantLumaStep]
@[simp] theorem quantChromaStep_writeArg :
    quantChromaStep (writeArg q k w s) = writeArg q k w (quantChromaStep s) := by simp [quantChromaStep]
@[simp] theorem blockQuant_writeArg (b : BlockId) :
    blockQuant b (writeArg q k w s) = writeArg q k w (blockQuant b s) := by cases b <;> simp [blockQuant]

end

/-! ## Sub-steps -/

/-- A change made to the state a sub-step ends in. -/
def Eff.map (f : State → State) : Eff → Eff
  | .ok s => .ok (f s)
  | .raised c s => .raised c (f s)
  | .stuck r => .stuck r

@[simp] theorem Eff.map_ok (f : State → State) (s : State) : (Eff.ok s).map f = .ok (f s) := rfl
@[simp] theorem Eff.map_raised (f : State → State) (c : StatusCode) (s : State) :
    (Eff.raised c s).map f = .raised c (f s) := rfl
@[simp] theorem Eff.map_stuck (f : State → State) (r : Fault) : (Eff.stuck r).map f = .stuck r := rfl

/-- A change that commutes with the second of two sub-steps commutes with both in a row. -/
theorem Eff.bind_map {f : State → State} {m : State → Eff} (h : ∀ s, m (f s) = (m s).map f) (e : Eff) :
    (e.map f).bind m = (e.bind m).map f := by
  cases e with
  | ok s => exact h s
  | raised c s => rfl
  | stuck r => rfl

/-- A change that commutes with the completion of a unit command commutes with its end. -/
theorem finish_map {f d d' : State → State} (hd : ∀ s, d' (f s) = f (d s))
    (hr : ∀ c s, raiseStatus .p c (f s) = f (raiseStatus .p c s)) (e : Eff) :
    finish (e.map f) d' = Outcome.mapNext f (finish e d) := by
  cases e with
  | ok s => exact congrArg Host.Outcome.next (hd s)
  | raised c s => exact congrArg Host.Outcome.next (hr c s)
  | stuck r => rfl

section

variable (q : Port) (k : Fin 5) (w : Word) (s : State)

theorem needSession_writeArg {e e' : Eff} (h : e' = e.map (writeArg q k w)) :
    needSession (writeArg q k w s) e' = (needSession s e).map (writeArg q k w) := by
  unfold needSession
  rw [writeArg_sess, h]
  split <;> simp

theorem sinkByte_writeArg (v : Byte) :
    sinkByte v (writeArg q k w s) = (sinkByte v s).map (writeArg q k w) := by
  unfold sinkByte
  simp only [writeArg_cfg, writeArg_sess, writeArg_sessSize, writeArg_pool, writeArg_sinkAddr]
  split
  · rfl
  split <;> simp

theorem sinkBytes_writeArg (l : List Byte) :
    sinkBytes l (writeArg q k w s) = (sinkBytes l s).map (writeArg q k w) := by
  induction l generalizing s with
  | nil => rfl
  | cons v l ih => rw [sinkBytes, sinkByte_writeArg, Eff.bind_map ih, sinkBytes]

theorem dataByte_writeArg (b : Byte) :
    dataByte b (writeArg q k w s) = (dataByte b s).map (writeArg q k w) := by
  rw [dataByte, sinkByte_writeArg, Eff.bind_map, dataByte]
  intro t
  split
  · exact sinkByte_writeArg q k w t 0
  · rfl

theorem drain_writeArg (n : Nat) : drain n (writeArg q k w s) = (drain n s).map (writeArg q k w) := by
  induction n generalizing s with
  | zero => rfl
  | succ n ih => rw [drain, writeArg_sess, setAcc_writeArg, dataByte_writeArg, Eff.bind_map ih, drain]

theorem emitBits_writeArg (v n : Nat) :
    emitBits v n (writeArg q k w s) = (emitBits v n s).map (writeArg q k w) := by
  rw [emitBits, writeArg_sess, setAcc_writeArg, drain_writeArg, emitBits]

theorem emitItems_writeArg (l : List BitItem) :
    emitItems l (writeArg q k w s) = (emitItems l s).map (writeArg q k w) := by
  induction l generalizing s with
  | nil => rfl
  | cons x l ih => rw [emitItems, emitBits_writeArg, Eff.bind_map ih, emitItems]

theorem flushBits_writeArg : flushBits (writeArg q k w s) = (flushBits s).map (writeArg q k w) := by
  rw [flushBits, flushBits, writeArg_sess]
  split
  · rfl
  · exact emitBits_writeArg ..

theorem flushStep_writeArg : flushStep (writeArg q k w s) = (flushStep s).map (writeArg q k w) :=
  needSession_writeArg q k w s (flushBits_writeArg q k w s)

theorem headersStep_writeArg (h v : Nat) :
    headersStep h v (writeArg q k w s) = (headersStep h v s).map (writeArg q k w) := by
  rw [headersStep, writeArg_cfg, sinkBytes_writeArg, headersStep]

theorem eoiStep_writeArg : eoiStep (writeArg q k w s) = (eoiStep s).map (writeArg q k w) := by
  refine needSession_writeArg q k w s ?_
  rw [sinkBytes_writeArg, Eff.bind_map]
  simp

theorem entropyStep_writeArg (ch : Channel) :
    entropyStep ch (writeArg q k w s) = (entropyStep ch s).map (writeArg q k w) := by
  refine needSession_writeArg q k w s ?_
  simp only [writeArg_blk, writeArg_pred, setPreds_writeArg]
  split
  · exact emitItems_writeArg ..
  · rfl

theorem extractLuma_writeArg (f l x h r c : Nat) :
    extractLuma f l x h r c (writeArg q k w s) = (extractLuma f l x h r c s).map (writeArg q k w) := by
  simp only [extractLuma, writeArg_cfg, writeArg_frameReadable, writeArg_frameByte, loadBlock_writeArg]
  repeat' split
  all_goals rfl

theorem extractChroma_writeArg (ch : Chroma) (f l x h r c : Nat) :
    extractChroma ch f l x h r c (writeArg q k w s) = (extractChroma ch f l x h r c s).map (writeArg q k w) := by
  simp only [extractChroma, writeArg_cfg, writeArg_frameReadable, writeArg_frameByte, loadBlock_writeArg]
  repeat' split
  all_goals rfl

theorem blockExtract_writeArg (a : Args) (mr mc : Nat) (b : BlockId) :
    blockExtract a mr mc b (writeArg q k w s) = (blockExtract a mr mc b s).map (writeArg q k w) := by
  cases b with
  | y0 | y1 | y2 | y3 => exact extractLuma_writeArg ..
  | cb | cr => exact extractChroma_writeArg ..

/-- Every sub-step of ENCODE commutes with an ARG write (46_encoder.md R319). -/
theorem seqEffect_writeArg (pos : Seq) :
    seqEffect pos (writeArg q k w s) = (seqEffect pos s).map (writeArg q k w) := by
  cases pos with
  | validate | done => rfl
  | beginSession => simp [seqEffect]
  | headers => simp only [seqEffect, writeArg_args, headersStep_writeArg]
  | flush => exact flushStep_writeArg q k w s
  | eoi => exact eoiStep_writeArg q k w s
  | block mr mc b u =>
    cases u with
    | extract => simp only [seqEffect, writeArg_args, blockExtract_writeArg]
    | fdct => simp [seqEffect]
    | quant => simp [seqEffect]
    | entropy => exact entropyStep_writeArg ..

/-! ## The commands -/

theorem encodeRefusal_writeArg : encodeRefusal (writeArg q k w s) = (encodeRefusal s).map (writeArg q k w) := by
  simp only [encodeRefusal, writeArg_args, writeArg_cfg, writeArg_slot, raiseStatus_writeArg, failWith_writeArg]
  repeat' split
  all_goals rfl

theorem encodeValidate_writeArg : encodeValidate (writeArg q k w s) = writeArg q k w (encodeValidate s) := by
  rw [encodeValidate, encodeRefusal_writeArg, encodeValidate]
  cases encodeRefusal s <;> simp

theorem encodeDone_writeArg : encodeDone (writeArg q k w s) = writeArg q k w (encodeDone s) := by simp [encodeDone]

theorem encodeAdvance_writeArg (pos : Seq) (e : Eff) :
    encodeAdvance pos (e.map (writeArg q k w)) = Outcome.mapNext (writeArg q k w) (encodeAdvance pos e) := by
  cases e with
  | ok t =>
    simp only [Eff.map_ok, encodeAdvance, writeArg_args, setSeq_writeArg, encodeDone_writeArg]
    split <;> rfl
  | raised c t => simp [encodeAdvance, Outcome.mapNext]
  | stuck r => rfl

theorem execEncode_writeArg :
    execEncode (writeArg q k w s) = Outcome.mapNext (writeArg q k w) (execEncode s) := by
  simp only [execEncode, writeArg_seq, encodeValidate_writeArg, seqEffect_writeArg, encodeAdvance_writeArg]
  split <;> rfl

/-- A unit command whose effect and completion commute with an ARG write does. -/
theorem finish_writeArg {e e' : Eff} {d d' : State → State} (he : e' = e.map (writeArg q k w))
    (hd : ∀ t, d' (writeArg q k w t) = writeArg q k w (d t)) :
    finish e' d' = Outcome.mapNext (writeArg q k w) (finish e d) := by
  rw [he]
  exact finish_map hd (fun c t => raiseStatus_writeArg q k w t .p c) e

theorem entropyCommand_writeArg (ch : Channel) :
    entropyCommand ch (writeArg q k w s) = Outcome.mapNext (writeArg q k w) (entropyCommand ch s) :=
  finish_writeArg q k w (entropyStep_writeArg q k w s ch) fun t => by simp [entropyDone]

theorem dropIndex_writeArg (i : Nat) : dropIndex i (writeArg q k w s) = writeArg q k w (dropIndex i s) := by
  simp [dropIndex]

theorem takeFilled_writeArg (i : Nat) (l : List Nat) :
    takeFilled i l (writeArg q k w s) = writeArg q k w (takeFilled i l s) := by
  simp only [takeFilled, writeArg_slot, dropIndex_writeArg, failWith_writeArg, writeArg_cfg, setFilledQ_writeArg,
    modSlot_writeArg, complete_writeArg]
  split <;> rfl

theorem grantFill_writeArg (i : Nat) : grantFill i (writeArg q k w s) = writeArg q k w (grantFill i s) := by
  simp [grantFill]

theorem acqreadFirst_writeArg : acqreadFirst (writeArg q k w s) = writeArg q k w (acqreadFirst s) := by
  simp only [acqreadFirst, writeArg_filledQ, takeFilled_writeArg, writeArg_args, raiseStatus_writeArg, setWait_writeArg]
  repeat' split
  all_goals rfl

theorem acqreadWait_writeArg : acqreadWait (writeArg q k w s) = writeArg q k w (acqreadWait s) := by
  simp only [acqreadWait, writeArg_filledQ, takeFilled_writeArg, writeArg_args, raiseStatus_writeArg, setWait_writeArg,
    writeArg_draws, draw_writeArg]
  repeat' split
  all_goals rfl

end

/-- Settles O13: each command is put together from operations that commute with an ARG write. -/
theorem argWritesDoNotReachARunningCommand : Obligations.ArgWritesDoNotReachARunningCommand := by
  intro i s q k w
  cases i with
  | acqfill =>
    simp only [exec, execAcqfill, writeArg_freeQ, writeArg_filledQ, setFreeQ_writeArg, setFilledQ_writeArg,
      grantFill_writeArg, raiseStatus_writeArg]
    split <;> rfl
  | publish =>
    simp only [exec, execPublish, writeArg_args, writeArg_cfg, writeArg_slot, writeArg_sess, writeArg_filledQ,
      raiseStatus_writeArg, failWith_writeArg, setFilledQ_writeArg, modSlot_writeArg, complete_writeArg]
    repeat' split
    all_goals rfl
  | encode => exact execEncode_writeArg q k w s
  | sessionBegin =>
    simp only [exec, execSessionBegin, writeArg_args, writeArg_cfg, writeArg_slot, raiseStatus_writeArg,
      failWith_writeArg, beginSession_writeArg, complete_writeArg]
    repeat' split
    all_goals rfl
  | emitHeaders =>
    refine finish_writeArg q k w (needSession_writeArg q k w s ?_) fun t => ?_
    · rw [writeArg_args]
      split
      · rfl
      · exact headersStep_writeArg ..
    · simp
  | extractY =>
    simp only [exec, execExtractY, writeArg_args]
    exact finish_writeArg q k w (extractLuma_writeArg ..) fun t => complete_writeArg ..
  | extractCb | extractCr =>
    simp only [exec, execExtractCb, execExtractCr, writeArg_args]
    exact finish_writeArg q k w (extractChroma_writeArg ..) fun t => complete_writeArg ..
  | fdct => simp [exec, execFdct, Outcome.mapNext]
  | quantY => simp [exec, execQuantY, Outcome.mapNext]
  | quantC => simp [exec, execQuantC, Outcome.mapNext]
  | entropyY | entropyCb | entropyCr => exact entropyCommand_writeArg ..
  | writeBits =>
    refine finish_writeArg q k w (needSession_writeArg q k w s ?_) fun t => ?_
    · rw [writeArg_args]
      split
      · rfl
      · exact emitBits_writeArg ..
    · simp
  | flushBits => exact finish_writeArg q k w (flushStep_writeArg q k w s) fun t => by simp
  | emitEoi => exact finish_writeArg q k w (eoiStep_writeArg q k w s) fun t => by simp
  | blkRead =>
    simp only [exec, execBlkRead, writeArg_args, writeArg_blk, raiseStatus_writeArg, complete_writeArg]
    split <;> rfl
  | blkWrite =>
    simp only [exec, execBlkWrite, writeArg_args, writeArg_blk, setBlk_writeArg, raiseStatus_writeArg,
      complete_writeArg]
    split <;> rfl
  | acqread =>
    simp only [exec, execAcqread, writeArg_waitActive, acqreadWait_writeArg, acqreadFirst_writeArg]
    split <;> rfl
  | release =>
    simp only [exec, execRelease, writeArg_args, writeArg_cfg, writeArg_slot, writeArg_freeQ, lost, writeArg_filledQ,
      failWith_writeArg, modSlot_writeArg, setFreeQ_writeArg, complete_writeArg]
    repeat' split
    all_goals rfl

end Sys2Proof.Machine
end

section
/-! PROOFS. What every step keeps of the ports, the pending bits and the wait (10_state.md R36, R45, R47, 47_pool.md
R343): the three laws as one relation, kept by every shared operation, by every command and by every outside action. -/

namespace Sys2Proof.Machine

/-- From `s` to `t` each of the three laws is kept: BUSY and DONE exclusive, at most 7 pending bits, a wait only inside
a waiting ACQREAD. -/
structure KeepsPortLaws (s t : State) : Prop where
  exclusive : ∀ q : Port, ¬((s.port q).status.busy = true ∧ (s.port q).status.done = true) →
    ¬((t.port q).status.busy = true ∧ (t.port q).status.done = true)
  pending : s.sess.acc.length ≤ 7 → t.sess.acc.length ≤ 7
  wait : WaitInv s → WaitInv t

theorem KeepsPortLaws.refl (s : State) : KeepsPortLaws s s := ⟨fun _ => id, id, id⟩

theorem KeepsPortLaws.trans {s t u : State} (h : KeepsPortLaws s t) (h' : KeepsPortLaws t u) : KeepsPortLaws s u :=
  ⟨fun q => h'.exclusive q ∘ h.exclusive q, h'.pending ∘ h.pending, h'.wait ∘ h.wait⟩

/-! ## The wait law -/

theorem WaitInv.of_noWait {s : State} (h : s.waitActive = false) : WaitInv s := fun ht => by rw [h] at ht; cases ht

theorem WaitInv.noWait_of_idle {s : State} (h : WaitInv s) (hb : s.portC.status.busy = false) :
    s.waitActive = false := by
  by_contra hw
  obtain ⟨hbusy, -, -⟩ := h (Bool.eq_true_of_not_eq_false hw)
  rw [hb] at hbusy
  cases hbusy

theorem WaitInv.noWait_of_other {s : State} (h : WaitInv s) (hd : decode .c s.portC.latchWord ≠ .cmd .acqread) :
    s.waitActive = false := by
  by_contra hw
  obtain ⟨-, hdec, -⟩ := h (Bool.eq_true_of_not_eq_false hw)
  exact hd hdec

/-! ## The updates -/

/-- Both ports and the wait are the same. -/
structure SamePorts (s t : State) : Prop where
  portP : t.portP = s.portP
  portC : t.portC = s.portC
  waitActive : t.waitActive = s.waitActive

theorem SamePorts.refl (s : State) : SamePorts s s := ⟨rfl, rfl, rfl⟩

theorem SamePorts.trans {s t u : State} (h : SamePorts s t) (h' : SamePorts t u) : SamePorts s u :=
  ⟨h'.portP.trans h.portP, h'.portC.trans h.portC, h'.waitActive.trans h.waitActive⟩

theorem SamePorts.port {s t : State} (h : SamePorts s t) (q : Port) : t.port q = s.port q := by
  cases q
  · exact h.portP
  · exact h.portC

/-- Where the ports and the wait are the same, only the pending bits are left to look at. -/
theorem SamePorts.keeps {s t : State} (h : SamePorts s t) (hp : s.sess.acc.length ≤ 7 → t.sess.acc.length ≤ 7) :
    KeepsPortLaws s t where
  exclusive q hq := by rwa [h.port]
  pending := hp
  wait hw := by
    unfold WaitInv State.args at *
    rwa [h.port, h.portC, h.waitActive]

theorem State.setPort_port_other (s : State) (r : PortRegs) {q q' : Port} (h : q' ≠ q) :
    (s.setPort q r).port q' = s.port q' :=
  match q, q', h with
  | .p, .c, _ => rfl
  | .c, .p, _ => rfl

/-- A change of one port's registers keeps the laws when it keeps BUSY and DONE exclusive and, on port C, the wait
law. -/
theorem keepsPortLaws_setPort {s : State} {q : Port} {r : PortRegs}
    (hx : ¬((s.port q).status.busy = true ∧ (s.port q).status.done = true) →
      ¬(r.status.busy = true ∧ r.status.done = true))
    (hw : q = .c → WaitInv s → WaitInv (s.setPort .c r)) : KeepsPortLaws s (s.setPort q r) where
  exclusive q' h := by
    by_cases hq : q' = q
    · subst hq
      rw [State.setPort_port_self]
      exact hx h
    · rwa [State.setPort_port_other _ _ hq]
  pending h := by rwa [State.setPort_sess]
  wait h := by
    cases q with
    | p => exact h
    | c => exact hw rfl h

/-- A change of a port's CMD, ARG or results keeps the laws. -/
theorem keepsPortLaws_setPort_of_same {s : State} {q : Port} {r : PortRegs} (hs : r.status = (s.port q).status)
    (hl : r.latchWord = (s.port q).latchWord) (ha : r.latchArg = (s.port q).latchArg) :
    KeepsPortLaws s (s.setPort q r) := by
  refine keepsPortLaws_setPort (by rw [hs]; exact id) ?_
  rintro rfl hw h
  obtain ⟨hb, hd, ht⟩ := hw h
  refine ⟨?_, ?_, ?_⟩
  · exact (congrArg Status.busy hs).trans hb
  · exact (congrArg (decode .c) hl).trans hd
  · exact (congrArg opTimeout ha).trans_ne ht

/-- A completion keeps the laws; on port C no wait may be left. -/
theorem keepsPortLaws_complete {s : State} {q : Port} (hw : q = .c → WaitInv s → s.waitActive = false)
    (c : StatusCode) (a b d : Word) : KeepsPortLaws s (complete q c a b d s) :=
  keepsPortLaws_setPort (fun _ h => Bool.false_ne_true h.1) fun hq h => .of_noWait (hw hq h)

theorem keepsPortLaws_complete_p (s : State) (c : StatusCode) (a b d : Word) :
    KeepsPortLaws s (complete .p c a b d s) := keepsPortLaws_complete (fun hq => by cases hq) c a b d

theorem keepsPortLaws_faultErr (s : State) (b : ErrBit) : KeepsPortLaws s (faultErr b s) :=
  SamePorts.keeps ⟨rfl, rfl, rfl⟩ id

theorem keepsPortLaws_failWith {s : State} {q : Port} (hw : q = .c → WaitInv s → s.waitActive = false) (b : ErrBit)
    (c : StatusCode) : KeepsPortLaws s (failWith q b c s) :=
  (keepsPortLaws_faultErr s b).trans (keepsPortLaws_complete (s := faultErr b s) hw c 0 0 0)

theorem keepsPortLaws_failWith_p (s : State) (b : ErrBit) (c : StatusCode) : KeepsPortLaws s (failWith .p b c s) :=
  keepsPortLaws_failWith (fun hq => by cases hq) b c

theorem keepsPortLaws_setBlk (s : State) (b : Block) : KeepsPortLaws s (s.setBlk b) :=
  SamePorts.keeps ⟨rfl, rfl, rfl⟩ id

theorem keepsPortLaws_setPreds (s : State) (x : Preds) : KeepsPortLaws s (s.setPreds x) :=
  SamePorts.keeps ⟨rfl, rfl, rfl⟩ id

theorem keepsPortLaws_loadBlock (s : State) (n : Nat) (b : Block) : KeepsPortLaws s (loadBlock s n b) :=
  SamePorts.keeps ⟨rfl, rfl, rfl⟩ id

theorem keepsPortLaws_setSeq (s : State) (x : Option Seq) : KeepsPortLaws s (s.setSeq x) :=
  SamePorts.keeps ⟨rfl, rfl, rfl⟩ id

theorem keepsPortLaws_setFreeQ (s : State) (l : List Nat) : KeepsPortLaws s (s.setFreeQ l) :=
  SamePorts.keeps ⟨rfl, rfl, rfl⟩ id

theorem keepsPortLaws_setFilledQ (s : State) (l : List Nat) : KeepsPortLaws s (s.setFilledQ l) :=
  SamePorts.keeps ⟨rfl, rfl, rfl⟩ id

theorem keepsPortLaws_modSlot (s : State) (i : Nat) (f : Slot → Slot) : KeepsPortLaws s (s.modSlot i f) :=
  SamePorts.keeps ⟨rfl, rfl, rfl⟩ id

theorem keepsPortLaws_draw (s : State) (n : Nat) : KeepsPortLaws s (s.draw n) :=
  SamePorts.keeps ⟨rfl, rfl, rfl⟩ id

theorem keepsPortLaws_endWait (s : State) : KeepsPortLaws s (s.setWait false) :=
  ⟨fun q h => by cases q <;> exact h, id, fun _ => .of_noWait rfl⟩

theorem keepsPortLaws_beginSession (k : Nat) (s : State) : KeepsPortLaws s (beginSession k s) := by
  have closed : SamePorts s (if s.sess.isOpen then abortSession s else s) := by
    split
    · exact ⟨rfl, rfl, rfl⟩
    · exact .refl s
  have begun : SamePorts s (beginSession k s) := closed.trans ⟨rfl, rfl, rfl⟩
  exact begun.keeps fun _ => Nat.zero_le 7

/-! ## The sink and the pending bits -/

/-- A sub-step that is done ends in `P`, one that raises a status in `R`. -/
def Eff.Ends (e : Eff) (P R : State → Prop) : Prop :=
  match e with
  | .ok t => P t
  | .raised _ t => R t
  | .stuck _ => True

theorem Eff.Ends.mono {e : Eff} {P P' R R' : State → Prop} (h : e.Ends P R) (hP : ∀ t, P t → P' t)
    (hR : ∀ t, R t → R' t) : e.Ends P' R' := by
  cases e with
  | ok t => exact hP t h
  | raised c t => exact hR t h
  | stuck f => trivial

theorem Eff.Ends.bind {e : Eff} {m : State → Eff} {P Q R : State → Prop} (h : e.Ends P R)
    (hm : ∀ t, P t → (m t).Ends Q R) : (e.bind m).Ends Q R := by
  cases e with
  | ok t => exact hm t h
  | raised c t => exact h
  | stuck f => trivial

/-- The ports are the same, and the pending bits are `l`. -/
abbrev Holding (s : State) (l : List Bool) (t : State) : Prop := SamePorts s t ∧ t.sess.acc = l

/-- What the sink does to the pending bits: nothing, or the abort empties them (44_bitstream.md R251, R252). -/
abbrev Eff.SinkEnds (e : Eff) (s : State) : Prop := e.Ends (Holding s s.sess.acc) (Holding s [])

theorem Eff.SinkEnds.bind {e : Eff} {m : State → Eff} {s : State} (h : e.SinkEnds s)
    (hm : ∀ t, (m t).SinkEnds t) : (e.bind m).SinkEnds s :=
  Eff.Ends.bind h fun t ⟨hp, ha⟩ =>
    (hm t).mono (fun _ ⟨hp', ha'⟩ => ⟨hp.trans hp', ha'.trans ha⟩) fun _ ⟨hp', ha'⟩ => ⟨hp.trans hp', ha'⟩

theorem sinkEnds_sinkByte (v : Byte) (s : State) : (sinkByte v s).SinkEnds s := by
  unfold sinkByte
  split
  · trivial
  split
  · exact ⟨⟨rfl, rfl, rfl⟩, rfl⟩
  · exact ⟨⟨rfl, rfl, rfl⟩, rfl⟩

theorem sinkEnds_sinkBytes (l : List Byte) (s : State) : (sinkBytes l s).SinkEnds s := by
  induction l generalizing s with
  | nil => exact ⟨.refl s, rfl⟩
  | cons v l ih => exact (sinkEnds_sinkByte v s).bind ih

theorem sinkEnds_dataByte (b : Byte) (s : State) : (dataByte b s).SinkEnds s := by
  refine (sinkEnds_sinkByte b s).bind fun t => ?_
  split
  · exact sinkEnds_sinkByte 0 t
  · exact ⟨.refl t, rfl⟩

/-- The ports are the same, and at most 7 bits are pending (10_state.md R45). -/
abbrev Packed (s t : State) : Prop := SamePorts s t ∧ t.sess.acc.length ≤ 7

/-- EmitBits' loop takes out every whole byte (44_bitstream.md R253). -/
theorem drain_packed {n : Nat} {s : State} (h : s.sess.acc.length < 8 * (n + 1)) :
    (drain n s).Ends (Packed s) (Packed s) := by
  induction n generalizing s with
  | zero => exact ⟨.refl s, by omega⟩
  | succ n ih =>
    have byte := sinkEnds_dataByte (byteOfBits (s.sess.acc.take 8)) (s.setAcc (s.sess.acc.drop 8))
    have same : SamePorts s (s.setAcc (s.sess.acc.drop 8)) := ⟨rfl, rfl, rfl⟩
    refine (byte.mono (fun _ ht => ht) fun t ⟨hp, ha⟩ => ⟨same.trans hp, by rw [ha]; exact Nat.zero_le 7⟩).bind ?_
    rintro t ⟨hp, ha⟩
    have hlen : t.sess.acc.length < 8 * (n + 1) := by
      rw [ha, State.setAcc_sess, List.length_drop]; omega
    exact (ih hlen).mono (fun _ ⟨hp', h7⟩ => ⟨(same.trans hp).trans hp', h7⟩)
      fun _ ⟨hp', h7⟩ => ⟨(same.trans hp).trans hp', h7⟩

theorem emitBits_packed (v n : Nat) (s : State) : (emitBits v n s).Ends (Packed s) (Packed s) := by
  have hlen : (s.setAcc (s.sess.acc ++ bitsOf v n)).sess.acc.length < 8 * ((s.sess.acc.length + n) / 8 + 1) := by
    rw [State.setAcc_sess, List.length_append, bitsOf_length]; omega
  have same : SamePorts s (s.setAcc (s.sess.acc ++ bitsOf v n)) := ⟨rfl, rfl, rfl⟩
  exact (drain_packed hlen).mono (fun _ ⟨hp, h7⟩ => ⟨same.trans hp, h7⟩) fun _ ⟨hp, h7⟩ => ⟨same.trans hp, h7⟩

/-! ## Sub-steps -/

/-- However the sub-step ends, the laws are kept. -/
abbrev Eff.Lawful (e : Eff) (s : State) : Prop := e.Ends (KeepsPortLaws s) (KeepsPortLaws s)

theorem lawful_ok {s t : State} (h : KeepsPortLaws s t) : (Eff.ok t).Lawful s := h

theorem Eff.Lawful.after {e : Eff} {s t : State} (h : KeepsPortLaws s t) (he : e.Lawful t) : e.Lawful s :=
  he.mono (fun _ => h.trans) fun _ => h.trans

theorem Eff.Lawful.bind {e : Eff} {m : State → Eff} {s : State} (h : e.Lawful s) (hm : ∀ t, (m t).Lawful t) :
    (e.bind m).Lawful s := Eff.Ends.bind h fun t ht => (hm t).after ht

theorem Eff.SinkEnds.lawful {e : Eff} {s : State} (h : e.SinkEnds s) : e.Lawful s :=
  h.mono (fun _ ⟨hp, ha⟩ => hp.keeps fun h7 => by rwa [ha]) fun _ ⟨hp, ha⟩ => hp.keeps fun _ => by simp [ha]

theorem lawful_emitBits (v n : Nat) (s : State) : (emitBits v n s).Lawful s :=
  (emitBits_packed v n s).mono (fun _ ⟨hp, h7⟩ => hp.keeps fun _ => h7) fun _ ⟨hp, h7⟩ => hp.keeps fun _ => h7

theorem lawful_emitItems (l : List BitItem) (s : State) : (emitItems l s).Lawful s := by
  induction l generalizing s with
  | nil => exact .refl s
  | cons x l ih => exact (lawful_emitBits _ _ s).bind ih

theorem lawful_needSession {e : Eff} {s : State} (h : e.Lawful s) : (needSession s e).Lawful s := by
  unfold needSession
  split
  · exact h
  · exact keepsPortLaws_faultErr s _

theorem lawful_flushStep (s : State) : (flushStep s).Lawful s := by
  refine lawful_needSession ?_
  unfold flushBits
  split
  · exact .refl s
  · exact lawful_emitBits _ _ s

theorem lawful_headersStep (h w : Nat) (s : State) : (headersStep h w s).Lawful s :=
  (sinkEnds_sinkBytes _ s).lawful

theorem lawful_eoiStep (s : State) : (eoiStep s).Lawful s :=
  lawful_needSession <| (sinkEnds_sinkBytes _ s).lawful.bind fun _ =>
    SamePorts.keeps ⟨rfl, rfl, rfl⟩ fun _ => Nat.zero_le 7

theorem lawful_entropyStep (ch : Channel) (s : State) : (entropyStep ch s).Lawful s := by
  refine lawful_needSession ?_
  split
  · exact Eff.Lawful.after (keepsPortLaws_setPreds s _) (lawful_emitItems _ _)
  · exact .refl s

theorem lawful_extractLuma (f l w h r c : Nat) (s : State) : (extractLuma f l w h r c s).Lawful s := by
  unfold extractLuma
  split
  · exact .refl s
  dsimp only
  split
  · exact .refl s
  split
  · exact lawful_ok (keepsPortLaws_loadBlock s _ _)
  · trivial

theorem lawful_extractChroma (ch : Chroma) (f l w h r c : Nat) (s : State) :
    (extractChroma ch f l w h r c s).Lawful s := by
  unfold extractChroma
  split
  · exact .refl s
  dsimp only
  split
  · exact .refl s
  split
  · exact lawful_ok (keepsPortLaws_loadBlock s _ _)
  · trivial

theorem lawful_seqEffect (pos : Seq) (s : State) : (seqEffect pos s).Lawful s := by
  cases pos with
  | validate | done => exact .refl s
  | beginSession => exact keepsPortLaws_beginSession _ s
  | headers => exact lawful_headersStep _ _ s
  | flush => exact lawful_flushStep s
  | eoi => exact lawful_eoiStep s
  | block mr mc b u =>
    cases u with
    | extract =>
      cases b with
      | y0 | y1 | y2 | y3 => exact lawful_extractLuma _ _ _ _ _ _ s
      | cb | cr => exact lawful_extractChroma _ _ _ _ _ _ _ s
    | fdct => exact keepsPortLaws_setBlk s _
    | quant => cases b <;> exact keepsPortLaws_setBlk s _
    | entropy => exact lawful_entropyStep _ s

/-! ## The commands -/

theorem keepsPortLaws_finish {e : Eff} {d : State → State} {s t : State} (he : e.Lawful s)
    (hd : ∀ u, KeepsPortLaws u (d u)) (h : finish e d = .next t) : KeepsPortLaws s t := by
  cases e with
  | ok u => cases h; exact KeepsPortLaws.trans he (hd u)
  | raised c u => cases h; exact KeepsPortLaws.trans he (keepsPortLaws_complete_p u c 0 0 0)
  | stuck f => cases h

/-- The two ways Validate refuses (46_encoder.md R311). -/
theorem encodeRefusal_cases {s t : State} (h : encodeRefusal s = some t) :
    t = raiseStatus .p .invalidArgument s ∨ t = failWith .p .protocol .invalidState s := by
  unfold encodeRefusal at h
  grind

theorem keepsPortLaws_encodeValidate (s : State) : KeepsPortLaws s (encodeValidate s) := by
  unfold encodeValidate
  split
  · rename_i t ht
    refine KeepsPortLaws.trans ?_ (keepsPortLaws_setSeq t _)
    obtain rfl | rfl := encodeRefusal_cases ht
    · exact keepsPortLaws_complete_p s _ _ _ _
    · exact keepsPortLaws_failWith_p s _ _
  · exact keepsPortLaws_setSeq s _

theorem keepsPortLaws_encodeAdvance {pos : Seq} {e : Eff} {s t : State} (he : e.Lawful s)
    (h : encodeAdvance pos e = .next t) : KeepsPortLaws s t := by
  cases e with
  | ok u =>
    refine KeepsPortLaws.trans he ?_
    simp only [encodeAdvance] at h
    split at h <;> cases h
    · exact (keepsPortLaws_setSeq u _).trans (keepsPortLaws_complete_p _ _ _ _ _)
    · exact keepsPortLaws_setSeq u _
  | raised c u =>
    cases h
    exact KeepsPortLaws.trans he ((keepsPortLaws_setSeq u _).trans (keepsPortLaws_complete_p _ c 0 0 0))
  | stuck f => cases h

theorem keepsPortLaws_execEncode {s t : State} (h : execEncode s = .next t) : KeepsPortLaws s t := by
  unfold execEncode at h
  split at h
  case h_4 => exact keepsPortLaws_encodeAdvance (lawful_seqEffect _ s) h
  all_goals cases h; exact keepsPortLaws_encodeValidate s

theorem keepsPortLaws_grantFill (i : Nat) (s : State) : KeepsPortLaws s (grantFill i s) :=
  (keepsPortLaws_modSlot s i _).trans (keepsPortLaws_complete_p _ _ _ _ _)

/-- A command of port P keeps the laws. -/
theorem keepsPortLaws_exec_p {i : Instr} {s t : State} (hp : i.port = .p) (h : exec i s = .next t) :
    KeepsPortLaws s t := by
  have done (c : StatusCode) (a b d : Word) (u : State) := keepsPortLaws_complete_p u c a b d
  cases i with
  | acqread => cases hp
  | release => cases hp
  | acqfill =>
    simp only [exec, execAcqfill] at h
    split at h <;> cases h
    · exact (keepsPortLaws_setFreeQ s _).trans (keepsPortLaws_grantFill _ _)
    · exact (keepsPortLaws_setFilledQ s _).trans (keepsPortLaws_grantFill _ _)
    · exact done _ _ _ _ s
  | publish =>
    simp only [exec, execPublish] at h
    split at h
    · cases h; exact done _ _ _ _ s
    split at h
    · cases h; exact keepsPortLaws_failWith_p s _ _
    split at h
    · cases h; exact keepsPortLaws_failWith_p s _ _
    · cases h
      exact ((keepsPortLaws_setFilledQ s _).trans (keepsPortLaws_modSlot _ _ _)).trans (done _ _ _ _ _)
  | encode => exact keepsPortLaws_execEncode h
  | sessionBegin =>
    simp only [exec, execSessionBegin] at h
    split at h
    · cases h; exact done _ _ _ _ s
    split at h
    · cases h; exact keepsPortLaws_failWith_p s _ _
    · cases h; exact (keepsPortLaws_beginSession _ s).trans (done _ _ _ _ _)
  | emitHeaders =>
    refine keepsPortLaws_finish (lawful_needSession ?_) (fun u => done _ _ _ _ u) h
    split
    · exact .refl s
    · exact lawful_headersStep _ _ s
  | extractY => exact keepsPortLaws_finish (lawful_extractLuma _ _ _ _ _ _ s) (done _ _ _ _) h
  | extractCb => exact keepsPortLaws_finish (lawful_extractChroma _ _ _ _ _ _ _ s) (done _ _ _ _) h
  | extractCr => exact keepsPortLaws_finish (lawful_extractChroma _ _ _ _ _ _ _ s) (done _ _ _ _) h
  | fdct | quantY | quantC => cases h; exact (keepsPortLaws_setBlk s _).trans (done _ _ _ _ _)
  | entropyY | entropyCb | entropyCr =>
    exact keepsPortLaws_finish (lawful_entropyStep _ s) (fun u => done _ _ _ _ u) h
  | writeBits =>
    refine keepsPortLaws_finish (lawful_needSession ?_) (fun u => done _ _ _ _ u) h
    split
    · exact .refl s
    · exact lawful_emitBits _ _ s
  | flushBits => exact keepsPortLaws_finish (lawful_flushStep s) (fun u => done _ _ _ _ u) h
  | emitEoi => exact keepsPortLaws_finish (lawful_eoiStep s) (fun u => done _ _ _ _ u) h
  | blkRead =>
    simp only [exec, execBlkRead] at h
    split at h <;> cases h <;> exact done _ _ _ _ s
  | blkWrite =>
    simp only [exec, execBlkWrite] at h
    split at h <;> cases h
    · exact done _ _ _ _ s
    · exact (keepsPortLaws_setBlk s _).trans (done _ _ _ _ _)

theorem keepsPortLaws_takeFilled {s : State} (hw : s.waitActive = false) (i : Nat) (l : List Nat) :
    KeepsPortLaws s (takeFilled i l s) := by
  unfold takeFilled
  split
  · refine KeepsPortLaws.trans ?_ (keepsPortLaws_failWith ?_ _ _)
    · exact SamePorts.keeps ⟨rfl, rfl, rfl⟩ id
    · exact fun _ _ => hw
  · refine KeepsPortLaws.trans ?_ (keepsPortLaws_complete ?_ _ _ _ _)
    · exact (keepsPortLaws_setFilledQ s l).trans (keepsPortLaws_modSlot _ i _)
    · exact fun _ _ => hw

/-- The first evaluation of ACQREAD starts a wait only with a nonzero timeout (47_pool.md R343). -/
theorem keepsPortLaws_acqreadFirst {s : State} (hb : s.portC.status.busy = true)
    (hd : decode .c s.portC.latchWord = .cmd .acqread) (hw : s.waitActive = false) :
    KeepsPortLaws s (acqreadFirst s) := by
  unfold acqreadFirst
  split
  · exact keepsPortLaws_takeFilled hw _ _
  split
  · exact keepsPortLaws_complete (fun _ _ => hw) _ _ _ _
  · rename_i ht
    exact ⟨fun q h => by cases q <;> exact h, id, fun _ _ => ⟨hb, hd, ht⟩⟩

/-- A wait step goes on waiting, or ends the wait with the command (47_pool.md R344). -/
theorem keepsPortLaws_acqreadWait (s : State) : KeepsPortLaws s (acqreadWait s) := by
  unfold acqreadWait
  split
  · exact (keepsPortLaws_endWait s).trans (keepsPortLaws_takeFilled rfl _ _)
  split
  · exact .refl s
  split
  · exact ((keepsPortLaws_endWait s).trans (keepsPortLaws_draw _ 1)).trans
      (keepsPortLaws_complete (fun _ _ => rfl) _ _ _ _)
  · exact keepsPortLaws_draw s 1

theorem keepsPortLaws_acqread {s t : State} (hb : s.portC.status.busy = true)
    (hd : decode .c s.portC.latchWord = .cmd .acqread) (h : exec .acqread s = .next t) : KeepsPortLaws s t := by
  simp only [exec, execAcqread] at h
  split at h <;> cases h
  · exact keepsPortLaws_acqreadWait s
  · rename_i hw
    exact keepsPortLaws_acqreadFirst hb hd (Bool.eq_false_of_not_eq_true hw)

/-- A RELEASE runs when no ACQREAD waits. -/
theorem keepsPortLaws_release {s t : State} (hd : decode .c s.portC.latchWord = .cmd .release)
    (h : exec .release s = .next t) : KeepsPortLaws s t := by
  have noWait (hw : WaitInv s) : s.waitActive = false := hw.noWait_of_other (by rw [hd]; decide)
  simp only [exec, execRelease] at h
  split at h
  · cases h; exact keepsPortLaws_failWith (fun _ => noWait) _ _
  split at h <;> cases h
  · exact keepsPortLaws_failWith (fun _ => noWait) _ _
  · refine KeepsPortLaws.trans ?_ (keepsPortLaws_complete ?_ _ _ _ _)
    · exact (keepsPortLaws_modSlot s _ _).trans (keepsPortLaws_setFreeQ _ _)
    · exact fun _ => noWait

theorem decode_port {q : Port} {w : Word} {i : Instr} (h : decode q w = .cmd i) : i.port = q := by
  unfold decode at h
  split at h
  · cases h
  split at h
  · cases h
  split at h
  · rename_i hq
    cases h
    exact eq_of_beq hq
  · cases h

/-- The next step of a busy port keeps the laws. -/
theorem keepsPortLaws_runPort {q : Port} {s t : State} (hb : (s.port q).status.busy = true)
    (h : runPort q s = .next t) : KeepsPortLaws s t := by
  obtain ⟨i, hd, he⟩ | ⟨⟨why, hd⟩, rfl⟩ := runPort_cases h
  · have hq := decode_port hd
    subst hq
    cases i with
    | acqread => exact keepsPortLaws_acqread hb hd he
    | release => exact keepsPortLaws_release hd he
    | _ => exact keepsPortLaws_exec_p rfl he
  · refine keepsPortLaws_failWith (fun hq hw => ?_) _ _
    subst hq
    exact hw.noWait_of_other fun hc => by cases hd.symm.trans hc

/-! ## The outside world -/

/-- An accepted issue finds port C idle, so that no ACQREAD waits (30_encoding.md R120). -/
theorem keepsPortLaws_issue {q : Port} {s : State} (hb : (s.port q).status.busy = false) (w : Word) :
    KeepsPortLaws s (issue q w s) := by
  have latched : KeepsPortLaws s (s.setPort q ((s.port q).issued w)) := by
    refine keepsPortLaws_setPort (fun _ h => Bool.false_ne_true h.2) ?_
    rintro rfl hw
    exact .of_noWait (hw.noWait_of_idle hb)
  refine latched.trans (SamePorts.keeps ?_ ?_)
  · cases q <;> exact ⟨rfl, rfl, rfl⟩
  · cases q <;> exact id

theorem keepsPortLaws_writeCmd (q : Port) (w : Word) (s : State) : KeepsPortLaws s (writeCmd q w s) := by
  unfold writeCmd
  split
  · refine KeepsPortLaws.trans ?_ (keepsPortLaws_faultErr _ _)
    exact keepsPortLaws_setPort_of_same rfl rfl rfl
  · rename_i hb
    exact keepsPortLaws_issue (Bool.eq_false_of_not_eq_true hb) w

theorem keepsPortLaws_regWrite (width : AccessWidth) (off : BitVec 12) (w : Word) (s : State) :
    KeepsPortLaws s (regWrite width off w s) := by
  obtain h | h | ⟨q, h⟩ | ⟨q, k, h⟩ := regWrite_cases width off w s <;> rw [h]
  · exact .refl s
  · exact keepsPortLaws_faultErr s _
  · exact keepsPortLaws_writeCmd q w s
  · exact keepsPortLaws_setPort_of_same rfl rfl rfl

theorem keepsPortLaws_regRead (width : AccessWidth) (off : BitVec 12) (s : State) :
    KeepsPortLaws s (regRead width off s) := by
  unfold regRead
  split <;> exact SamePorts.keeps ⟨rfl, rfl, rfl⟩ id

theorem keepsPortLaws_poolRead {who : Agent} {a : Nat} {s t : State} (h : poolRead who a s = .next t) :
    KeepsPortLaws s t := by
  obtain ⟨v, -, rfl⟩ | rfl := poolRead_cases h
  · exact SamePorts.keeps ⟨rfl, rfl, rfl⟩ id
  · exact SamePorts.keeps ⟨rfl, rfl, rfl⟩ id

theorem keepsPortLaws_hardReset {k : Config} {s t : State} (h : hardReset k s = .next t) : KeepsPortLaws s t := by
  unfold hardReset at h
  split at h <;> cases h
  exact ⟨fun q _ hq => absurd ((resetKeeping_idle q).symm.trans hq.1) Bool.false_ne_true, fun _ => Nat.zero_le 7,
    fun _ => waitInv_resetKeeping⟩

/-- Every step keeps the laws. -/
theorem keepsPortLaws_step {s t : State} (h : step s = .next t) : KeepsPortLaws s t := by
  have taken (rest : List Input) : KeepsPortLaws s (s.setInputs rest) := SamePorts.keeps ⟨rfl, rfl, rfl⟩ id
  obtain ⟨q, u, hu, hb, hr⟩ | ⟨rest, w, off, v, -, rfl⟩ | ⟨rest, w, off, -, rfl⟩ | ⟨rest, who, a, -, hr⟩ |
    ⟨rest, a, v, -, rfl⟩ | ⟨rest, k, -, hr⟩ | ⟨rest, q, -, -, rfl⟩ | ⟨-, -, -, ht⟩ := step_cases h
  · refine KeepsPortLaws.trans ?_ (keepsPortLaws_runPort hb hr)
    cases hu with
    | granted rest => exact taken rest
    | alone => exact .refl s
    | arbitrated => exact keepsPortLaws_draw s 1
  · exact (taken rest).trans (keepsPortLaws_regWrite w off v _)
  · exact (taken rest).trans (keepsPortLaws_regRead w off _)
  · exact (taken rest).trans (keepsPortLaws_poolRead hr)
  · exact (taken rest).trans (SamePorts.keeps ⟨rfl, rfl, rfl⟩ id)
  · exact (taken rest).trans (keepsPortLaws_hardReset hr)
  · exact taken rest
  · exact ht ▸ .refl s

/-- Settles O35: the three laws, kept together by every step. -/
theorem stepKeepsPortLaws : Obligations.StepKeepsPortLaws := by
  intro s t h
  obtain ⟨exclusive, pending, wait⟩ := keepsPortLaws_step h
  exact ⟨exclusive, pending, wait⟩

end Sys2Proof.Machine
end

section
/-! PROOFS. What a step does to POOL and FRAME (20_memory.md R92, R93, R102, 44_bitstream.md R251): bytes are
stored one write at a time, in POOL only by the sink and only inside the session slot's buffer. Both memories stay
canonical because a write keeps the form, and only a held slot's bytes change because the session's slot is held. -/

namespace Sys2Proof.Machine

/-! ## Runs of writes -/

/-- `m'` is `m` after some writes, every one at an address in `A`. -/
inductive Memory.WritesTo (A : Nat → Prop) (m : Memory) : Memory → Prop where
  | refl : Memory.WritesTo A m m
  | write {m' : Memory} {a : Nat} (h : Memory.WritesTo A m m') (ha : A a) (v : Byte) :
      Memory.WritesTo A m (m'.write a v)

theorem Memory.WritesTo.of_eq {A : Nat → Prop} {m m' : Memory} (h : m' = m) : Memory.WritesTo A m m' := h ▸ .refl

theorem Memory.WritesTo.mono {A B : Nat → Prop} {m m' : Memory} (h : Memory.WritesTo A m m')
    (hAB : ∀ a, A a → B a) : Memory.WritesTo B m m' := by
  induction h with
  | refl => exact .refl
  | write _ ha v ih => exact ih.write (hAB _ ha) v

theorem Memory.WritesTo.trans {A : Nat → Prop} {m₁ m₂ m₃ : Memory} (h : Memory.WritesTo A m₁ m₂)
    (h' : Memory.WritesTo A m₂ m₃) : Memory.WritesTo A m₁ m₃ := by
  induction h' with
  | refl => exact h
  | write _ ha v ih => exact ih.write ha v

/-- Writes keep the canonical form. -/
theorem Memory.WritesTo.wf {A : Nat → Prop} {m m' : Memory} (h : Memory.WritesTo A m m') (hm : m.wf) : m'.wf := by
  induction h with
  | refl => exact hm
  | write _ _ v ih => exact Memory.wf_write _ v ih

/-- Where no write goes, the memory reads as before. -/
theorem Memory.WritesTo.read {A : Nat → Prop} {m m' : Memory} (h : Memory.WritesTo A m m') {x : Nat} (hx : ¬A x) :
    m'.read x = m.read x := by
  induction h with
  | refl => rfl
  | @write m' a _ ha v ih => exact (Memory.read_write_other m' v (by rintro rfl; exact hx ha)).trans ih

/-! ## The sink -/

/-- The session stays on its slot, and POOL is written only inside that slot's buffer. -/
structure Sunk (s t : State) : Prop where
  cfg : t.cfg = s.cfg
  slot : t.sess.slot = s.sess.slot
  pool : s.pool.WritesTo (inBuffer s.cfg s.sess.slot) t.pool

theorem Sunk.refl (s : State) : Sunk s s := ⟨rfl, rfl, .refl⟩

theorem Sunk.trans {s t u : State} (h : Sunk s t) (h' : Sunk t u) : Sunk s u where
  cfg := h'.cfg.trans h.cfg
  slot := h'.slot.trans h.slot
  pool := h.pool.trans (by simpa only [h.cfg, h.slot] using h'.pool)

/-- However the sub-step ends, POOL is written only inside the session slot's buffer. -/
abbrev Eff.Sinks (e : Eff) (s : State) : Prop := e.Ends (Sunk s) (Sunk s)

theorem Eff.Sinks.after {e : Eff} {s t : State} (h : Sunk s t) (he : e.Sinks t) : e.Sinks s :=
  he.mono (fun _ => h.trans) fun _ => h.trans

theorem Eff.Sinks.bind {e : Eff} {m : State → Eff} {s : State} (h : e.Sinks s) (hm : ∀ t, (m t).Sinks t) :
    (e.bind m).Sinks s := Eff.Ends.bind h fun t ht => (hm t).after ht

/-- The sink stores below CAP, so inside the buffer (44_bitstream.md R251). -/
theorem sinkAddr_inBuffer {s : State} (h : s.sessSize < s.cfg.cap) : inBuffer s.cfg s.sess.slot (sinkAddr s) :=
  ⟨Nat.le_add_right _ _, Nat.add_lt_add_left h _⟩

theorem sinks_sinkByte (v : Byte) (s : State) : (sinkByte v s).Sinks s := by
  unfold sinkByte
  split
  · trivial
  split
  · exact ⟨rfl, rfl, .refl⟩
  · rename_i hcap
    exact ⟨rfl, rfl, .write .refl (sinkAddr_inBuffer (Nat.lt_of_not_le hcap)) v⟩

theorem sinks_sinkBytes (l : List Byte) (s : State) : (sinkBytes l s).Sinks s := by
  induction l generalizing s with
  | nil => exact .refl s
  | cons v l ih => exact (sinks_sinkByte v s).bind ih

theorem sinks_dataByte (b : Byte) (s : State) : (dataByte b s).Sinks s := by
  refine (sinks_sinkByte b s).bind fun t => ?_
  split
  · exact sinks_sinkByte 0 t
  · exact .refl t

theorem sunk_setAcc (s : State) (l : List Bool) : Sunk s (s.setAcc l) := ⟨rfl, rfl, .refl⟩
theorem sunk_setPreds (s : State) (x : Preds) : Sunk s (s.setPreds x) := ⟨rfl, rfl, .refl⟩

theorem sinks_drain (k : Nat) (s : State) : (drain k s).Sinks s := by
  induction k generalizing s with
  | zero => exact .refl s
  | succ k ih => exact Eff.Sinks.after (sunk_setAcc s _) ((sinks_dataByte _ _).bind ih)

theorem sinks_emitBits (v n : Nat) (s : State) : (emitBits v n s).Sinks s :=
  Eff.Sinks.after (sunk_setAcc s _) (sinks_drain _ _)

theorem sinks_emitItems (l : List BitItem) (s : State) : (emitItems l s).Sinks s := by
  induction l generalizing s with
  | nil => exact .refl s
  | cons x l ih => exact (sinks_emitBits _ _ s).bind ih

theorem sinks_flushBits (s : State) : (flushBits s).Sinks s := by
  unfold flushBits
  split
  · exact .refl s
  · exact sinks_emitBits _ _ s

/-! ## Sub-steps -/

/-- The POOL addresses the next step may write: the buffer of the session's slot, when the session is open or the step
is ENCODE's Headers, the one emission that checks no session (46_encoder.md R319). -/
def SinkReach (s : State) (a : Nat) : Prop :=
  (s.sess.isOpen = true ∨ encoding s ∧ s.seq = some .headers) ∧ inBuffer s.cfg s.sess.slot a

/-- POOL is written only where the sink may reach. -/
abbrev PoolSunk (s t : State) : Prop := s.pool.WritesTo (SinkReach s) t.pool

theorem poolSunk_of_eq {s t : State} (h : t.pool = s.pool) : PoolSunk s t := .of_eq h

theorem Sunk.poolSunk {s t : State} (h : Sunk s t)
    (hs : s.sess.isOpen = true ∨ encoding s ∧ s.seq = some .headers) : PoolSunk s t :=
  h.pool.mono fun _ ha => ⟨hs, ha⟩

/-- However the sub-step ends, POOL is written only where the sink may reach. -/
abbrev Eff.PoolSafe (e : Eff) (s : State) : Prop := e.Ends (PoolSunk s) (PoolSunk s)

theorem poolSafe_ok {s t : State} (h : t.pool = s.pool) : (Eff.ok t).PoolSafe s := poolSunk_of_eq h

theorem poolSafe_raised {s : State} (c : StatusCode) : (Eff.raised c s).PoolSafe s := poolSunk_of_eq rfl

theorem poolSafe_needSession {e : Eff} {s : State} (h : e.Sinks s) : (needSession s e).PoolSafe s := by
  unfold needSession
  split
  · rename_i ho
    exact h.mono (fun _ ht => ht.poolSunk (.inl ho)) fun _ ht => ht.poolSunk (.inl ho)
  · exact poolSunk_of_eq rfl

theorem poolSafe_flushStep (s : State) : (flushStep s).PoolSafe s := poolSafe_needSession (sinks_flushBits s)

theorem poolSafe_eoiStep (s : State) : (eoiStep s).PoolSafe s :=
  poolSafe_needSession ((sinks_sinkBytes _ s).bind fun _ => ⟨rfl, rfl, .refl⟩)

theorem poolSafe_entropyStep (ch : Channel) (s : State) : (entropyStep ch s).PoolSafe s := by
  refine poolSafe_needSession ?_
  split
  · exact Eff.Sinks.after (sunk_setPreds s _) (sinks_emitItems _ _)
  · exact .refl s

theorem poolSafe_extractLuma (f l w h r c : Nat) (s : State) : (extractLuma f l w h r c s).PoolSafe s := by
  unfold extractLuma
  split
  · exact poolSafe_raised _
  dsimp only
  split
  · exact poolSafe_raised _
  split
  · exact poolSafe_ok (loadBlock_pool s _ _)
  · trivial

theorem poolSafe_extractChroma (ch : Chroma) (f l w h r c : Nat) (s : State) :
    (extractChroma ch f l w h r c s).PoolSafe s := by
  unfold extractChroma
  split
  · exact poolSafe_raised _
  dsimp only
  split
  · exact poolSafe_raised _
  split
  · exact poolSafe_ok (loadBlock_pool s _ _)
  · trivial

@[simp] theorem beginSession_pool (k : Nat) (s : State) : (beginSession k s).pool = s.pool := by
  unfold beginSession
  split <;> rfl

theorem poolSafe_seqEffect {pos : Seq} {s : State} (he : encoding s) (hp : s.seq = some pos) :
    (seqEffect pos s).PoolSafe s := by
  cases pos with
  | validate | done => exact poolSafe_ok rfl
  | beginSession => exact poolSafe_ok (beginSession_pool _ s)
  | headers =>
    have reach (t : State) (ht : Sunk s t) : PoolSunk s t := ht.poolSunk (.inr ⟨he, hp⟩)
    exact (sinks_sinkBytes _ s).mono reach reach
  | flush => exact poolSafe_flushStep s
  | eoi => exact poolSafe_eoiStep s
  | block mr mc b u =>
    cases u with
    | extract =>
      cases b with
      | y0 | y1 | y2 | y3 => exact poolSafe_extractLuma _ _ _ _ _ _ s
      | cb | cr => exact poolSafe_extractChroma _ _ _ _ _ _ _ s
    | fdct => exact poolSafe_ok (State.setBlk_pool s _)
    | quant => cases b <;> exact poolSafe_ok (State.setBlk_pool s _)
    | entropy => exact poolSafe_entropyStep _ s

/-! ## The commands -/

theorem poolSunk_finish {e : Eff} {d : State → State} {s t : State} (he : e.PoolSafe s)
    (hd : ∀ u, (d u).pool = u.pool) (h : finish e d = .next t) : PoolSunk s t := by
  cases e with
  | ok u => cases h; exact Memory.WritesTo.trans he (.of_eq (hd u))
  | raised c u => cases h; exact he
  | stuck f => cases h

theorem encodeValidate_pool (s : State) : (encodeValidate s).pool = s.pool := by
  unfold encodeValidate
  split
  · rename_i t ht
    obtain rfl | rfl := encodeRefusal_cases ht <;> rfl
  · rfl

theorem poolSunk_encodeAdvance {pos : Seq} {e : Eff} {s t : State} (he : e.PoolSafe s)
    (h : encodeAdvance pos e = .next t) : PoolSunk s t := by
  cases e with
  | ok u =>
    simp only [encodeAdvance] at h
    split at h <;> cases h <;> exact he
  | raised c u => cases h; exact he
  | stuck f => cases h

theorem poolSunk_execEncode {s t : State} (he : encoding s) (h : execEncode s = .next t) : PoolSunk s t := by
  unfold execEncode at h
  split at h
  case h_4 pos hp => exact poolSunk_encodeAdvance (poolSafe_seqEffect he hp) h
  all_goals cases h; exact poolSunk_of_eq (encodeValidate_pool s)

/-- The commands of the pool of slots (47_pool.md R341 to R345), which store nothing. -/
def movesSlots : Instr → Bool
  | .acqfill | .publish | .acqread | .release => true
  | _ => false

/-- Both memories are the same. -/
structure SameMemories (s t : State) : Prop where
  pool : t.pool = s.pool
  frame : t.frame = s.frame

theorem sameMemories_takeFilled (i : Nat) (l : List Nat) (s : State) : SameMemories s (takeFilled i l s) := by
  unfold takeFilled
  split <;> exact ⟨rfl, rfl⟩

theorem sameMemories_acqreadFirst (s : State) : SameMemories s (acqreadFirst s) := by
  unfold acqreadFirst
  split
  · exact sameMemories_takeFilled _ _ s
  · split <;> exact ⟨rfl, rfl⟩

theorem sameMemories_acqreadWait (s : State) : SameMemories s (acqreadWait s) := by
  unfold acqreadWait
  split
  · rename_i i l _
    obtain ⟨hpool, hframe⟩ := sameMemories_takeFilled i l (s.setWait false)
    exact ⟨hpool, hframe⟩
  split
  · exact ⟨rfl, rfl⟩
  · split <;> exact ⟨rfl, rfl⟩

theorem sameMemories_exec {i : Instr} {s t : State} (hi : movesSlots i = true) (h : exec i s = .next t) :
    SameMemories s t := by
  cases i with
  | acqfill =>
    simp only [exec, execAcqfill] at h
    split at h <;> cases h <;> exact ⟨rfl, rfl⟩
  | publish =>
    simp only [exec, execPublish] at h
    split at h
    · cases h; exact ⟨rfl, rfl⟩
    split at h
    · cases h; exact ⟨rfl, rfl⟩
    · split at h <;> cases h <;> exact ⟨rfl, rfl⟩
  | acqread =>
    simp only [exec, execAcqread] at h
    split at h <;> cases h
    · exact sameMemories_acqreadWait s
    · exact sameMemories_acqreadFirst s
  | release =>
    simp only [exec, execRelease] at h
    split at h
    · cases h; exact ⟨rfl, rfl⟩
    · split at h <;> cases h <;> exact ⟨rfl, rfl⟩
  | _ => cases hi

/-- No command changes FRAME (20_memory.md R92). -/
theorem exec_frame {i : Instr} {s t : State} (h : exec i s = .next t) : t.frame = s.frame := by
  cases i with
  | acqfill | publish | acqread | release => exact (sameMemories_exec rfl h).frame
  | _ => exact (exec_codecFrame rfl (by decide) (by decide) h).frame

/-- A command writes POOL only where the sink may reach (20_memory.md R93). -/
theorem poolSunk_exec {i : Instr} {s t : State} (he : i = .encode → encoding s) (h : exec i s = .next t) :
    PoolSunk s t := by
  have done (c : StatusCode) (a b d : Word) (u : State) : (complete .p c a b d u).pool = u.pool := rfl
  cases i with
  | acqfill | publish | acqread | release => exact poolSunk_of_eq (sameMemories_exec rfl h).pool
  | encode => exact poolSunk_execEncode (he rfl) h
  | sessionBegin =>
    simp only [exec, execSessionBegin] at h
    split at h
    · cases h; exact poolSunk_of_eq rfl
    · split at h <;> cases h
      · exact poolSunk_of_eq rfl
      · exact poolSunk_of_eq ((done _ _ _ _ _).trans (beginSession_pool _ s))
  | emitHeaders =>
    refine poolSunk_finish (poolSafe_needSession ?_) (fun u => done _ _ _ _ u) h
    split
    · exact .refl s
    · exact sinks_sinkBytes _ s
  | extractY => exact poolSunk_finish (poolSafe_extractLuma _ _ _ _ _ _ s) (done _ _ _ _) h
  | extractCb | extractCr => exact poolSunk_finish (poolSafe_extractChroma _ _ _ _ _ _ _ s) (done _ _ _ _) h
  | fdct | quantY | quantC => cases h; exact poolSunk_of_eq ((done _ _ _ _ _).trans (State.setBlk_pool s _))
  | entropyY | entropyCb | entropyCr =>
    exact poolSunk_finish (poolSafe_entropyStep _ s) (fun u => done _ _ _ _ u) h
  | writeBits =>
    refine poolSunk_finish (poolSafe_needSession ?_) (fun u => done _ _ _ _ u) h
    split
    · exact .refl s
    · exact sinks_emitBits _ _ s
  | flushBits => exact poolSunk_finish (poolSafe_flushStep s) (fun u => done _ _ _ _ u) h
  | emitEoi => exact poolSunk_finish (poolSafe_eoiStep s) (fun u => done _ _ _ _ u) h
  | blkRead =>
    simp only [exec, execBlkRead] at h
    split at h <;> cases h
    · exact poolSunk_of_eq (raiseStatus_pool s _ _)
    · exact poolSunk_of_eq (done _ _ _ _ s)
  | blkWrite =>
    simp only [exec, execBlkWrite] at h
    split at h <;> cases h
    · exact poolSunk_of_eq (raiseStatus_pool s _ _)
    · exact poolSunk_of_eq ((done _ _ _ _ _).trans (State.setBlk_pool s _))

/-! ## Steps -/

theorem runPort_frame {q : Port} {s t : State} (h : runPort q s = .next t) : t.frame = s.frame := by
  obtain ⟨i, -, he⟩ | ⟨-, rfl⟩ := runPort_cases h
  · exact exec_frame he
  · exact failWith_frame s q _ _

theorem poolSunk_runPort {q : Port} {s t : State} (hb : (s.port q).status.busy = true) (h : runPort q s = .next t) :
    PoolSunk s t := by
  obtain ⟨i, hd, he⟩ | ⟨-, rfl⟩ := runPort_cases h
  · refine poolSunk_exec (fun hi => ?_) he
    subst hi
    cases decode_port hd
    exact ⟨hb, hd⟩
  · exact poolSunk_of_eq (failWith_pool s q _ _)

theorem sameMemories_issue (q : Port) (w : Word) (s : State) : SameMemories s (issue q w s) := by
  cases q <;> exact ⟨rfl, rfl⟩

theorem sameMemories_regWrite (width : AccessWidth) (off : BitVec 12) (w : Word) (s : State) :
    SameMemories s (regWrite width off w s) := by
  obtain h | h | ⟨q, h⟩ | ⟨q, k, h⟩ := regWrite_cases width off w s <;> rw [h]
  · exact ⟨rfl, rfl⟩
  · exact ⟨rfl, rfl⟩
  · unfold writeCmd
    split
    · exact ⟨State.setPort_pool s q _, State.setPort_frame s q _⟩
    · exact sameMemories_issue q w s
  · exact ⟨writeArg_pool q k w s, writeArg_frame q k w s⟩

theorem sameMemories_regRead (width : AccessWidth) (off : BitVec 12) (s : State) :
    SameMemories s (regRead width off s) := by
  unfold regRead
  split <;> exact ⟨rfl, rfl⟩

theorem sameMemories_poolRead {who : Agent} {a : Nat} {s t : State} (h : poolRead who a s = .next t) :
    SameMemories s t := by
  obtain ⟨v, -, rfl⟩ | rfl := poolRead_cases h <;> exact ⟨rfl, rfl⟩

/-- A reset empties POOL and leaves FRAME (70_reset_and_hazards.md R420). -/
theorem hardReset_memories {k : Config} {s t : State} (h : hardReset k s = .next t) :
    t.pool = [] ∧ t.frame = s.frame := by
  unfold hardReset at h
  split at h <;> cases h
  exact ⟨rfl, rfl⟩

/-- What a port runs from has the memories, and the reach of the sink, of the state before the step. -/
theorem Before.memories {s u : State} (h : Before s u) :
    u.pool = s.pool ∧ u.frame = s.frame ∧ SinkReach u = SinkReach s := by
  cases h <;> exact ⟨rfl, rfl, rfl⟩

/-- FRAME changes only by a write of the frame source (20_memory.md R92). -/
theorem step_frame {s t : State} (h : step s = .next t) :
    t.frame = s.frame ∨
      ∃ a v, s.inputs.head? = some (.frameWrite a v) ∧ t.frame = s.frame.write a.toNat v := by
  obtain ⟨q, u, hu, -, hr⟩ | ⟨rest, w, off, v, -, rfl⟩ | ⟨rest, w, off, -, rfl⟩ | ⟨rest, who, a, -, hr⟩ |
    ⟨rest, a, v, hi, rfl⟩ | ⟨rest, k, -, hr⟩ | ⟨rest, q, -, -, rfl⟩ | ⟨-, -, -, rfl⟩ := step_cases h
  · obtain ⟨-, hframe, -⟩ := hu.memories
    exact .inl ((runPort_frame hr).trans hframe)
  · exact .inl (sameMemories_regWrite w off v (s.setInputs rest)).frame
  · exact .inl (sameMemories_regRead w off (s.setInputs rest)).frame
  · exact .inl (sameMemories_poolRead hr).frame
  · exact .inr ⟨a, v, by rw [hi]; rfl, rfl⟩
  · exact .inl (hardReset_memories hr).2
  · exact .inl rfl
  · exact .inl rfl

/-- A step that is no reset writes POOL only where the sink may reach; a reset empties POOL. -/
theorem step_pool {s t : State} (h : step s = .next t) :
    PoolSunk s t ∨ ∃ k, s.inputs.head? = some (.reset k) ∧ t.pool = [] := by
  obtain ⟨q, u, hu, hb, hr⟩ | ⟨rest, w, off, v, -, rfl⟩ | ⟨rest, w, off, -, rfl⟩ | ⟨rest, who, a, -, hr⟩ |
    ⟨rest, a, v, -, rfl⟩ | ⟨rest, k, hi, hr⟩ | ⟨rest, q, -, -, rfl⟩ | ⟨-, -, -, rfl⟩ := step_cases h
  · obtain ⟨hpool, -, hreach⟩ := hu.memories
    have hw := poolSunk_runPort hb hr
    rw [PoolSunk, hpool, hreach] at hw
    exact .inl hw
  · exact .inl (.of_eq (sameMemories_regWrite w off v (s.setInputs rest)).pool)
  · exact .inl (.of_eq (sameMemories_regRead w off (s.setInputs rest)).pool)
  · exact .inl (.of_eq (sameMemories_poolRead hr).pool)
  · exact .inl (.of_eq rfl)
  · exact .inr ⟨k, by rw [hi]; rfl, (hardReset_memories hr).1⟩
  · exact .inl (.of_eq rfl)
  · exact .inl .refl

/-- Under the session invariant the sink reaches only the buffer of a slot that the producer holds (44_bitstream.md
R259). -/
theorem SessionInv.held_of_sinkReach {s : State} (h : SessionInv s) {a : Nat} (ha : SinkReach s a) :
    ∃ i, producerHolds s i ∧ inBuffer s.cfg i a := by
  obtain ⟨hopen | ⟨he, hseq⟩, hbuf⟩ := ha
  · exact ⟨_, h.openHeld hopen, hbuf⟩
  · exact ⟨_, h.openHeld (h.headersOpen he hseq), hbuf⟩

/-! ## The statements -/

/-- Settles O34: a step changes a memory only by writes, which keep the form, or empties POOL. -/
theorem stepKeepsMemoryCanonical : Obligations.StepKeepsMemoryCanonical := by
  intro s t hp hf h
  constructor
  · obtain hw | ⟨k, -, hnil⟩ := step_pool h
    · exact hw.wf hp
    · rw [hnil]; exact List.Pairwise.nil
  · obtain hs | ⟨a, v, -, hw⟩ := step_frame h
    · rw [hs]; exact hf
    · rw [hw]; exact Memory.wf_write _ v hf

/-- Settles O36: the address is one the sink may reach, and that is inside the buffer of the session's slot. -/
theorem poolBytesChangeOnlyInHeldSlots : Obligations.PoolBytesChangeOnlyInHeldSlots := by
  intro s t a hinv h hreset hne
  obtain hw | ⟨k, hk, -⟩ := step_pool h
  · have hreach : SinkReach s a := by
      by_contra hx
      exact hne (hw.read hx)
    exact hinv.held_of_sinkReach hreach
  · exact absurd hk (hreset k)

end Sys2Proof.Machine
end

section
/-! PROOFS. A REG access that is not an aligned 32-bit one (20_memory.md R97). -/

namespace Sys2Proof.Machine

theorem goodAccess_false {width : AccessWidth} {off : BitVec 12} (h : width ≠ .w32 ∨ off.toNat % 4 ≠ 0) :
    goodAccess width off = false :=
  decide_eq_false (by rwa [not_and_or])

/-- Settles O10: the access is not a good one, and the branch for such accesses is the statement. -/
theorem badAccessIsNotPerformed : Obligations.BadAccessIsNotPerformed := by
  intro s width off w h
  have hbad : ¬goodAccess width off = true := by rw [goodAccess_false h]; exact Bool.false_ne_true
  rw [regWrite, regRead, if_neg hbad, if_neg hbad]
  exact ⟨rfl, rfl⟩

end Sys2Proof.Machine
end

section
/-! PROOFS. Decoding and encoding of a CMD word (30_encoding.md R121, R123, R131): a word is its two fields, and the
decoder gives the command of the opcode field where RSVD is 0 and the port is the command's. -/

namespace Sys2Proof.Machine

/-! ## Words and opcodes -/

theorem encodingShape (i : Instr) : Laws.EncodingShape.Statement i := by
  cases i
  exacts [Laws.EncodingShape.acqfill, Laws.EncodingShape.publish, Laws.EncodingShape.encode,
    Laws.EncodingShape.sessionBegin, Laws.EncodingShape.emitHeaders, Laws.EncodingShape.extractY,
    Laws.EncodingShape.extractCb, Laws.EncodingShape.extractCr, Laws.EncodingShape.fdct, Laws.EncodingShape.quantY,
    Laws.EncodingShape.quantC, Laws.EncodingShape.entropyY, Laws.EncodingShape.entropyCb,
    Laws.EncodingShape.entropyCr, Laws.EncodingShape.writeBits, Laws.EncodingShape.flushBits,
    Laws.EncodingShape.emitEoi, Laws.EncodingShape.blkRead, Laws.EncodingShape.blkWrite, Laws.EncodingShape.acqread,
    Laws.EncodingShape.release]

@[simp] theorem rsvdField_encode (i : Instr) : rsvdField (encode i) = 0 := (encodingShape i).1

@[simp] theorem opcodeField_encode (i : Instr) : opcodeField (encode i) = opcode i := (encodingShape i).2.1

@[simp] theorem instrOfOpcode_opcode (i : Instr) : instrOfOpcode (opcode i).toNat = some i := (encodingShape i).2.2

/-- A word is its RSVD and its OPCODE (R121). -/
theorem rsvdField_append_opcodeField (w : Word) : rsvdField w ++ opcodeField w = w := by
  unfold rsvdField opcodeField
  ext j hj
  grind

theorem eq_encode_iff {w : Word} {i : Instr} : w = encode i ↔ rsvdField w = 0 ∧ opcodeField w = opcode i := by
  constructor
  · rintro rfl
    exact ⟨rsvdField_encode i, opcodeField_encode i⟩
  · rintro ⟨hr, ho⟩
    rw [← rsvdField_append_opcodeField w, hr, ho, encode]

/-- The map of opcodes gives a command for that command's opcode only (R123). -/
theorem instrOfOpcode_eq_some_iff {op : BitVec 8} {i : Instr} : instrOfOpcode op.toNat = some i ↔ op = opcode i := by
  constructor
  · intro h
    apply BitVec.eq_of_toNat_eq
    generalize op.toNat = n at h
    unfold instrOfOpcode at h
    split at h <;> cases h <;> rfl
  · rintro rfl
    exact instrOfOpcode_opcode i

/-! ## The decoder -/

/-- When the decoder gives a command: its three checks, in R131's order. -/
theorem decode_eq_cmd_iff {q : Port} {w : Word} {i : Instr} :
    decode q w = .cmd i ↔ rsvdField w = 0 ∧ opcodeField w = opcode i ∧ i.port = q := by
  rw [← instrOfOpcode_eq_some_iff]
  constructor
  · intro h
    have hq := decode_port h
    unfold decode at h
    split at h
    · cases h
    rename_i hr
    split at h
    · cases h
    rename_i j ho
    split at h <;> cases h
    exact ⟨not_not.mp hr, ho, hq⟩
  · rintro ⟨hr, ho, rfl⟩
    rw [decode, if_neg (not_not.mpr hr), ho]
    exact if_pos (beq_self_eq_true _)

@[simp] theorem decode_encode (i : Instr) : decode i.port (encode i) = .cmd i :=
  decode_eq_cmd_iff.mpr ⟨rsvdField_encode i, opcodeField_encode i, rfl⟩

/-- The opcodes of each port's commands, as R131 lists them. -/
theorem exists_opcode_iff {q : Port} {op : BitVec 8} :
    (∃ i : Instr, op = opcode i ∧ i.port = q) ↔
      q = .p ∧ (op.toNat ∈ [0x01, 0x02, 0x03] ∨ 0x10 ≤ op.toNat ∧ op.toNat ≤ 0x1F) ∨
        q = .c ∧ op.toNat ∈ [0x21, 0x22] := by
  constructor
  · rintro ⟨i, rfl, rfl⟩
    cases i <;> decide
  · simp only [← instrOfOpcode_eq_some_iff]
    generalize op.toNat = n
    rintro (⟨rfl, h | ⟨h1, h2⟩⟩ | ⟨rfl, h⟩)
    · fin_cases h <;> exact ⟨_, rfl, rfl⟩
    · interval_cases n <;> exact ⟨_, rfl, rfl⟩
    · fin_cases h <;> exact ⟨_, rfl, rfl⟩

/-- The words that a port takes as commands. -/
theorem exists_decode_iff {q : Port} {w : Word} :
    (∃ i, decode q w = .cmd i) ↔ rsvdField w = 0 ∧ ∃ i : Instr, opcodeField w = opcode i ∧ i.port = q := by
  simp only [decode_eq_cmd_iff, exists_and_left]

/-! ## The statements -/

/-- Settles O1: the decoder's checks are on the two fields of the word, and those are the encoding's. -/
theorem decodeInvertsEncode : Obligations.DecodeInvertsEncode := by
  intro q w i
  rw [decode_eq_cmd_iff, eq_encode_iff]
  constructor
  · rintro ⟨hr, ho, rfl⟩
    exact ⟨rfl, hr, ho⟩
  · rintro ⟨rfl, hr, ho⟩
    exact ⟨hr, ho, rfl⟩

/-- Settles O2: the listed opcodes are those of the commands, port by port. -/
theorem decodeAcceptsTheListedWords : Obligations.DecodeAcceptsTheListedWords := by
  intro q w
  refine ⟨exists_decode_iff.trans (and_congr_right' exists_opcode_iff), fun i h => ?_⟩
  obtain ⟨-, ho, -⟩ := decode_eq_cmd_iff.mp h
  exact ho.symm

/-- Settles O3: the words are decoded. -/
theorem sampleWordsDecode : Obligations.SampleWordsDecode := by
  unfold Obligations.SampleWordsDecode
  decide

end Sys2Proof.Machine
end

section
/-! PROOFS. Issue, step and completion of a command (30_encoding.md R120, R125 to R127, 47_pool.md R351): what a CMD
write does to a busy and to an idle port, which port a step runs, and what that port then does. -/

namespace Sys2Proof.Machine

@[simp] theorem State.setInputs_port (s : State) (l : List Input) (q : Port) : (s.setInputs l).port q = s.port q := by
  cases q <;> rfl

@[simp] theorem State.setWait_port (s : State) (b : Bool) (q : Port) : (s.setWait b).port q = s.port q := by
  cases q <;> rfl

@[simp] theorem State.draw_port (s : State) (n : Nat) (q : Port) : (s.draw n).port q = s.port q := by
  cases q <;> rfl

/-! ## A step of a port -/

theorem runPort_of_cmd {q : Port} {s : State} {i : Instr} (h : decode q (s.port q).latchWord = .cmd i) :
    runPort q s = exec i s := by
  rw [runPort, h]

theorem runPort_of_illegal {q : Port} {s : State} {why : IllegalWord}
    (h : decode q (s.port q).latchWord = .illegal why) : runPort q s = .next (execIllegal q s) := by
  rw [runPort, h]

/-- A granted step of a busy port (47_pool.md R351). -/
theorem step_of_grant {s : State} {q : Port} {rest : List Input} (hi : s.inputs = .grant q :: rest)
    (hb : (s.port q).status.busy = true) : step s = runPort q (s.setInputs rest) := by
  simp only [step, hi, applyInput, grantPort, State.setInputs_port, hb, if_true]

/-- With nothing to come, the only busy port steps (47_pool.md R351). -/
theorem step_of_alone {s : State} {q : Port} (hi : s.inputs = []) (hb : (s.port q).status.busy = true)
    (hidle : ∀ q', q' ≠ q → (s.port q').status.busy = false) : step s = runPort q s := by
  cases q with
  | p =>
    have hp : s.portP.status.busy = true := hb
    have hc : s.portC.status.busy = false := hidle .c (by decide)
    simp only [step, hi, autoStep, hp, hc]
  | c =>
    have hp : s.portP.status.busy = false := hidle .p (by decide)
    have hc : s.portC.status.busy = true := hb
    simp only [step, hi, autoStep, hp, hc]

/-- With nothing to come and both ports busy, the arbiter's free value picks the port (47_pool.md R351). -/
theorem step_of_arbitrated {s : State} {q : Port} (hi : s.inputs = []) (hb : ∀ q', (s.port q').status.busy = true)
    (ha : Config.freeArbiter s.draws = decide (q = .p)) : step s = runPort q (s.draw 1) := by
  have hp : s.portP.status.busy = true := hb .p
  have hc : s.portC.status.busy = true := hb .c
  simp only [step, hi, autoStep, hp, hc, ha]
  cases q <;> rfl

/-- Settles O4: each of the three cases runs the port, from a state with the same latch. -/
theorem stepRunsTheDecodedCommand : Obligations.StepRunsTheDecodedCommand := by
  intro s q i hb hd
  refine ⟨fun rest hi => ?_, fun hi hidle => ?_, fun hi hboth ha => ?_⟩
  · rw [step_of_grant hi hb]
    exact runPort_of_cmd (by rwa [State.setInputs_port])
  · rw [step_of_alone hi hb hidle, runPort_of_cmd hd]
  · rw [step_of_arbitrated hi hboth ha]
    exact runPort_of_cmd (by rwa [State.draw_port])

/-- Settles O5: the port refuses the word, which is one sticky bit and a completion with zero results. -/
theorem illegalWordIsRefused : Obligations.IllegalWordIsRefused := by
  intro s q why rest hb hd hi
  rw [step_of_grant hi hb, runPort_of_illegal (by rwa [State.setInputs_port])]
  cases q <;> rfl

/-- Settles O7: a completion is an update of its port's registers, and such an update reaches no other field. -/
theorem completionWritesStatusAndResults : Obligations.CompletionWritesStatusAndResults := by
  intro s q code r0 r1 r2
  refine ⟨rfl, rfl, fun r => ⟨State.setPort_port_self s q r, fun q' => State.setPort_port_other s r, ?_⟩⟩
  cases q <;> rfl

/-! ## The issue of a command -/

theorem regWrite_cmd (q : Port) (w : Word) (s : State) :
    regWrite .w32 (BitVec.ofNat 12 (portBase q)) w s = writeCmd q w s := by
  cases q <;> rfl

theorem writeCmd_of_busy {q : Port} {s : State} (h : (s.port q).status.busy = true) (w : Word) :
    writeCmd q w s = faultErr .cmdWhileBusy (s.setPort q { s.port q with cmd := w }) := if_pos h

theorem writeCmd_of_idle {q : Port} {s : State} (h : (s.port q).status.busy = false) (w : Word) :
    writeCmd q w s = issue q w s := if_neg (by rw [h]; exact Bool.false_ne_true)

@[simp] theorem issue_port (q : Port) (w : Word) (s : State) : (issue q w s).port q = (s.port q).issued w := by
  cases q <;> rfl

@[simp] theorem PortRegs.issued_busy (r : PortRegs) (w : Word) : (r.issued w).status.busy = true := rfl

@[simp] theorem issue_inputs (q : Port) (w : Word) (s : State) : (issue q w s).inputs = s.inputs := by
  cases q <;> rfl

/-- Settles O9: the refused write is CMD and one sticky bit. -/
theorem cmdWriteToABusyPortIsRefused : Obligations.CmdWriteToABusyPortIsRefused := by
  intro s w
  refine ⟨fun hb => ?_, fun hb => ?_⟩
  · exact (regWrite_cmd .p w s).trans (writeCmd_of_busy (q := .p) hb w)
  · exact (regWrite_cmd .c w s).trans (writeCmd_of_busy (q := .c) hb w)

theorem tableWord_toNat (w : Word) : tableWord 32 w.toNat = w := by
  rw [tableWord, Nat.mod_eq_of_lt w.isLt, BitVec.ofNat_toNat, BitVec.setWidth_eq]

theorem portOfWord_encode (i : Instr) : portOfWord (encode i) = i.port := by
  cases i <;> rfl

/-- Settles O6: the placed word is an accepted issue on its port, with that port's step the next input. -/
theorem placedWordRuns : Obligations.PlacedWordRuns := by
  intro s i
  rw [State.withFetchWord, tableWord_toNat, placeCommand, portOfWord_encode]
  rw [step_of_grant (q := i.port) (rest := s.inputs) (by simp) (by simp),
    runPort_of_cmd (q := i.port) (i := i) (by simp)]
  rfl

end Sys2Proof.Machine
end

section
/-! PROOFS. The borrow window that an accepted issue opens (20_memory.md R92, 70_reset_and_hazards.md R430): the frame
counts as changed exactly when a change is to come while the command, run by itself, is in flight. -/

namespace Sys2Proof.Machine

/-- The commands that borrow the frame (R430). -/
theorem borrowsFrame_iff (w : Word) :
    borrowsFrame w = true ↔
      ∃ i, i ∈ [Instr.extractY, .extractCb, .extractCr, .encode] ∧ decode .p w = .cmd i := by
  unfold borrowsFrame
  cases decode .p w with
  | illegal why => simp
  | cmd i => cases i <;> simp

theorem changesFrame_iff {a : Args} {m : Memory} {x : Nat} {v : Byte} :
    changesFrame a m x v = true ↔ (a[0].toNat ≤ x ∧ x < a[0].toNat + a[1].toNat) ∧ m.read x ≠ some v := by
  rw [changesFrame, inFrame, Bool.and_eq_true, decide_eq_true_eq, decide_eq_true_eq, opFrame, opRawLen]

theorem execTimes_succ_eq_next {i : Instr} {k : Nat} {s u : State} :
    execTimes i (k + 1) s = .next u ↔ ∃ t, exec i s = .next t ∧ execTimes i k t = .next u := by
  rw [execTimes]
  cases exec i s with
  | next t => simp
  | fault r => simp
  | refused r => simp

theorem runsOn_succ {i : Instr} {k : Nat} {s : State} (hd : decode .p s.portP.latchWord = .cmd i) :
    runsOn (k + 1) s = true ↔
      s.portP.status.busy = true ∧ ∃ t, exec i s = .next t ∧ runsOn k t = true := by
  rw [runsOn, runPort_of_cmd (q := .p) hd, Bool.and_eq_true]
  cases exec i s with
  | next t => simp
  | fault r => simp
  | refused r => simp

/-- The port goes on through a command's steps because a command keeps the latch: `runsOn` in the command's own
steps. -/
theorem runsOn_iff_execTimes {i : Instr} {k : Nat} {s : State}
    (hi : i ∈ [Instr.extractY, .extractCb, .extractCr, .encode]) (hd : decode .p s.portP.latchWord = .cmd i) :
    runsOn k s = true ↔ ∀ j, j ≤ k → ∃ t, execTimes i j s = .next t ∧ t.portP.status.busy = true := by
  induction k generalizing s with
  | zero =>
    constructor
    · rintro h j hj
      cases Nat.le_zero.mp hj
      exact ⟨s, rfl, h⟩
    · intro h
      obtain ⟨t, ⟨⟩, hb⟩ := h 0 (Nat.le_refl 0)
      exact hb
  | succ k ih =>
    have latched {t : State} (ht : exec i s = .next t) : decode .p t.portP.latchWord = .cmd i := by
      have keeps : CodecFrame s t :=
        exec_codecFrame (decode_port hd) (by rintro rfl; simp at hi) (by rintro rfl; simp at hi) ht
      rwa [keeps.latchWord]
    rw [runsOn_succ hd]
    constructor
    · rintro ⟨hb, t, ht, hk⟩ j hj
      cases j with
      | zero => exact ⟨s, rfl, hb⟩
      | succ j =>
        obtain ⟨u, hu, hub⟩ := (ih (latched ht)).mp hk j (Nat.le_of_succ_le_succ hj)
        exact ⟨u, execTimes_succ_eq_next.mpr ⟨t, ht, hu⟩, hub⟩
    · intro h
      obtain ⟨_, ⟨⟩, hb⟩ := h 0 (Nat.zero_le _)
      obtain ⟨_, h1, -⟩ := h 1 (Nat.le_add_left 1 k)
      obtain ⟨t, ht, -⟩ := execTimes_succ_eq_next.mp h1
      refine ⟨hb, t, ht, (ih (latched ht)).mpr fun j hj => ?_⟩
      obtain ⟨u, hu, hub⟩ := h (j + 1) (Nat.succ_le_succ hj)
      obtain ⟨t', ht', hu'⟩ := execTimes_succ_eq_next.mp hu
      cases ht.symm.trans ht'
      exact ⟨u, hu', hub⟩

/-- Settles O8: the window's change is one of the inputs, and the port's steps are the command's. -/
theorem acceptedIssueLatchesTheCommand : Obligations.AcceptedIssueLatchesTheCommand := by
  intro s w
  refine ⟨fun hb u hu => ⟨borrowsFrame w && windowChanges u, ?_, ?_⟩, fun hb => ?_⟩
  · subst hu
    exact (regWrite_cmd .p w s).trans (writeCmd_of_idle (q := .p) hb w)
  · have hlatch : u.portP.latchWord = w := by rw [hu]
    have hargs : u.args .p = s.portP.arg := by rw [hu]; rfl
    have hinputs : u.inputs = s.inputs := by rw [hu]
    have hframe : u.frame = s.frame := by rw [hu]
    rw [Bool.and_eq_true, borrowsFrame_iff, windowChanges_iff, hargs, hinputs, hframe]
    simp only [changesFrame_iff, and_assoc]
    constructor
    · rintro ⟨⟨i, hi, hd⟩, before, a, v, after, hin, hlo, hhi, hne, hr, hruns⟩
      exact ⟨i, hi, hd, before, a, v, after, hin, hlo, hhi, hne, hr,
        (runsOn_iff_execTimes hi (by rwa [hlatch])).mp hruns⟩
    · rintro ⟨i, hi, hd, before, a, v, after, hin, hlo, hhi, hne, hr, hruns⟩
      exact ⟨⟨i, hi, hd⟩, before, a, v, after, hin, hlo, hhi, hne, hr,
        (runsOn_iff_execTimes hi (by rwa [hlatch])).mpr hruns⟩
  · exact (regWrite_cmd .c w s).trans (writeCmd_of_idle (q := .c) hb w)

end Sys2Proof.Machine
end

section
/-! PROOFS. The BlockExtractor (40_extract.md R150 to R158): the bytes that an EXTRACT reads, what its unit step does
with them, and from that the block it leaves; the two commands on one element of the block. -/

namespace Sys2Proof.Machine

/-! ## Samples -/

theorem blkAt_ofFn (g : Fin 64 → Sample) {i : Nat} (hi : i < 64) : blkAt (Vector.ofFn g) i = (g ⟨i, hi⟩).toInt := by
  rw [blkAt, Vector.getElem?_ofFn, dif_pos hi, Option.getD_some]

theorem toInt_wrap16_of_byte {n : Nat} (h : n < 256) : (wrap16 ((n : Int) - 128)).toInt = (n : Int) - 128 :=
  BitVec.toInt_ofInt_eq_self (by decide) (by omega) (by omega)

theorem toInt_chromaAverage {m n : Nat} (hm : m < 256) (hn : n < 256) :
    (chromaAverage m n).toInt = (((m + n) / 2 : Nat) : Int) - 128 := by
  have hasr : asr ((m : Int) + n) 1 = ((m + n) / 2 : Nat) := by
    rw [asr, Int.natCast_ediv, Int.natCast_add]
    rfl
  rw [chromaAverage, hasr]
  exact toInt_wrap16_of_byte (by omega)

/-! ## Frame bytes -/

theorem frameByte_lt (s : State) (k a : Nat) : frameByte s k a < 256 := by
  unfold frameByte
  split
  · exact BitVec.isLt _
  · exact BitVec.isLt _

theorem frameByte_of_read {s : State} {k a : Nat} {v : Byte} (hc : s.frameChanged = false)
    (h : s.frame.read a = some v) : frameByte s k a = v.toNat := by
  rw [frameByte, if_neg (by rw [hc]; exact Bool.false_ne_true), h, Option.getD_some]

theorem loadBlock_of_unchanged {s : State} (hc : s.frameChanged = false) (k : Nat) (b : Block) :
    loadBlock s k b = { s with blk := b } := by
  rw [loadBlock, if_neg (by rw [hc]; exact Bool.false_ne_true)]
  rfl

/-! ## The frame's operands -/

theorem validFrame_of_valid {a : Args} (h : frameOperandsValid a) :
    validFrame (opFrame a) (opRawLen a) (opWidth a) (opHeight a) =
      some (opRawLen a / (opWidth a * opHeight a)) := by
  obtain ⟨hf, ⟨hw1, hw2⟩, ⟨hh1, hh2⟩, hl, hbpp⟩ := h
  rw [validFrame, if_neg hf, if_neg (by omega), if_neg (by omega), if_neg (by omega), if_neg (by omega)]

theorem validFrame_of_invalid {a : Args} (h : ¬frameOperandsValid a) :
    validFrame (opFrame a) (opRawLen a) (opWidth a) (opHeight a) = none := by
  rw [validFrame]
  split_ifs with hf h0 hbig hl hbpp
  · rfl
  · rfl
  · rfl
  · rfl
  · rfl
  · exact absurd ⟨hf, by omega, by omega, by omega, by omega⟩ h

/-- A byte of a pixel inside the image is inside the frame (R151). -/
theorem pixelByte_mem_frame {a : Args} {row col off : Nat} (hv : frameOperandsValid a) (hrow : row < opHeight a)
    (hcol : col < opWidth a) (hoff : off < 2) :
    opFrame a ≤ pixelByte a row col off ∧ pixelByte a row col off < opFrame a + opRawLen a := by
  obtain ⟨-, -, -, -, hbpp⟩ := hv
  unfold pixelByte
  generalize hb : opRawLen a / (opWidth a * opHeight a) = bpp at hbpp ⊢
  have hpixel : row * opWidth a + col + 1 ≤ opWidth a * opHeight a := by nlinarith
  have hlen : (row * opWidth a + col + 1) * bpp ≤ opRawLen a := by
    calc (row * opWidth a + col + 1) * bpp ≤ opWidth a * opHeight a * bpp := Nat.mul_le_mul_right _ hpixel
      _ ≤ opRawLen a := hb ▸ Nat.mul_div_le _ _
  rw [Nat.succ_mul] at hlen
  omega

theorem frameReadable_pixelByte {s : State} {row col off : Nat} (hv : frameOperandsValid (s.args .p))
    (hg : frameGiven s) (hrow : row < opHeight (s.args .p)) (hcol : col < opWidth (s.args .p)) (hoff : off < 2) :
    frameReadable s (pixelByte (s.args .p) row col off) = true :=
  have ⟨hlo, hhi⟩ := pixelByte_mem_frame hv hrow hcol hoff
  hg _ hlo hhi

/-! ## Pixel layout -/

theorem lumaOffset_eq (o : PixelOrder) : lumaOffset o = (pixelLayout o).1 := by cases o <;> rfl

theorem cbParity_eq (o : PixelOrder) : cbParity o = (pixelLayout o).2 := by cases o <;> rfl

theorem pixelLayout_fst_lt (o : PixelOrder) : (pixelLayout o).1 < 2 := by cases o <;> decide

theorem chromaParity_lt (o : PixelOrder) (ch : Chroma) : chromaParity o ch < 2 := by cases o <;> cases ch <;> decide

theorem parityColumn_eq {par c pc : Nat} (hpc : pc = c ∨ pc = c + 1) (hpar : pc % 2 = par) :
    parityColumn par c = pc := by
  unfold parityColumn
  split <;> omega

theorem parityColumn_cases {par : Nat} (h : par < 2) (c : Nat) :
    (parityColumn par c = c ∨ parityColumn par c = c + 1) ∧ parityColumn par c % 2 = par := by
  unfold parityColumn
  split <;> omega

/-! ## The bytes that are read -/

/-- The luma byte of element `i` of the block at `(r, c)`. -/
def lumaPixel (o : PixelOrder) (a : Args) (r c i : Nat) : Nat :=
  pixelByte a (r + i / 8) (c + i % 8) (pixelLayout o).1

/-- The chroma byte of element `i` of the region at `(r, c)`, in the upper or lower of its two rows. -/
def chromaPixel (o : PixelOrder) (ch : Chroma) (a : Args) (r c dy i : Nat) : Nat :=
  pixelByte a (r + 2 * (i / 8) + dy) (parityColumn (chromaParity o ch) (c + 2 * (i % 8))) (1 - (pixelLayout o).1)

theorem lumaAddr_eq (o : PixelOrder) (a : Args) (r c i : Nat) :
    lumaAddr o (opFrame a) (opWidth a) (opRawLen a / (opWidth a * opHeight a)) r c i = lumaPixel o a r c i := by
  rw [lumaAddr, lumaOffset_eq]
  rfl

theorem chromaAddr_eq (o : PixelOrder) (ch : Chroma) (a : Args) (r c dy i : Nat) :
    chromaAddr o ch (opFrame a) (opWidth a) (opRawLen a / (opWidth a * opHeight a)) r c dy i =
      chromaPixel o ch a r c dy i := by
  rw [chromaAddr, lumaOffset_eq]
  rfl

/-- A chroma byte that is read is in the 16x16 region, in a column of the component's parity. -/
theorem chromaPixel_mem_region (o : PixelOrder) (ch : Chroma) (a : Args) (r c : Nat) {dy i : Nat} (hdy : dy < 2)
    (hi : i < 64) :
    ∃ y x, y < 16 ∧ x < 16 ∧ (c + x) % 2 = chromaParity o ch ∧
      chromaPixel o ch a r c dy i = pixelByte a (r + y) (c + x) (1 - (pixelLayout o).1) := by
  obtain ⟨hcol, hpar⟩ := parityColumn_cases (chromaParity_lt o ch) (c + 2 * (i % 8))
  rw [chromaPixel]
  generalize parityColumn (chromaParity o ch) (c + 2 * (i % 8)) = col at hcol hpar ⊢
  have hx : c + (col - c) = col := by omega
  refine ⟨2 * (i / 8) + dy, col - c, by omega, by omega, by rw [hx, hpar], ?_⟩
  rw [hx, Nat.add_assoc]

def lumaReadable (s : State) (a : Args) (r c : Nat) : Prop :=
  ∀ i : Fin 64, frameReadable s (lumaPixel s.cfg.pixelOrder a r c i) = true

def chromaReadable (s : State) (ch : Chroma) (a : Args) (r c : Nat) : Prop :=
  ∀ i : Fin 64, frameReadable s (chromaPixel s.cfg.pixelOrder ch a r c 0 i) = true ∧
    frameReadable s (chromaPixel s.cfg.pixelOrder ch a r c 1 i) = true

theorem lumaReadable_of_frameGiven {s : State} {r c : Nat} (hv : frameOperandsValid (s.args .p))
    (hrow : r + 8 ≤ opHeight (s.args .p)) (hcol : c + 8 ≤ opWidth (s.args .p)) (hg : frameGiven s) :
    lumaReadable s (s.args .p) r c :=
  fun i => frameReadable_pixelByte hv hg (by omega) (by omega) (pixelLayout_fst_lt _)

/-- The chroma bytes that are read are readable when the region's bytes in the component's columns are. -/
theorem chromaReadable_of_region {s : State} {ch : Chroma} {a : Args} {r c : Nat}
    (h : ∀ y x, y < 16 → x < 16 → (c + x) % 2 = chromaParity s.cfg.pixelOrder ch →
      frameReadable s (pixelByte a (r + y) (c + x) (1 - (pixelLayout s.cfg.pixelOrder).1)) = true) :
    chromaReadable s ch a r c := by
  have readable {dy : Nat} (hdy : dy < 2) (i : Fin 64) :
      frameReadable s (chromaPixel s.cfg.pixelOrder ch a r c dy i) = true := by
    obtain ⟨y, x, hy, hx, hpar, hp⟩ := chromaPixel_mem_region s.cfg.pixelOrder ch a r c hdy i.isLt
    rw [hp]
    exact h y x hy hx hpar
  exact fun i => ⟨readable Nat.zero_lt_two i, readable Nat.one_lt_two i⟩

theorem chromaReadable_of_frameGiven {s : State} {r c : Nat} (ch : Chroma) (hv : frameOperandsValid (s.args .p))
    (hrow : r + 16 ≤ opHeight (s.args .p)) (hcol : c + 16 ≤ opWidth (s.args .p)) (hg : frameGiven s) :
    chromaReadable s ch (s.args .p) r c :=
  chromaReadable_of_region fun y x hy hx _ =>
    frameReadable_pixelByte hv hg (by omega) (by omega) (by omega)

/-! ## The blocks that are loaded -/

def lumaBlock (s : State) (a : Args) (r c : Nat) : Block :=
  Vector.ofFn fun i : Fin 64 => wrap16 (frameByte s i (lumaPixel s.cfg.pixelOrder a r c i) - 128)

def chromaBlock (s : State) (ch : Chroma) (a : Args) (r c : Nat) : Block :=
  Vector.ofFn fun i : Fin 64 =>
    chromaAverage (frameByte s (2 * i) (chromaPixel s.cfg.pixelOrder ch a r c 0 i))
      (frameByte s (2 * i + 1) (chromaPixel s.cfg.pixelOrder ch a r c 1 i))

theorem blkAt_lumaBlock (s : State) (a : Args) (r c : Nat) {i : Nat} (hi : i < 64) :
    blkAt (lumaBlock s a r c) i = (frameByte s i (lumaPixel s.cfg.pixelOrder a r c i) : Int) - 128 :=
  (blkAt_ofFn _ hi).trans (toInt_wrap16_of_byte (frameByte_lt ..))

theorem blkAt_chromaBlock (s : State) (ch : Chroma) (a : Args) (r c : Nat) {i : Nat} (hi : i < 64) :
    blkAt (chromaBlock s ch a r c) i =
      (((frameByte s (2 * i) (chromaPixel s.cfg.pixelOrder ch a r c 0 i) +
        frameByte s (2 * i + 1) (chromaPixel s.cfg.pixelOrder ch a r c 1 i)) / 2 : Nat) : Int) - 128 :=
  (blkAt_ofFn _ hi).trans (toInt_chromaAverage (frameByte_lt ..) (frameByte_lt ..))

theorem sampleRange_lumaBlock (s : State) (a : Args) (r c : Nat) : SampleRange (lumaBlock s a r c) := by
  intro i hi
  have hbyte := frameByte_lt s i (lumaPixel s.cfg.pixelOrder a r c i)
  rw [blkAt_lumaBlock s a r c hi]
  omega

theorem sampleRange_chromaBlock (s : State) (ch : Chroma) (a : Args) (r c : Nat) :
    SampleRange (chromaBlock s ch a r c) := by
  intro i hi
  have hupper := frameByte_lt s (2 * i) (chromaPixel s.cfg.pixelOrder ch a r c 0 i)
  have hlower := frameByte_lt s (2 * i + 1) (chromaPixel s.cfg.pixelOrder ch a r c 1 i)
  rw [blkAt_chromaBlock s ch a r c hi]
  omega

/-! ## The unit steps -/

/-- What an EXTRACT's unit step `e` does with the `size` by `size` region at `(r, c)` (R150, R153 to R155): it loads
the block `b` from `n` bytes, if they are `readable`. -/
structure RegionExtract (s : State) (a : Args) (r c size n : Nat) (readable : Prop) (b : Block) (e : Eff) : Prop where
  invalid : ¬frameOperandsValid a → e = .raised .invalidArgument s
  outside : frameOperandsValid a → (opHeight a < r + size ∨ opWidth a < c + size) → e = .raised .outOfBounds s
  loads : frameOperandsValid a → r + size ≤ opHeight a → c + size ≤ opWidth a → readable → e = .ok (loadBlock s n b)
  unreadable : frameOperandsValid a → r + size ≤ opHeight a → c + size ≤ opWidth a → ¬readable →
    e = .stuck .frameUnreadable

theorem extractLuma_regionExtract (s : State) (a : Args) (r c : Nat) :
    RegionExtract s a r c 8 64 (lumaReadable s a r c) (lumaBlock s a r c)
      (extractLuma (opFrame a) (opRawLen a) (opWidth a) (opHeight a) r c s) where
  invalid hv := by rw [extractLuma, validFrame_of_invalid hv]
  outside hv ho := by
    rw [extractLuma, validFrame_of_valid hv]
    exact if_pos ho
  loads hv hrow hcol hr := by
    rw [extractLuma, validFrame_of_valid hv]
    simp only [lumaAddr_eq]
    exact (if_neg (by omega)).trans (if_pos hr)
  unreadable hv hrow hcol hr := by
    rw [extractLuma, validFrame_of_valid hv]
    simp only [lumaAddr_eq]
    exact (if_neg (by omega)).trans (if_neg hr)

theorem extractChroma_regionExtract (s : State) (ch : Chroma) (a : Args) (r c : Nat) :
    RegionExtract s a r c 16 128 (chromaReadable s ch a r c) (chromaBlock s ch a r c)
      (extractChroma ch (opFrame a) (opRawLen a) (opWidth a) (opHeight a) r c s) where
  invalid hv := by rw [extractChroma, validFrame_of_invalid hv]
  outside hv ho := by
    rw [extractChroma, validFrame_of_valid hv]
    exact if_pos ho
  loads hv hrow hcol hr := by
    rw [extractChroma, validFrame_of_valid hv]
    simp only [chromaAddr_eq]
    exact (if_neg (by omega)).trans (if_pos hr)
  unreadable hv hrow hcol hr := by
    rw [extractChroma, validFrame_of_valid hv]
    simp only [chromaAddr_eq]
    exact (if_neg (by omega)).trans (if_neg hr)

/-- A unit step that does not load refuses with a status other than OK, or has no step. -/
theorem RegionExtract.ok_or_raised_or_stuck {s : State} {a : Args} {r c size n : Nat} {readable : Prop} {b : Block} {e : Eff}
    (h : RegionExtract s a r c size n readable b e) :
    e = .ok (loadBlock s n b) ∨ (∃ code, code ≠ .ok ∧ e = .raised code s) ∨ e = .stuck .frameUnreadable := by
  by_cases hv : frameOperandsValid a
  · by_cases ho : opHeight a < r + size ∨ opWidth a < c + size
    · exact .inr (.inl ⟨_, by decide, h.outside hv ho⟩)
    · rw [not_or, not_lt, not_lt] at ho
      by_cases hr : readable
      · exact .inl (h.loads hv ho.1 ho.2 hr)
      · exact .inr (.inr (h.unreadable hv ho.1 ho.2 hr))
  · exact .inr (.inl ⟨_, by decide, h.invalid hv⟩)

/-! ## The commands -/

/-- The command of a chroma component (R154, R155). -/
def Chroma.instr : Chroma → Instr
  | .cb => .extractCb
  | .cr => .extractCr

theorem exec_extractY (s : State) :
    exec .extractY s =
      finish (extractLuma (opFrame (s.args .p)) (opRawLen (s.args .p)) (opWidth (s.args .p)) (opHeight (s.args .p))
        (opRow (s.args .p)) (opCol (s.args .p)) s) (complete .p .ok 0 0 0) := rfl

theorem exec_chroma (ch : Chroma) (s : State) :
    exec ch.instr s =
      finish (extractChroma ch (opFrame (s.args .p)) (opRawLen (s.args .p)) (opWidth (s.args .p))
        (opHeight (s.args .p)) (opRow (s.args .p)) (opCol (s.args .p)) s) (complete .p .ok 0 0 0) := by
  cases ch <;> rfl

theorem exists_chroma {i : Instr} {o : PixelOrder} {par : Nat}
    (h : i = .extractCb ∧ par = (pixelLayout o).2 ∨ i = .extractCr ∧ par = 1 - (pixelLayout o).2) :
    ∃ ch : Chroma, i = ch.instr ∧ par = chromaParity o ch := by
  rw [← cbParity_eq] at h
  exact h.elim (⟨.cb, ·⟩) (⟨.cr, ·⟩)

/-- What the three EXTRACT commands share: each completes the unit step of its region, whose block is one of samples
(R158) and readable when the whole frame is. -/
theorem exec_extract {i : Instr} {size : Nat}
    (hi : i = .extractY ∧ size = 8 ∨ i = .extractCb ∧ size = 16 ∨ i = .extractCr ∧ size = 16) (s : State) :
    ∃ n readable b e, exec i s = finish e (complete .p .ok 0 0 0) ∧
      RegionExtract s (s.args .p) (opRow (s.args .p)) (opCol (s.args .p)) size n readable b e ∧ SampleRange b ∧
      (frameOperandsValid (s.args .p) → opRow (s.args .p) + size ≤ opHeight (s.args .p) →
        opCol (s.args .p) + size ≤ opWidth (s.args .p) → frameGiven s → readable) := by
  obtain ⟨rfl, rfl⟩ | hi := hi
  · exact ⟨_, _, _, _, exec_extractY s, extractLuma_regionExtract s _ _ _, sampleRange_lumaBlock s _ _ _,
      lumaReadable_of_frameGiven⟩
  · obtain ⟨ch, rfl, rfl⟩ : ∃ ch : Chroma, i = ch.instr ∧ size = 16 := hi.elim (⟨.cb, ·⟩) (⟨.cr, ·⟩)
    exact ⟨_, _, _, _, exec_chroma ch s, extractChroma_regionExtract s ch _ _ _, sampleRange_chromaBlock s ch _ _ _,
      chromaReadable_of_frameGiven ch⟩

/-! ## One element of the block -/

theorem setIfInBounds_eq_set {b : Block} {i : Nat} (h : i < 64) (v : Sample) : b.setIfInBounds i v = b.set i v h :=
  Vector.toArray_inj.mp (dif_pos (by rwa [b.size_toArray]))

theorem exec_blkRead_of_lt {s : State} (h : (s.args .p)[0].toNat < 64) :
    exec .blkRead s = .next (complete .p .ok (sext16 (s.blk[(s.args .p)[0].toNat]'h)) 0 0 s) := by
  have hread : s.blk[(s.args .p)[0].toNat]? = some (s.blk[(s.args .p)[0].toNat]'h) := Vector.getElem?_eq_getElem h
  rw [exec, execBlkRead, if_neg (by rw [opBlkIndex]; omega), opBlkIndex, hread, Option.getD_some]

theorem exec_blkWrite_of_lt {s : State} (h : (s.args .p)[0].toNat < 64) :
    exec .blkWrite s =
      .next (complete .p .ok 0 0 0 (s.setBlk (s.blk.set (s.args .p)[0].toNat (opBlkValue (s.args .p)) h))) := by
  rw [exec, execBlkWrite, if_neg (by rw [opBlkIndex]; omega), opBlkIndex, setIfInBounds_eq_set h]

/-! ## The statements -/

/-- Settles O40: the block is the one of the luma bytes, and each of its bytes is the frame's. -/
theorem extractYLoadsTheLumaBlock : Obligations.ExtractYLoadsTheLumaBlock := by
  rintro s _ _ _ _ rfl rfl rfl rfl hc hv hrow hcol hread
  have hr : lumaReadable s (s.args .p) (opRow (s.args .p)) (opCol (s.args .p)) :=
    fun i => hread (i / 8) (i % 8) (by omega) (by omega)
  refine ⟨lumaBlock s (s.args .p) (opRow (s.args .p)) (opCol (s.args .p)), ?_, fun y x v hy hx hb => ?_⟩
  · have hload := (extractLuma_regionExtract s _ (opRow _) (opCol _)).loads hv hrow hcol hr
    rw [exec_extractY, hload, finish_ok, loadBlock_of_unchanged hc]
  · have hdiv : (8 * y + x) / 8 = y := by omega
    have hmod : (8 * y + x) % 8 = x := by omega
    rw [blkAt_lumaBlock s _ _ _ (by omega), lumaPixel, hdiv, hmod]
    exact congrArg (fun m : Nat => (m : Int) - 128) (frameByte_of_read hc hb)

/-- Settles O41: the block is the component's, and the column of each of its bytes is the one of the wanted parity. -/
theorem extractChromaAveragesRowPairs : Obligations.ExtractChromaAveragesRowPairs := by
  rintro s _ _ _ _ rfl rfl rfl rfl hc hv hrow hcol i _ hi hread
  obtain ⟨ch, rfl, rfl⟩ := exists_chroma hi
  refine ⟨chromaBlock s ch (s.args .p) (opRow (s.args .p)) (opCol (s.args .p)), ?_,
    fun y x pc v v' hy hx hpc hpar hb hb' => ?_⟩
  · have hload := (extractChroma_regionExtract s ch _ (opRow _) (opCol _)).loads hv hrow hcol
      (chromaReadable_of_region hread)
    rw [exec_chroma, hload, finish_ok, loadBlock_of_unchanged hc]
  · have hdiv : (8 * y + x) / 8 = y := by omega
    have hmod : (8 * y + x) % 8 = x := by omega
    rw [blkAt_chromaBlock s ch _ _ _ (by omega), chromaPixel, chromaPixel, hdiv, hmod, opCol,
      parityColumn_eq hpc hpar]
    exact congrArg₂ (fun m n : Nat => (((m + n) / 2 : Nat) : Int) - 128) (frameByte_of_read hc hb)
      (frameByte_of_read hc hb')

/-- Settles O42: the unit step refuses, and the command completes with its status. -/
theorem extractRefusesBadFrames : Obligations.ExtractRefusesBadFrames := by
  rintro s _ _ _ size i rfl rfl rfl hi
  obtain ⟨n, readable, b, e, he, hregion, -, -⟩ := exec_extract hi s
  rw [he]
  refine ⟨fun hv => ?_, fun hv ho => ?_⟩
  · rw [hregion.invalid hv, finish_raised, raiseStatus]
  · rw [hregion.outside hv ho, finish_raised, raiseStatus]

/-- Settles O43: only a unit step that loads its block, one of samples, completes OK. -/
theorem extractedSamplesAreInRange : Obligations.ExtractedSamplesAreInRange := by
  rintro s _ _ _ size i rfl rfl rfl hi
  obtain ⟨n, readable, b, e, he, hregion, hrange, hgiven⟩ := exec_extract hi s
  rw [he]
  refine ⟨fun t ht hok => ?_, fun hv hrow hcol hg => ?_⟩
  · obtain rfl | ⟨code, hcode, rfl⟩ | rfl := hregion.ok_or_raised_or_stuck
    · cases ht
      exact hrange
    · cases ht
      exact absurd hok hcode
    · cases ht
  · rw [hregion.loads hv hrow hcol (hgiven hv hrow hcol hg)]
    exact ⟨b, _, rfl⟩

/-- Settles O44: an index up to 63 is an element's, so neither the read nor the write falls back on a default. -/
theorem blkReadAndWriteOneElement : Obligations.BlkReadAndWriteOneElement := by
  refine fun s => ⟨fun h => ⟨exec_blkRead_of_lt h, exec_blkWrite_of_lt h⟩, fun h i hi => ?_⟩
  obtain rfl | rfl := hi
  · exact if_pos h
  · exact if_pos h

end Sys2Proof.Machine
end

section
/-! PROOFS. The ForwardTransform (41_fdct.md R170 to R176). The integer side: the transform as a double sum, its range
on samples and a uniform block. The real side: bounds of the cosines by halving angles, from them the error of the
matrix, and from that the distance to the exact transform. -/

namespace Sys2Proof.Machine

/-! ## The double sum -/

theorem dot_map_range {c : List Int} {n : Nat} (hc : c.length = n) (f : Nat → Int) :
    dot c ((List.range n).map f) = ∑ x ∈ Finset.range n, c.getD x 0 * f x := by
  induction c generalizing n f with
  | nil => subst hc; simp [dot]
  | cons k c ih =>
    subst hc
    have hrest := ih rfl fun x => f (x + 1)
    rw [List.length_cons, List.range_succ_eq_map, List.map_cons, List.map_map, Finset.sum_range_succ', add_comm]
    exact congrArg (k * f 0 + ·) hrest

/-- Entry `x` of row `u` of the matrix `T` (R172). -/
def dctEntry (u x : Nat) : Int := (dctRow u).getD x 0

theorem dctSum_eq_sum (b : Block) {v u : Nat} (hv : v < 8) (hu : u < 8) :
    dctSum b v u =
      ∑ y ∈ Finset.range 8, ∑ x ∈ Finset.range 8, dctEntry v y * dctEntry u x * blkAt b (8 * y + x) := by
  rw [dctSum, dot_map_range (dctRow_length v hv)]
  refine Finset.sum_congr rfl fun y _ => ?_
  rw [blockRow, dot_map_range (dctRow_length u hu), Finset.mul_sum]
  exact Finset.sum_congr rfl fun x _ => (mul_assoc _ _ _).symm

theorem round24_eq (x : Int) : round24 x = x.sign * ((|x| + 2 ^ 23) / 2 ^ 24) := by
  rw [round24, Int.abs_eq_natAbs]
  norm_cast

theorem blkAt_refFdct (b : Block) {v u : Nat} (hv : v < 8) (hu : u < 8) :
    blkAt (refFdct b) (8 * v + u) = (wrap16 (round24 (dctSum b v u))).toInt := by
  have hdiv : (8 * v + u) / 8 = v := by omega
  have hmod : (8 * v + u) % 8 = u := by omega
  rw [refFdct, blkAt_ofFn _ (by omega), hdiv, hmod]

theorem exec_fdct (s : State) :
    exec .fdct s = .next (complete .p .ok 0 0 0 { s with blk := fdctOf s.cfg.fdctImpl s.blk }) := rfl

theorem exec_fdct_reference {s : State} (h : s.cfg.fdctImpl = .reference) :
    exec .fdct s = .next (complete .p .ok 0 0 0 { s with blk := refFdct s.blk }) := by
  rw [exec_fdct, h, fdctOf]

/-- Settles O45: the rows' sums of products are the double sum. -/
theorem fdctComputesTheTransform : Obligations.FdctComputesTheTransform := by
  refine fun s => ⟨fun h => ⟨_, exec_fdct_reference h, ?_⟩, fun k h => by rw [exec_fdct, h, fdctOf]⟩
  rintro v u S hv hu hS
  have hsum : dctSum s.blk v u = S := (dctSum_eq_sum _ hv hu).trans hS.symm
  rw [blkAt_refFdct _ hv hu, hsum, round24_eq, wrap16]

/-! ## The range on samples -/

/-- The bounds of R175 for output `(v, u)`: the DC's, or those of every AC output. -/
def outputLow (v u : Nat) : Int := if v = 0 ∧ u = 0 then -1024 else -1020
def outputHigh (v u : Nat) : Int := if v = 0 ∧ u = 0 then 1016 else 1020

theorem sums_fit_output : ∀ v < 8, ∀ u < 8,
    2 ^ 24 * outputLow v u - 2 ^ 23 < sumLow v u ∧ sumHigh v u < 2 ^ 24 * outputHigh v u + 2 ^ 23 := by decide

theorem output_fits : ∀ v < 8, ∀ u < 8, -2 ^ 15 ≤ outputLow v u ∧ outputHigh v u < 2 ^ 15 := by decide

theorem round24_dctSum_within {b : Block} (h : SampleRange b) {v u : Nat} (hv : v < 8) (hu : u < 8) :
    outputLow v u ≤ round24 (dctSum b v u) ∧ round24 (dctSum b v u) ≤ outputHigh v u := by
  obtain ⟨hlow, hhigh⟩ := dctSum_within h hv hu
  obtain ⟨hfitLow, hfitHigh⟩ := sums_fit_output v hv u hu
  exact round24_within (hfitLow.trans_le hlow) (hhigh.trans_lt hfitHigh)

/-- No wrap on samples (R175). -/
theorem blkAt_refFdct_of_samples {b : Block} (h : SampleRange b) {v u : Nat} (hv : v < 8) (hu : u < 8) :
    blkAt (refFdct b) (8 * v + u) = round24 (dctSum b v u) := by
  obtain ⟨hlow, hhigh⟩ := round24_dctSum_within h hv hu
  obtain ⟨hfitLow, hfitHigh⟩ := output_fits v hv u hu
  rw [blkAt_refFdct b hv hu]
  exact BitVec.toInt_ofInt_eq_self (by decide) (hfitLow.trans hlow) (hhigh.trans_lt hfitHigh)

theorem exists_row_col {k : Nat} (h : k < 64) : ∃ v u, v < 8 ∧ u < 8 ∧ k = 8 * v + u :=
  ⟨k / 8, k % 8, by omega, by omega, by omega⟩

/-- Settles O47: the sums before the division stay so close to the bounds that the division meets them. -/
theorem referenceTransformRange : Obligations.ReferenceTransformRange := by
  intro b hb
  refine ⟨?_, fun k h1 hk => ?_⟩
  · have hdc := blkAt_refFdct_of_samples hb (v := 0) (u := 0) (by decide) (by decide)
    rw [hdc]
    exact round24_dctSum_within hb (by decide) (by decide)
  · obtain ⟨v, u, hv, hu, rfl⟩ := exists_row_col hk
    have hac : ¬(v = 0 ∧ u = 0) := by omega
    have hr := round24_dctSum_within hb hv hu
    rw [outputLow, outputHigh, if_neg hac, if_neg hac] at hr
    rw [blkAt_refFdct_of_samples hb hv hu]
    exact abs_le.mpr hr

/-! ## A uniform block -/

/-- Every row but the first sums to 0 (R172). -/
theorem sum_dctEntry : ∀ u < 8, ∑ x ∈ Finset.range 8, dctEntry u x = if u = 0 then 8 * 1448 else 0 := by decide

theorem dctSum_of_uniform {b : Block} {k : Int} (h : ∀ i < 64, blkAt b i = k) {v u : Nat} (hv : v < 8) (hu : u < 8) :
    dctSum b v u = (if v = 0 then 8 * 1448 else 0) * (if u = 0 then 8 * 1448 else 0) * k := by
  rw [dctSum_eq_sum b hv hu, ← sum_dctEntry v hv, ← sum_dctEntry u hu, Finset.sum_mul_sum, Finset.sum_mul]
  refine Finset.sum_congr rfl fun y hy => ?_
  rw [Finset.sum_mul]
  refine Finset.sum_congr rfl fun x hx => ?_
  rw [Finset.mem_range] at hx hy
  rw [h _ (by omega)]

/-- Settles O46: the sum of output `(v, u)` is `k` times the sums of the rows `v` and `u`. -/
theorem uniformBlockHasOnlyDc : Obligations.UniformBlockHasOnlyDc := by
  intro s k hs hlow hhigh hk
  have hsamples : SampleRange s.blk := fun i hi => by rw [hk i hi]; exact ⟨hlow, hhigh⟩
  refine ⟨_, exec_fdct_reference hs, ?_⟩
  rw [complete_blk]
  refine ⟨?_, fun i h1 hi => ?_⟩
  · have hdc := blkAt_refFdct_of_samples hsamples (v := 0) (u := 0) (by decide) (by decide)
    have hsum : dctSum s.blk 0 0 = 64 * 1448 ^ 2 * k := dctSum_of_uniform hk (by decide) (by decide)
    have hpos : (0 : Int) < 64 * 1448 ^ 2 := by decide
    rw [hdc, hsum, round24_eq, Int.sign_mul, Int.sign_eq_one_of_pos hpos, one_mul, abs_mul, abs_of_pos hpos]
  · obtain ⟨v, u, hv, hu, rfl⟩ := exists_row_col hi
    have hsum : dctSum s.blk v u = 0 := by
      rw [dctSum_of_uniform hk hv hu]
      obtain hv0 | hu0 : v ≠ 0 ∨ u ≠ 0 := by omega
      · rw [if_neg hv0, zero_mul, zero_mul]
      · rw [if_neg hu0, mul_zero, zero_mul]
    rw [blkAt_refFdct_of_samples hsamples hv hu, hsum]
    rfl

/-! ## Cosines at multiples of pi/16 -/

/-- `100 * 2048 * cos(n pi / 16)`: with `n` the angle of an entry, 100 times the number that R172 rounds to it. -/
noncomputable def fineCos (n : Nat) : ℝ := 204800 * Real.cos (n * Real.pi / 16)

/-- The angle in 0..16 with the cosine of `n`. -/
def foldAngle (n : Nat) : Nat := min (n % 32) (32 - n % 32)

theorem fineCos_foldAngle (n : Nat) : fineCos (foldAngle n) = fineCos n := by
  have hturn : fineCos (n % 32) = fineCos n := by
    have hn : (n : ℝ) = (n % 32 : Nat) + 32 * (n / 32 : Nat) := by exact_mod_cast (Nat.mod_add_div n 32).symm
    rw [fineCos, fineCos, ← Real.cos_add_nat_mul_two_pi _ (n / 32), hn]
    congr 2
    ring
  rw [← hturn, foldAngle]
  obtain h | h := min_choice (n % 32) (32 - n % 32)
  · rw [h]
  · rw [h, fineCos, fineCos, ← Real.cos_two_pi_sub, Nat.cast_sub (by omega)]
    congr 2
    push_cast
    ring

theorem fineCos_complement {n : Nat} (hn : n ≤ 16) : fineCos (16 - n) = -fineCos n := by
  rw [fineCos, fineCos, ← mul_neg, ← Real.cos_pi_sub, Nat.cast_sub hn]
  congr 2
  push_cast
  ring

theorem fineCos_nonneg {n : Nat} (hn : n ≤ 8) : 0 ≤ fineCos n := by
  have hn' : (n : ℝ) ≤ 8 := by exact_mod_cast hn
  have hpi := Real.pi_pos
  refine mul_nonneg (by norm_num) (Real.cos_nonneg_of_mem_Icc ⟨?_, ?_⟩)
  · have : 0 ≤ (n : ℝ) * Real.pi / 16 := by positivity
    linarith
  · have := mul_le_mul_of_nonneg_right hn' hpi.le
    linarith

theorem fineCos_sq (n : Nat) : fineCos n ^ 2 = 102400 * (204800 + fineCos (2 * n)) := by
  have hangle : 2 * ((n : ℝ) * Real.pi / 16) = (2 * n : Nat) * Real.pi / 16 := by push_cast; ring
  rw [fineCos, fineCos, mul_pow, Real.cos_sq, hangle]
  ring

/-- Integer bounds of `fineCos` at 0 to 8. -/
def quadrantBounds : List (Int × Int) :=
  [(204800, 204800), (200864, 200866), (189210, 189211), (170284, 170286), (144815, 144816), (113780, 113782),
    (78373, 78374), (39953, 39956), (0, 0)]

/-- Integer bounds of `fineCos n`: those of the quadrant's angle, or of its complement with the sign turned. -/
def cosLow (n : Nat) : Int :=
  if foldAngle n ≤ 8 then (quadrantBounds.getD (foldAngle n) 0).1 else -(quadrantBounds.getD (16 - foldAngle n) 0).2
def cosHigh (n : Nat) : Int :=
  if foldAngle n ≤ 8 then (quadrantBounds.getD (foldAngle n) 0).2 else -(quadrantBounds.getD (16 - foldAngle n) 0).1

/-- The integer bounds hold at `n`. -/
def CosBounded (n : Nat) : Prop := cosLow n ≤ fineCos n ∧ fineCos n ≤ cosHigh n

theorem foldAngle_le (n : Nat) : foldAngle n ≤ 16 := by rw [foldAngle]; omega

theorem foldAngle_foldAngle (n : Nat) : foldAngle (foldAngle n) = foldAngle n := by simp only [foldAngle]; omega

theorem CosBounded.of_foldAngle {n : Nat} (h : CosBounded (foldAngle n)) : CosBounded n := by
  rwa [CosBounded, cosLow, cosHigh, foldAngle_foldAngle, ← cosLow, ← cosHigh, fineCos_foldAngle] at h

theorem cosBounds_complement : ∀ n ≤ 16, cosLow (16 - n) = -cosHigh n ∧ cosHigh (16 - n) = -cosLow n := by decide

theorem CosBounded.complement {n m : Nat} (hnm : n + m = 16) (h : CosBounded n) : CosBounded m := by
  obtain rfl : m = 16 - n := by omega
  have hn : n ≤ 16 := by omega
  obtain ⟨hlow, hhigh⟩ := cosBounds_complement n hn
  rw [CosBounded, hlow, hhigh, fineCos_complement hn, Int.cast_neg, Int.cast_neg]
  exact ⟨neg_le_neg h.2, neg_le_neg h.1⟩

theorem cosBounds_half : ∀ n ≤ 8, 1 ≤ n → cosLow n ^ 2 ≤ 102400 * (204800 + cosLow (2 * n)) ∧
    102400 * (204800 + cosHigh (2 * n)) ≤ cosHigh n ^ 2 ∧ 0 ≤ cosHigh n := by decide

/-- The half-angle formula carries the bounds from `2 n` to `n`. -/
theorem CosBounded.half {n : Nat} (hn : n ≤ 8) (h1 : 1 ≤ n) (h : CosBounded (2 * n)) : CosBounded n := by
  obtain ⟨hlow, hhigh, hpos⟩ := cosBounds_half n hn h1
  have hlow' : (cosLow n : ℝ) ^ 2 ≤ 102400 * (204800 + cosLow (2 * n)) := by exact_mod_cast hlow
  have hhigh' : 102400 * (204800 + cosHigh (2 * n)) ≤ (cosHigh n : ℝ) ^ 2 := by exact_mod_cast hhigh
  have hpos' : (0 : ℝ) ≤ cosHigh n := by exact_mod_cast hpos
  have hsq := fineCos_sq n
  obtain ⟨h2low, h2high⟩ := h
  exact ⟨le_of_abs_le (abs_le_of_sq_le_sq (by linarith) (fineCos_nonneg hn)),
    le_of_sq_le_sq (by linarith) hpos'⟩

theorem cosBounded_zero : CosBounded 0 := by
  have hcos : fineCos 0 = 204800 := by simp [fineCos]
  rw [CosBounded, hcos]
  norm_num [cosLow, cosHigh, foldAngle, quadrantBounds]

/-- From angle 0 every angle of the half turn is reached by complements and halves. -/
theorem cosBounded_halfTurn {n : Nat} (hn : n ≤ 16) : CosBounded n := by
  have h0 := cosBounded_zero
  have h16 : CosBounded 16 := h0.complement (by decide)
  have h8 : CosBounded 8 := h16.half (by decide) (by decide)
  have h4 : CosBounded 4 := h8.half (by decide) (by decide)
  have h2 : CosBounded 2 := h4.half (by decide) (by decide)
  have h12 : CosBounded 12 := h4.complement (by decide)
  have h6 : CosBounded 6 := h12.half (by decide) (by decide)
  have h1 : CosBounded 1 := h2.half (by decide) (by decide)
  have h3 : CosBounded 3 := h6.half (by decide) (by decide)
  have h10 : CosBounded 10 := h6.complement (by decide)
  have h14 : CosBounded 14 := h2.complement (by decide)
  have h5 : CosBounded 5 := h10.half (by decide) (by decide)
  have h7 : CosBounded 7 := h14.half (by decide) (by decide)
  have hquadrant : ∀ m ≤ 8, CosBounded m := fun m hm => by
    interval_cases m
    exacts [h0, h1, h2, h3, h4, h5, h6, h7, h8]
  by_cases h : n ≤ 8
  · exact hquadrant n h
  · exact (hquadrant (16 - n) (by omega)).complement (by omega)

theorem cosBounded (n : Nat) : CosBounded n := .of_foldAngle (cosBounded_halfTurn (foldAngle_le n))

/-! ## The error of the matrix -/

/-- The angle of entry `x` of row `u`, in sixteenths of a half turn; in row 0 the factor `C(0)` is a cosine too. -/
def entryAngle (u x : Nat) : Nat := if u = 0 then 4 else (2 * x + 1) * u

/-- What 100 times an entry of `T` can be away from the number it rounds. -/
def entryError (u x : Nat) : Int :=
  max (cosHigh (entryAngle u x) - 100 * dctEntry u x) (100 * dctEntry u x - cosLow (entryAngle u x))

theorem abs_entry_sub_fineCos_le (u x : Nat) :
    |100 * (dctEntry u x : ℝ) - fineCos (entryAngle u x)| ≤ entryError u x := by
  obtain ⟨hlow, hhigh⟩ := cosBounded (entryAngle u x)
  rw [entryError, abs_sub_comm, abs_eq_max_neg, neg_sub]
  push_cast
  exact max_le_max (sub_le_sub_right hhigh _) (sub_le_sub_left hlow _)

theorem sum_entryError_le : ∀ u < 8, ∑ x ∈ Finset.range 8, entryError u x ≤ 238 := by decide

theorem sum_abs_dctEntry_le : ∀ u < 8, ∑ x ∈ Finset.range 8, |dctEntry u x| ≤ 11584 := by decide

/-! ## The exact transform -/

theorem fineCos_entryAngle (u x : Nat) :
    fineCos (entryAngle u x) =
      204800 * ((if u = 0 then 1 / Real.sqrt 2 else 1) * Real.cos ((2 * x + 1) * u * Real.pi / 16)) := by
  rw [fineCos, entryAngle]
  split
  case isTrue h =>
    have hangle : ((4 : Nat) : ℝ) * Real.pi / 16 = Real.pi / 4 := by push_cast; ring
    have hzero : (2 * (x : ℝ) + 1) * (u : Nat) * Real.pi / 16 = 0 := by rw [h]; simp
    rw [hangle, hzero, Real.cos_pi_div_four, Real.cos_zero, mul_one, Real.sqrt_div_self']
  case isFalse h =>
    push_cast
    rw [one_mul]

/-- The block's elements weighted by a factor of their row and one of their column. -/
def doubleSum (b : Block) (a c : Nat → ℝ) : ℝ :=
  ∑ y ∈ Finset.range 8, ∑ x ∈ Finset.range 8, a y * c x * (blkAt b (8 * y + x) : ℝ)

theorem exactDct_eq_doubleSum (b : Block) (v u : Nat) :
    409600 ^ 2 * exactDct b v u = doubleSum b (fineCos <| entryAngle v ·) (fineCos <| entryAngle u ·) := by
  rw [exactDct, doubleSum, ← mul_assoc, Finset.mul_sum]
  refine Finset.sum_congr rfl fun y _ => ?_
  rw [Finset.mul_sum]
  refine Finset.sum_congr rfl fun x _ => ?_
  rw [fineCos_entryAngle, fineCos_entryAngle]
  ring

theorem dctSum_eq_doubleSum (b : Block) {v u : Nat} (hv : v < 8) (hu : u < 8) :
    100 ^ 2 * (dctSum b v u : ℝ) = doubleSum b (100 * dctEntry v ·) (100 * dctEntry u ·) := by
  rw [dctSum_eq_sum b hv hu, doubleSum]
  push_cast
  simp only [Finset.mul_sum]
  exact Finset.sum_congr rfl fun y _ => Finset.sum_congr rfl fun x _ => by ring

theorem doubleSum_sub (b : Block) (a a' c c' : Nat → ℝ) :
    doubleSum b a c - doubleSum b a' c' = doubleSum b (fun y => a y - a' y) c + doubleSum b a' fun x => c x - c' x := by
  simp only [doubleSum, ← Finset.sum_sub_distrib, ← Finset.sum_add_distrib]
  exact Finset.sum_congr rfl fun y _ => Finset.sum_congr rfl fun x _ => by ring

theorem abs_blkAt_le {b : Block} (h : SampleRange b) {k : Nat} (hk : k < 64) : |(blkAt b k : ℝ)| ≤ 128 := by
  obtain ⟨hlow, hhigh⟩ := h k hk
  exact_mod_cast abs_le.mpr ⟨hlow, hhigh.trans (by decide)⟩

theorem abs_doubleSum_le {b : Block} (h : SampleRange b) {a c : Nat → ℝ} {A C : ℝ}
    (ha : ∑ y ∈ Finset.range 8, |a y| ≤ A) (hc : ∑ x ∈ Finset.range 8, |c x| ≤ C) :
    |doubleSum b a c| ≤ A * C * 128 := by
  have hA : 0 ≤ A := (Finset.sum_nonneg fun y _ => abs_nonneg (a y)).trans ha
  calc |doubleSum b a c|
      ≤ ∑ y ∈ Finset.range 8, ∑ x ∈ Finset.range 8, |a y| * |c x| * 128 := by
        refine (Finset.abs_sum_le_sum_abs _ _).trans (Finset.sum_le_sum fun y hy => ?_)
        refine (Finset.abs_sum_le_sum_abs _ _).trans (Finset.sum_le_sum fun x hx => ?_)
        rw [Finset.mem_range] at hx hy
        rw [abs_mul, abs_mul]
        exact mul_le_mul_of_nonneg_left (abs_blkAt_le h (by omega)) (by positivity)
    _ = (∑ y ∈ Finset.range 8, |a y|) * (∑ x ∈ Finset.range 8, |c x|) * 128 := by
        rw [Finset.sum_mul_sum]
        simp only [Finset.sum_mul]
    _ ≤ A * C * 128 := mul_le_mul_of_nonneg_right (mul_le_mul ha hc (by positivity) hA) (by norm_num)

theorem sum_abs_entry_sub_fineCos_le {u : Nat} (hu : u < 8) :
    ∑ x ∈ Finset.range 8, |100 * (dctEntry u x : ℝ) - fineCos (entryAngle u x)| ≤ 238 := by
  refine (Finset.sum_le_sum fun x _ => abs_entry_sub_fineCos_le u x).trans ?_
  exact_mod_cast sum_entryError_le u hu

theorem sum_abs_hundred_entry_le {u : Nat} (hu : u < 8) :
    ∑ x ∈ Finset.range 8, |100 * (dctEntry u x : ℝ)| ≤ 1158400 := by
  have h : ((∑ x ∈ Finset.range 8, |dctEntry u x| : Int) : ℝ) ≤ 11584 := by
    exact_mod_cast sum_abs_dctEntry_le u hu
  simp only [abs_mul, ← Finset.mul_sum, Nat.abs_ofNat]
  push_cast at h
  linarith

theorem sum_abs_fineCos_le {u : Nat} (hu : u < 8) :
    ∑ x ∈ Finset.range 8, |fineCos (entryAngle u x)| ≤ 1158638 := by
  have hterm : ∀ x ∈ Finset.range 8, |fineCos (entryAngle u x)| ≤
      |100 * (dctEntry u x : ℝ)| + |100 * (dctEntry u x : ℝ) - fineCos (entryAngle u x)| := fun x _ => by
    rw [← sub_le_iff_le_add', abs_sub_comm (100 * _)]
    exact abs_sub_abs_le_abs_sub _ _
  have hsum := Finset.sum_le_sum hterm
  rw [Finset.sum_add_distrib] at hsum
  linarith [sum_abs_hundred_entry_le hu, sum_abs_entry_sub_fineCos_le hu]

/-- The part of the distance that the matrix's rounded entries cause (R175). -/
theorem abs_dctSum_sub_exactDct_le {b : Block} (h : SampleRange b) {v u : Nat} (hv : v < 8) (hu : u < 8) :
    |(dctSum b v u : ℝ) / 2 ^ 24 - exactDct b v u| ≤ 1 / 2 := by
  have hrow := abs_doubleSum_le h (sum_abs_entry_sub_fineCos_le hv) (sum_abs_hundred_entry_le hu)
  have hcol := abs_doubleSum_le h (sum_abs_fineCos_le hv) (sum_abs_entry_sub_fineCos_le hu)
  have hsum := doubleSum_sub b (100 * dctEntry v ·) (fineCos <| entryAngle v ·) (100 * dctEntry u ·)
    (fineCos <| entryAngle u ·)
  rw [← dctSum_eq_doubleSum b hv hu, ← exactDct_eq_doubleSum] at hsum
  rw [abs_le] at hrow hcol ⊢
  obtain ⟨hrowLow, hrowHigh⟩ := hrow
  obtain ⟨hcolLow, hcolHigh⟩ := hcol
  constructor <;> linarith

/-- The part of the distance that the final rounding causes. -/
theorem abs_round24_sub_le (x : Int) : |(round24 x : ℝ) - (x : ℝ) / 2 ^ 24| ≤ 1 / 2 := by
  have h : -2 ^ 23 ≤ 2 ^ 24 * round24 x - x ∧ 2 ^ 24 * round24 x - x ≤ 2 ^ 23 := by
    rw [round24]
    obtain hx | rfl | hx := lt_trichotomy x 0
    · rw [Int.sign_eq_neg_one_of_neg hx]; omega
    · decide
    · rw [Int.sign_eq_one_of_pos hx]; omega
  have hlow : -2 ^ 23 ≤ 2 ^ 24 * (round24 x : ℝ) - x := by exact_mod_cast h.1
  have hhigh : 2 ^ 24 * (round24 x : ℝ) - x ≤ 2 ^ 23 := by exact_mod_cast h.2
  exact abs_le.mpr ⟨by linarith, by linarith⟩

/-- Settles O48: the matrix and the final rounding each cause a distance of at most one half. -/
theorem referenceTransformConforms : Obligations.ReferenceTransformConforms := by
  intro b hb v hv u hu
  rw [blkAt_refFdct_of_samples hb hv hu]
  calc |(round24 (dctSum b v u) : ℝ) - exactDct b v u|
      ≤ |(round24 (dctSum b v u) : ℝ) - dctSum b v u / 2 ^ 24| + |dctSum b v u / 2 ^ 24 - exactDct b v u| :=
        abs_sub_le _ _ _
    _ ≤ 1 / 2 + 1 / 2 := add_le_add (abs_round24_sub_le _) (abs_dctSum_sub_exactDct_le hb hv hu)
    _ = 1 := by norm_num

end Sys2Proof.Machine
end

section
/-! PROOFS. The Quantizer (42_quantizer.md R190 to R199): the scale of a table entry, the intervals that quantizing
keeps, from them that no element of a block wraps, and the distance from the exact quotient. -/

namespace Sys2Proof.Machine

/-! ## The scale -/

theorem qscale_one : qscale 1 = 1024 := rfl

theorem four_le_qscale {q : Nat} (h1 : 1 ≤ q) (h255 : q ≤ 255) : 4 ≤ qscale q := by
  have hdiv : 8 ≤ 2048 / q := (Nat.le_div_iff_mul_le h1).mpr (by omega)
  rw [qscale]
  omega

theorem qscale_le (q : Nat) : qscale q ≤ 1024 := by
  have hdiv : 2048 / q ≤ 2048 := Nat.div_le_self ..
  rw [qscale]
  omega

/-! ## One coefficient -/

theorem quantize_eq (c : Int) (qs : Nat) : quantize c qs = (c * qs - (if c < 0 then 1 else 0) + 511) / 1024 := rfl

theorem quantize_zero (qs : Nat) : quantize 0 qs = 0 := by simp [quantize_eq]

theorem quantize_qscale_one (c : Int) : quantize c (qscale 1) = c := by
  rw [qscale_one, quantize_eq]
  split <;> omega

/-- A scale up to 1024 is a factor up to 1, so quantizing keeps every interval around 0. -/
theorem quantize_within {lo hi c : Int} {qs : Nat} (hqs : qs ≤ 1024) (hlo : lo ≤ 0) (hhi : 0 ≤ hi) (hc : lo ≤ c)
    (hc' : c ≤ hi) : lo ≤ quantize c qs ∧ quantize c qs ≤ hi := by
  have hscale : (qs : Int) ≤ 1024 := by exact_mod_cast hqs
  rw [quantize_eq]
  split
  · have hlow : c * 1024 ≤ c * qs := mul_le_mul_of_nonpos_left hscale (by omega)
    have hhigh : c * qs ≤ 0 := mul_nonpos_of_nonpos_of_nonneg (by omega) (by omega)
    omega
  · have hlow : 0 ≤ c * qs := mul_nonneg (by omega) (by omega)
    have hhigh : c * qs ≤ c * 1024 := mul_le_mul_of_nonneg_left hscale (by omega)
    omega

/-- Settles O50: both ranges of the encoder path are intervals around 0. -/
theorem quantizeLaws : Obligations.QuantizeLaws := by
  refine ⟨fun q h1 h255 => ⟨four_le_qscale h1 h255, qscale_le q⟩, quantize_zero, quantize_qscale_one,
    fun c qs hqs hc => ?_, fun c qs hqs hlo hhi => quantize_within hqs (by decide) (by decide) hlo hhi⟩
  obtain ⟨hlo, hhi⟩ := abs_le.mp hc
  exact abs_le.mpr (quantize_within hqs (by decide) (by decide) hlo hhi)

/-! ## A block -/

theorem blkAt_within (b : Block) (k : Nat) : -2 ^ 15 ≤ blkAt b k ∧ blkAt b k ≤ 2 ^ 15 - 1 :=
  ⟨BitVec.le_toInt _, Int.le_sub_one_of_lt BitVec.toInt_lt⟩

/-- The wrap of `quantizeBlock` has no effect, since quantizing keeps the range of a 16-bit number. -/
theorem blkAt_quantizeBlock (t : Vector Nat 64) (b : Block) {k : Nat} (hk : k < 64) :
    blkAt (quantizeBlock t b) k = quantize (blkAt b k) (qscale t[k]) := by
  obtain ⟨hlo, hhi⟩ := blkAt_within b k
  obtain ⟨hlow, hhigh⟩ := quantize_within (qscale_le t[k]) (by decide) (by decide) hlo hhi
  rw [quantizeBlock, blkAt_ofFn _ hk]
  exact BitVec.toInt_ofInt_eq_self (by decide) hlow (Int.lt_of_le_sub_one hhigh)

/-- Settles O49: both commands store the quantized block, and quantizing it does not wrap. -/
theorem quantScalesEachElement : Obligations.QuantScalesEachElement := by
  intro s i table _ hi
  refine ⟨quantizeBlock table s.blk, ?_, fun k q hq => ?_⟩
  · obtain ⟨rfl, rfl⟩ | ⟨rfl, rfl⟩ := hi <;> rfl
  · obtain ⟨hk, rfl⟩ := Vector.getElem?_eq_some_iff.mp hq
    exact blkAt_quantizeBlock table s.blk hk

/-! ## The distance from the quotient -/

/-- `quantize` moves the scaled value by at most 513 units of 1/1024, and 1534 + 513 units are less than 2. -/
theorem abs_quantize_sub_le_one {c r : Int} {qs : Nat} (h : |c * qs - 1024 * r| ≤ 1534) : |quantize c qs - r| ≤ 1 := by
  obtain ⟨hlow, hhigh⟩ := abs_le.mp h
  rw [quantize_eq, abs_le]
  split <;> omega

/-- The error of the scale, `q * qscale q` against 1024, for every table entry but three. -/
theorem abs_scaleError_le : ∀ q < 256, 1 ≤ q → ¬(q = 89 ∨ q = 186 ∨ q = 228) →
    2090 * |(q * qscale q - 1024 : Int)| ≤ 1022 * q := by decide +kernel

/-- The distance of the scaled coefficient from `r`, times `q`, is what the error of the scale makes of `c` and what
rounding `c / q` to `r` adds. -/
theorem abs_scaled_sub_le {c r : Int} {q : Nat} (hq : 1 ≤ q) (hscale : 2090 * |(q * qscale q - 1024 : Int)| ≤ 1022 * q)
    (hc : |c| ≤ 2090) (hr : 2 * |c - r * q| ≤ q) : |c * qscale q - 1024 * r| ≤ 1534 := by
  have hpos : (0 : Int) < q := by exact_mod_cast hq
  have herror : |c| * |(q * qscale q - 1024 : Int)| ≤ 1022 * q :=
    (mul_le_mul_of_nonneg_right hc (abs_nonneg _)).trans hscale
  refine le_of_mul_le_mul_left ?_ hpos
  calc (q : Int) * |c * qscale q - 1024 * r|
      = |c * (q * qscale q - 1024) + 1024 * (c - r * q)| := by
        rw [← abs_of_pos hpos, ← abs_mul, abs_of_pos hpos]; ring_nf
    _ ≤ |c| * |(q * qscale q - 1024 : Int)| + 1024 * |c - r * q| := by
        refine (abs_add_le _ _).trans_eq ?_
        rw [abs_mul, abs_mul, Nat.abs_ofNat]
    _ ≤ q * 1534 := by linarith

/-- The bound of `abs_scaled_sub_le` at the other three entries. It takes a large quotient and a large remainder at once
to break it, and the first coefficient that has both is 2091 at entry 89 (R198). -/
theorem abs_scaled_sub_le_of_large_error {c r : Int} {q : Nat} (hq : q = 89 ∨ q = 186 ∨ q = 228) (hc : |c| ≤ 2090)
    (hr : 2 * |c - r * q| ≤ q) : |c * qscale q - 1024 * r| ≤ 1534 := by
  have h89 : qscale 89 = 12 := rfl
  have h186 : qscale 186 = 6 := rfl
  have h228 : qscale 228 = 4 := rfl
  have hr' : |c - r * q| ≤ q / 2 := by omega
  rw [abs_le] at hc hr' ⊢
  obtain rfl | rfl | rfl := hq
  · rw [h89]; omega
  · rw [h186]; omega
  · rw [h228]; omega

/-- Settles O51: the distance follows from the error of the scale, and at three entries from the coefficients that
occur. -/
theorem quantizeIsWithinOneOfTheQuotient : Obligations.QuantizeIsWithinOneOfTheQuotient := by
  refine ⟨fun c r q h1 h255 hc hr => abs_quantize_sub_le_one ?_, by decide⟩
  by_cases hlarge : q = 89 ∨ q = 186 ∨ q = 228
  · exact abs_scaled_sub_le_of_large_error hlarge hc hr
  · exact abs_scaled_sub_le h1 (abs_scaleError_le q (by omega) h1 hlarge) hc hr

end Sys2Proof.Machine
end

section
/-! PROOFS. The EntropyCoder (43_entropy.md R210 to R231): which blocks have a code, the three ways the unit step starts,
what its bits are on blocks with at most one nonzero AC element, and how many bits a block can need. -/

namespace Sys2Proof.Machine

/-! ## Codable blocks -/

theorem mag_le_iff (v : Int) (n : Nat) : mag v ≤ n ↔ |v| < 2 ^ n := by
  rw [mag_eq_size, Nat.size_le, Int.abs_eq_natAbs]
  exact_mod_cast Iff.rfl

theorem codable_iff (b : Block) (p : Sample) :
    codable b p = true ↔ |blkAt b 0 - p.toInt| < 2 ^ 11 ∧ ∀ k, 1 ≤ k → k < 64 → |blkAt b k| < 2 ^ 10 := by
  simp only [codable, dcDiff, Bool.and_eq_true, decide_eq_true_eq, List.all_eq_true, List.mem_range'_1, mag_le_iff,
    and_imp]

/-! ## The unit step and the command -/

theorem exec_entropyOf (ch : Channel) (s : State) : exec (entropyOf ch) s = entropyCommand ch s := by
  cases ch <;> rfl

theorem entropyStep_closed {s : State} (ch : Channel) (ho : ¬s.sess.isOpen = true) :
    entropyStep ch s = .raised .invalidState (faultErr .protocol s) := if_neg ho

theorem entropyStep_codable {s : State} {ch : Channel} (ho : s.sess.isOpen = true)
    (hc : codable s.blk (s.pred.get ch) = true) :
    entropyStep ch s = emitItems (blockItems ch s.blk (s.pred.get ch)) (s.setPreds (s.pred.put s.blk[0] ch)) := by
  rw [entropyStep, needSession, if_pos ho, if_pos hc]

theorem entropyStep_not_codable {s : State} {ch : Channel} (ho : s.sess.isOpen = true)
    (hc : ¬codable s.blk (s.pred.get ch) = true) : entropyStep ch s = .raised .invalidArgument s := by
  rw [entropyStep, needSession, if_pos ho, if_neg hc]

/-- Settles O53: such a block is not codable, and the unit step raises the status before it changes anything. -/
theorem entropyRefusesUncodableBlocks : Obligations.EntropyRefusesUncodableBlocks := by
  intro s ch hopen hbig
  have hc : ¬codable s.blk (s.pred.get ch) = true := by
    rw [codable_iff]
    rintro ⟨hdc, hac⟩
    obtain hdc' | ⟨k, h1, h64, hk⟩ := hbig
    · exact absurd hdc (not_lt.mpr hdc')
    · exact absurd (hac k h1 h64) (not_lt.mpr hk)
  rw [exec_entropyOf, entropyCommand, entropyStep_not_codable hopen hc, finish_raised, raiseStatus]

/-! ## Packing a block -/

theorem storedIn_complete {t u : State} {a : Nat} {l : List Byte} (h : storedIn t u a l) (c : StatusCode)
    (r0 r1 r2 : Word) : storedIn (complete .p c r0 r1 r2 t) (complete .p c r0 r1 r2 u) a l := by
  obtain ⟨hholds, hout, heq⟩ := h
  exact ⟨hholds, hout, congrArg (complete .p c r0 r1 r2) heq⟩

theorem sameButBytes_complete {t u : State} {a n : Nat} (h : sameButBytes t u a n) (c : StatusCode) (r0 r1 r2 : Word) :
    sameButBytes (complete .p c r0 r1 r2 t) (complete .p c r0 r1 r2 u) a n := by
  obtain ⟨hout, heq⟩ := h
  exact ⟨hout, congrArg (complete .p c r0 r1 r2) heq⟩

/-- A command whose effect is an emission sends those bytes to the sink (44_bitstream.md R251, R252). -/
theorem Emits.emitsBytes_finish {e : Eff} {s : State} {out : List Byte} {bits : List Bool} {done : State → State}
    {r0 r1 r2 : Word} (h : Emits e s out bits) (hd : ∀ t, Stored s t out bits → done t = complete .p .ok r0 r1 r2 t) :
    emitsBytes (finish e done) s (complete .p .ok r0 r1 r2 (sessionAt s (s.sessSize + out.length) bits)) out := by
  constructor
  · intro hroom
    obtain ⟨t, rfl, ht⟩ := h.1 hroom
    refine ⟨_, finish_ok t done, ?_⟩
    rw [hd t ht]
    exact storedIn_complete ht ..
  · intro hfull
    obtain ⟨t, rfl, ht⟩ := h.2 hfull
    exact ⟨_, finish_raised _ t done, sameButBytes_complete ht ..⟩

@[simp] theorem Preds.get_put (x : Preds) (v : Sample) (ch : Channel) : (x.put v ch).get ch = v := by cases ch <;> rfl

theorem Stored.pred {s t : State} {out : List Byte} {bits : List Bool} (h : Stored s t out bits) : t.pred = s.pred := by
  rw [h.eq]; rfl

theorem sessionReady.sinkReady {s : State} (h : sessionReady s) : SinkReady s := by
  obtain ⟨-, hslot, hcount, -, hsize⟩ := h
  exact ⟨hslot, hcount, hsize⟩

theorem SinkReady.setPreds {s : State} (h : SinkReady s) (x : Preds) : SinkReady (s.setPreds x) :=
  ⟨h.slot, h.count, h.size⟩

theorem itemBits_blockItems (ch : Channel) (b : Block) (p : Sample) :
    itemBits (blockItems ch b p) = (scanBits ch b p).length := by
  rw [← itemsBits_length, itemsBits_blockItems]

/-- Settles O52: on a codable block the unit step is the emission of the block's items, and these carry the bits that
`scanBits` reads off the positions. -/
theorem entropyPacksTheBlock : Obligations.EntropyPacksTheBlock := by
  rintro s _ ch _ _ hready hdc hac rfl rfl rfl
  have hsink : SinkReady (s.setPreds (s.pred.put s.blk[0] ch)) := hready.sinkReady.setPreds _
  obtain ⟨hopen, -, -, hpending, -⟩ := hready
  have hitems := emitItems_emits (blockItems ch s.blk (s.pred.get ch)) hsink (Nat.lt_succ_of_le hpending)
  rw [itemsBits_blockItems] at hitems
  rw [exec_entropyOf, entropyCommand, entropyStep_codable hopen ((codable_iff _ _).mpr ⟨hdc, hac⟩)]
  refine hitems.emitsBytes_finish fun t ht => ?_
  rw [entropyDone, itemBits_blockItems, ht.sessSize hsink, ht.pred, State.setPreds_pred, Preds.get_put]
  rfl

/-! ## Blocks with at most one nonzero AC element -/

theorem eob_bits (ch : Channel) :
    codeBits (acSpec ch) 0x00 = if ch = .y then [true, false, true, false] else [false, false] := by
  cases ch <;> decide +kernel

theorem zrl_bits (ch : Channel) :
    codeBits (acSpec ch) 0xF0 =
      if ch = .y then [true, true, true, true, true, true, true, true, false, false, true]
      else [true, true, true, true, true, true, true, false, true, false] := by
  cases ch <;> decide +kernel

/-- The scan positions past the DC hold the elements past the DC (43_entropy.md R212). -/
theorem zigzag_ac : ∀ k < 64, 1 ≤ k → 1 ≤ zigzag.toList.getD k 0 ∧ zigzag.toList.getD k 0 < 64 := by decide

/-- No element stands at two scan positions (43_entropy.md R212). -/
theorem zigzag_nodup : zigzag.toList.Nodup := by decide

theorem scanAt_eq {k z : Nat} (hz : zigzag[k]? = some z) (b : Block) : scanAt b k = blkAt b z := by
  rw [scanAt, List.getD_eq_getElem?_getD, Vector.getElem?_toList, hz, Option.getD_some]

theorem scanAt_zero {b : Block} (h : ∀ k, 1 ≤ k → k < 64 → blkAt b k = 0) {k : Nat} (h1 : 1 ≤ k) (h64 : k < 64) :
    scanAt b k = 0 := by
  obtain ⟨hz1, hz64⟩ := zigzag_ac k h64 h1
  exact h _ hz1 hz64

theorem scanAt_ne_zero_iff {b : Block} {k z : Nat} (hz : zigzag[k]? = some z) (hv : blkAt b z ≠ 0)
    (h : ∀ i, 1 ≤ i → i < 64 → i ≠ z → blkAt b i = 0) {j : Nat} (h1 : 1 ≤ j) (h64 : j < 64) :
    scanAt b j ≠ 0 ↔ j = k := by
  constructor
  · intro hj
    obtain ⟨hz1, hz64⟩ := zigzag_ac j h64 h1
    have hjz : zigzag.toList.getD j 0 = z := by_contra fun hne => hj (h _ hz1 hz64 hne)
    obtain ⟨hk64, hkz⟩ := Vector.getElem?_eq_some_iff.mp hz
    rw [List.getD_eq_getElem _ _ (by simpa using h64)] at hjz
    exact (zigzag_nodup.getElem_inj_iff (hi := by simpa using h64) (hj := by simpa using hk64)).mp
      (hjz.trans (by simpa using hkz.symm))
  · rintro rfl
    rwa [scanAt_eq hz]

theorem nonzeroBelow_one {b : Block} {k : Nat} (hk : 1 ≤ k) (h : ∀ j, 1 ≤ j → j < 64 → (scanAt b j ≠ 0 ↔ j = k))
    {n : Nat} (hn : n < 64) : nonzeroBelow b (n + 1) = if k ≤ n then [k] else [] := by
  induction n with
  | zero => rw [if_neg (by omega)]; rfl
  | succ n ih =>
    have hs := h (n + 1) (by omega) hn
    rw [nonzeroBelow_succ, ih (by omega)]
    obtain hlt | rfl | hgt := lt_trichotomy k (n + 1)
    · rw [if_pos (by omega), if_neg (by omega), if_pos (by omega), List.append_nil]
    · rw [if_neg (by omega), if_pos (hs.mpr rfl), if_pos le_rfl, List.nil_append]
    · rw [if_neg (by omega), if_neg (by omega), if_neg (by omega), List.append_nil]

/-- The bits of a block of a DC and 63 zeros (43_entropy.md R229). -/
theorem scanBits_uniform {b : Block} (h : ∀ k, 1 ≤ k → k < 64 → blkAt b k = 0) (ch : Channel) (p : Sample) :
    scanBits ch b p =
      codeBits (dcSpec ch) (Nat.size (blkAt b 0 - p.toInt).natAbs) ++ vliBits (blkAt b 0 - p.toInt) ++
        codeBits (acSpec ch) 0x00 := by
  have hnone : nonzeroBelow b 64 = [] := by
    rw [nonzeroBelow, List.filter_eq_nil_iff]
    intro j hj
    obtain ⟨h1, h64⟩ := List.mem_range'_1.mp hj
    simpa using scanAt_zero h h1 h64
  rw [scanBits, hnone, if_pos (scanAt_zero h (by omega) (by omega)), List.flatMap_nil, List.append_nil]

/-- The bits of a block whose only nonzero AC element stands at scan position `k` (43_entropy.md R216). -/
theorem scanBits_one {b : Block} {k z : Nat} (hk : 1 ≤ k) (hz : zigzag[k]? = some z) (hv : blkAt b z ≠ 0)
    (h : ∀ i, 1 ≤ i → i < 64 → i ≠ z → blkAt b i = 0) (ch : Channel) (p : Sample) :
    scanBits ch b p =
      codeBits (dcSpec ch) (Nat.size (blkAt b 0 - p.toInt).natAbs) ++ vliBits (blkAt b 0 - p.toInt) ++
        ((List.replicate ((k - 1) / 16) (codeBits (acSpec ch) 0xF0)).flatten ++
          codeBits (acSpec ch) (16 * ((k - 1) % 16) + Nat.size (blkAt b z).natAbs) ++ vliBits (blkAt b z)) ++
        if k = 63 then [] else codeBits (acSpec ch) 0x00 := by
  have honly := fun j => scanAt_ne_zero_iff (j := j) hz hv h
  obtain ⟨hk64, -⟩ := Vector.getElem?_eq_some_iff.mp hz
  have hlist : nonzeroBelow b 64 = [k] := by
    rw [nonzeroBelow_one hk honly (n := 63) (by omega), if_pos (by omega)]
  have hbefore : zerosBefore b k = k - 1 := by
    have hnone : nonzeroBelow b (k - 1 + 1) = [] := by
      rw [nonzeroBelow_one hk honly (by omega), if_neg (by omega)]
    rw [Nat.sub_add_cancel hk] at hnone
    rw [zerosBefore, hnone]
    rfl
  have heob : scanAt b 63 = 0 ↔ ¬k = 63 := by
    rw [← not_iff_not, not_not, ← ne_eq, honly 63 (by omega) (by omega), eq_comm]
  rw [scanBits, hlist, List.flatMap_singleton, acBits, hbefore, scanAt_eq hz]
  simp only [heob, ite_not]

theorem stuffed_length_le (l : List Byte) : (stuffed l).length ≤ 2 * l.length := by
  induction l with
  | nil => exact le_rfl
  | cons v l ih =>
    have hone : (stuffed [v]).length ≤ 2 := by
      rw [stuffed, List.flatMap_singleton]
      split <;> simp
    rw [← List.singleton_append, stuffed_append, List.length_append, List.length_append, List.length_singleton]
    omega

theorem wholeBytes_length (l : List Bool) : (wholeBytes l).length = l.length / 8 := by simp [wholeBytes]

/-! ## Code lengths -/

theorem codeOf_len_le {t : HuffSpec} {n : Nat} (h : ∀ x ∈ genCodes t, x.2.len ≤ n) (sym : Nat) :
    (t.codeOf sym).len ≤ n := by
  unfold HuffSpec.codeOf
  cases hc : (genCodes t).lookup sym with
  | none => exact Nat.zero_le n
  | some c =>
    obtain ⟨before, after, hcodes, -⟩ := List.lookup_eq_some_iff.mp hc
    exact h (sym, c) (hcodes ▸ List.mem_append_cons_self)

theorem dcCode_len_le (ch : Channel) (sym : Nat) : ((dcSpec ch).codeOf sym).len ≤ 11 :=
  codeOf_len_le (by cases ch <;> decide +kernel) sym

theorem acCode_len_le (ch : Channel) (sym : Nat) : ((acSpec ch).codeOf sym).len ≤ 16 :=
  codeOf_len_le (by cases ch <;> decide +kernel) sym

theorem codeBits_length (t : HuffSpec) (sym : Nat) : (codeBits t sym).length = (t.codeOf sym).len := bitsOf_length ..

theorem vliBits_length (v : Int) : (vliBits v).length = Nat.size v.natAbs := bitsOf_length ..

theorem eob_length (ch : Channel) : ((acSpec ch).codeOf 0x00).len = if ch = .y then 4 else 2 := by
  rw [← codeBits_length, eob_bits]
  split <;> rfl

theorem storedIn.portP {t u : State} {a : Nat} {l : List Byte} (h : storedIn t u a l) : t.portP = u.portP := by
  obtain ⟨-, -, heq⟩ := h
  rw [← heq]

theorem scanBits_uniform_length {b : Block} (h : ∀ k, 1 ≤ k → k < 64 → blkAt b k = 0) (ch : Channel) (p : Sample) :
    (scanBits ch b p).length =
      ((dcSpec ch).codeOf (Nat.size (blkAt b 0 - p.toInt).natAbs)).len + Nat.size (blkAt b 0 - p.toInt).natAbs +
        if ch = .y then 4 else 2 := by
  simp only [scanBits_uniform h, List.length_append, codeBits_length, vliBits_length, eob_length]

/-- The bytes of a DC and zeros, with the pending bits before them, fit into 10 bytes: at most 7 + 11 + 11 + 4 bits, so
4 whole bytes, each stuffed. -/
theorem stuffed_uniform_length_le {b : Block} (h : ∀ k, 1 ≤ k → k < 64 → blkAt b k = 0) {acc : List Bool}
    (hacc : acc.length ≤ 7) (ch : Channel) {p : Sample} (hm : Nat.size (blkAt b 0 - p.toInt).natAbs ≤ 11) :
    (stuffed (wholeBytes (acc ++ scanBits ch b p))).length ≤ 10 := by
  have hcode := dcCode_len_le ch (Nat.size (blkAt b 0 - p.toInt).natAbs)
  have heob : (if ch = .y then 4 else 2) ≤ 4 := by split <;> omega
  refine (stuffed_length_le _).trans ?_
  rw [wholeBytes_length, List.length_append, scanBits_uniform_length h]
  omega

/-- Settles O54: `scanBits` on blocks with no and with one nonzero AC element, and the items carry those bits. -/
theorem uniformBlockCodesAsDcAndEob : Obligations.UniformBlockCodesAsDcAndEob := by
  refine ⟨?_, ?_⟩
  · rintro s ch _ _ hready hroom rfl rfl hm hac
    refine ⟨by rw [itemsBits_blockItems, scanBits_uniform hac, eob_bits]; rfl, ?_⟩
    have hdc : |blkAt s.blk 0 - (s.pred.get ch).toInt| < 2 ^ 11 := by rwa [← mag_le_iff, mag_eq_size]
    have hac' : ∀ k, 1 ≤ k → k < 64 → |blkAt s.blk k| < 2 ^ 10 := fun k h1 h64 => by rw [hac k h1 h64]; decide
    obtain ⟨-, -, -, hpending, -⟩ := id hready
    have hfits := stuffed_uniform_length_le hac hpending ch hm
    obtain ⟨t, hrun, hstored⟩ :=
      (entropyPacksTheBlock s _ ch _ _ hready hdc hac' rfl rfl rfl).1 ((Nat.add_le_add_left hfits _).trans hroom)
    refine ⟨t, hrun, ?_⟩
    rw [hstored.portP, ← scanBits_uniform_length hac]
    rfl
  · rintro ch b p k z _ _ _ hk hz rfl hv hac rfl rfl
    rw [itemsBits_blockItems, scanBits_one hk hz hv hac, eob_bits, zrl_bits]
    simp only [List.append_assoc]
    rfl

/-! ## The bit budget -/

@[simp] theorem itemBits_nil : itemBits [] = 0 := rfl

@[simp] theorem itemBits_cons (x : BitItem) (l : List BitItem) : itemBits (x :: l) = x.count + itemBits l := rfl

@[simp] theorem itemBits_append (l m : List BitItem) : itemBits (l ++ m) = itemBits l + itemBits m := by
  simp [itemBits]

@[simp] theorem itemBits_replicate (n : Nat) (x : BitItem) : itemBits (List.replicate n x) = n * x.count := by
  simp [itemBits]

/-- Every AC position costs at most a code of 16 bits and a VLI of 10: a run of zeros costs less than its positions. -/
theorem itemBits_acItems_le (ch : Channel) {l : List Int} (hl : ∀ v ∈ l, mag v ≤ 10) (run : Nat) :
    itemBits (acItems (acSpec ch) run l) ≤ 26 * (run + l.length) := by
  induction l generalizing run with
  | nil =>
    have heob := acCode_len_le ch 0x00
    rw [acItems]
    split
    · simp only [itemBits_cons, itemBits_nil, codeItem, List.length_nil]; omega
    · exact Nat.zero_le _
  | cons v l ih =>
    obtain ⟨hv, hl⟩ := List.forall_mem_cons.mp hl
    rw [acItems, List.length_cons]
    split
    · exact (ih hl (run + 1)).trans (by omega)
    · have hzrl : run / 16 * ((acSpec ch).codeOf 0xF0).len ≤ run / 16 * 16 :=
        Nat.mul_le_mul_left _ (acCode_len_le ch 0xF0)
      have hcode := acCode_len_le ch (run % 16 * 16 + mag v)
      have hrest := ih hl 0
      simp only [itemBits_append, itemBits_replicate, itemBits_cons, codeItem, vliItem]
      omega

/-- A codable block needs at most 11 + 11 bits for its DC and 26 for each AC element (43_entropy.md R230). -/
theorem itemBits_blockItems_le {ch : Channel} {b : Block} {p : Sample} (h : codable b p = true) :
    itemBits (blockItems ch b p) ≤ 1660 := by
  obtain ⟨hdc, hac⟩ := (codable_iff b p).mp h
  have hscan : ∀ v ∈ acScan b, mag v ≤ 10 := by
    intro v hv
    rw [acScan_eq] at hv
    obtain ⟨k, hk, rfl⟩ := List.mem_map.mp hv
    obtain ⟨h1, h64⟩ := List.mem_range'_1.mp hk
    obtain ⟨hz1, hz64⟩ := zigzag_ac k h64 h1
    exact (mag_le_iff _ _).mpr (hac _ hz1 hz64)
  have hcode := dcCode_len_le ch (mag (dcDiff b p))
  have hvli : mag (dcDiff b p) ≤ 11 := (mag_le_iff _ _).mpr hdc
  have hitems := itemBits_acItems_le ch hscan 0
  have hlen : (acScan b).length = 63 := by simp [acScan]
  simp only [blockItems, dcItems, itemBits_append, itemBits_cons, itemBits_nil, codeItem, vliItem]
  omega

/-- The only status that the sub-step raises is `code`. -/
def Eff.RaisesOnly (e : Eff) (code : StatusCode) : Prop := ∀ c t, e = .raised c t → c = code

theorem Eff.raisesOnly_ok (s : State) (code : StatusCode) : (Eff.ok s).RaisesOnly code := fun _ _ h => nomatch h

theorem Eff.RaisesOnly.bind {e : Eff} {m : State → Eff} {code : StatusCode} (h : e.RaisesOnly code)
    (hm : ∀ t, (m t).RaisesOnly code) : (e.bind m).RaisesOnly code := by
  cases e with
  | ok t => exact hm t
  | raised c t => exact h
  | stuck f => exact fun _ _ h => nomatch h

theorem sinkByte_raisesOnly (v : Byte) (s : State) : (sinkByte v s).RaisesOnly .capacityExceeded := by
  intro c t h
  unfold sinkByte at h
  split at h
  · cases h
  split at h
  · cases h; rfl
  · cases h

theorem dataByte_raisesOnly (b : Byte) (s : State) : (dataByte b s).RaisesOnly .capacityExceeded := by
  refine (sinkByte_raisesOnly b s).bind fun t => ?_
  split
  · exact sinkByte_raisesOnly 0 t
  · exact Eff.raisesOnly_ok t _

theorem drain_raisesOnly (n : Nat) (s : State) : (drain n s).RaisesOnly .capacityExceeded := by
  induction n generalizing s with
  | zero => exact Eff.raisesOnly_ok s _
  | succ n ih => exact Eff.RaisesOnly.bind (dataByte_raisesOnly _ _) ih

theorem emitItems_raisesOnly (l : List BitItem) (s : State) : (emitItems l s).RaisesOnly .capacityExceeded := by
  induction l generalizing s with
  | nil => exact Eff.raisesOnly_ok s _
  | cons x l ih => exact Eff.RaisesOnly.bind (drain_raisesOnly _ _) ih

/-- What an ENTROPY command that goes on can answer: a status it raised, or, for a codable block, the count of its
bits. -/
theorem exec_entropyOf_next {s t : State} {ch : Channel} (h : exec (entropyOf ch) s = .next t) :
    t.portP.status.code ≠ .ok ∨
      codable s.blk (s.pred.get ch) = true ∧
        t.portP.res[0] = BitVec.ofNat 32 (itemBits (blockItems ch s.blk (s.pred.get ch))) := by
  rw [exec_entropyOf, entropyCommand] at h
  by_cases ho : s.sess.isOpen = true
  · by_cases hc : codable s.blk (s.pred.get ch) = true
    · rw [entropyStep_codable ho hc] at h
      cases he : emitItems (blockItems ch s.blk (s.pred.get ch)) (s.setPreds (s.pred.put s.blk[0] ch)) with
      | ok u =>
        rw [he] at h
        cases h
        exact .inr ⟨hc, rfl⟩
      | raised c u =>
        obtain rfl := emitItems_raisesOnly _ _ c u he
        rw [he] at h
        cases h
        exact .inl nofun
      | stuck f =>
        rw [he] at h
        cases h
    · rw [entropyStep_not_codable ho hc] at h
      cases h
      exact .inl nofun
  · rw [entropyStep_closed ch ho] at h
    cases h
    exact .inl nofun

/-- Settles O55: an OK completion is one of a codable block. -/
theorem entropyBitBudget : Obligations.EntropyBitBudget := by
  intro s t ch hnext hok
  obtain hraised | ⟨hcodable, hres⟩ := exec_entropyOf_next hnext
  · exact absurd hok hraised
  · rw [hres, BitVec.toNat_ofNat]
    exact (Nat.mod_le _ _).trans (itemBits_blockItems_le hcodable)

end Sys2Proof.Machine
end

section
/-! PROOFS. What every step keeps of the session and the slots (44_bitstream.md R251, R259, R260, 47_pool.md R346,
R348, 10_state.md R53): the ownership invariant, a held slot under an open session, sizes within CAP with every byte
below them written, and, for an ENCODE between its sub-steps, the slot it begins on and its open session. -/

namespace Sys2Proof.Machine

/-! ## The laws -/

/-- The slot of an open session is held by the producer (44_bitstream.md R259). -/
def OpenHeld (s : State) : Prop := s.sess.isOpen = true → producerHolds s s.sess.slot

/-- What an ENCODE in flight needs at its Begin and at its Headers (46_encoder.md R319). -/
structure SeqHeld (s : State) : Prop where
  begins : encoding s → s.seq = some .beginSession → producerHolds s (opEncodeSlot (s.args .p))
  headers : encoding s → s.seq = some .headers → s.sess.isOpen = true

/-- The size of slot `i` is at most CAP, and every byte below it is written (44_bitstream.md R260, 10_state.md R53). -/
structure SlotWritten (s : State) (i : Nat) : Prop where
  fits : (s.slot i).size ≤ s.cfg.cap
  written : ∀ o < (s.slot i).size, (s.pool.read (bufAddr s.cfg i + o)).isSome = true

/-- Every slot of the pool is written below its size. -/
def SlotContents (s : State) : Prop := ∀ i < s.cfg.n, SlotWritten s i

theorem SessionInv.seqHeld {s : State} (h : SessionInv s) : SeqHeld s := ⟨h.beginHeld, h.headersOpen⟩

theorem ContentInv.slotContents {s : State} (h : ContentInv s) : SlotContents s :=
  fun i hi => ⟨h.sizeFits i hi, h.written i hi⟩

/-- From `s`, a state with the ownership invariant, to `t` each law of the slots is kept. -/
structure KeepsSlotLaws (s t : State) : Prop where
  pool : PoolInv s → PoolInv t
  openHeld : PoolInv s → OpenHeld s → OpenHeld t
  contents : PoolInv s → SlotContents s → SlotContents t

theorem KeepsSlotLaws.refl (s : State) : KeepsSlotLaws s s := ⟨id, fun _ => id, fun _ => id⟩

theorem KeepsSlotLaws.trans {s t u : State} (h : KeepsSlotLaws s t) (h' : KeepsSlotLaws t u) : KeepsSlotLaws s u :=
  ⟨h'.pool ∘ h.pool, fun hp => h'.openHeld (h.pool hp) ∘ h.openHeld hp,
    fun hp => h'.contents (h.pool hp) ∘ h.contents hp⟩

/-! ## Updates that no law of the slots speaks of -/

/-- What the laws of the slots speak of is the same. -/
structure SameSlots (s t : State) : Prop where
  cfg : t.cfg = s.cfg
  slots : t.slots = s.slots
  freeQ : t.freeQ = s.freeQ
  filledQ : t.filledQ = s.filledQ
  pool : t.pool = s.pool
  isOpen : t.sess.isOpen = s.sess.isOpen
  slot : t.sess.slot = s.sess.slot

theorem SameSlots.refl (s : State) : SameSlots s s := ⟨rfl, rfl, rfl, rfl, rfl, rfl, rfl⟩

theorem SameSlots.producerHolds {s t : State} (h : SameSlots s t) {i : Nat} (hi : producerHolds s i) :
    producerHolds t i := by
  obtain ⟨hn, hl⟩ := hi
  exact ⟨by rwa [h.cfg], by rwa [State.slot_congr h.slots]⟩

theorem ownedOnce_congr {s t : State} {i : Nat} (hs : t.slot i = s.slot i)
    (hf : t.freeQ.count i = s.freeQ.count i) (hq : t.filledQ.count i = s.filledQ.count i) (h : ownedOnce s i) :
    ownedOnce t i := by
  unfold ownedOnce at *
  rwa [hs, hf, hq]

theorem SameSlots.keeps {s t : State} (h : SameSlots s t) : KeepsSlotLaws s t where
  pool hp :=
    { legal := by rw [h.cfg]; exact hp.legal
      count := by rw [h.slots, h.cfg]; exact hp.count
      owned := fun i hi => ownedOnce_congr (State.slot_congr h.slots i) (by rw [h.freeQ]) (by rw [h.filledQ])
        (hp.owned i (by rwa [← h.cfg]))
      inRange := fun i hi => by rw [h.cfg]; exact hp.inRange i (by rwa [← h.freeQ, ← h.filledQ]) }
  openHeld _ ho hopen := by
    rw [h.slot]
    exact h.producerHolds (ho (by rwa [← h.isOpen]))
  contents _ hc i hi := by
    obtain ⟨hfits, hwritten⟩ := hc i (by rwa [← h.cfg])
    constructor
    · rwa [State.slot_congr h.slots, h.cfg]
    · rwa [State.slot_congr h.slots, h.cfg, h.pool]

theorem sameSlots_complete (q : Port) (c : StatusCode) (a b d : Word) (s : State) :
    SameSlots s (complete q c a b d s) := by
  cases q <;> exact ⟨rfl, rfl, rfl, rfl, rfl, rfl, rfl⟩

theorem sameSlots_failWith (q : Port) (b : ErrBit) (c : StatusCode) (s : State) : SameSlots s (failWith q b c s) := by
  cases q <;> exact ⟨rfl, rfl, rfl, rfl, rfl, rfl, rfl⟩

theorem keepsSlotLaws_complete (q : Port) (c : StatusCode) (a b d : Word) (s : State) :
    KeepsSlotLaws s (complete q c a b d s) := (sameSlots_complete q c a b d s).keeps

theorem keepsSlotLaws_failWith (q : Port) (b : ErrBit) (c : StatusCode) (s : State) :
    KeepsSlotLaws s (failWith q b c s) := (sameSlots_failWith q b c s).keeps

theorem keepsSlotLaws_faultErr (b : ErrBit) (s : State) : KeepsSlotLaws s (faultErr b s) :=
  SameSlots.keeps ⟨rfl, rfl, rfl, rfl, rfl, rfl, rfl⟩

theorem keepsSlotLaws_setBlk (s : State) (b : Block) : KeepsSlotLaws s (s.setBlk b) :=
  SameSlots.keeps ⟨rfl, rfl, rfl, rfl, rfl, rfl, rfl⟩

theorem keepsSlotLaws_loadBlock (s : State) (n : Nat) (b : Block) : KeepsSlotLaws s (loadBlock s n b) :=
  SameSlots.keeps ⟨rfl, rfl, rfl, rfl, rfl, rfl, rfl⟩

theorem keepsSlotLaws_setAcc (s : State) (l : List Bool) : KeepsSlotLaws s (s.setAcc l) :=
  SameSlots.keeps ⟨rfl, rfl, rfl, rfl, rfl, rfl, rfl⟩

theorem keepsSlotLaws_setPreds (s : State) (x : Preds) : KeepsSlotLaws s (s.setPreds x) :=
  SameSlots.keeps ⟨rfl, rfl, rfl, rfl, rfl, rfl, rfl⟩

theorem keepsSlotLaws_setSeq (s : State) (x : Option Seq) : KeepsSlotLaws s (s.setSeq x) :=
  SameSlots.keeps ⟨rfl, rfl, rfl, rfl, rfl, rfl, rfl⟩

/-! ## Sizes, the sink and the session -/

theorem State.slot_modSlot_cases (s : State) (i j : Nat) (f : Slot → Slot) :
    (s.modSlot i f).slot j = s.slot j ∨ j = i ∧ (s.modSlot i f).slot j = f (s.slot j) := by
  by_cases hj : j = i
  · subst hj
    by_cases hlen : j < s.slots.length
    · exact .inr ⟨rfl, State.slot_modSlot_self s j f hlen⟩
    · left
      simp [State.slot, State.modSlot, List.getElem?_eq_none (Nat.le_of_not_lt hlen)]
  · exact .inl (State.slot_modSlot_other s f hj)

/-- A slot gets a new size, at most CAP, below which every byte is written. -/
theorem keepsSlotLaws_resize {s : State} {i : Nat} {g : Nat → Nat}
    (hg : SlotWritten s i → g (s.slot i).size ≤ s.cfg.cap ∧
      ∀ o < g (s.slot i).size, (s.pool.read (bufAddr s.cfg i + o)).isSome = true) :
    KeepsSlotLaws s (s.modSlot i fun x => x.setSize (g x.size)) := by
  have frame := codecFrame_modSlot s i (fun x => x.setSize (g x.size)) (fun _ => rfl) fun _ => rfl
  refine ⟨fun hp => hp.of_frame frame, fun _ ho hopen => ?_, fun _ hc j hj => ?_⟩
  · obtain ⟨hn, hl⟩ := ho hopen
    exact ⟨hn, (frame.loc _).trans hl⟩
  · have hw := hc j hj
    obtain hs | ⟨rfl, hs⟩ := s.slot_modSlot_cases i j fun x => x.setSize (g x.size)
    · exact ⟨by rw [hs]; exact hw.fits, by rw [hs]; exact hw.written⟩
    · obtain ⟨hfits, hwritten⟩ := hg hw
      exact ⟨by rw [hs]; exact hfits, by rw [hs]; exact hwritten⟩

theorem keepsSlotLaws_emptySlot (s : State) (i : Nat) : KeepsSlotLaws s (s.modSlot i fun x => x.setSize 0) :=
  keepsSlotLaws_resize (g := fun _ => 0) fun _ => ⟨Nat.zero_le _, fun o ho => absurd ho (Nat.not_lt_zero o)⟩

/-- A write into POOL keeps the laws: it removes no byte. -/
theorem keepsSlotLaws_writePool (s : State) (a : Nat) (v : Byte) : KeepsSlotLaws s (s.setPool (s.pool.write a v)) where
  pool hp := hp.of_frame (codecFrame_setPool s _)
  openHeld _ := id
  contents _ hc i hi :=
    ⟨(hc i hi).fits, fun o ho => Memory.isSome_write _ _ _ _ ((hc i hi).written o ho)⟩

/-- A byte stored at the sink's address is the one that the raised size takes in (44_bitstream.md R251). -/
theorem keepsSlotLaws_store {s : State} (hcap : s.sessSize < s.cfg.cap) (v : Byte) :
    KeepsSlotLaws s
      ((s.setPool (s.pool.write (sinkAddr s) v)).modSlot s.sess.slot fun x => x.setSize (x.size + 1)) := by
  refine (keepsSlotLaws_writePool s (sinkAddr s) v).trans (keepsSlotLaws_resize (g := (· + 1)) fun hw => ?_)
  refine ⟨hcap, fun o ho => ?_⟩
  obtain hlt | heq := Nat.lt_succ_iff_lt_or_eq.mp ho
  · exact hw.written o hlt
  · subst heq
    exact (congrArg Option.isSome (Memory.read_write_same s.pool (sinkAddr s) v)).trans rfl

/-- A closed session holds no slot. -/
theorem keepsSlotLaws_close (s : State) : KeepsSlotLaws s (closeSession s) where
  pool hp := hp.of_frame (codecFrame_setSess s _)
  openHeld _ _ hopen := by cases hopen
  contents _ hc i hi := ⟨(hc i hi).fits, (hc i hi).written⟩

theorem keepsSlotLaws_abort (s : State) : KeepsSlotLaws s (abortSession s) :=
  (keepsSlotLaws_emptySlot s s.sess.slot).trans (keepsSlotLaws_close _)

/-- A session opens on a slot that the producer holds (44_bitstream.md R256). -/
theorem keepsSlotLaws_open {s : State} {k : Nat} (hk : producerHolds s k) :
    KeepsSlotLaws s (s.setSess ⟨true, k, []⟩) where
  pool hp := hp.of_frame (codecFrame_setSess s _)
  openHeld _ _ _ := hk
  contents _ hc i hi := ⟨(hc i hi).fits, (hc i hi).written⟩

theorem CodecFrame.producerHolds {s t : State} (h : CodecFrame s t) {i : Nat} (hi : producerHolds s i) :
    producerHolds t i := by
  obtain ⟨hn, hl⟩ := hi
  exact ⟨by rwa [h.cfg], by rwa [h.loc]⟩

theorem keepsSlotLaws_beginSession {s : State} {k : Nat} (hk : producerHolds s k) :
    KeepsSlotLaws s (beginSession k s) := by
  have closed : KeepsSlotLaws s (if s.sess.isOpen then abortSession s else s) ∧
      CodecFrame s (if s.sess.isOpen then abortSession s else s) := by
    split
    · exact ⟨keepsSlotLaws_abort s, codecFrame_abortSession s⟩
    · exact ⟨.refl s, .refl s⟩
  have emptied := codecFrame_modSlot (if s.sess.isOpen then abortSession s else s) k (fun x => x.setSize 0)
    (fun _ => rfl) fun _ => rfl
  exact ((closed.1.trans (keepsSlotLaws_emptySlot _ k)).trans
    (keepsSlotLaws_open ((closed.2.trans emptied).producerHolds hk))).trans (keepsSlotLaws_setPreds _ _)

/-! ## Sub-steps -/

/-- However the sub-step ends, the laws of the slots are kept. -/
abbrev Eff.KeepsSlots (e : Eff) (s : State) : Prop := e.Ends (KeepsSlotLaws s) (KeepsSlotLaws s)

theorem Eff.KeepsSlots.after {e : Eff} {s t : State} (h : KeepsSlotLaws s t) (he : e.KeepsSlots t) : e.KeepsSlots s :=
  he.mono (fun _ => h.trans) fun _ => h.trans

theorem Eff.KeepsSlots.bind {e : Eff} {m : State → Eff} {s : State} (h : e.KeepsSlots s)
    (hm : ∀ t, (m t).KeepsSlots t) : (e.bind m).KeepsSlots s := Eff.Ends.bind h fun t ht => (hm t).after ht

theorem keepsSlots_sinkByte (v : Byte) (s : State) : (sinkByte v s).KeepsSlots s := by
  unfold sinkByte
  split
  · trivial
  split
  · exact keepsSlotLaws_abort s
  · rename_i hcap
    exact keepsSlotLaws_store (Nat.lt_of_not_le hcap) v

theorem keepsSlots_sinkBytes (l : List Byte) (s : State) : (sinkBytes l s).KeepsSlots s := by
  induction l generalizing s with
  | nil => exact .refl s
  | cons v l ih => exact (keepsSlots_sinkByte v s).bind ih

theorem keepsSlots_dataByte (b : Byte) (s : State) : (dataByte b s).KeepsSlots s := by
  refine (keepsSlots_sinkByte b s).bind fun t => ?_
  split
  · exact keepsSlots_sinkByte 0 t
  · exact .refl t

theorem keepsSlots_drain (n : Nat) (s : State) : (drain n s).KeepsSlots s := by
  induction n generalizing s with
  | zero => exact .refl s
  | succ n ih => exact Eff.KeepsSlots.after (keepsSlotLaws_setAcc s _) ((keepsSlots_dataByte _ _).bind ih)

theorem keepsSlots_emitBits (v n : Nat) (s : State) : (emitBits v n s).KeepsSlots s :=
  Eff.KeepsSlots.after (keepsSlotLaws_setAcc s _) (keepsSlots_drain _ _)

theorem keepsSlots_emitItems (l : List BitItem) (s : State) : (emitItems l s).KeepsSlots s := by
  induction l generalizing s with
  | nil => exact .refl s
  | cons x l ih => exact (keepsSlots_emitBits _ _ s).bind ih

theorem keepsSlots_needSession {e : Eff} {s : State} (h : e.KeepsSlots s) : (needSession s e).KeepsSlots s := by
  unfold needSession
  split
  · exact h
  · exact keepsSlotLaws_faultErr _ s

theorem keepsSlots_flushStep (s : State) : (flushStep s).KeepsSlots s := by
  refine keepsSlots_needSession ?_
  unfold flushBits
  split
  · exact .refl s
  · exact keepsSlots_emitBits _ _ s

theorem keepsSlots_eoiStep (s : State) : (eoiStep s).KeepsSlots s :=
  keepsSlots_needSession ((keepsSlots_sinkBytes _ s).bind keepsSlotLaws_close)

theorem keepsSlots_entropyStep (ch : Channel) (s : State) : (entropyStep ch s).KeepsSlots s := by
  refine keepsSlots_needSession ?_
  split
  · exact Eff.KeepsSlots.after (keepsSlotLaws_setPreds s _) (keepsSlots_emitItems _ _)
  · exact .refl s

theorem RegionExtract.keepsSlots {s : State} {a : Args} {r c size n : Nat} {readable : Prop} {b : Block} {e : Eff}
    (h : RegionExtract s a r c size n readable b e) : e.KeepsSlots s := by
  obtain rfl | ⟨code, -, rfl⟩ | rfl := h.ok_or_raised_or_stuck
  · exact keepsSlotLaws_loadBlock s n b
  · exact .refl s
  · trivial

theorem keepsSlots_seqEffect {pos : Seq} {s : State}
    (hb : pos = .beginSession → producerHolds s (opEncodeSlot (s.args .p))) : (seqEffect pos s).KeepsSlots s := by
  cases pos with
  | validate | done => exact .refl s
  | beginSession => exact keepsSlotLaws_beginSession (hb rfl)
  | headers => exact keepsSlots_sinkBytes _ s
  | flush => exact keepsSlots_flushStep s
  | eoi => exact keepsSlots_eoiStep s
  | block mr mc b u =>
    cases u with
    | extract =>
      cases b with
      | y0 | y1 | y2 | y3 => exact (extractLuma_regionExtract s _ _ _).keepsSlots
      | cb | cr => exact (extractChroma_regionExtract s _ _ _ _).keepsSlots
    | fdct => exact keepsSlotLaws_setBlk s _
    | quant => cases b <;> exact keepsSlotLaws_setBlk s _
    | entropy => exact keepsSlots_entropyStep _ s

/-! ## ENCODE -/

theorem idle_not_encoding {s : State} (h : s.portP.status.busy = false) : ¬encoding s := fun he => by
  rw [encoding, h] at he
  exact Bool.false_ne_true he.1

/-- With no ENCODE in flight nothing is asked. -/
theorem SeqHeld.of_idle {s : State} (h : s.portP.status.busy = false) : SeqHeld s :=
  ⟨fun he => absurd he (idle_not_encoding h), fun he => absurd he (idle_not_encoding h)⟩

/-- What passes Validate names a slot that the producer holds (46_encoder.md R311). -/
theorem producerHolds_of_encodeRefusal {s : State} (h : encodeRefusal s = none) :
    producerHolds s (opEncodeSlot (s.args .p)) := by
  unfold encodeRefusal at h
  unfold producerHolds
  grind

theorem keepsSlotLaws_encodeValidate (s : State) : KeepsSlotLaws s (encodeValidate s) := by
  unfold encodeValidate
  split
  · rename_i t ht
    refine KeepsSlotLaws.trans ?_ (keepsSlotLaws_setSeq t _)
    obtain rfl | rfl := encodeRefusal_cases ht
    · exact keepsSlotLaws_complete ..
    · exact keepsSlotLaws_failWith ..
  · exact keepsSlotLaws_setSeq s _

theorem seqHeld_encodeValidate (s : State) : SeqHeld (encodeValidate s) := by
  unfold encodeValidate
  split
  · exact ⟨fun _ h => (by cases h), fun _ h => (by cases h)⟩
  · rename_i hnone
    have held := producerHolds_of_encodeRefusal (s := s) hnone
    exact ⟨fun _ _ => held, fun _ h => (by cases h)⟩

theorem keepsSlotLaws_encodeAdvance {pos : Seq} {e : Eff} {s t : State} (he : e.KeepsSlots s)
    (h : encodeAdvance pos e = .next t) : KeepsSlotLaws s t := by
  cases e with
  | ok u =>
    refine KeepsSlotLaws.trans he ?_
    simp only [encodeAdvance] at h
    split at h <;> cases h
    · exact (keepsSlotLaws_setSeq u _).trans (keepsSlotLaws_complete ..)
    · exact keepsSlotLaws_setSeq u _
  | raised c u =>
    cases h
    exact KeepsSlotLaws.trans he ((keepsSlotLaws_setSeq u _).trans (keepsSlotLaws_complete ..))
  | stuck f => cases h

theorem nextMcu_ne (rows cols mr mc : Nat) :
    nextMcu rows cols mr mc ≠ .beginSession ∧ nextMcu rows cols mr mc ≠ .headers := by
  unfold nextMcu
  grind

/-- No position but Validate is followed by Begin, and none but Begin by Headers (46_encoder.md R319). -/
theorem nextSeq_ne (rows cols : Nat) {pos : Seq} (hv : pos ≠ .validate) :
    nextSeq rows cols pos ≠ .beginSession ∧ (pos ≠ .beginSession → nextSeq rows cols pos ≠ .headers) := by
  cases pos with
  | validate => exact absurd rfl hv
  | beginSession => exact ⟨nofun, fun h => absurd rfl h⟩
  | headers => unfold nextSeq firstMcu; grind
  | flush | eoi | done => simp [nextSeq]
  | block mr mc b u =>
    cases u with
    | extract | fdct | quant => simp [nextSeq]
    | entropy =>
      obtain ⟨hb, hh⟩ := nextMcu_ne rows cols mr mc
      cases b with
      | cr => exact ⟨hb, fun _ => hh⟩
      | _ => simp [nextSeq, nextBlock]

/-- After a sub-step past Validate the sequencer is not at Begin, and at Headers only with the session that Begin
opened. -/
theorem seqHeld_encodeAdvance {pos : Seq} {s t : State} (hv : pos ≠ .validate)
    (h : encodeAdvance pos (seqEffect pos s) = .next t) : SeqHeld t := by
  cases he : seqEffect pos s with
  | ok u =>
    obtain ⟨hbegin, hheaders⟩ :=
      nextSeq_ne (opHeight (u.args .p) / 16) (opWidth (u.args .p) / 16) hv
    rw [he] at h
    simp only [encodeAdvance] at h
    split at h <;> cases h
    · exact SeqHeld.of_idle rfl
    · refine ⟨fun _ hseq => absurd (Option.some.inj hseq) hbegin, fun _ hseq => ?_⟩
      by_cases hpos : pos = .beginSession
      · subst hpos
        cases he
        rfl
      · exact absurd (Option.some.inj hseq) (hheaders hpos)
  | raised c u =>
    rw [he] at h
    cases h
    exact SeqHeld.of_idle rfl
  | stuck f =>
    rw [he] at h
    cases h

theorem execEncode_keeps {s t : State} (hs : SeqHeld s) (he : encoding s) (h : execEncode s = .next t) :
    KeepsSlotLaws s t ∧ SeqHeld t := by
  unfold execEncode at h
  split at h
  case h_4 pos _ hv _ hseq =>
    refine ⟨keepsSlotLaws_encodeAdvance (keepsSlots_seqEffect ?_) h, seqHeld_encodeAdvance ?_ h⟩
    · rintro rfl
      exact hs.begins he hseq
    · rintro rfl
      exact hv rfl
  all_goals cases h; exact ⟨keepsSlotLaws_encodeValidate s, seqHeld_encodeValidate s⟩

/-! ## The other commands of port P -/

theorem keepsSlotLaws_finish {e : Eff} {d : State → State} {s t : State} (he : e.KeepsSlots s)
    (hd : ∀ u, KeepsSlotLaws u (d u)) (h : finish e d = .next t) : KeepsSlotLaws s t := by
  cases e with
  | ok u => cases h; exact KeepsSlotLaws.trans he (hd u)
  | raised c u => cases h; exact KeepsSlotLaws.trans he (keepsSlotLaws_complete ..)
  | stuck f => cases h

/-- A command that is no ENCODE and moves no slot keeps the laws of the slots. -/
theorem keepsSlotLaws_codec {i : Instr} {s t : State} (hm : movesSlots i = false) (he : i ≠ .encode)
    (h : exec i s = .next t) : KeepsSlotLaws s t := by
  have done (c : StatusCode) (a b d : Word) (u : State) := keepsSlotLaws_complete .p c a b d u
  cases i with
  | acqfill | publish | acqread | release => cases hm
  | encode => exact absurd rfl he
  | sessionBegin =>
    simp only [exec, execSessionBegin] at h
    split at h
    · cases h; exact done _ _ _ _ s
    rename_i hn
    split at h
    · cases h; exact keepsSlotLaws_failWith ..
    · rename_i hl
      cases h
      exact (keepsSlotLaws_beginSession ⟨Nat.lt_of_not_le hn, not_not.mp hl⟩).trans (done _ _ _ _ _)
  | emitHeaders =>
    refine keepsSlotLaws_finish (keepsSlots_needSession ?_) (fun u => done _ _ _ _ u) h
    split
    · exact .refl s
    · exact keepsSlots_sinkBytes _ s
  | extractY => exact keepsSlotLaws_finish (extractLuma_regionExtract s _ _ _).keepsSlots (done _ _ _ _) h
  | extractCb | extractCr =>
    exact keepsSlotLaws_finish (extractChroma_regionExtract s _ _ _ _).keepsSlots (done _ _ _ _) h
  | fdct | quantY | quantC => cases h; exact (keepsSlotLaws_setBlk s _).trans (done _ _ _ _ _)
  | entropyY | entropyCb | entropyCr =>
    exact keepsSlotLaws_finish (keepsSlots_entropyStep _ s) (fun u => done _ _ _ _ u) h
  | writeBits =>
    refine keepsSlotLaws_finish (keepsSlots_needSession ?_) (fun u => done _ _ _ _ u) h
    split
    · exact .refl s
    · exact keepsSlots_emitBits _ _ s
  | flushBits => exact keepsSlotLaws_finish (keepsSlots_flushStep s) (fun u => done _ _ _ _ u) h
  | emitEoi => exact keepsSlotLaws_finish (keepsSlots_eoiStep s) (fun u => done _ _ _ _ u) h
  | blkRead =>
    simp only [exec, execBlkRead] at h
    split at h <;> cases h <;> exact done _ _ _ _ s
  | blkWrite =>
    simp only [exec, execBlkWrite] at h
    split at h <;> cases h
    · exact done _ _ _ _ s
    · exact (keepsSlotLaws_setBlk s _).trans (done _ _ _ _ _)

/-! ## Moving a slot -/

/-- The invariant's account of a queued free index. -/
theorem PoolInv.counts_free {s : State} (h : PoolInv s) {i : Nat} (hi : i ∈ s.freeQ) :
    s.freeQ.count i = 1 ∧ s.filledQ.count i = 0 ∧ (s.slot i).state = .free := by
  have ho := h.owned i (h.inRange i (.inl hi))
  rwa [ownedOnce, (h.free hi).1] at ho

theorem PoolInv.counts_filled {s : State} (h : PoolInv s) {i : Nat} (hi : i ∈ s.filledQ) :
    s.freeQ.count i = 0 ∧ s.filledQ.count i = 1 ∧ (s.slot i).state = .filled := by
  have ho := h.owned i (h.inRange i (.inr hi))
  rwa [ownedOnce, (h.filled hi).1] at ho

theorem PoolInv.counts_producerHeld {s : State} (h : PoolInv s) {i : Nat} (hi : producerHolds s i) :
    s.freeQ.count i = 0 ∧ s.filledQ.count i = 0 ∧ ((s.slot i).state = .free ∨ (s.slot i).state = .filled) := by
  have ho := h.owned i hi.1
  rwa [ownedOnce, hi.2] at ho

theorem PoolInv.counts_consumerHeld {s : State} (h : PoolInv s) {i : Nat} (hi : i < s.cfg.n)
    (hl : (s.slot i).loc = .consumerHeld) :
    s.freeQ.count i = 0 ∧ s.filledQ.count i = 0 ∧ (s.slot i).state = .checkedOut := by
  have ho := h.owned i hi
  rwa [ownedOnce, hl] at ho

/-- Slot `i` gets a new state and location, and the queues change. -/
def moveSlot (s : State) (i : Nat) (f : Slot → Slot) (fq flq : List Nat) : State :=
  ((s.setFreeQ fq).setFilledQ flq).modSlot i f

/-- A change of slot `i`'s place that the ownership invariant allows (47_pool.md R346): its size stays, its place
agrees with its record, and the other indices stay where they are. -/
structure SlotMove (s : State) (i : Nat) (f : Slot → Slot) (fq flq : List Nat) : Prop where
  inRange : i < s.cfg.n
  size : ∀ x, (f x).size = x.size
  freeQ : ∀ j, j ≠ i → fq.count j = s.freeQ.count j
  filledQ : ∀ j, j ≠ i → flq.count j = s.filledQ.count j
  owned : ∀ u : State, u.slot i = f (s.slot i) → u.freeQ = fq → u.filledQ = flq → ownedOnce u i

section

variable {s : State} {i : Nat} {f : Slot → Slot} {fq flq : List Nat}

theorem moveSlot_slot_other {j : Nat} (h : j ≠ i) : (moveSlot s i f fq flq).slot j = s.slot j :=
  State.slot_modSlot_other _ f h

/-- A producer-held slot other than the moved one stays held. -/
theorem producerHolds_moveSlot {j : Nat} (hj : producerHolds s j) (hne : j ≠ i) :
    producerHolds (moveSlot s i f fq flq) j :=
  ⟨hj.1, by rw [moveSlot_slot_other hne]; exact hj.2⟩

theorem SlotMove.poolInv (hp : PoolInv s) (h : SlotMove s i f fq flq) : PoolInv (moveSlot s i f fq flq) where
  legal := hp.legal
  count := (List.length_modify ..).trans hp.count
  owned j hj := by
    by_cases hji : j = i
    · subst hji
      exact h.owned _ (State.slot_modSlot_self _ j f (hp.count ▸ hj)) rfl rfl
    · exact ownedOnce_congr (moveSlot_slot_other hji) (h.freeQ j hji) (h.filledQ j hji) (hp.owned j hj)
  inRange j hj := by
    by_cases hji : j = i
    · subst hji; exact h.inRange
    · refine hp.inRange j ?_
      rw [← List.count_pos_iff, ← List.count_pos_iff, ← h.freeQ j hji, ← h.filledQ j hji]
      exact hj.imp List.count_pos_iff.mpr List.count_pos_iff.mpr

theorem SlotMove.contents (h : SlotMove s i f fq flq) (hc : SlotContents s) :
    SlotContents (moveSlot s i f fq flq) := by
  intro j hj
  have hsize : ((moveSlot s i f fq flq).slot j).size = (s.slot j).size := by
    obtain hs | ⟨-, hs⟩ := ((s.setFreeQ fq).setFilledQ flq).slot_modSlot_cases i j f
    · exact congrArg Slot.size hs
    · exact (congrArg Slot.size hs).trans (h.size _)
  exact ⟨by rw [hsize]; exact (hc j hj).fits, by rw [hsize]; exact (hc j hj).written⟩

/-- A move of a slot that is not the one of an open session keeps the laws of the slots. -/
theorem keepsSlotLaws_moveSlot (hm : PoolInv s → SlotMove s i f fq flq)
    (hs : PoolInv s → s.sess.isOpen = true → producerHolds s s.sess.slot → s.sess.slot ≠ i) :
    KeepsSlotLaws s (moveSlot s i f fq flq) where
  pool hp := (hm hp).poolInv hp
  openHeld hp ho hopen := producerHolds_moveSlot (ho hopen) (hs hp hopen (ho hopen))
  contents hp := (hm hp).contents

end

/-! ## The moves of the four commands -/

section

variable {s : State} {i : Nat} {q : List Nat}

/-- ACQFILL takes the oldest free slot (47_pool.md R341). -/
theorem slotMove_fill (hp : PoolInv s) (hq : s.freeQ = i :: q) :
    SlotMove s i (fun x => x.setLoc .producerHeld) q s.filledQ := by
  have hi : i ∈ s.freeQ := by rw [hq]; exact List.mem_cons_self
  obtain ⟨hfree, hfilled, hstate⟩ := hp.counts_free hi
  rw [hq, List.count_cons_self] at hfree
  refine ⟨hp.inRange i (.inl hi), fun _ => rfl, fun j hj => ?_, fun _ _ => rfl, fun u hs hf hl => ?_⟩
  · rw [hq, List.count_cons_of_ne (Ne.symm hj)]
  · rw [ownedOnce, hs, hf, hl]
    exact And.intro (Nat.succ.inj hfree) (And.intro hfilled (.inl hstate))

/-- With none free it takes the oldest filled slot (47_pool.md R341). -/
theorem slotMove_steal (hp : PoolInv s) (hq : s.filledQ = i :: q) :
    SlotMove s i (fun x => x.setLoc .producerHeld) s.freeQ q := by
  have hi : i ∈ s.filledQ := by rw [hq]; exact List.mem_cons_self
  obtain ⟨hfree, hfilled, hstate⟩ := hp.counts_filled hi
  rw [hq, List.count_cons_self] at hfilled
  refine ⟨hp.inRange i (.inr hi), fun _ => rfl, fun _ _ => rfl, fun j hj => ?_, fun u hs hf hl => ?_⟩
  · rw [hq, List.count_cons_of_ne (Ne.symm hj)]
  · rw [ownedOnce, hs, hf, hl]
    exact And.intro hfree (And.intro (Nat.succ.inj hfilled) (.inr hstate))

/-- PUBLISH queues a held slot (47_pool.md R342). -/
theorem slotMove_publish (hp : PoolInv s) (hi : producerHolds s i) :
    SlotMove s i (fun x => x.move .filled .inFilledQueue) s.freeQ (s.filledQ ++ [i]) := by
  obtain ⟨hfree, hfilled, -⟩ := hp.counts_producerHeld hi
  refine ⟨hi.1, fun _ => rfl, fun _ _ => rfl, fun j hj => by simp [Ne.symm hj], fun u hs hf hl => ?_⟩
  rw [ownedOnce, hs, hf, hl, List.count_append, List.count_singleton_self, hfilled]
  exact And.intro hfree (And.intro rfl rfl)

/-- ACQREAD checks out the oldest filled slot (47_pool.md R343). -/
theorem slotMove_checkOut (hp : PoolInv s) (hq : s.filledQ = i :: q) :
    SlotMove s i (fun x => x.move .checkedOut .consumerHeld) s.freeQ q := by
  have hi : i ∈ s.filledQ := by rw [hq]; exact List.mem_cons_self
  obtain ⟨hfree, hfilled, -⟩ := hp.counts_filled hi
  rw [hq, List.count_cons_self] at hfilled
  refine ⟨hp.inRange i (.inr hi), fun _ => rfl, fun _ _ => rfl, fun j hj => ?_, fun u hs hf hl => ?_⟩
  · rw [hq, List.count_cons_of_ne (Ne.symm hj)]
  · rw [ownedOnce, hs, hf, hl]
    exact And.intro hfree (And.intro (Nat.succ.inj hfilled) rfl)

/-- RELEASE frees a checked-out slot (47_pool.md R345). -/
theorem slotMove_release (hp : PoolInv s) (hi : i < s.cfg.n) (hl : (s.slot i).loc = .consumerHeld) :
    SlotMove s i (fun x => x.move .free .inFreeQueue) (s.freeQ ++ [i]) s.filledQ := by
  obtain ⟨hfree, hfilled, -⟩ := hp.counts_consumerHeld hi hl
  refine ⟨hi, fun _ => rfl, fun j hj => by simp [Ne.symm hj], fun _ _ => rfl, fun u hs hf hl => ?_⟩
  rw [ownedOnce, hs, hf, hl, List.count_append, List.count_singleton_self, hfree]
  exact And.intro rfl (And.intro hfilled rfl)

/-- A slot that the producer does not hold is not the one of an open session. -/
theorem sessSlot_ne {l : SlotLoc} (hi : (s.slot i).loc = l) (hl : l ≠ .producerHeld)
    (hs : producerHolds s s.sess.slot) : s.sess.slot ≠ i := by
  rintro rfl
  exact hl (hi.symm.trans hs.2)

end

theorem keepsSlotLaws_acqfill {s t : State} (h : exec .acqfill s = .next t) : KeepsSlotLaws s t := by
  simp only [exec, execAcqfill] at h
  split at h <;> cases h
  case h_1 i q hq =>
    refine (keepsSlotLaws_moveSlot (fun hp => slotMove_fill hp hq) fun hp _ => ?_).trans (keepsSlotLaws_complete ..)
    exact sessSlot_ne (hp.free (by rw [hq]; exact List.mem_cons_self)).1 (by decide)
  case h_2 i q _ hq =>
    refine (keepsSlotLaws_moveSlot (fun hp => slotMove_steal hp hq) fun hp _ => ?_).trans (keepsSlotLaws_complete ..)
    exact sessSlot_ne (hp.filled (by rw [hq]; exact List.mem_cons_self)).1 (by decide)
  case h_3 => exact keepsSlotLaws_complete ..

/-- PUBLISH moves a held slot, but never the one of an open session (47_pool.md R342). -/
theorem keepsSlotLaws_publish {s t : State} (h : exec .publish s = .next t) : KeepsSlotLaws s t := by
  simp only [exec, execPublish] at h
  split at h
  · cases h; exact keepsSlotLaws_complete ..
  rename_i hn
  split at h
  · cases h; exact keepsSlotLaws_failWith ..
  rename_i hl
  split at h <;> cases h
  · exact keepsSlotLaws_failWith ..
  · rename_i hsess
    have held : producerHolds s (opIndex (s.args .p)) := ⟨Nat.lt_of_not_le hn, not_not.mp hl⟩
    refine (keepsSlotLaws_moveSlot (fun hp => slotMove_publish hp held) fun _ hopen _ => ?_).trans
      (keepsSlotLaws_complete ..)
    exact fun hslot => hsess ⟨hopen, hslot⟩

/-! ## Steps of port P -/

/-- From `s` to `t` both invariants are kept. -/
structure KeepsLaws (s t : State) : Prop where
  session : SessionInv s → SessionInv t
  content : ContentInv s → ContentInv t

theorem KeepsLaws.refl (s : State) : KeepsLaws s s := ⟨id, id⟩

theorem KeepsLaws.trans {s t u : State} (h : KeepsLaws s t) (h' : KeepsLaws t u) : KeepsLaws s u :=
  ⟨h'.session ∘ h.session, h'.content ∘ h.content⟩

theorem KeepsLaws.of_slotLaws {s t : State} (h : SessionInv s → KeepsSlotLaws s t ∧ SeqHeld t) : KeepsLaws s t := by
  have session (hs : SessionInv s) : SessionInv t := by
    obtain ⟨keeps, begins, headers⟩ := h hs
    exact { keeps.pool hs.toPoolInv with
      openHeld := keeps.openHeld hs.toPoolInv hs.openHeld, beginHeld := begins, headersOpen := headers }
  refine ⟨session, fun hc => ?_⟩
  have contents := (h hc.toSessionInv).1.contents hc.toPoolInv hc.slotContents
  exact { session hc.toSessionInv with
    sizeFits := fun i hi => (contents i hi).fits, written := fun i hi => (contents i hi).written }

theorem finish_idle {e : Eff} {d : State → State} {t : State} (hd : ∀ u, (d u).portP.status.busy = false)
    (h : finish e d = .next t) : t.portP.status.busy = false := by
  cases e with
  | ok u => cases h; exact hd u
  | raised c u => cases h; rfl
  | stuck f => cases h

/-- Every command of port P but ENCODE completes in its step. -/
theorem exec_idle {i : Instr} {s t : State} (hp : i.port = .p) (he : i ≠ .encode) (h : exec i s = .next t) :
    t.portP.status.busy = false := by
  cases i with
  | acqread | release => cases hp
  | encode => exact absurd rfl he
  | acqfill =>
    simp only [exec, execAcqfill] at h
    split at h <;> cases h <;> rfl
  | publish =>
    simp only [exec, execPublish] at h
    split at h
    · cases h; rfl
    split at h
    · cases h; rfl
    · split at h <;> cases h <;> rfl
  | sessionBegin =>
    simp only [exec, execSessionBegin] at h
    split at h
    · cases h; rfl
    · split at h <;> cases h <;> rfl
  | fdct | quantY | quantC => cases h; rfl
  | blkRead =>
    simp only [exec, execBlkRead] at h
    split at h <;> cases h <;> rfl
  | blkWrite =>
    simp only [exec, execBlkWrite] at h
    split at h <;> cases h <;> rfl
  | emitHeaders | extractY | extractCb | extractCr | entropyY | entropyCb | entropyCr | writeBits | flushBits
  | emitEoi => exact finish_idle (fun _ => rfl) h

theorem keepsLaws_exec_p {i : Instr} {s t : State} (hp : i.port = .p) (he : i = .encode → encoding s)
    (h : exec i s = .next t) : KeepsLaws s t := by
  by_cases hi : i = .encode
  · subst hi
    exact .of_slotLaws fun hs => execEncode_keeps hs.seqHeld (he rfl) h
  · have slots : KeepsSlotLaws s t := by
      cases i with
      | acqread | release => cases hp
      | acqfill => exact keepsSlotLaws_acqfill h
      | publish => exact keepsSlotLaws_publish h
      | _ => exact keepsSlotLaws_codec rfl hi h
    exact .of_slotLaws fun _ => ⟨slots, .of_idle (exec_idle hp hi h)⟩

/-! ## Steps that are not port P's -/

/-- An ENCODE in flight in `t` was in flight in `s`, at the same position with the same operands, or was just
issued. -/
def EncodeGoesOn (s t : State) : Prop :=
  encoding t → t.seq = some .validate ∨ encoding s ∧ t.seq = s.seq ∧ t.args .p = s.args .p

theorem EncodeGoesOn.of_same {s t : State} (hp : t.portP = s.portP) (hs : t.seq = s.seq) : EncodeGoesOn s t :=
  fun he => .inr ⟨by rwa [encoding, hp] at he, hs, congrArg PortRegs.latchArg hp⟩

theorem EncodeGoesOn.seqHeld {s t : State} (hg : EncodeGoesOn s t) (hopen : t.sess.isOpen = s.sess.isOpen)
    (hheld : ∀ i, producerHolds s i → producerHolds t i) (h : SeqHeld s) : SeqHeld t where
  begins he hseq := by
    obtain hv | ⟨hes, hseqs, hargs⟩ := hg he
    · cases hv.symm.trans hseq
    · rw [hargs]
      exact hheld _ (h.begins hes (hseqs.symm.trans hseq))
  headers he hseq := by
    obtain hv | ⟨hes, hseqs, -⟩ := hg he
    · cases hv.symm.trans hseq
    · rw [hopen]
      exact h.headers hes (hseqs.symm.trans hseq)

theorem SameSlots.keepsLaws {s t : State} (h : SameSlots s t) (hg : EncodeGoesOn s t) : KeepsLaws s t :=
  .of_slotLaws fun hs => ⟨h.keeps, hg.seqHeld h.isOpen (fun _ => h.producerHolds) hs.seqHeld⟩

/-- A move of a slot that the producer does not hold keeps the invariants. -/
theorem keepsLaws_moveSlot {s : State} {i : Nat} {f : Slot → Slot} {fq flq : List Nat} (hm : SlotMove s i f fq flq)
    (hl : (s.slot i).loc ≠ .producerHeld) : KeepsLaws s (moveSlot s i f fq flq) := by
  have ne {j : Nat} (hj : producerHolds s j) : j ≠ i := by
    rintro rfl
    exact hl hj.2
  have goesOn : EncodeGoesOn s (moveSlot s i f fq flq) := .of_same rfl rfl
  refine .of_slotLaws fun hs => ⟨keepsSlotLaws_moveSlot (fun _ => hm) fun _ _ => ne, ?_⟩
  exact goesOn.seqHeld rfl (fun _ hj => producerHolds_moveSlot hj (ne hj)) hs.seqHeld

theorem keepsLaws_complete_c (c : StatusCode) (a b d : Word) (s : State) : KeepsLaws s (complete .c c a b d s) :=
  (sameSlots_complete .c c a b d s).keepsLaws (.of_same rfl rfl)

theorem keepsLaws_failWith_c (b : ErrBit) (c : StatusCode) (s : State) : KeepsLaws s (failWith .c b c s) :=
  (sameSlots_failWith .c b c s).keepsLaws (.of_same rfl rfl)

theorem keepsLaws_setWait (s : State) (b : Bool) : KeepsLaws s (s.setWait b) :=
  SameSlots.keepsLaws ⟨rfl, rfl, rfl, rfl, rfl, rfl, rfl⟩ (.of_same rfl rfl)

theorem keepsLaws_draw (s : State) (n : Nat) : KeepsLaws s (s.draw n) :=
  SameSlots.keepsLaws ⟨rfl, rfl, rfl, rfl, rfl, rfl, rfl⟩ (.of_same rfl rfl)

theorem keepsLaws_setInputs (s : State) (l : List Input) : KeepsLaws s (s.setInputs l) :=
  SameSlots.keepsLaws ⟨rfl, rfl, rfl, rfl, rfl, rfl, rfl⟩ (.of_same rfl rfl)

theorem KeepsLaws.of_poolInv {s t : State} (h : PoolInv s → KeepsLaws s t) : KeepsLaws s t :=
  ⟨fun hs => (h hs.toPoolInv).session hs, fun hc => (h hc.toPoolInv).content hc⟩

theorem keepsLaws_takeFilled {s : State} {i : Nat} {q : List Nat} (hq : s.filledQ = i :: q) :
    KeepsLaws s (takeFilled i q s) := by
  refine .of_poolInv fun hp => ?_
  obtain ⟨hloc, hstate⟩ := hp.filled (i := i) (by rw [hq]; exact List.mem_cons_self)
  rw [takeFilled, if_neg (not_not.mpr hstate)]
  exact (keepsLaws_moveSlot (slotMove_checkOut hp hq) (by rw [hloc]; decide)).trans (keepsLaws_complete_c ..)

theorem keepsLaws_acqreadFirst (s : State) : KeepsLaws s (acqreadFirst s) := by
  unfold acqreadFirst
  split
  · rename_i hq; exact keepsLaws_takeFilled hq
  split
  · exact keepsLaws_complete_c ..
  · exact keepsLaws_setWait s true

theorem keepsLaws_acqreadWait (s : State) : KeepsLaws s (acqreadWait s) := by
  unfold acqreadWait
  split
  · rename_i hq
    exact (keepsLaws_setWait s false).trans (keepsLaws_takeFilled hq)
  split
  · exact .refl s
  split
  · exact ((keepsLaws_setWait s false).trans (keepsLaws_draw _ 1)).trans (keepsLaws_complete_c ..)
  · exact keepsLaws_draw s 1

theorem keepsLaws_release {s t : State} (h : exec .release s = .next t) : KeepsLaws s t := by
  refine .of_poolInv fun hp => ?_
  simp only [exec, execRelease] at h
  split at h
  · cases h; exact keepsLaws_failWith_c ..
  rename_i i hi
  split at h <;> cases h
  · exact keepsLaws_failWith_c ..
  · rename_i hstate
    have hn : i < s.cfg.n := (resolve_some hp.legal hi).1
    have hloc := hp.checkedOut hn (not_not.mp (not_or.mp hstate).1)
    exact (keepsLaws_moveSlot (slotMove_release hp hn hloc) (by rw [hloc]; decide)).trans (keepsLaws_complete_c ..)

theorem keepsLaws_exec_c {i : Instr} {s t : State} (hc : i.port = .c) (h : exec i s = .next t) : KeepsLaws s t := by
  cases i with
  | acqread =>
    simp only [exec, execAcqread] at h
    split at h <;> cases h
    · exact keepsLaws_acqreadWait s
    · exact keepsLaws_acqreadFirst s
  | release => exact keepsLaws_release h
  | _ => cases hc

theorem keepsLaws_runPort {q : Port} {s t : State} (hb : (s.port q).status.busy = true)
    (h : runPort q s = .next t) : KeepsLaws s t := by
  obtain ⟨i, hd, he⟩ | ⟨-, rfl⟩ := runPort_cases h
  · have hq := decode_port hd
    subst hq
    cases hp : i.port with
    | p =>
      refine keepsLaws_exec_p hp (fun hi => ?_) he
      subst hi
      exact ⟨hb, hd⟩
    | c => exact keepsLaws_exec_c hp he
  · refine (sameSlots_failWith q _ _ s).keepsLaws ?_
    cases q with
    | p => exact fun he => absurd he (idle_not_encoding rfl)
    | c => exact .of_same rfl rfl

/-! ## The outside world -/

/-- An accepted issue of ENCODE puts the sequencer at Validate (10_state.md R46). -/
theorem encodeGoesOn_issue (q : Port) (w : Word) (s : State) : EncodeGoesOn s (issue q w s) := by
  cases q with
  | p =>
    rintro ⟨-, hd⟩
    exact .inl (if_pos hd)
  | c => exact .of_same rfl rfl

theorem sameSlots_issue (q : Port) (w : Word) (s : State) : SameSlots s (issue q w s) := by
  cases q <;> exact ⟨rfl, rfl, rfl, rfl, rfl, rfl, rfl⟩

theorem keepsLaws_writeCmd (q : Port) (w : Word) (s : State) : KeepsLaws s (writeCmd q w s) := by
  unfold writeCmd
  split
  · cases q <;> exact SameSlots.keepsLaws ⟨rfl, rfl, rfl, rfl, rfl, rfl, rfl⟩ fun he => .inr ⟨he, rfl, rfl⟩
  · exact (sameSlots_issue q w s).keepsLaws (encodeGoesOn_issue q w s)

theorem keepsLaws_regWrite (width : AccessWidth) (off : BitVec 12) (w : Word) (s : State) :
    KeepsLaws s (regWrite width off w s) := by
  obtain h | h | ⟨q, h⟩ | ⟨q, k, h⟩ := regWrite_cases width off w s <;> rw [h]
  · exact .refl s
  · exact SameSlots.keepsLaws ⟨rfl, rfl, rfl, rfl, rfl, rfl, rfl⟩ (.of_same rfl rfl)
  · exact keepsLaws_writeCmd q w s
  · cases q <;> exact SameSlots.keepsLaws ⟨rfl, rfl, rfl, rfl, rfl, rfl, rfl⟩ fun he => .inr ⟨he, rfl, rfl⟩

theorem keepsLaws_regRead (width : AccessWidth) (off : BitVec 12) (s : State) :
    KeepsLaws s (regRead width off s) := by
  unfold regRead
  split <;> exact SameSlots.keepsLaws ⟨rfl, rfl, rfl, rfl, rfl, rfl, rfl⟩ (.of_same rfl rfl)

theorem keepsLaws_poolRead {who : Agent} {a : Nat} {s t : State} (h : poolRead who a s = .next t) :
    KeepsLaws s t := by
  obtain ⟨v, -, rfl⟩ | rfl := poolRead_cases h <;>
    exact SameSlots.keepsLaws ⟨rfl, rfl, rfl, rfl, rfl, rfl, rfl⟩ (.of_same rfl rfl)

theorem keepsLaws_frameWrite (a : Nat) (v : Byte) (s : State) : KeepsLaws s (frameWrite a v s) :=
  SameSlots.keepsLaws ⟨rfl, rfl, rfl, rfl, rfl, rfl, rfl⟩ (.of_same rfl rfl)

theorem keepsLaws_hardReset {k : Config} {s t : State} (h : hardReset k s = .next t) : KeepsLaws s t := by
  unfold hardReset at h
  split at h <;> cases h
  rename_i hk
  have reset := contentInv_resetKeeping (f := s.frame) (l := s.inputs) (w := s.readData) (d := s.draws) hk
  exact ⟨fun _ => reset.toSessionInv, fun _ => reset⟩

theorem Before.keepsLaws {s u : State} (h : Before s u) : KeepsLaws s u := by
  cases h with
  | granted rest => exact keepsLaws_setInputs s rest
  | alone => exact .refl s
  | arbitrated => exact keepsLaws_draw s 1

/-- Every step keeps both invariants. -/
theorem keepsLaws_step {s t : State} (h : step s = .next t) : KeepsLaws s t := by
  have taken (rest : List Input) := keepsLaws_setInputs s rest
  obtain ⟨q, u, hu, hb, hr⟩ | ⟨rest, w, off, v, -, rfl⟩ | ⟨rest, w, off, -, rfl⟩ | ⟨rest, who, a, -, hr⟩ |
    ⟨rest, a, v, -, rfl⟩ | ⟨rest, k, -, hr⟩ | ⟨rest, q, -, -, rfl⟩ | ⟨-, -, -, ht⟩ := step_cases h
  · exact hu.keepsLaws.trans (keepsLaws_runPort hb hr)
  · exact (taken rest).trans (keepsLaws_regWrite w off v _)
  · exact (taken rest).trans (keepsLaws_regRead w off _)
  · exact (taken rest).trans (keepsLaws_poolRead hr)
  · exact (taken rest).trans (keepsLaws_frameWrite ..)
  · exact (taken rest).trans (keepsLaws_hardReset hr)
  · exact taken rest
  · exact ht ▸ .refl s

/-- Settles O32: the law is a part of the session invariant, which every step keeps. -/
theorem stepKeepsTheSessionSlotLaw : Obligations.StepKeepsTheSessionSlotLaw :=
  fun _ _ hs h => (keepsLaws_step h).session hs

/-- Settles O33: each byte that raises a size is stored before it counts, below CAP, and a move keeps the size. -/
theorem stepKeepsSlotContents : Obligations.StepKeepsSlotContents :=
  fun _ _ hc h => (keepsLaws_step h).content hc

end Sys2Proof.Machine
end

section
/-! PROOFS. The session's own commands (44_bitstream.md R250, R253, R255 to R258): SESSION_BEGIN, the refusal without an
open session, and the bits of WRITE_BITS and FLUSH_BITS as lists. -/

namespace Sys2Proof.Machine

/-- Opening a session as one update of the fields it names (R256). -/
theorem beginSession_eq (k : Nat) (s : State) :
    beginSession k s =
      { s with
        sess := ⟨true, k, []⟩
        pred := ⟨0, 0, 0⟩
        slots := (if s.sess.isOpen then s.slots.modify s.sess.slot fun x => { x with size := 0 } else s.slots).modify
          k fun x => { x with size := 0 } } := by
  unfold beginSession
  split <;> rfl

/-- Settles O25: the two refusals are the checks in their order, and past them the session opens. -/
theorem sessionBeginOpensASession : Obligations.SessionBeginOpensASession := by
  rintro s _ rfl
  refine ⟨fun hn => if_pos hn, fun hn hl => (if_neg (Nat.not_le.mpr hn)).trans (if_pos hl), fun hn hl => ?_⟩
  rw [← beginSession_eq]
  exact (if_neg (Nat.not_le.mpr hn)).trans (if_neg (not_not.mpr hl))

/-- Settles O26: each of the seven is a unit step that needs an open session. -/
theorem noSessionIsRefused : Obligations.NoSessionIsRefused := by
  intro s i hi ho
  have refused (e : Eff) (d : State → State) : finish (needSession s e) d =
      .next (complete .p .invalidState 0 0 0 { s with err := { s.err with protocol := true } }) := by
    rw [needSession, if_neg (by rw [ho]; exact Bool.false_ne_true)]
    rfl
  fin_cases hi <;> exact refused _ _

/-! ## The bits -/

/-- The low bits of a value, the highest one first (R253, 20_memory.md R91). -/
theorem bitsOf_eq (v n : Nat) : bitsOf v n = (List.range n).reverse.map v.testBit := by
  induction n with
  | zero => rfl
  | succ n ih => rw [bitsOf, ih, List.range_succ, List.reverse_append]; rfl

theorem bitsOf_ones (n : Nat) : bitsOf (2 ^ n - 1) n = List.replicate n true := by
  refine List.eq_replicate_iff.mpr ⟨bitsOf_length _ n, fun b hb => ?_⟩
  rw [bitsOf_eq, List.mem_map] at hb
  obtain ⟨j, hj, rfl⟩ := hb
  simpa [Nat.testBit_two_pow_sub_one] using hj

/-- Eight bits pack into one byte, with no rest. -/
theorem wholeBytes_eight {l : List Bool} (h : l.length = 8) : wholeBytes l = [byteOfBits l] := by
  rw [wholeBytes_cons h.ge, List.take_of_length_le h.le, wholeBytes_short (by rw [List.length_drop]; omega)]

theorem restBits_eight {l : List Bool} (h : l.length = 8) : restBits l = [] := by
  rw [← List.length_eq_zero_iff, restBits_length, h]

/-- What WRITE_BITS and FLUSH_BITS report after an emission: the slot's new size and the number of pending bits. -/
theorem Stored.results {s t : State} {out : List Byte} {bits : List Bool} (hr : SinkReady s)
    (h : Stored s t out bits) : t.sessSize = s.sessSize + out.length ∧ t.sess.acc = bits :=
  ⟨h.sessSize hr, by rw [h.sess]⟩

/-! ## The two commands -/

theorem exec_writeBits_of_open {s : State} (ho : s.sess.isOpen = true) :
    exec .writeBits s =
      finish (if 16 < (s.args .p)[1].toNat then .raised .invalidArgument s
        else emitBits (s.args .p)[0].toNat (s.args .p)[1].toNat s)
        fun t => complete .p .ok (resNat t.sessSize) (resNat t.sess.acc.length) 0 t := by
  rw [exec, execWriteBits, needSession, if_pos ho]
  rfl

theorem exec_flushBits_of_open {s : State} (ho : s.sess.isOpen = true) :
    exec .flushBits s = finish (flushBits s) fun t => complete .p .ok (resNat t.sessSize) 0 0 t := by
  rw [exec, execFlushBits, flushStep, needSession, if_pos ho]

/-- Settles O27: the operands' bits are EmitBits' bits, which it packs and stores. -/
theorem writeBitsPacksItsBits : Obligations.WriteBitsPacksItsBits := by
  rintro s _ _ _ hready rfl rfl rfl
  have hsink := hready.sinkReady
  obtain ⟨hopen, -, -, -, -⟩ := hready
  rw [exec_writeBits_of_open hopen]
  constructor
  · intro hn
    have hbits : (List.range (s.args .p)[1].toNat).reverse.map (fun j => (s.args .p)[0].getLsbD j) =
        bitsOf (s.args .p)[0].toNat (s.args .p)[1].toNat := (bitsOf_eq _ _).symm
    rw [if_neg (Nat.not_lt.mpr hn), hbits]
    refine (emitBits_emits _ _ hsink).emitsBytes_finish fun t ht => ?_
    obtain ⟨hsize, hacc⟩ := ht.results hsink
    rw [hsize, hacc, restBits_length]
    rfl
  · intro hn
    rw [if_pos hn]
    rfl

/-- Settles O28: the padding bits are EmitBits' bits of a value of ones, and they fill exactly one byte. -/
theorem flushBitsPadsWithOnes : Obligations.FlushBitsPadsWithOnes := by
  intro s hready
  have hsink := hready.sinkReady
  obtain ⟨hopen, -, -, hpending, -⟩ := hready
  rw [exec_flushBits_of_open hopen]
  constructor
  · intro hnil
    rw [flushBits, if_pos (by rw [hnil]; rfl)]
    rfl
  · rintro hne _ rfl
    have hlen : (s.sess.acc ++ List.replicate (8 - s.sess.acc.length) true).length = 8 := by
      rw [List.length_append, List.length_replicate]; omega
    have hemits := emitBits_emits (2 ^ (8 - s.sess.acc.length) - 1) (8 - s.sess.acc.length) hsink
    rw [bitsOf_ones, wholeBytes_eight hlen, restBits_eight hlen] at hemits
    rw [flushBits, if_neg (mt List.length_eq_zero_iff.mp hne)]
    refine hemits.emitsBytes_finish fun t ht => ?_
    rw [(ht.results hsink).1]
    rfl

end Sys2Proof.Machine
end

section
/-! PROOFS. The ContainerWriter (45_container.md R283 to R291): the header as a list of fixed segments around its
dimension bytes and its tables, then EMIT_HEADERS and EMIT_EOI as emissions of their bytes. -/

namespace Sys2Proof.Machine

/-! ## The header's bytes -/

/-- The header up to the dimensions of SOF0 (45_container.md R282 to R284). -/
def headerBeforeDims (k : Config) : List Byte := soiApp0 ++ dqt k ++ ([0xFF, 0xC0] ++ be16 17 ++ [8])

/-- The header past the dimensions of SOF0 (45_container.md R284 to R286). -/
def headerAfterDims : List Byte := [3] ++ [1, 0x22, 0] ++ [2, 0x11, 1] ++ [3, 0x11, 1] ++ dht ++ sos

/-- The declared height, then the declared width (45_container.md R284, R289). -/
def dimBytes (h w : Nat) : List Byte := be16 (declared h) ++ be16 (declared w)

theorem headerBytes_eq_dims (k : Config) (h w : Nat) :
    headerBytes k h w = headerBeforeDims k ++ dimBytes h w ++ headerAfterDims := by
  simp only [headerBytes, sof0, headerBeforeDims, dimBytes, headerAfterDims, List.append_assoc]

@[simp] theorem qtBytes_length (t : Vector Nat 64) : (qtBytes t).length = 64 := by simp [qtBytes, natBytes]

theorem dqt_length (k : Config) : (dqt k).length = 134 := by simp [dqt, be16]

theorem headerBeforeDims_length (k : Config) : (headerBeforeDims k).length = 0x09F := by
  have hsoi : soiApp0.length = 20 := rfl
  simp [headerBeforeDims, hsoi, dqt_length, be16]

theorem dimBytes_length (h w : Nat) : (dimBytes h w).length = 4 := rfl

theorem headerAfterDims_length : headerAfterDims.length = 444 := by decide +kernel

/-- R288. -/
theorem headerBytes_length (k : Config) (h w : Nat) : (headerBytes k h w).length = 607 := by
  simp only [headerBytes_eq_dims, List.length_append, headerBeforeDims_length, dimBytes_length, headerAfterDims_length]

/-- Reading inside a segment that stands at offset `n`. -/
theorem getElem?_segment {l before seg after : List Byte} {n : Nat} (hl : l = before ++ seg ++ after)
    (hn : before.length = n) {j : Nat} (hj : j < seg.length) : l[n + j]? = seg[j]? := by
  rw [hl, ← hn, List.append_assoc, List.getElem?_append_right (Nat.le_add_right _ _), Nat.add_sub_cancel_left,
    List.getElem?_append_left hj]

/-- Reading outside a segment does not depend on it, but for its length. -/
theorem getElem?_outside_segment {before seg seg' after : List Byte} (hlen : seg.length = seg'.length) {i : Nat}
    (hi : i < before.length ∨ before.length + seg.length ≤ i) :
    (before ++ seg ++ after)[i]? = (before ++ seg' ++ after)[i]? := by
  obtain hlt | hge := hi
  · simp only [List.append_assoc, List.getElem?_append_left hlt]
  · rw [List.getElem?_append_right (by rw [List.length_append]; exact hge),
      List.getElem?_append_right (by rw [List.length_append, ← hlen]; exact hge), List.length_append,
      List.length_append, hlen]

/-! ## Its tables -/

theorem zigzag_lt {j z : Nat} (hz : zigzag[j]? = some z) : j < 64 ∧ z < 64 := by
  have hall : ∀ x ∈ zigzag.toList, x < 64 := by decide
  obtain ⟨hj, rfl⟩ := Vector.getElem?_eq_some_iff.mp hz
  exact ⟨hj, hall _ (Vector.mem_toList_iff.mpr (Vector.getElem_mem hj))⟩

/-- Byte `j` of a written table is the entry at scan position `j` (R283). -/
theorem qtBytes_getElem? (t : Vector Nat 64) {j z : Nat} (hz : zigzag[j]? = some z) :
    (qtBytes t)[j]? = (t[z]?).map (BitVec.ofNat 8) := by
  obtain ⟨-, hz64⟩ := zigzag_lt hz
  rw [qtBytes, natBytes, List.getElem?_map, List.getElem?_map, Vector.getElem?_toList, hz,
    Vector.getElem?_eq_getElem hz64, Option.map_some, Vector.getElem?_eq_getElem hz64, Option.getD_some]

/-- The segments before and after the luma table. -/
theorem headerBytes_eq_luma (k : Config) (h w : Nat) : headerBytes k h w =
    (soiApp0 ++ [0xFF, 0xDB] ++ be16 132 ++ [0x00]) ++ qtBytes k.qtLuma ++
      ([0x01] ++ qtBytes k.qtChroma ++ sof0 (declared h) (declared w) ++ dht ++ sos) := by
  simp only [headerBytes, dqt, List.append_assoc]

/-- The segments before and after the chroma table. -/
theorem headerBytes_eq_chroma (k : Config) (h w : Nat) : headerBytes k h w =
    (soiApp0 ++ [0xFF, 0xDB] ++ be16 132 ++ [0x00] ++ qtBytes k.qtLuma ++ [0x01]) ++ qtBytes k.qtChroma ++
      (sof0 (declared h) (declared w) ++ dht ++ sos) := by
  simp only [headerBytes, dqt, List.append_assoc]

theorem headerBytes_luma (k : Config) (h w : Nat) {j z : Nat} (hz : zigzag[j]? = some z) :
    (headerBytes k h w)[0x019 + j]? = (k.qtLuma[z]?).map (BitVec.ofNat 8) := by
  obtain ⟨hj, -⟩ := zigzag_lt hz
  rw [getElem?_segment (n := 0x019) (headerBytes_eq_luma k h w) rfl (by rwa [qtBytes_length]), qtBytes_getElem? _ hz]

theorem headerBytes_chroma (k : Config) (h w : Nat) {j z : Nat} (hz : zigzag[j]? = some z) :
    (headerBytes k h w)[0x05A + j]? = (k.qtChroma[z]?).map (BitVec.ofNat 8) := by
  obtain ⟨hj, -⟩ := zigzag_lt hz
  have hlen : (soiApp0 ++ [0xFF, 0xDB] ++ be16 132 ++ [0x00] ++ qtBytes k.qtLuma ++ [0x01]).length = 0x05A := by
    simp [soiApp0, be16]
  rw [getElem?_segment (headerBytes_eq_chroma k h w) hlen (by rwa [qtBytes_length]), qtBytes_getElem? _ hz]

/-! ## Its dimensions -/

theorem headerBytes_dims (k : Config) (h w : Nat) {j : Nat} (hj : j < 4) :
    (headerBytes k h w)[0x09F + j]? = (dimBytes h w)[j]? :=
  getElem?_segment (headerBytes_eq_dims k h w) (headerBeforeDims_length k) hj

theorem headerBytes_outside_dims (k : Config) (h w h' w' : Nat) {i : Nat} (hi : i < 0x09F ∨ 0x0A2 < i) :
    (headerBytes k h w)[i]? = (headerBytes k h' w')[i]? := by
  rw [headerBytes_eq_dims, headerBytes_eq_dims]
  refine getElem?_outside_segment (seg := dimBytes h w) (seg' := dimBytes h' w') rfl ?_
  rw [headerBeforeDims_length, dimBytes_length]
  omega

/-- The two bytes of a field, the low one as a remainder (R280). -/
theorem be16_eq (v : Nat) : be16 v = [BitVec.ofNat 8 (v / 256), BitVec.ofNat 8 (v % 256)] := by
  rw [be16, show BitVec.ofNat 8 (v % 256) = BitVec.ofNat 8 v from BitVec.eq_of_toNat_eq (by simp)]

theorem dimBytes_eq (h w : Nat) : dimBytes h w =
    [BitVec.ofNat 8 (h / 8 * 8 / 256), BitVec.ofNat 8 (h / 8 * 8 % 256),
      BitVec.ofNat 8 (w / 8 * 8 / 256), BitVec.ofNat 8 (w / 8 * 8 % 256)] := by
  rw [dimBytes, be16_eq, be16_eq]
  rfl

/-- Settles O30: the dimensions and the two tables are segments of the header at their offsets. -/
theorem headerIs607Bytes : Obligations.HeaderIs607Bytes := by
  intro k h w _ _
  have hdims {j : Nat} (hj : j < 4) := headerBytes_dims k h w hj
  rw [dimBytes_eq] at hdims
  exact ⟨headerBytes_length k h w, fun h' w' i hi => headerBytes_outside_dims k h w h' w' hi,
    ⟨hdims (j := 0) (by decide), hdims (j := 1) (by decide), hdims (j := 2) (by decide), hdims (j := 3) (by decide)⟩,
    fun j z hz => ⟨headerBytes_luma k h w hz, headerBytes_chroma k h w hz⟩⟩

/-! ## EMIT_HEADERS -/

theorem badDimension_iff (d : Nat) : badDimension d = true ↔ d < 1 ∨ 65535 < d := by
  rw [badDimension, decide_eq_true_eq, Nat.lt_one_iff]

theorem exec_emitHeaders_of_open {s : State} (ho : s.sess.isOpen = true) :
    exec .emitHeaders s =
      finish (if badDimension (s.args .p)[0].toNat || badDimension (s.args .p)[1].toNat
          then .raised .invalidArgument s else headersStep (s.args .p)[1].toNat (s.args .p)[0].toNat s)
        fun t => complete .p .ok (resNat t.sessSize) (declaredWord (s.args .p)[1].toNat (s.args .p)[0].toNat) 0 t := by
  rw [exec, execEmitHeaders, needSession, if_pos ho]
  rfl

/-- Settles O29: past the checks the command is the emission of the header's bytes, which leaves the pending bits. -/
theorem emitHeadersStoresTheHeader : Obligations.EmitHeadersStoresTheHeader := by
  rintro s _ _ hready rfl rfl
  have hsink := hready.sinkReady
  obtain ⟨hopen, -, -, -, -⟩ := hready
  rw [exec_emitHeaders_of_open hopen]
  simp only [Bool.or_eq_true, badDimension_iff]
  constructor
  · intro hw hw' hh hh'
    rw [if_neg (by omega), headersStep, ← headerBytes_length s.cfg (s.args .p)[1].toNat (s.args .p)[0].toNat]
    refine (sinkBytes_emits _ hsink).emitsBytes_finish fun t ht => ?_
    rw [ht.sessSize hsink]
    rfl
  · intro hbad
    rw [if_pos (by omega)]
    rfl

/-! ## EMIT_EOI -/

/-- EMIT_EOI's unit step with room for both bytes (R291). -/
theorem eoiStep_of_room {s : State} (hr : SinkReady s) (ho : s.sess.isOpen = true)
    (hroom : s.sessSize + 2 ≤ s.cfg.cap) :
    ∃ t, eoiStep s = .ok (closeSession t) ∧ Stored s t [0xFF, 0xD9] s.sess.acc := by
  obtain ⟨t, ht, hst⟩ := (sinkBytes_emits eoiBytes hr).1 hroom
  exact ⟨t, by rw [eoiStep, needSession, if_pos ho, ht]; rfl, hst⟩

/-- EMIT_EOI's unit step without that room (44_bitstream.md R252). -/
theorem eoiStep_of_full {s : State} (hr : SinkReady s) (ho : s.sess.isOpen = true)
    (hfull : s.cfg.cap < s.sessSize + 2) : ∃ t, eoiStep s = .raised .capacityExceeded t ∧ Aborted s t := by
  obtain ⟨t, ht, hab⟩ := (sinkBytes_emits eoiBytes hr).2 hfull
  exact ⟨t, by rw [eoiStep, needSession, if_pos ho, ht]; rfl, hab⟩

/-- Closing the session leaves POOL alone, so it keeps what is stored. -/
theorem storedIn_closeSession {t u : State} {a : Nat} {l : List Byte} (h : storedIn t u a l) :
    storedIn (closeSession t) (closeSession u) a l := by
  obtain ⟨hholds, hout, heq⟩ := h
  exact ⟨hholds, hout, congrArg closeSession heq⟩

/-- Settles O31: the unit step is the emission of FF D9, and closing the session then drops the pending bits. -/
theorem emitEoiClosesTheSession : Obligations.EmitEoiClosesTheSession := by
  intro s hready
  have hsink := hready.sinkReady
  obtain ⟨hopen, -, -, -, -⟩ := hready
  rw [exec, execEmitEoi]
  constructor
  · intro hroom
    obtain ⟨t, heq, ht⟩ := eoiStep_of_room hsink hopen hroom
    have hsize : (closeSession t).sessSize = s.sessSize + 2 := ht.sessSize hsink
    rw [heq, finish_ok, hsize]
    exact ⟨_, rfl, storedIn_complete (storedIn_closeSession ht) ..⟩
  · intro hfull
    obtain ⟨t, heq, ht⟩ := eoiStep_of_full hsink hopen hfull
    rw [heq]
    exact ⟨_, finish_raised .., sameButBytes_complete ht ..⟩

end Sys2Proof.Machine
end

section
/-! PROOFS. The sequencer's order (46_encoder.md R312, R319, 70_reset_and_hazards.md R441): the listed positions as
one walk, put together from the walks through each MCU and each row of MCUs. -/

namespace Sys2Proof.Machine

/-- The list `l` is the first `l.length` positions from `p` on under `next`, and `q` is the one after them. -/
def Walk (next : Seq → Seq) (p : Seq) (l : List Seq) (q : Seq) : Prop :=
  l = List.iterate next p l.length ∧ next^[l.length] p = q

theorem Walk.nil (next : Seq → Seq) (p : Seq) : Walk next p [] p := ⟨rfl, rfl⟩

theorem Walk.cons {next : Seq → Seq} {p q : Seq} {l : List Seq} (h : Walk next (next p) l q) :
    Walk next p (p :: l) q :=
  ⟨congrArg (p :: ·) h.1, h.2⟩

theorem Walk.append {next : Seq → Seq} {p q r : Seq} {l m : List Seq} (h : Walk next p l q) (h' : Walk next q m r) :
    Walk next p (l ++ m) r := by
  obtain ⟨hl, rfl⟩ := h
  obtain ⟨hm, rfl⟩ := h'
  constructor
  · rw [List.length_append, List.iterate_add, ← hl, ← hm]
  · rw [List.length_append, Nat.add_comm, Function.iterate_add_apply]

/-- Walks that start where the ones before them end are one. -/
theorem Walk.flatMap_range {next : Seq → Seq} {start : Nat → Seq} {g : Nat → List Seq} {n : Nat}
    (h : ∀ k < n, Walk next (start k) (g k) (start (k + 1))) :
    Walk next (start 0) ((List.range n).flatMap g) (start n) := by
  induction n with
  | zero => exact .nil next _
  | succ n ih =>
    rw [List.range_succ, List.flatMap_append, List.flatMap_singleton]
    exact (ih fun k hk => h k (by omega)).append (h n (by omega))

theorem Walk.next_eq {next : Seq → Seq} {p q x : Seq} {l : List Seq} {k : Nat} (h : Walk next p l q)
    (hx : l[k]? = some x) : x = next^[k] p := by
  obtain ⟨hk, -⟩ := List.getElem?_eq_some_iff.mp hx
  rw [h.1, List.getElem?_iterate _ _ _ _ hk] at hx
  exact (Option.some.inj hx).symm

/-- The positions of one MCU (46_encoder.md R319). -/
def mcuPositions (mr mc : Nat) : List Seq :=
  [BlockId.y0, .y1, .y2, .y3, .cb, .cr].flatMap fun b =>
    [BlockStep.extract, .fdct, .quant, .entropy].map fun u => Seq.block mr mc b u

/-- The first position of row `mr` of MCUs, Flush past the last row. -/
def rowStart (rows mr : Nat) : Seq := if mr < rows then .block mr 0 .y0 .extract else .flush

/-- The first position of MCU `(mr, mc)`, of the next row past the last column. -/
def mcuStart (rows cols mr mc : Nat) : Seq :=
  if mc < cols then .block mr mc .y0 .extract else rowStart rows (mr + 1)

theorem walk_mcu (rows cols mr : Nat) {mc : Nat} (h : mc < cols) :
    Walk (nextSeq rows cols) (mcuStart rows cols mr mc) (mcuPositions mr mc) (mcuStart rows cols mr (mc + 1)) := by
  rw [mcuStart, if_pos h]
  exact ⟨rfl, rfl⟩

theorem walk_rows {rows cols : Nat} (hc : 0 < cols) :
    Walk (nextSeq rows cols) (rowStart rows 0)
      ((List.range rows).flatMap fun mr => (List.range cols).flatMap (mcuPositions mr)) .flush := by
  have hend : rowStart rows rows = .flush := if_neg (lt_irrefl rows)
  rw [← hend]
  refine Walk.flatMap_range (start := rowStart rows) fun mr hmr => ?_
  have hfirst : mcuStart rows cols mr 0 = rowStart rows mr := (if_pos hc).trans (if_pos hmr).symm
  have hlast : mcuStart rows cols mr cols = rowStart rows (mr + 1) := if_neg (lt_irrefl cols)
  rw [← hfirst, ← hlast]
  exact Walk.flatMap_range fun mc hmc => walk_mcu rows cols mr hmc

/-- The MCU loop, also where the grid is empty (46_encoder.md R312). -/
theorem walk_grid (rows cols : Nat) :
    Walk (nextSeq rows cols) (firstMcu rows cols)
      ((List.range rows).flatMap fun mr => (List.range cols).flatMap (mcuPositions mr)) .flush := by
  obtain rfl | hc := Nat.eq_zero_or_pos cols
  · rw [firstMcu, if_pos (.inr rfl)]
    have hnone : ((List.range rows).flatMap fun mr => (List.range 0).flatMap (mcuPositions mr)) = [] := by simp
    rw [hnone]
    exact .nil _ _
  · have hfirst : firstMcu rows cols = rowStart rows 0 := by
      obtain rfl | hr := Nat.eq_zero_or_pos rows
      · rfl
      · rw [firstMcu, rowStart, if_neg (by omega), if_pos hr]
    rw [hfirst]
    exact walk_rows hc

theorem walk_encodePositions (rows cols : Nat) :
    Walk (nextSeq rows cols) .beginSession (encodePositions rows cols) .done :=
  ((walk_grid rows cols).cons.cons).append (Walk.nil _ _).cons.cons

theorem encodePositions_length (rows cols : Nat) : (encodePositions rows cols).length = 4 + 24 * rows * cols := by
  have hmcu (mr mc : Nat) : (mcuPositions mr mc).length = 24 := rfl
  have hgrid : ((List.range rows).flatMap fun mr => (List.range cols).flatMap (mcuPositions mr)).length =
      rows * (cols * 24) := by
    simp [List.length_flatMap, hmcu]
  have hparts : (encodePositions rows cols).length = 2 + rows * (cols * 24) + 2 := by
    rw [← hgrid, encodePositions, List.length_append, List.length_append]
    rfl
  rw [hparts]
  ring

/-- Settles O58: the listed positions are a walk under the sequencer's order, and its end is Done. -/
theorem encodeFollowsTheListedOrder : Obligations.EncodeFollowsTheListedOrder := by
  intro rows cols
  have hwalk := walk_encodePositions rows cols
  have hlen := encodePositions_length rows cols
  refine ⟨hlen, fun k p p' hp hp' => ?_, fun p hp => ?_⟩
  · rw [hwalk.next_eq hp, hwalk.next_eq hp', Function.iterate_succ_apply']
  · have hend := hwalk.2
    rw [hlen, show 4 + 24 * rows * cols = (3 + 24 * rows * cols) + 1 by omega, Function.iterate_succ_apply'] at hend
    rwa [hwalk.next_eq hp]

end Sys2Proof.Machine
end

section
/-! PROOFS. ENCODE's Validate and its last sub-step (46_encoder.md R311, R316, R319). -/

namespace Sys2Proof.Machine

/-! ## Validate -/

/-- Validate's first refusal (46_encoder.md R311). -/
theorem encodeRefusal_of_invalid {s : State}
    (h : ¬frameOperandsValid (s.args .p) ∨ s.cfg.n ≤ opEncodeSlot (s.args .p)) :
    encodeRefusal s = some (raiseStatus .p .invalidArgument s) := by
  simp only [encodeRefusal, Bool.or_eq_true, badDimension_iff]
  split_ifs with hf hn hd hl hbpp hheld
  · rfl
  · rfl
  · rfl
  · rfl
  · rfl
  all_goals
    exact absurd (⟨hf, by omega, by omega, by omega, by omega⟩ : frameOperandsValid (s.args .p)) (h.resolve_right hn)

/-- Past the operands only the slot's holder is left to check (46_encoder.md R311). -/
theorem encodeRefusal_of_valid {s : State} (h : encodeOperandsValid s.cfg (s.args .p)) :
    encodeRefusal s = if (s.slot (opEncodeSlot (s.args .p))).loc ≠ .producerHeld
      then some (failWith .p .protocol .invalidState s) else none := by
  obtain ⟨⟨hf, hw, hh, hl, hbpp⟩, hn⟩ := h
  simp only [encodeRefusal, Bool.or_eq_true, badDimension_iff]
  rw [if_neg hf, if_neg (by omega), if_neg (by omega), if_neg (by omega), if_neg (by omega)]

/-- Where ENCODE has no position, or an old command's Done, it validates (46_encoder.md R311, log 12). -/
theorem execEncode_validates {s : State} (h : s.seq = none ∨ s.seq = some .validate ∨ s.seq = some .done) :
    exec .encode s = .next (encodeValidate s) := by
  rw [exec, execEncode]
  obtain h | h | h := h <;> rw [h]

/-- Settles O56: the step is Validate, and its outcome is the refusal, if there is one. -/
theorem encodeValidatesFirst : Obligations.EncodeValidatesFirst := by
  rintro s _ rfl hseq
  rw [execEncode_validates hseq, encodeValidate]
  refine ⟨fun hbad => ?_, fun hv hn hl => ?_, fun hv hn hl => ?_⟩
  · rw [encodeRefusal_of_invalid hbad]
    rfl
  · rw [(encodeRefusal_of_valid ⟨hv, hn⟩).trans (if_pos hl)]
    rfl
  · rw [(encodeRefusal_of_valid ⟨hv, hn⟩).trans (if_neg (not_not.mpr hl))]
    rfl

/-! ## A sub-step -/

/-- Past Validate a step of ENCODE is its position's sub-step (46_encoder.md R314, R319). -/
theorem EncodeAt.exec_encode {s : State} {pos : Seq} (h : EncodeAt s pos) :
    exec .encode s = encodeAdvance pos (seqEffect pos s) := by
  obtain ⟨hvalidate, hdone⟩ := h.running
  rw [exec, execEncode, h.at_]
  cases pos with
  | validate => exact absurd rfl hvalidate
  | done => exact absurd rfl hdone
  | _ => rfl

/-- Only Eoi is followed by Done (46_encoder.md R319). -/
theorem nextSeq_ne_done (rows cols : Nat) {pos : Seq} (hd : pos ≠ .done) (he : pos ≠ .eoi) :
    nextSeq rows cols pos ≠ .done := by
  cases pos with
  | done => exact absurd rfl hd
  | eoi => exact absurd rfl he
  | validate | beginSession | flush => simp [nextSeq]
  | headers => simp only [nextSeq, firstMcu]; split_ifs <;> nofun
  | block mr mc b u =>
    cases u with
    | extract | fdct | quant => simp [nextSeq]
    | entropy =>
      cases b with
      | cr => simp only [nextSeq, nextBlock, nextMcu]; split_ifs <;> nofun
      | _ => simp [nextSeq, nextBlock]

theorem EncodeAt.sinkReady {s : State} {pos : Seq} (h : EncodeAt s pos) (hb : pos ≠ .beginSession)
    (hsize : s.sessSize ≤ s.cfg.cap) : SinkReady s where
  slot := by rw [(h.session hb).2]; exact h.operands.2
  count := h.count
  size := hsize

/-- ENCODE's completion, its operands as they were before the sub-step (46_encoder.md R316). -/
theorem encodeDone_of_args {s t : State} (h : t.args .p = s.args .p) :
    encodeDone t =
      complete .p .ok (resNat (t.slot (opEncodeSlot (s.args .p))).size)
        (declaredWord (opHeight (s.args .p)) (opWidth (s.args .p))) 0 t := by
  rw [encodeDone, h]

/-- Moving the sequencer leaves POOL alone, so it keeps what is stored. -/
theorem storedIn_setSeq {t u : State} {a : Nat} {l : List Byte} (h : storedIn t u a l) (x : Option Seq) :
    storedIn (t.setSeq x) (u.setSeq x) a l := by
  obtain ⟨hholds, hout, heq⟩ := h
  exact ⟨hholds, hout, congrArg (State.setSeq · x) heq⟩

/-- Settles O60: the unit step stores the two bytes, and ENCODE's completion then reads its slot's size. -/
theorem encodeCompletesAtEoi : Obligations.EncodeCompletesAtEoi := by
  rintro s _ rfl hat hroom
  obtain ⟨hopen, hslot⟩ := hat.session (by decide)
  have hsink : SinkReady s := hat.sinkReady (by decide) (by omega)
  obtain ⟨t, heoi, ht⟩ := eoiStep_of_room hsink hopen hroom
  have hargs : ((closeSession t).setSeq (some .done)).args .p = s.args .p := by rw [ht.eq]; rfl
  have hsize : (t.slot (opEncodeSlot (s.args .p))).size = s.sessSize + 2 := by
    have hsess : t.sess.slot = opEncodeSlot (s.args .p) := by rw [ht.sess, hslot]
    rw [← hsess]
    exact ht.sessSize hsink
  have hdone : encodeDone ((closeSession t).setSeq (some .done)) =
      complete .p .ok (resNat (s.sessSize + 2)) (declaredWord (opHeight (s.args .p)) (opWidth (s.args .p))) 0
        ((closeSession t).setSeq (some .done)) := by
    rw [encodeDone_of_args hargs, ← hsize]
    rfl
  refine ⟨encodeDone ((closeSession t).setSeq (some .done)), ?_, ?_⟩
  · rw [hat.exec_encode, seqEffect, heoi]
    rfl
  · rw [hdone]
    exact storedIn_complete (storedIn_setSeq (storedIn_closeSession ht) (some .done)) ..

end Sys2Proof.Machine
end

section
/-! PROOFS. What codec commands do not see (46_encoder.md R314, R321): a change of the state that no sub-step reads or
writes can be made before a sub-step or after it. -/

namespace Sys2Proof.Machine

/-- `σ` changes nothing that a codec sub-step reads or writes: the fields it reads are the same after `σ`, and each
update it makes commutes with `σ` (46_encoder.md R314, R319). -/
structure SubStepsIgnore (σ : State → State) : Prop where
  cfg : ∀ s, (σ s).cfg = s.cfg
  blk : ∀ s, (σ s).blk = s.blk
  sess : ∀ s, (σ s).sess = s.sess
  pred : ∀ s, (σ s).pred = s.pred
  slots : ∀ s, (σ s).slots = s.slots
  pool : ∀ s, (σ s).pool = s.pool
  frame : ∀ s, (σ s).frame = s.frame
  frameChanged : ∀ s, (σ s).frameChanged = s.frameChanged
  draws : ∀ s, (σ s).draws = s.draws
  onErr : ∀ s b, faultErr b (σ s) = σ (faultErr b s)
  onBlk : ∀ s b, (σ s).setBlk b = σ (s.setBlk b)
  onSess : ∀ s x, (σ s).setSess x = σ (s.setSess x)
  onPreds : ∀ s x, (σ s).setPreds x = σ (s.setPreds x)
  onSlot : ∀ s i f, (σ s).modSlot i f = σ (s.modSlot i f)
  onPool : ∀ s m, (σ s).setPool m = σ (s.setPool m)
  onDraw : ∀ s k, (σ s).draw k = σ (s.draw k)

section

variable {σ : State → State} (h : SubStepsIgnore σ)

include h

/-! ## What the sub-steps read and update -/

theorem SubStepsIgnore.slot (s : State) (i : Nat) : (σ s).slot i = s.slot i := State.slot_congr (h.slots s) i

theorem SubStepsIgnore.sessSize (s : State) : (σ s).sessSize = s.sessSize := by
  rw [State.sessSize, h.sess, h.slot, State.sessSize]

theorem SubStepsIgnore.sinkAddr_eq (s : State) : sinkAddr (σ s) = sinkAddr s := by
  rw [sinkAddr, h.cfg, h.sess, h.sessSize, sinkAddr]

theorem SubStepsIgnore.frameByte_eq (s : State) (k a : Nat) : frameByte (σ s) k a = frameByte s k a := by
  rw [frameByte, h.frameChanged, h.draws, h.frame, frameByte]

theorem SubStepsIgnore.frameReadable_eq (s : State) (a : Nat) : frameReadable (σ s) a = frameReadable s a := by
  rw [frameReadable, h.frame, frameReadable]

theorem SubStepsIgnore.onAcc (s : State) (l : List Bool) : (σ s).setAcc l = σ (s.setAcc l) := by
  change (σ s).setSess { (σ s).sess with acc := l } = _
  rw [h.sess, h.onSess]
  rfl

theorem SubStepsIgnore.onClose (s : State) : closeSession (σ s) = σ (closeSession s) := by
  rw [closeSession, h.onSess, h.sess, closeSession]

theorem SubStepsIgnore.onAbort (s : State) : abortSession (σ s) = σ (abortSession s) := by
  rw [abortSession, h.onSlot, h.onSess, h.sess, abortSession]

theorem SubStepsIgnore.onBegin (s : State) (k : Nat) : beginSession k (σ s) = σ (beginSession k s) := by
  have hclosed : (if s.sess.isOpen then abortSession (σ s) else σ s) =
      σ (if s.sess.isOpen then abortSession s else s) := by
    rw [h.onAbort, apply_ite σ]
  rw [beginSession, h.sess, hclosed, h.onSlot, h.onSess, h.onPreds, beginSession]

theorem SubStepsIgnore.onLoad (s : State) (k : Nat) (b : Block) : loadBlock (σ s) k b = σ (loadBlock s k b) := by
  rw [loadBlock, h.onBlk, h.onDraw, h.frameChanged, loadBlock]

/-! ## The sub-steps -/

theorem SubStepsIgnore.onNeedSession {s : State} {e e' : Eff} (he : e' = e.map σ) :
    needSession (σ s) e' = (needSession s e).map σ := by
  rw [needSession, needSession, h.sess, he, h.onErr]
  split <;> rfl

theorem SubStepsIgnore.onSinkByte (v : Byte) (s : State) : sinkByte v (σ s) = (sinkByte v s).map σ := by
  simp only [sinkByte, h.cfg, h.sess, h.sessSize, h.pool, h.sinkAddr_eq, h.onAbort, h.onPool, h.onSlot]
  split_ifs <;> rfl

theorem SubStepsIgnore.onSinkBytes (l : List Byte) (s : State) : sinkBytes l (σ s) = (sinkBytes l s).map σ := by
  induction l generalizing s with
  | nil => rfl
  | cons v l ih => rw [sinkBytes, h.onSinkByte, Eff.bind_map ih, sinkBytes]

theorem SubStepsIgnore.onDataByte (b : Byte) (s : State) : dataByte b (σ s) = (dataByte b s).map σ := by
  rw [dataByte, h.onSinkByte, Eff.bind_map, dataByte]
  intro t
  split
  · exact h.onSinkByte 0 t
  · rfl

theorem SubStepsIgnore.onDrain (n : Nat) (s : State) : drain n (σ s) = (drain n s).map σ := by
  induction n generalizing s with
  | zero => rfl
  | succ n ih => rw [drain, h.sess, h.onAcc, h.onDataByte, Eff.bind_map ih, drain]

theorem SubStepsIgnore.onEmitBits (v n : Nat) (s : State) : emitBits v n (σ s) = (emitBits v n s).map σ := by
  rw [emitBits, h.sess, h.onAcc, h.onDrain, emitBits]

theorem SubStepsIgnore.onEmitItems (l : List BitItem) (s : State) :
    emitItems l (σ s) = (emitItems l s).map σ := by
  induction l generalizing s with
  | nil => rfl
  | cons x l ih => rw [emitItems, h.onEmitBits, Eff.bind_map ih, emitItems]

theorem SubStepsIgnore.onFlushStep (s : State) : flushStep (σ s) = (flushStep s).map σ := by
  refine h.onNeedSession ?_
  rw [flushBits, flushBits, h.sess]
  split
  · rfl
  · exact h.onEmitBits ..

theorem SubStepsIgnore.onHeadersStep (v w : Nat) (s : State) :
    headersStep v w (σ s) = (headersStep v w s).map σ := by
  rw [headersStep, h.cfg, h.onSinkBytes, headersStep]

theorem SubStepsIgnore.onEoiStep (s : State) : eoiStep (σ s) = (eoiStep s).map σ := by
  refine h.onNeedSession ?_
  rw [h.onSinkBytes, Eff.bind_map fun t => ?_]
  rw [h.onClose, Eff.map_ok]

theorem SubStepsIgnore.onEntropyStep (ch : Channel) (s : State) :
    entropyStep ch (σ s) = (entropyStep ch s).map σ := by
  refine h.onNeedSession ?_
  simp only [h.blk, h.pred, h.onPreds]
  split
  · exact h.onEmitItems ..
  · rfl

theorem SubStepsIgnore.onExtractLuma (f l w v r c : Nat) (s : State) :
    extractLuma f l w v r c (σ s) = (extractLuma f l w v r c s).map σ := by
  simp only [extractLuma, h.cfg, h.frameReadable_eq, h.frameByte_eq, h.onLoad]
  cases validFrame f l w v with
  | none => rfl
  | some bpp => dsimp only; split_ifs <;> rfl

theorem SubStepsIgnore.onExtractChroma (ch : Chroma) (f l w v r c : Nat) (s : State) :
    extractChroma ch f l w v r c (σ s) = (extractChroma ch f l w v r c s).map σ := by
  simp only [extractChroma, h.cfg, h.frameReadable_eq, h.frameByte_eq, h.onLoad]
  cases validFrame f l w v with
  | none => rfl
  | some bpp => dsimp only; split_ifs <;> rfl

theorem SubStepsIgnore.onBlockExtract (a : Args) (mr mc : Nat) (b : BlockId) (s : State) :
    blockExtract a mr mc b (σ s) = (blockExtract a mr mc b s).map σ := by
  cases b with
  | y0 | y1 | y2 | y3 => exact h.onExtractLuma ..
  | cb | cr => exact h.onExtractChroma ..

theorem SubStepsIgnore.onFdctStep (s : State) : fdctStep (σ s) = σ (fdctStep s) := by
  rw [fdctStep, h.onBlk, h.cfg, h.blk, fdctStep]

theorem SubStepsIgnore.onQuantLumaStep (s : State) : quantLumaStep (σ s) = σ (quantLumaStep s) := by
  rw [quantLumaStep, h.onBlk, h.cfg, h.blk, quantLumaStep]

theorem SubStepsIgnore.onQuantChromaStep (s : State) : quantChromaStep (σ s) = σ (quantChromaStep s) := by
  rw [quantChromaStep, h.onBlk, h.cfg, h.blk, quantChromaStep]

theorem SubStepsIgnore.onBlockQuant (b : BlockId) (s : State) : blockQuant b (σ s) = σ (blockQuant b s) := by
  cases b with
  | y0 | y1 | y2 | y3 => exact h.onQuantLumaStep s
  | cb | cr => exact h.onQuantChromaStep s

/-- Every sub-step of ENCODE, where `σ` leaves the operands alone (R319). -/
theorem SubStepsIgnore.onSeqEffect {s : State} (ha : (σ s).args .p = s.args .p) (pos : Seq) :
    seqEffect pos (σ s) = (seqEffect pos s).map σ := by
  unfold seqEffect
  rw [ha]
  cases pos with
  | validate | done => rfl
  | beginSession => exact congrArg Eff.ok (h.onBegin ..)
  | headers => exact h.onHeadersStep ..
  | flush => exact h.onFlushStep s
  | eoi => exact h.onEoiStep s
  | block mr mc b u =>
    cases u with
    | extract => exact h.onBlockExtract ..
    | fdct => exact congrArg Eff.ok (h.onFdctStep s)
    | quant => exact congrArg Eff.ok (h.onBlockQuant b s)
    | entropy => exact h.onEntropyStep ..

end

/-! ## The commands -/

/-- `σ` changes nothing that a codec command reads or writes: nothing that its sub-steps do, nor port P's registers or
the sequencer (46_encoder.md R314, R321). -/
structure CodecIgnores (σ : State → State) : Prop extends SubStepsIgnore σ where
  args : ∀ s, (σ s).args .p = s.args .p
  seq : ∀ s, (σ s).seq = s.seq
  onSeq : ∀ s x, (σ s).setSeq x = σ (s.setSeq x)
  onComplete : ∀ s c a b d, complete .p c a b d (σ s) = σ (complete .p c a b d s)

section

variable {σ : State → State} (h : CodecIgnores σ)

include h

theorem CodecIgnores.onRaise (c : StatusCode) (s : State) : raiseStatus .p c (σ s) = σ (raiseStatus .p c s) :=
  h.onComplete s c 0 0 0

theorem CodecIgnores.onFail (b : ErrBit) (c : StatusCode) (s : State) :
    failWith .p b c (σ s) = σ (failWith .p b c s) := by
  rw [failWith, h.onErr, h.onRaise, failWith]

/-- A unit command whose effect and results do not depend on what `σ` changes. -/
theorem CodecIgnores.onFinish {e e' : Eff} {d d' : State → State} (he : e' = e.map σ)
    (hd : ∀ t, d' (σ t) = σ (d t)) : finish e' d' = Outcome.mapNext σ (finish e d) := by
  rw [he]
  exact finish_map hd h.onRaise e

theorem CodecIgnores.onEncodeValidate (s : State) : encodeValidate (σ s) = σ (encodeValidate s) := by
  have hrefusal : encodeRefusal (σ s) = (encodeRefusal s).map σ := by
    simp only [encodeRefusal, h.args, h.cfg, h.slot, h.onRaise, h.onFail]
    split_ifs <;> rfl
  rw [encodeValidate, hrefusal, encodeValidate]
  cases encodeRefusal s with
  | none => exact h.onSeq ..
  | some t => exact h.onSeq ..

theorem CodecIgnores.onEncodeAdvance (pos : Seq) (e : Eff) :
    encodeAdvance pos (e.map σ) = Outcome.mapNext σ (encodeAdvance pos e) := by
  cases e with
  | ok t =>
    have hdone (u : State) : encodeDone (σ u) = σ (encodeDone u) := by
      rw [encodeDone, h.args, h.slot, h.onComplete, encodeDone]
    simp only [Eff.map_ok, encodeAdvance, h.args, h.onSeq, hdone]
    split_ifs <;> rfl
  | raised c t => rw [Eff.map_raised, encodeAdvance, h.onSeq, h.onRaise]; rfl
  | stuck r => rfl

theorem CodecIgnores.onEncode (s : State) : execEncode (σ s) = Outcome.mapNext σ (execEncode s) := by
  simp only [execEncode, h.seq, h.onEncodeValidate, h.onSeqEffect (h.args s), h.onEncodeAdvance]
  split <;> rfl

theorem CodecIgnores.onEntropyCommand (ch : Channel) (s : State) :
    entropyCommand ch (σ s) = Outcome.mapNext σ (entropyCommand ch s) := by
  refine h.onFinish (h.onEntropyStep ch s) fun t => ?_
  simp only [entropyDone, h.blk, h.pred, h.sessSize, h.onComplete]

theorem CodecIgnores.onExecChroma (ch : Chroma) (s : State) :
    exec ch.instr (σ s) = Outcome.mapNext σ (exec ch.instr s) := by
  rw [exec_chroma, exec_chroma, h.args]
  exact h.onFinish (h.onExtractChroma ..) fun t => h.onComplete ..

/-- A codec command's step and the change can be made in either order. -/
theorem CodecIgnores.onExec {i : Instr} (hp : i.port = .p) (hfill : i ≠ .acqfill) (hpublish : i ≠ .publish)
    (s : State) : exec i (σ s) = Outcome.mapNext σ (exec i s) := by
  cases i with
  | acqfill => exact absurd rfl hfill
  | publish => exact absurd rfl hpublish
  | acqread | release => cases hp
  | encode => exact h.onEncode s
  | sessionBegin =>
    simp only [exec, execSessionBegin, h.args, h.cfg, h.slot, h.onRaise, h.onFail, h.onBegin, h.onComplete]
    split_ifs <;> rfl
  | emitHeaders =>
    refine h.onFinish (h.onNeedSession ?_) fun t => ?_
    · rw [h.args]
      split
      · rfl
      · exact h.onHeadersStep ..
    · simp only [h.args, h.sessSize, h.onComplete]
  | extractY =>
    rw [exec_extractY, h.args]
    exact h.onFinish (h.onExtractLuma ..) fun t => h.onComplete ..
  | extractCb => exact h.onExecChroma .cb s
  | extractCr => exact h.onExecChroma .cr s
  | fdct => simp only [exec, execFdct, h.onFdctStep, h.onComplete, Outcome.mapNext]
  | quantY => simp only [exec, execQuantY, h.onQuantLumaStep, h.onComplete, Outcome.mapNext]
  | quantC => simp only [exec, execQuantC, h.onQuantChromaStep, h.onComplete, Outcome.mapNext]
  | entropyY | entropyCb | entropyCr => exact h.onEntropyCommand ..
  | writeBits =>
    refine h.onFinish (h.onNeedSession ?_) fun t => ?_
    · rw [h.args]
      split
      · rfl
      · exact h.onEmitBits ..
    · rw [h.sessSize, h.sess, h.onComplete]
  | flushBits => exact h.onFinish (h.onFlushStep s) fun t => by rw [h.sessSize, h.onComplete]
  | emitEoi => exact h.onFinish (h.onEoiStep s) fun t => by rw [h.sessSize, h.onComplete]
  | blkRead =>
    simp only [exec, execBlkRead, h.args, h.blk, h.onRaise, h.onComplete]
    split_ifs <;> rfl
  | blkWrite =>
    simp only [exec, execBlkWrite, h.args, h.blk, h.onBlk, h.onRaise, h.onComplete]
    split_ifs <;> rfl

end

/-- Settles O39: the change is one that codec commands ignore. -/
theorem codecCommandsIgnoreTheQueues : Obligations.CodecCommandsIgnoreTheQueues := by
  intro i s c w fq flq d hp hfill hpublish
  have hignores : CodecIgnores fun t : State =>
      { t with portC := c, waitActive := w, freeQ := fq, filledQ := flq, readData := d } := by
    constructor
    · constructor <;> intros <;> rfl
    all_goals intros; rfl
  exact hignores.onExec hp hfill hpublish s

end Sys2Proof.Machine
end

section
/-! PROOFS. ENCODE's sub-steps as unit commands (46_encoder.md R315, R319, R320): the unit command a position names has
the sub-step's effect, and ENCODE ends that effect in its own way. -/

namespace Sys2Proof.Machine

/-! ## The statuses that sub-steps raise -/

/-- What the sub-step raises is never OK. -/
def Eff.RaisesFailure (e : Eff) : Prop := ∀ c t, e = .raised c t → c ≠ .ok

theorem Eff.RaisesOnly.failure {e : Eff} {c : StatusCode} (h : e.RaisesOnly c) (hc : c ≠ .ok) : e.RaisesFailure :=
  fun c' t he => h c' t he ▸ hc

theorem raisesFailure_ok (s : State) : (Eff.ok s).RaisesFailure := fun _ _ h => nomatch h

theorem raisesFailure_needSession {e : Eff} (h : e.RaisesFailure) (s : State) : (needSession s e).RaisesFailure := by
  unfold needSession
  split
  · exact h
  · rintro c t ⟨⟩
    decide

theorem sinkBytes_raisesOnly (l : List Byte) (s : State) : (sinkBytes l s).RaisesOnly .capacityExceeded := by
  induction l generalizing s with
  | nil => exact Eff.raisesOnly_ok s _
  | cons v l ih => exact Eff.RaisesOnly.bind (sinkByte_raisesOnly v s) ih

theorem flushBits_raisesOnly (s : State) : (flushBits s).RaisesOnly .capacityExceeded := by
  unfold flushBits
  split
  · exact Eff.raisesOnly_ok s _
  · exact drain_raisesOnly _ _

theorem RegionExtract.raisesFailure {s : State} {a : Args} {r c size n : Nat} {readable : Prop} {b : Block} {e : Eff}
    (h : RegionExtract s a r c size n readable b e) : e.RaisesFailure := by
  obtain rfl | ⟨code, hcode, rfl⟩ | rfl := h.ok_or_raised_or_stuck
  · exact raisesFailure_ok _
  · rintro c t ⟨⟩
    exact hcode
  · exact fun _ _ h => nomatch h

theorem raisesFailure_entropyStep (ch : Channel) (s : State) : (entropyStep ch s).RaisesFailure := by
  refine raisesFailure_needSession ?_ s
  split
  · exact (emitItems_raisesOnly _ _).failure nofun
  · rintro c t ⟨⟩
    decide

theorem raisesFailure_seqEffect (pos : Seq) (s : State) : (seqEffect pos s).RaisesFailure := by
  cases pos with
  | validate | beginSession | done => exact raisesFailure_ok _
  | headers => exact (sinkBytes_raisesOnly _ _).failure nofun
  | flush => exact raisesFailure_needSession ((flushBits_raisesOnly s).failure nofun) s
  | eoi =>
    have hbytes := (sinkBytes_raisesOnly eoiBytes s).bind fun t => Eff.raisesOnly_ok (closeSession t) _
    exact raisesFailure_needSession (hbytes.failure nofun) s
  | block mr mc b u =>
    cases u with
    | extract =>
      cases b with
      | y0 | y1 | y2 | y3 => exact (extractLuma_regionExtract ..).raisesFailure
      | cb | cr => exact (extractChroma_regionExtract ..).raisesFailure
    | fdct | quant => exact raisesFailure_ok _
    | entropy => exact raisesFailure_entropyStep _ s

/-! ## Port P's registers -/

/-- Replacing port P's registers is ignored: a sub-step gets its operands as parameters. -/
theorem subStepsIgnore_portP (f : PortRegs → PortRegs) : SubStepsIgnore fun s => { s with portP := f s.portP } := by
  constructor <;> intros <;> rfl

theorem subStepsIgnore_withUnit (i : Instr) (a : Args) : SubStepsIgnore (withUnit i a) :=
  subStepsIgnore_portP fun r => { r with latchWord := encode i, latchArg := a }

/-- A change that makes no difference to a sub-step's end leaves the state it ends in as it is. -/
theorem Eff.ends_of_map_eq {e : Eff} {f : State → State} (h : e.map f = e) :
    e.Ends (fun t => f t = t) fun t => f t = t := by
  cases e with
  | ok t => exact Eff.ok.inj h
  | raised c t => exact (Eff.raised.inj h).2
  | stuck r => trivial

/-- A sub-step writes no register of port P (R319): putting back the ones it started with makes no difference. -/
theorem seqEffect_portP (pos : Seq) (s : State) :
    (seqEffect pos s).Ends (fun t => t.portP = s.portP) fun t => t.portP = s.portP := by
  have hput := (subStepsIgnore_portP fun _ => s.portP).onSeqEffect (s := s) rfl pos
  have hport (t : State) (ht : { t with portP := s.portP } = t) : t.portP = s.portP := (congrArg State.portP ht).symm
  exact (Eff.ends_of_map_eq hput.symm).mono hport hport

/-! ## The unit commands -/

/-- The outcome of a unit command of effect `e`: it completes OK, with some results, or ends as `e` does. -/
def UnitOutcome (o : Host.Outcome State Fault Refusal) (e : Eff) : Prop :=
  ∃ r0 r1 r2 : State → Word, o = finish e fun t => complete .p .ok (r0 t) (r1 t) (r2 t) t

/-- The origin of a block inside the grid is a 16-bit row and column (46_encoder.md R312, R313). -/
theorem blockOrigin_lt {mr mc h w : Nat} (hh : h ≤ 65535) (hw : w ≤ 65535) (hr : mr < h / 16) (hc : mc < w / 16)
    (b : BlockId) : (blockOrigin mr mc b).1 < 2 ^ 16 ∧ (blockOrigin mr mc b).2 < 2 ^ 16 := by
  cases b <;> constructor <;> simp only [blockOrigin] <;> omega

theorem opRow_origin {a0 a1 a2 a3 : Word} {mr mc : Nat} {b : BlockId} (h : (blockOrigin mr mc b).1 < 2 ^ 16) :
    opRow #v[a0, a1, a2, a3, originWord mr mc b] = (blockOrigin mr mc b).1 := by
  change (BitVec.extractLsb' 16 16 (originWord mr mc b)).toNat = _
  rw [originWord, BitVec.extractLsb'_append_eq_left, BitVec.toNat_ofNat, Nat.mod_eq_of_lt h]

theorem opCol_origin {a0 a1 a2 a3 : Word} {mr mc : Nat} {b : BlockId} (h : (blockOrigin mr mc b).2 < 2 ^ 16) :
    opCol #v[a0, a1, a2, a3, originWord mr mc b] = (blockOrigin mr mc b).2 := by
  change (BitVec.extractLsb' 0 16 (originWord mr mc b)).toNat = _
  rw [originWord, BitVec.extractLsb'_append_eq_right, BitVec.toNat_ofNat, Nat.mod_eq_of_lt h]

/-- The unit command that a position names has the effect of the position's sub-step (R319). -/
theorem EncodeAt.unitOutcome {s : State} {pos : Seq} {i : Instr} {a : Args} (h : EncodeAt s pos)
    (hu : encodeUnit (s.args .p) pos = some (i, a)) :
    UnitOutcome (exec i (withUnit i a s)) ((seqEffect pos s).map (withUnit i a)) := by
  have hi := subStepsIgnore_withUnit i a
  cases pos with
  | validate | done => cases hu
  | beginSession =>
    cases hu
    refine ⟨fun _ => resNat (opEncodeSlot (s.args .p)), fun _ => 0, fun _ => 0, ?_⟩
    rw [seqEffect, Eff.map_ok, ← hi.onBegin]
    exact (if_neg (Nat.not_le.mpr h.operands.2)).trans (if_neg (not_not.mpr h.held))
  | headers =>
    cases hu
    obtain ⟨hopen, -⟩ := h.session (by decide)
    obtain ⟨⟨-, hw, hh, -, -⟩, -⟩ := h.operands
    have hdims : ¬(badDimension (opWidth (s.args .p)) || badDimension (opHeight (s.args .p))) = true := by
      rw [Bool.or_eq_true, badDimension_iff, badDimension_iff]
      omega
    rw [exec_emitHeaders_of_open (s := withUnit _ _ s) hopen, seqEffect, ← hi.onHeadersStep]
    exact ⟨_, _, _, congrArg (finish · _) (if_neg hdims)⟩
  | flush =>
    cases hu
    rw [seqEffect, ← hi.onFlushStep]
    exact ⟨fun t => resNat t.sessSize, fun _ => 0, fun _ => 0, rfl⟩
  | eoi =>
    cases hu
    rw [seqEffect, ← hi.onEoiStep]
    exact ⟨fun t => resNat t.sessSize, fun _ => 0, fun _ => 0, rfl⟩
  | block mr mc b u =>
    cases u with
    | extract =>
      obtain ⟨hr, hc⟩ := h.inGrid mr mc b _ rfl
      obtain ⟨⟨-, ⟨-, hw⟩, ⟨-, hh⟩, -, -⟩, -⟩ := h.operands
      obtain ⟨hrow, hcol⟩ := blockOrigin_lt hh hw hr hc b
      cases hu
      rw [seqEffect, ← hi.onBlockExtract]
      refine ⟨fun _ => 0, fun _ => 0, fun _ => 0, ?_⟩
      simp only [blockExtract]
      rw [← opRow_origin hrow, ← opCol_origin hcol]
      cases b <;> rfl
    | fdct =>
      cases hu
      rw [seqEffect, Eff.map_ok, ← hi.onFdctStep]
      exact ⟨fun _ => 0, fun _ => 0, fun _ => 0, rfl⟩
    | quant =>
      cases hu
      rw [seqEffect, Eff.map_ok, ← hi.onBlockQuant]
      refine ⟨fun _ => 0, fun _ => 0, fun _ => 0, ?_⟩
      cases b <;> rfl
    | entropy =>
      cases hu
      rw [seqEffect, ← hi.onEntropyStep, exec_entropyOf]
      exact ⟨fun _ => resNat (itemBits _), fun t => resNat t.sessSize, fun t => zext16 (t.pred.get _), rfl⟩

/-- After a sub-step that is done, and is not Eoi's, ENCODE goes on to the next position (R319). -/
theorem EncodeAt.advance_ok {s t : State} {pos : Seq} (h : EncodeAt s pos) (hp : t.portP = s.portP)
    (hpos : pos ≠ .eoi) : encodeAdvance pos (.ok t) =
      .next (t.setSeq (some (nextSeq (opHeight (s.args .p) / 16) (opWidth (s.args .p) / 16) pos))) := by
  have hargs : t.args .p = s.args .p := congrArg PortRegs.latchArg hp
  simp only [encodeAdvance, hargs]
  exact if_neg (nextSeq_ne_done _ _ h.running.2 hpos)

/-- Settles O57: both commands have the sub-step's effect, and differ only in how they end it. -/
theorem encodeSubStepsAreUnitCommands : Obligations.EncodeSubStepsAreUnitCommands := by
  intro s pos i a hat hu
  obtain ⟨r0, r1, r2, hunit⟩ := hat.unitOutcome hu
  have hports := seqEffect_portP pos s
  rw [hunit, hat.exec_encode]
  cases he : seqEffect pos s with
  | stuck r =>
    refine ⟨fun f hf => ?_, fun u hu' => nomatch hu'⟩
    cases hf
    rfl
  | raised c t =>
    have hport : t.portP = s.portP := by rwa [he] at hports
    refine ⟨fun f hf => (nomatch hf), ?_⟩
    rintro u ⟨⟩
    have hc : c ≠ .ok := raisesFailure_seqEffect pos s c t he
    exact ⟨_, rfl, rfl, fun hok => absurd hok hc, fun hok => absurd hok hc,
      fun _ => ⟨rfl, congrArg (PortRegs.completed · c 0 0 0) hport⟩⟩
  | ok t =>
    have hport : t.portP = s.portP := by rwa [he] at hports
    refine ⟨fun f hf => (nomatch hf), ?_⟩
    rintro u ⟨⟩
    by_cases hpos : pos = .eoi
    · subst hpos
      refine ⟨_, rfl, rfl, fun _ hne => absurd rfl hne, fun _ _ => ⟨rfl, ?_⟩, fun hne => absurd rfl hne⟩
      have hargs : (t.setSeq (some .done)).args .p = s.args .p := congrArg PortRegs.latchArg hport
      rw [encodeDone_of_args hargs]
      exact congrArg (PortRegs.completed · .ok _ _ 0) hport
    · exact ⟨_, hat.advance_ok hport hpos, rfl, fun _ _ => ⟨hport, rfl⟩, fun _ heoi => absurd heoi hpos,
        fun hne => absurd rfl hne⟩

end Sys2Proof.Machine
end

section
/-! PROOFS. The pool commands and the consumer's reads (47_pool.md R341 to R345, R349, R350, R353): each command's
outcome as an equation, the reads that are admitted, and the counts of the queues and of the held slots. -/

namespace Sys2Proof.Machine

/-! ## Port P's commands -/

theorem exec_acqfill_of_free {s : State} {i : Nat} {q : List Nat} (hq : s.freeQ = i :: q) :
    exec .acqfill s = .next (grantFill i (s.setFreeQ q)) := by
  simp [exec, execAcqfill, hq]

theorem exec_acqfill_of_filled {s : State} {i : Nat} {q : List Nat} (hf : s.freeQ = []) (hq : s.filledQ = i :: q) :
    exec .acqfill s = .next (grantFill i (s.setFilledQ q)) := by
  simp [exec, execAcqfill, hf, hq]

theorem exec_acqfill_of_none {s : State} (hf : s.freeQ = []) (hq : s.filledQ = []) :
    exec .acqfill s = .next (raiseStatus .p .notAvailable s) := by
  simp [exec, execAcqfill, hf, hq]

/-- Settles O14: the three cases are those of the two queues' heads. -/
theorem acqfillTakesTheOldestFreeOrSteals : Obligations.AcqfillTakesTheOldestFreeOrSteals :=
  fun _ => ⟨fun _ _ hq => exec_acqfill_of_free hq, fun _ _ hf hq => exec_acqfill_of_filled hf hq,
    fun hf hq => exec_acqfill_of_none hf hq⟩

/-- Settles O15: the refusals are the checks in their order, and past them the index is queued. -/
theorem publishQueuesAHeldSlot : Obligations.PublishQueuesAHeldSlot := by
  rintro s _ rfl
  refine ⟨fun hn => if_pos hn, fun hn hrefused => ?_, fun hn hl hs => ?_⟩
  · refine (if_neg (Nat.not_le.mpr hn)).trans ?_
    by_cases hl : (s.slot (s.args .p)[0].toNat).loc = .producerHeld
    · exact (if_neg (not_not.mpr hl)).trans (if_pos (hrefused.resolve_left (not_not.mpr hl)))
    · exact if_pos hl
  · exact (if_neg (Nat.not_le.mpr hn)).trans ((if_neg (not_not.mpr hl)).trans (if_neg hs))

/-! ## ACQREAD -/

theorem State.setWait_self {s : State} {b : Bool} (h : s.waitActive = b) : s.setWait b = s := by subst h; rfl

/-- The first evaluation and every wait step take the head alike, and no wait is left (47_pool.md R343, R344). -/
theorem exec_acqread_of_cons {s : State} {i : Nat} {q : List Nat} (hq : s.filledQ = i :: q) :
    exec .acqread s = .next (takeFilled i q (s.setWait false)) := by
  cases hw : s.waitActive with
  | true => simp [exec, execAcqread, hw, acqreadWait, hq]
  | false => simp [exec, execAcqread, hw, acqreadFirst, hq, State.setWait_self hw]

theorem takeFilled_of_filled {s : State} {i : Nat} (q : List Nat) (h : (s.slot i).state = .filled) :
    takeFilled i q s = complete .c .ok (resNat (bufAddr s.cfg i)) (resNat (s.slot i).size) (resNat i)
      ((s.setFilledQ q).modSlot i fun x => x.move .checkedOut .consumerHeld) :=
  if_neg (not_not.mpr h)

theorem takeFilled_of_other {s : State} {i : Nat} (q : List Nat) (h : (s.slot i).state ≠ .filled) :
    takeFilled i q s = failWith .c .protocol .invalidState (dropIndex i s) :=
  if_pos h

/-- Settles O16: a Filled head is checked out, any other is dropped, and a dropped index is lost. -/
theorem acqreadChecksOutTheOldestFilled : Obligations.AcqreadChecksOutTheOldestFilled := by
  intro s i rest hq
  refine ⟨fun hp => (hp.filled (by rw [hq]; exact List.mem_cons_self)).2, fun hfilled => ?_, fun hother => ?_⟩
  · rw [exec_acqread_of_cons hq, takeFilled_of_filled (s := s.setWait false) rest hfilled]
    rfl
  · have dropped : s.filledQ.filter (· ≠ i) = rest.filter (· ≠ i) := by simp [hq]
    refine ⟨faultErr .protocol (dropIndex i (s.setWait false)), ?_, lost_dropIndex i (s.setWait false), ?_⟩
    · rw [exec_acqread_of_cons hq, takeFilled_of_other (s := s.setWait false) rest hother]
      rfl
    · rw [← dropped]
      rfl

theorem exec_acqread_of_nil {s : State} (hq : s.filledQ = []) :
    exec .acqread s = .next
      (if s.waitActive then
        if opTimeout (s.args .c) = waitForever then s
        else if Config.freeTimeout s.draws then raiseStatus .c .timeout ((s.setWait false).draw 1)
        else s.draw 1
      else if opTimeout (s.args .c) = 0 then raiseStatus .c .timeout s else s.setWait true) := by
  simp [exec, execAcqread, acqreadWait, acqreadFirst, hq]

/-- Settles O17: whether a wait stands, and then the timeout, says which of the four it is. -/
theorem acqreadPollsOrWaits : Obligations.AcqreadPollsOrWaits := by
  intro s hq
  rw [exec_acqread_of_nil hq]
  refine ⟨fun hw ht => ?_, fun hw ht => ?_, fun hw ht => ?_, fun hw ht => ?_⟩
  · exact congrArg _ ((if_neg (ne_true_of_eq_false hw)).trans (if_pos ht))
  · exact congrArg _ ((if_neg (ne_true_of_eq_false hw)).trans (if_neg ht))
  · exact congrArg _ ((if_pos hw).trans (if_pos ht))
  · exact congrArg _ ((if_pos hw).trans (if_neg ht))

/-! ## RELEASE -/

theorem exec_release_of_foreign {s : State} (h : resolve s.cfg (opBuffer (s.args .c)) = none) :
    exec .release s = .next (failWith .c .foreignBuffer .invalidArgument s) := by
  simp [exec, execRelease, h]

theorem exec_release_of_refused {s : State} {i : Nat} (h : resolve s.cfg (opBuffer (s.args .c)) = some i)
    (hr : (s.slot i).state ≠ .checkedOut ∨ lost s i) :
    exec .release s = .next (failWith .c .doubleRelease .invalidState s) := by
  simp only [exec, execRelease, h, if_pos hr]

theorem exec_release_of_checkedOut {s : State} {i : Nat} (h : resolve s.cfg (opBuffer (s.args .c)) = some i)
    (hs : (s.slot i).state = .checkedOut) (hl : ¬lost s i) :
    exec .release s = .next (complete .c .ok (resNat i) 0 0
      ((s.modSlot i fun x => x.move .free .inFreeQueue).setFreeQ (s.freeQ ++ [i]))) := by
  simp only [exec, execRelease, h, if_neg (not_or.mpr ⟨not_not.mpr hs, hl⟩)]

/-- Settles O18: of all addresses exactly the slots' start addresses resolve. -/
theorem releaseFreesACheckedOutSlot : Obligations.ReleaseFreesACheckedOutSlot := by
  intro s hk
  constructor
  · intro i hi ha
    have resolved : resolve s.cfg (opBuffer (s.args .c)) = some i :=
      (congrArg (resolve s.cfg) ha).trans (resolve_bufAddr hk hi)
    exact ⟨exec_release_of_checkedOut resolved, exec_release_of_refused resolved⟩
  · intro hforeign
    refine exec_release_of_foreign (Option.eq_none_iff_forall_ne_some.mpr fun i hr => ?_)
    obtain ⟨hi, ha⟩ := resolve_some hk hr
    exact hforeign i hi ha

/-! ## POOL reads -/

/-- A read is admitted exactly below the size of a slot that the consumer holds (47_pool.md R350). -/
theorem admitted_iff (s : State) (a : Nat) : admitted s a = true ↔
    ∃ i < s.cfg.n, (s.slot i).loc = .consumerHeld ∧ bufAddr s.cfg i ≤ a ∧ a < bufAddr s.cfg i + (s.slot i).size := by
  simp [admitted, admittedIn]

/-- Settles O19: a byte below the size of a slot has a value, and a read outside the held contents is not admitted. -/
theorem consumerReadsOnlyItsSlots : Obligations.ConsumerReadsOnlyItsSlots := by
  intro s a
  constructor
  · intro hc i o hi hl ho ha
    have address : a.toNat = bufAddr s.cfg i + o := ha
    have hadmitted : admitted s a.toNat = true := (admitted_iff s _).mpr ⟨i, hi, hl, by omega, by omega⟩
    obtain ⟨v, hv⟩ := Option.isSome_iff_exists.mp (hc.written i hi o ho)
    rw [← address] at hv
    refine ⟨v, hv, (if_pos ⟨rfl, hadmitted⟩).trans ?_⟩
    rw [hv]
    rfl
  · intro who hwho
    refine if_neg ?_
    rintro ⟨rfl, hadmitted⟩
    obtain ⟨i, hi, hl, hfrom, hto⟩ := (admitted_iff s _).mp hadmitted
    obtain hbefore | hbeyond := hwho.resolve_left (by decide) i hi hl
    · exact Nat.not_le.mpr hbefore hfrom
    · exact Nat.not_le.mpr hto hbeyond

/-! ## Counts -/

/-- Under the ownership invariant no index stands in a queue twice (47_pool.md R348). -/
theorem PoolInv.count_le_one {s : State} (h : PoolInv s) (i : Nat) : s.freeQ.count i ≤ 1 ∧ s.filledQ.count i ≤ 1 := by
  constructor
  · by_cases hi : i ∈ s.freeQ
    · exact (h.counts_free hi).1.le
    · rw [List.count_eq_zero_of_not_mem hi]; exact Nat.zero_le 1
  · by_cases hi : i ∈ s.filledQ
    · exact (h.counts_filled hi).2.1.le
    · rw [List.count_eq_zero_of_not_mem hi]; exact Nat.zero_le 1

/-- A queue that holds each index at a location once, and no other, is as long as there are slots there. -/
theorem length_eq_slotsAt {s : State} {l : SlotLoc} {q : List Nat} (hone : ∀ i, q.count i ≤ 1)
    (hmem : ∀ i, i ∈ q ↔ i < s.cfg.n ∧ (s.slot i).loc = l) : q.length = slotsAt s l := by
  refine (List.perm_ext_iff_of_nodup (List.nodup_iff_count_le_one.mpr hone)
    (List.nodup_range.filter _)).mpr (fun i => ?_) |>.length_eq
  rw [hmem, List.mem_filter, List.mem_range, decide_eq_true_iff]

theorem PoolInv.freeQ_length {s : State} (h : PoolInv s) : s.freeQ.length = slotsAt s .inFreeQueue := by
  refine length_eq_slotsAt (fun i => (h.count_le_one i).1) fun i => ⟨fun hi => ?_, fun ⟨hi, hl⟩ => ?_⟩
  · exact ⟨h.inRange i (.inl hi), (h.free hi).1⟩
  · have owned := h.owned i hi
    rw [ownedOnce, hl] at owned
    exact List.count_pos_iff.mp (owned.1 ▸ Nat.one_pos)

theorem PoolInv.filledQ_length {s : State} (h : PoolInv s) : s.filledQ.length = slotsAt s .inFilledQueue := by
  refine length_eq_slotsAt (fun i => (h.count_le_one i).2) fun i => ⟨fun hi => ?_, fun ⟨hi, hl⟩ => ?_⟩
  · exact ⟨h.inRange i (.inr hi), (h.filled hi).1⟩
  · have owned := h.owned i hi
    rw [ownedOnce, hl] at owned
    exact List.count_pos_iff.mp (owned.2.1 ▸ Nat.one_pos)

/-- Every slot is at one of the four locations. -/
theorem slotsAt_sum (s : State) :
    slotsAt s .inFreeQueue + slotsAt s .inFilledQueue + slotsAt s .producerHeld + slotsAt s .consumerHeld =
      s.cfg.n := by
  have byLocation (l : List Nat) :
      (l.filter fun i => decide ((s.slot i).loc = .inFreeQueue)).length +
        (l.filter fun i => decide ((s.slot i).loc = .inFilledQueue)).length +
        (l.filter fun i => decide ((s.slot i).loc = .producerHeld)).length +
        (l.filter fun i => decide ((s.slot i).loc = .consumerHeld)).length = l.length := by
    induction l with
    | nil => rfl
    | cons i l ih => cases hl : (s.slot i).loc <;> simp [hl] <;> omega
  exact (byLocation (List.range s.cfg.n)).trans List.length_range

/-- ACQFILL completes OK exactly when an index is queued (47_pool.md R341). -/
theorem acqfill_ok_iff (s : State) :
    (∃ t, exec .acqfill s = .next t ∧ t.portP.status.code = .ok) ↔ 0 < s.freeQ.length + s.filledQ.length := by
  cases hf : s.freeQ with
  | cons i q => exact iff_of_true ⟨_, exec_acqfill_of_free hf, rfl⟩ (by simp)
  | nil =>
    cases hq : s.filledQ with
    | cons i q => exact iff_of_true ⟨_, exec_acqfill_of_filled hf hq, rfl⟩ (by simp)
    | nil =>
      refine iff_of_false ?_ (by simp)
      rintro ⟨t, ht, hok⟩
      cases (exec_acqfill_of_none hf hq).symm.trans ht
      cases hok

/-- Settles O24: each queue is as long as there are slots at its location, and every slot is at one of four. -/
theorem queuesAndHeldSlotsAddUpToN : Obligations.QueuesAndHeldSlotsAddUpToN := by
  intro s h
  have total := slotsAt_sum s
  rw [← h.freeQ_length, ← h.filledQ_length] at total
  exact ⟨total, h.count_le_one, (acqfill_ok_iff s).trans (by omega)⟩

end Sys2Proof.Machine
end

section
/-! PROOFS. What a step does to the slots (44_bitstream.md R260, 47_pool.md R346, R348, R352): the moves of the four
pool commands as one relation, in every state, and the sizes that every other command changes. A step keeps the
ownership invariant, moves a slot only as listed, never reaches a lost one and resizes only a held one. -/

namespace Sys2Proof.Machine

/-! ## The moves of the pool commands -/

/-- The moves of the pool commands, in any state: slot `i` changes by `f`, and the queues become `fq` and `flq`. -/
inductive PoolMove (s : State) : (i : Nat) → (f : Slot → Slot) → (fq flq : List Nat) → Prop where
  | fill {i : Nat} {q : List Nat} (hq : s.freeQ = i :: q) :
    PoolMove s i (fun x => x.setLoc .producerHeld) q s.filledQ
  | steal {i : Nat} {q : List Nat} (hq : s.filledQ = i :: q) :
    PoolMove s i (fun x => x.setLoc .producerHeld) s.freeQ q
  | publish {i : Nat} (hi : producerHolds s i) :
    PoolMove s i (fun x => x.move .filled .inFilledQueue) s.freeQ (s.filledQ ++ [i])
  | checkOut {i : Nat} {q : List Nat} (hq : s.filledQ = i :: q) :
    PoolMove s i (fun x => x.move .checkedOut .consumerHeld) s.freeQ q
  | drop {i : Nat} {q : List Nat} (hq : s.filledQ = i :: q) (hs : (s.slot i).state ≠ .filled) :
    PoolMove s i (fun x => x.setLoc .inFilledQueue) (s.freeQ.filter (· ≠ i)) (s.filledQ.filter (· ≠ i))
  | release {i a : Nat} (hr : resolve s.cfg a = some i) (hs : (s.slot i).state = .checkedOut) (hl : ¬lost s i) :
    PoolMove s i (fun x => x.move .free .inFreeQueue) (s.freeQ ++ [i]) s.filledQ

section

variable {s : State} {i : Nat} {f : Slot → Slot} {fq flq : List Nat}

/-- Under the ownership invariant a move is one that the invariant allows; the drop cannot happen (47_pool.md R352). -/
theorem PoolMove.slotMove (h : PoolMove s i f fq flq) (hp : PoolInv s) : SlotMove s i f fq flq := by
  cases h with
  | fill hq => exact slotMove_fill hp hq
  | steal hq => exact slotMove_steal hp hq
  | publish hi => exact slotMove_publish hp hi
  | checkOut hq => exact slotMove_checkOut hp hq
  | drop hq hs => exact absurd (hp.filled (by rw [hq]; exact List.mem_cons_self)).2 hs
  | release hr hs _ =>
    have hi := (resolve_some hp.legal hr).1
    exact slotMove_release hp hi (hp.checkedOut hi hs)

/-- Under the ownership invariant a move is one of the listed transitions (47_pool.md R346). -/
theorem PoolMove.listed (h : PoolMove s i f fq flq) (hp : PoolInv s) :
    (((s.slot i).state, (s.slot i).loc), ((f (s.slot i)).state, (f (s.slot i)).loc)) ∈ slotMoves := by
  cases h with
  | fill hq =>
    obtain ⟨hl, hs⟩ := hp.free (i := i) (by rw [hq]; exact List.mem_cons_self)
    simp [Slot.setLoc, hl, hs, slotMoves]
  | steal hq =>
    obtain ⟨hl, hs⟩ := hp.filled (i := i) (by rw [hq]; exact List.mem_cons_self)
    simp [Slot.setLoc, hl, hs, slotMoves]
  | publish hi =>
    obtain ⟨-, -, hs | hs⟩ := hp.counts_producerHeld hi <;> simp [Slot.move, hi.2, hs, slotMoves]
  | checkOut hq =>
    obtain ⟨hl, hs⟩ := hp.filled (i := i) (by rw [hq]; exact List.mem_cons_self)
    simp [Slot.move, hl, hs, slotMoves]
  | drop hq hs => exact absurd (hp.filled (by rw [hq]; exact List.mem_cons_self)).2 hs
  | release hr hs _ =>
    have hl := hp.checkedOut (resolve_some hp.legal hr).1 hs
    simp [Slot.move, hl, hs, slotMoves]

/-- No move is of a lost index, and none queues one (47_pool.md R352). -/
theorem PoolMove.keeps_lost (h : PoolMove s i f fq flq) {j : Nat} (hj : lost s j) : j ≠ i ∧ j ∉ fq ∧ j ∉ flq := by
  obtain ⟨hfree, hfilled, hproducer, -⟩ := id hj
  cases h with
  | fill hq =>
    rw [hq, List.mem_cons, not_or] at hfree
    exact ⟨hfree.1, hfree.2, hfilled⟩
  | steal hq | checkOut hq =>
    rw [hq, List.mem_cons, not_or] at hfilled
    exact ⟨hfilled.1, hfree, hfilled.2⟩
  | publish hi =>
    have hne : j ≠ i := by rintro rfl; exact hproducer hi.2
    exact ⟨hne, hfree, by simp [hfilled, hne]⟩
  | drop hq _ =>
    have hne : j ≠ i := by rintro rfl; exact hfilled (by rw [hq]; exact List.mem_cons_self)
    exact ⟨hne, by simp [hfree], by simp [hfilled]⟩
  | release _ _ hl =>
    have hne : j ≠ i := by rintro rfl; exact hl hj
    exact ⟨hne, by simp [hfree, hne], hfilled⟩

end

/-- A pool command changes no slot and no queue, or makes one of the moves. -/
theorem exec_poolMove {c : Instr} {s t : State} (hm : movesSlots c = true) (h : exec c s = .next t) :
    SameSlots s t ∨ ∃ i f fq flq, PoolMove s i f fq flq ∧ SameSlots (moveSlot s i f fq flq) t := by
  cases c with
  | acqfill =>
    cases hf : s.freeQ with
    | cons i q =>
      cases (exec_acqfill_of_free hf).symm.trans h
      exact .inr ⟨_, _, _, _, .fill hf, sameSlots_complete ..⟩
    | nil =>
      cases hq : s.filledQ with
      | cons i q =>
        cases (exec_acqfill_of_filled hf hq).symm.trans h
        exact .inr ⟨_, _, _, _, .steal hq, sameSlots_complete ..⟩
      | nil =>
        cases (exec_acqfill_of_none hf hq).symm.trans h
        exact .inl (sameSlots_complete ..)
  | publish =>
    obtain ⟨outOfRange, refused, queued⟩ := publishQueuesAHeldSlot s _ rfl
    by_cases hn : s.cfg.n ≤ (s.args .p)[0].toNat
    · cases (outOfRange hn).symm.trans h
      exact .inl (sameSlots_complete ..)
    have hi := Nat.lt_of_not_le hn
    by_cases hr : (s.slot (s.args .p)[0].toNat).loc ≠ .producerHeld ∨
        s.sess.isOpen = true ∧ s.sess.slot = (s.args .p)[0].toNat
    · cases (refused hi hr).symm.trans h
      exact .inl (sameSlots_failWith .p .protocol .invalidState s)
    · obtain ⟨hl, hs⟩ := not_or.mp hr
      cases (queued hi (not_not.mp hl) hs).symm.trans h
      exact .inr ⟨_, _, _, _, .publish ⟨hi, not_not.mp hl⟩, sameSlots_complete ..⟩
  | acqread =>
    cases hq : s.filledQ with
    | cons i q =>
      cases (exec_acqread_of_cons hq).symm.trans h
      by_cases hs : (s.slot i).state = .filled
      · rw [takeFilled_of_filled (s := s.setWait false) q hs]
        exact .inr ⟨_, _, _, _, .checkOut hq, ⟨rfl, rfl, rfl, rfl, rfl, rfl, rfl⟩⟩
      · rw [takeFilled_of_other (s := s.setWait false) q hs]
        exact .inr ⟨_, _, _, _, .drop hq hs, ⟨rfl, rfl, rfl, rfl, rfl, rfl, rfl⟩⟩
    | nil =>
      cases (exec_acqread_of_nil hq).symm.trans h
      left
      repeat' split
      all_goals exact ⟨rfl, rfl, rfl, rfl, rfl, rfl, rfl⟩
  | release =>
    cases hr : resolve s.cfg (opBuffer (s.args .c)) with
    | none =>
      cases (exec_release_of_foreign hr).symm.trans h
      exact .inl (sameSlots_failWith ..)
    | some i =>
      by_cases hs : (s.slot i).state ≠ .checkedOut ∨ lost s i
      · cases (exec_release_of_refused hr hs).symm.trans h
        exact .inl (sameSlots_failWith ..)
      · obtain ⟨hstate, hlost⟩ := not_or.mp hs
        cases (exec_release_of_checkedOut hr (not_not.mp hstate) hlost).symm.trans h
        exact .inr ⟨_, _, _, _, .release hr (not_not.mp hstate) hlost, ⟨rfl, rfl, rfl, rfl, rfl, rfl, rfl⟩⟩
  | _ => cases hm

theorem exec_codecFrame_of_not_moves {c : Instr} {s t : State} (hm : movesSlots c = false) (h : exec c s = .next t) :
    CodecFrame s t := by
  cases c with
  | acqfill | publish | acqread | release => cases hm
  | _ => exact exec_codecFrame rfl (by decide) (by decide) h

/-! ## Steps -/

theorem SameSlots.trans {s t u : State} (h : SameSlots s t) (h' : SameSlots t u) : SameSlots s u where
  cfg := h'.cfg.trans h.cfg
  slots := h'.slots.trans h.slots
  freeQ := h'.freeQ.trans h.freeQ
  filledQ := h'.filledQ.trans h.filledQ
  pool := h'.pool.trans h.pool
  isOpen := h'.isOpen.trans h.isOpen
  slot := h'.slot.trans h.slot

theorem Before.sameSlots {s u : State} (h : Before s u) : SameSlots s u := by
  cases h <;> exact ⟨rfl, rfl, rfl, rfl, rfl, rfl, rfl⟩

theorem sameSlots_setPort (q : Port) (r : PortRegs) (s : State) : SameSlots s (s.setPort q r) := by
  cases q <;> exact ⟨rfl, rfl, rfl, rfl, rfl, rfl, rfl⟩

theorem sameSlots_regWrite (width : AccessWidth) (off : BitVec 12) (w : Word) (s : State) :
    SameSlots s (regWrite width off w s) := by
  obtain h | h | ⟨q, h⟩ | ⟨q, k, h⟩ := regWrite_cases width off w s <;> rw [h]
  · exact .refl s
  · exact ⟨rfl, rfl, rfl, rfl, rfl, rfl, rfl⟩
  · unfold writeCmd
    split
    · exact (sameSlots_setPort q _ s).trans ⟨rfl, rfl, rfl, rfl, rfl, rfl, rfl⟩
    · exact sameSlots_issue q w s
  · exact sameSlots_setPort q _ s

theorem sameSlots_regRead (width : AccessWidth) (off : BitVec 12) (s : State) : SameSlots s (regRead width off s) := by
  unfold regRead
  split <;> exact ⟨rfl, rfl, rfl, rfl, rfl, rfl, rfl⟩

theorem sameSlots_poolRead {who : Agent} {a : Nat} {s t : State} (h : poolRead who a s = .next t) : SameSlots s t := by
  obtain ⟨v, -, rfl⟩ | rfl := poolRead_cases h <;> exact ⟨rfl, rfl, rfl, rfl, rfl, rfl, rfl⟩

theorem poolInv_hardReset {k : Config} {s t : State} (h : hardReset k s = .next t) : PoolInv t := by
  unfold hardReset at h
  split at h <;> cases h
  rename_i hk
  exact (contentInv_resetKeeping hk).toPoolInv

/-- A step changes no slot and no queue, or is a reset, or executes a command. -/
theorem step_slots {s t : State} (h : step s = .next t) :
    SameSlots s t ∨ (∃ k, s.inputs.head? = some (.reset k) ∧ PoolInv t) ∨
      ∃ u c, Before s u ∧ (c = .encode → encoding u) ∧ exec c u = .next t := by
  have taken (rest : List Input) : SameSlots s (s.setInputs rest) := (Before.granted rest).sameSlots
  obtain ⟨q, u, hu, hb, hr⟩ | ⟨rest, w, off, v, -, rfl⟩ | ⟨rest, w, off, -, rfl⟩ | ⟨rest, who, a, -, hr⟩ |
    ⟨rest, a, v, -, rfl⟩ | ⟨rest, k, hi, hr⟩ | ⟨rest, q, -, -, rfl⟩ | ⟨-, -, -, rfl⟩ := step_cases h
  · obtain ⟨c, hd, he⟩ | ⟨-, rfl⟩ := runPort_cases hr
    · refine .inr (.inr ⟨u, c, hu, ?_, he⟩)
      rintro rfl
      cases decode_port hd
      exact ⟨hb, hd⟩
    · exact .inl (hu.sameSlots.trans (sameSlots_failWith ..))
  · exact .inl ((taken rest).trans (sameSlots_regWrite ..))
  · exact .inl ((taken rest).trans (sameSlots_regRead ..))
  · exact .inl ((taken rest).trans (sameSlots_poolRead hr))
  · exact .inl ((taken rest).trans ⟨rfl, rfl, rfl, rfl, rfl, rfl, rfl⟩)
  · exact .inr (.inl ⟨k, by rw [hi]; rfl, poolInv_hardReset hr⟩)
  · exact .inl (taken rest)
  · exact .inl (.refl _)

/-! ## The ownership invariant -/

theorem PoolInv.exec {c : Instr} {s t : State} (hp : PoolInv s) (h : exec c s = .next t) : PoolInv t := by
  cases hm : movesSlots c with
  | false => exact hp.of_frame (exec_codecFrame_of_not_moves hm h)
  | true =>
    obtain same | ⟨i, f, fq, flq, hmove, same⟩ := exec_poolMove hm h
    · exact same.keeps.pool hp
    · exact same.keeps.pool ((hmove.slotMove hp).poolInv hp)

/-- Settles O20: a move puts its slot in one place with a state that place allows, and no other step moves a slot. -/
theorem stepKeepsThePoolInvariant : Obligations.StepKeepsThePoolInvariant := by
  intro s t hp h
  obtain same | ⟨k, -, hreset⟩ | ⟨u, c, hu, -, he⟩ := step_slots h
  · exact same.keeps.pool hp
  · exact hreset
  · exact (hu.sameSlots.keeps.pool hp).exec he

/-! ## Listed transitions and lost indices -/

/-- What the moves and the lost indices depend on is the same. -/
structure SamePlaces (s t : State) : Prop where
  state : ∀ i, (t.slot i).state = (s.slot i).state
  loc : ∀ i, (t.slot i).loc = (s.slot i).loc
  freeQ : t.freeQ = s.freeQ
  filledQ : t.filledQ = s.filledQ

theorem CodecFrame.samePlaces {s t : State} (h : CodecFrame s t) : SamePlaces s t :=
  ⟨h.state, h.loc, h.freeQ, h.filledQ⟩

theorem SameSlots.samePlaces {s t : State} (h : SameSlots s t) : SamePlaces s t :=
  ⟨fun i => by rw [State.slot_congr h.slots], fun i => by rw [State.slot_congr h.slots], h.freeQ, h.filledQ⟩

/-- Between `s` and `t` slot `i` makes at most one listed transition, and none when it is lost (47_pool.md R346,
R352). -/
structure ListedMove (s t : State) (i : Nat) : Prop where
  place : PoolInv s → i < s.cfg.n →
    ((s.slot i).state, (s.slot i).loc) = ((t.slot i).state, (t.slot i).loc) ∨
      (((s.slot i).state, (s.slot i).loc), ((t.slot i).state, (t.slot i).loc)) ∈ slotMoves
  lost : lost s i → lost t i ∧ (t.slot i).state = (s.slot i).state ∧ (t.slot i).loc = (s.slot i).loc

theorem SamePlaces.listedMove {s t : State} (h : SamePlaces s t) (i : Nat) : ListedMove s t i where
  place _ _ := .inl (by rw [h.state, h.loc])
  lost hl := ⟨by rwa [Machine.lost, h.freeQ, h.filledQ, h.loc], h.state i, h.loc i⟩

theorem ListedMove.then_same {s t u : State} {i : Nat} (h : ListedMove s t i) (h' : SamePlaces t u) :
    ListedMove s u i where
  place hp hi := by rw [h'.state, h'.loc]; exact h.place hp hi
  lost hl := by
    obtain ⟨hlost, hstate, hloc⟩ := h.lost hl
    obtain ⟨hlost', hstate', hloc'⟩ := (h'.listedMove i).lost hlost
    exact ⟨hlost', hstate'.trans hstate, hloc'.trans hloc⟩

theorem ListedMove.after_same {s t u : State} {i : Nat} (h : SameSlots s t) (h' : ListedMove t u i) :
    ListedMove s u i where
  place hp hi := by
    rw [← State.slot_congr h.slots]
    exact h'.place (h.keeps.pool hp) (by rwa [h.cfg])
  lost hl := by
    rw [← State.slot_congr h.slots]
    exact h'.lost ((h.samePlaces.listedMove i).lost hl).1

theorem PoolMove.listedMove {s : State} {i : Nat} {f : Slot → Slot} {fq flq : List Nat} (h : PoolMove s i f fq flq)
    (j : Nat) : ListedMove s (moveSlot s i f fq flq) j where
  place hp hj := by
    by_cases hji : j = i
    · subst hji
      have moved : (moveSlot s j f fq flq).slot j = f (s.slot j) := State.slot_modSlot_self _ j f (hp.count ▸ hj)
      rw [moved]
      exact .inr (h.listed hp)
    · exact .inl (by rw [moveSlot_slot_other hji])
  lost hl := by
    obtain ⟨hne, hfree, hfilled⟩ := h.keeps_lost hl
    obtain ⟨-, -, hproducer, hconsumer⟩ := hl
    rw [Machine.lost, moveSlot_slot_other hne]
    exact ⟨⟨hfree, hfilled, hproducer, hconsumer⟩, rfl, rfl⟩

theorem listedMove_exec {c : Instr} {s t : State} (h : exec c s = .next t) (i : Nat) : ListedMove s t i := by
  cases hm : movesSlots c with
  | false => exact (exec_codecFrame_of_not_moves hm h).samePlaces.listedMove i
  | true =>
    obtain same | ⟨j, f, fq, flq, hmove, same⟩ := exec_poolMove hm h
    · exact same.samePlaces.listedMove i
    · exact (hmove.listedMove i).then_same same.samePlaces

theorem listedMove_step {s t : State} (h : step s = .next t) (hr : notReset s) (i : Nat) : ListedMove s t i := by
  obtain same | ⟨k, hk, -⟩ | ⟨u, c, hu, -, he⟩ := step_slots h
  · exact same.samePlaces.listedMove i
  · exact absurd hk (hr k)
  · exact .after_same hu.sameSlots (listedMove_exec he i)

/-! ## Sizes: the sink -/

/-- The session stays on its slot, and no other slot's size changes. -/
structure SizesSunk (s t : State) : Prop where
  slot : t.sess.slot = s.sess.slot
  size : ∀ j, j ≠ s.sess.slot → (t.slot j).size = (s.slot j).size

theorem SizesSunk.refl (s : State) : SizesSunk s s := ⟨rfl, fun _ _ => rfl⟩

theorem SizesSunk.trans {s t u : State} (h : SizesSunk s t) (h' : SizesSunk t u) : SizesSunk s u where
  slot := h'.slot.trans h.slot
  size j hj := (h'.size j (by rwa [h.slot])).trans (h.size j hj)

/-- However the sub-step ends, only the session's slot gets another size. -/
abbrev Eff.SinksSize (e : Eff) (s : State) : Prop := e.Ends (SizesSunk s) (SizesSunk s)

theorem Eff.SinksSize.after {e : Eff} {s t : State} (h : SizesSunk s t) (he : e.SinksSize t) : e.SinksSize s :=
  he.mono (fun _ => h.trans) fun _ => h.trans

theorem Eff.SinksSize.bind {e : Eff} {m : State → Eff} {s : State} (h : e.SinksSize s)
    (hm : ∀ t, (m t).SinksSize t) : (e.bind m).SinksSize s := Eff.Ends.bind h fun t ht => (hm t).after ht

theorem sizesSunk_setAcc (s : State) (l : List Bool) : SizesSunk s (s.setAcc l) := ⟨rfl, fun _ _ => rfl⟩

theorem sizesSunk_setPreds (s : State) (x : Preds) : SizesSunk s (s.setPreds x) := ⟨rfl, fun _ _ => rfl⟩

theorem sinksSize_sinkByte (v : Byte) (s : State) : (sinkByte v s).SinksSize s := by
  have resized (g : Slot → Slot) (j : Nat) (hj : j ≠ s.sess.slot) :
      ((s.modSlot s.sess.slot g).slot j).size = (s.slot j).size :=
    congrArg Slot.size (State.slot_modSlot_other s g hj)
  unfold sinkByte
  split
  · trivial
  split
  · exact ⟨rfl, resized fun x => x.setSize 0⟩
  · exact ⟨rfl, resized fun x => x.setSize (x.size + 1)⟩

theorem sinksSize_sinkBytes (l : List Byte) (s : State) : (sinkBytes l s).SinksSize s := by
  induction l generalizing s with
  | nil => exact .refl s
  | cons v l ih => exact (sinksSize_sinkByte v s).bind ih

theorem sinksSize_dataByte (b : Byte) (s : State) : (dataByte b s).SinksSize s := by
  refine (sinksSize_sinkByte b s).bind fun t => ?_
  split
  · exact sinksSize_sinkByte 0 t
  · exact .refl t

theorem sinksSize_drain (n : Nat) (s : State) : (drain n s).SinksSize s := by
  induction n generalizing s with
  | zero => exact .refl s
  | succ n ih => exact Eff.SinksSize.after (sizesSunk_setAcc s _) ((sinksSize_dataByte _ _).bind ih)

theorem sinksSize_emitBits (v n : Nat) (s : State) : (emitBits v n s).SinksSize s :=
  Eff.SinksSize.after (sizesSunk_setAcc s _) (sinksSize_drain _ _)

theorem sinksSize_emitItems (l : List BitItem) (s : State) : (emitItems l s).SinksSize s := by
  induction l generalizing s with
  | nil => exact .refl s
  | cons x l ih => exact (sinksSize_emitBits _ _ s).bind ih

/-! ## Sizes: the sub-steps -/

/-- A slot whose size changes was held by the producer (44_bitstream.md R260). -/
def SizesHeld (s t : State) : Prop := ∀ j, (t.slot j).size ≠ (s.slot j).size → (s.slot j).loc = .producerHeld

theorem SizesHeld.refl (s : State) : SizesHeld s s := fun _ hj => absurd rfl hj

theorem SizesHeld.then_slots {s t u : State} (h : SizesHeld s t) (h' : u.slots = t.slots) : SizesHeld s u := by
  intro j hj
  rw [State.slot_congr h'] at hj
  exact h j hj

theorem sizesHeld_of_slots {s t : State} (h : t.slots = s.slots) : SizesHeld s t := (SizesHeld.refl s).then_slots h

theorem SizesSunk.held {s t : State} (h : SizesSunk s t) (hs : producerHolds s s.sess.slot) : SizesHeld s t := by
  intro j hj
  by_cases hslot : j = s.sess.slot
  · subst hslot; exact hs.2
  · exact absurd (h.size j hslot) hj

/-- However the sub-step ends, only a held slot gets another size. -/
abbrev Eff.ResizesHeld (e : Eff) (s : State) : Prop := e.Ends (SizesHeld s) (SizesHeld s)

theorem Eff.SinksSize.held {e : Eff} {s : State} (h : e.SinksSize s) (hs : producerHolds s s.sess.slot) :
    e.ResizesHeld s := h.mono (fun _ ht => ht.held hs) fun _ ht => ht.held hs

theorem resizesHeld_needSession {e : Eff} {s : State} (ho : OpenHeld s) (h : e.SinksSize s) :
    (needSession s e).ResizesHeld s := by
  unfold needSession
  split
  · rename_i hopen
    exact h.held (ho hopen)
  · exact sizesHeld_of_slots rfl

theorem resizesHeld_flushStep {s : State} (ho : OpenHeld s) : (flushStep s).ResizesHeld s := by
  refine resizesHeld_needSession ho ?_
  unfold flushBits
  split
  · exact .refl s
  · exact sinksSize_emitBits _ _ s

theorem resizesHeld_eoiStep {s : State} (ho : OpenHeld s) : (eoiStep s).ResizesHeld s :=
  resizesHeld_needSession ho ((sinksSize_sinkBytes _ s).bind fun _ => ⟨rfl, fun _ _ => rfl⟩)

theorem resizesHeld_entropyStep {s : State} (ho : OpenHeld s) (ch : Channel) : (entropyStep ch s).ResizesHeld s := by
  refine resizesHeld_needSession ho ?_
  split
  · exact Eff.SinksSize.after (sizesSunk_setPreds s _) (sinksSize_emitItems _ _)
  · exact .refl s

theorem RegionExtract.resizesHeld {s : State} {a : Args} {r c size n : Nat} {readable : Prop} {b : Block} {e : Eff}
    (h : RegionExtract s a r c size n readable b e) : e.ResizesHeld s := by
  obtain rfl | ⟨code, -, rfl⟩ | rfl := h.ok_or_raised_or_stuck
  · exact sizesHeld_of_slots (loadBlock_slots s n b)
  · exact .refl s
  · trivial

/-- Opening a session empties the slot it opens on and the one of the session it aborts (44_bitstream.md R256). -/
theorem sizesHeld_beginSession {s : State} {k : Nat} (ho : OpenHeld s) (hk : producerHolds s k) :
    SizesHeld s (beginSession k s) := by
  intro j hj
  by_contra hl
  have hjk : j ≠ k := by rintro rfl; exact hl hk.2
  refine hj (congrArg Slot.size ((State.slot_modSlot_other _ _ hjk).trans ?_))
  split
  · rename_i hopen
    have hjs : j ≠ s.sess.slot := by rintro rfl; exact hl (ho hopen).2
    exact State.slot_modSlot_other s _ hjs
  · rfl

theorem resizesHeld_seqEffect {pos : Seq} {s : State} (hs : SessionInv s) (he : encoding s) (hp : s.seq = some pos) :
    (seqEffect pos s).ResizesHeld s := by
  have ho : OpenHeld s := hs.openHeld
  cases pos with
  | validate | done => exact .refl s
  | beginSession => exact sizesHeld_beginSession ho (hs.beginHeld he hp)
  | headers => exact (sinksSize_sinkBytes _ s).held (ho (hs.headersOpen he hp))
  | flush => exact resizesHeld_flushStep ho
  | eoi => exact resizesHeld_eoiStep ho
  | block mr mc b u =>
    cases u with
    | extract =>
      cases b with
      | y0 | y1 | y2 | y3 => exact (extractLuma_regionExtract s _ _ _).resizesHeld
      | cb | cr => exact (extractChroma_regionExtract s _ _ _ _).resizesHeld
    | fdct => exact sizesHeld_of_slots (State.setBlk_slots s _)
    | quant => cases b <;> exact sizesHeld_of_slots (State.setBlk_slots s _)
    | entropy => exact resizesHeld_entropyStep ho _

/-! ## Sizes: the commands -/

theorem sizesHeld_finish {e : Eff} {d : State → State} {s t : State} (he : e.ResizesHeld s)
    (hd : ∀ u, (d u).slots = u.slots) (h : finish e d = .next t) : SizesHeld s t := by
  cases e with
  | ok u => cases h; exact SizesHeld.then_slots he (hd u)
  | raised c u => cases h; exact SizesHeld.then_slots he (raiseStatus_slots u .p c)
  | stuck f => cases h

theorem encodeValidate_slots (s : State) : (encodeValidate s).slots = s.slots := by
  unfold encodeValidate
  split
  · rename_i t ht
    obtain rfl | rfl := encodeRefusal_cases ht <;> rfl
  · rfl

theorem sizesHeld_encodeAdvance {pos : Seq} {e : Eff} {s t : State} (he : e.ResizesHeld s)
    (h : encodeAdvance pos e = .next t) : SizesHeld s t := by
  cases e with
  | ok u =>
    simp only [encodeAdvance] at h
    split at h <;> cases h <;> exact SizesHeld.then_slots he rfl
  | raised c u => cases h; exact SizesHeld.then_slots he rfl
  | stuck f => cases h

theorem sizesHeld_execEncode {s t : State} (hs : SessionInv s) (he : encoding s) (h : execEncode s = .next t) :
    SizesHeld s t := by
  unfold execEncode at h
  split at h
  case h_4 pos hp => exact sizesHeld_encodeAdvance (resizesHeld_seqEffect hs he hp) h
  all_goals cases h; exact sizesHeld_of_slots (encodeValidate_slots s)

theorem sizesHeld_sessionBegin {s t : State} (hs : SessionInv s) (h : exec .sessionBegin s = .next t) :
    SizesHeld s t := by
  obtain ⟨outOfRange, refused, -⟩ := sessionBeginOpensASession s _ rfl
  by_cases hn : s.cfg.n ≤ (s.args .p)[0].toNat
  · cases (outOfRange hn).symm.trans h
    exact sizesHeld_of_slots rfl
  have hi := Nat.lt_of_not_le hn
  by_cases hl : (s.slot (s.args .p)[0].toNat).loc = .producerHeld
  · cases ((if_neg hn).trans (if_neg (not_not.mpr hl))).symm.trans h
    exact (sizesHeld_beginSession hs.openHeld ⟨hi, hl⟩).then_slots rfl
  · cases (refused hi hl).symm.trans h
    exact sizesHeld_of_slots rfl

theorem sizesHeld_codec {c : Instr} {s t : State} (hs : SessionInv s) (hm : movesSlots c = false)
    (he : c = .encode → encoding s) (h : exec c s = .next t) : SizesHeld s t := by
  have ho : OpenHeld s := hs.openHeld
  have done (c : StatusCode) (a b d : Word) (u : State) : (complete .p c a b d u).slots = u.slots := rfl
  cases c with
  | acqfill | publish | acqread | release => cases hm
  | encode => exact sizesHeld_execEncode hs (he rfl) h
  | sessionBegin => exact sizesHeld_sessionBegin hs h
  | emitHeaders =>
    refine sizesHeld_finish (resizesHeld_needSession ho ?_) (fun u => done _ _ _ _ u) h
    split
    · exact .refl s
    · exact sinksSize_sinkBytes _ s
  | extractY => exact sizesHeld_finish (extractLuma_regionExtract s _ _ _).resizesHeld (done _ _ _ _) h
  | extractCb | extractCr =>
    exact sizesHeld_finish (extractChroma_regionExtract s _ _ _ _).resizesHeld (done _ _ _ _) h
  | fdct | quantY | quantC => cases h; exact sizesHeld_of_slots ((done _ _ _ _ _).trans (State.setBlk_slots s _))
  | entropyY | entropyCb | entropyCr =>
    exact sizesHeld_finish (resizesHeld_entropyStep ho _) (fun u => done _ _ _ _ u) h
  | writeBits =>
    refine sizesHeld_finish (resizesHeld_needSession ho ?_) (fun u => done _ _ _ _ u) h
    split
    · exact .refl s
    · exact sinksSize_emitBits _ _ s
  | flushBits => exact sizesHeld_finish (resizesHeld_flushStep ho) (fun u => done _ _ _ _ u) h
  | emitEoi => exact sizesHeld_finish (resizesHeld_eoiStep ho) (fun u => done _ _ _ _ u) h
  | blkRead =>
    simp only [exec, execBlkRead] at h
    split at h <;> cases h <;> exact sizesHeld_of_slots (done _ _ _ _ s)
  | blkWrite =>
    simp only [exec, execBlkWrite] at h
    split at h <;> cases h
    · exact sizesHeld_of_slots (done _ _ _ _ s)
    · exact sizesHeld_of_slots ((done _ _ _ _ _).trans (State.setBlk_slots s _))

/-- A move keeps every size (47_pool.md R341 to R345). -/
theorem SlotMove.sizesHeld {s : State} {i : Nat} {f : Slot → Slot} {fq flq : List Nat} (h : SlotMove s i f fq flq) :
    SizesHeld s (moveSlot s i f fq flq) := by
  intro j hj
  obtain hs | ⟨-, hs⟩ := ((s.setFreeQ fq).setFilledQ flq).slot_modSlot_cases i j f
  · exact absurd (congrArg Slot.size hs) hj
  · exact absurd ((congrArg Slot.size hs).trans (h.size _)) hj

theorem sizesHeld_exec {c : Instr} {s t : State} (hs : SessionInv s) (he : c = .encode → encoding s)
    (h : exec c s = .next t) : SizesHeld s t := by
  cases hm : movesSlots c with
  | false => exact sizesHeld_codec hs hm he h
  | true =>
    obtain same | ⟨i, f, fq, flq, hmove, same⟩ := exec_poolMove hm h
    · exact sizesHeld_of_slots same.slots
    · exact (hmove.slotMove hs.toPoolInv).sizesHeld.then_slots same.slots

theorem sizesHeld_step {s t : State} (h : step s = .next t) (hr : notReset s) (hs : SessionInv s) :
    SizesHeld s t := by
  obtain same | ⟨k, hk, -⟩ | ⟨u, c, hu, henc, he⟩ := step_slots h
  · exact sizesHeld_of_slots same.slots
  · exact absurd hk (hr k)
  · intro j
    rw [← State.slot_congr hu.sameSlots.slots]
    exact sizesHeld_exec (hu.keepsLaws.session hs) henc he j

/-- Settles O23: only a pool command's move changes a slot's place, and only the sink and the session's ends change
sizes, of slots that the producer holds. -/
theorem slotsMoveOnlyAsListed : Obligations.SlotsMoveOnlyAsListed := by
  intro s t i h hr
  have moved := listedMove_step h hr i
  exact ⟨fun hs hi => ⟨moved.place hs.toPoolInv hi, sizesHeld_step h hr hs i⟩, moved.lost⟩

end Sys2Proof.Machine
end

section
/-! PROOFS. The hardware reset (10_state.md R51, 70_reset_and_hazards.md R420 to R422). -/

namespace Sys2Proof.Machine

/-- A reset with legal parameters takes effect in its own step, whatever the core was doing (R420). -/
theorem step_of_reset {s : State} {k : Config} {rest : List Input} (hi : s.inputs = .reset k :: rest)
    (hk : k.legal = true) : step s = .next (resetKeeping k s.frame rest s.readData s.draws) := by
  simp only [step, hi, applyInput]
  exact if_pos hk

section

variable {k : Config} {f : Memory} {l : List Input} {w : Word} {d : Nat}

/-- After a reset every slot is in FreeQueue. -/
theorem slotsAt_resetKeeping {loc : SlotLoc} (h : loc ≠ .inFreeQueue) :
    slotsAt (resetKeeping k f l w d) loc = 0 := by
  simp [slotsAt, resetKeeping_slot, Slot.reset, h.symm]

theorem quiescent_resetKeeping (hk : k.legal = true) : Quiescent k (resetKeeping k f l w d) where
  cfg := rfl
  idleP := rfl
  idleC := rfl
  noWait := rfl
  noSession := rfl
  noErr := rfl
  pool := (contentInv_resetKeeping hk).toPoolInv
  noneHeld := ⟨slotsAt_resetKeeping nofun, slotsAt_resetKeeping nofun⟩

end

/-- Settles O22: the reset is taken in its own step, and every reset state is what such a step gives. -/
theorem resetGivesTheQuiescentResetState : Obligations.ResetGivesTheQuiescentResetState := by
  intro s k rest hi hk
  refine ⟨step_of_reset hi hk, fun t ht => ?_⟩
  obtain ⟨f, l, w, d, rfl⟩ : ∃ f l w d, t = resetKeeping k f l w d := ⟨_, _, _, _, ht⟩
  exact ⟨quiescent_resetKeeping hk, contentInv_resetKeeping hk⟩

end Sys2Proof.Machine
end

section
/-! PROOFS. What a command of each port leaves alone (20_memory.md R103, 60_exceptions.md R394), and that ERR only
grows and the parameters stay until a reset (10_state.md R38, 60_exceptions.md R380, 70_reset_and_hazards.md R420). -/

namespace Sys2Proof.Machine

/-! ## Sticky bits -/

theorem Err.has_setBit (e : Err) (b c : ErrBit) : (e.setBit b).has c = (decide (c = b) || e.has c) := by
  cases b <;> cases c <;> rfl

/-- The bits of both. -/
def Err.union (e e' : Err) : Err where
  protocol := e.protocol || e'.protocol
  doubleRelease := e.doubleRelease || e'.doubleRelease
  foreignBuffer := e.foreignBuffer || e'.foreignBuffer
  ownership := e.ownership || e'.ownership
  cmdWhileBusy := e.cmdWhileBusy || e'.cmdWhileBusy
  illegalCmd := e.illegalCmd || e'.illegalCmd
  badAccess := e.badAccess || e'.badAccess

theorem Err.has_union (e e' : Err) (b : ErrBit) : (e.union e').has b = (e.has b || e'.has b) := by
  cases b <;> rfl

theorem Err.union_self (e : Err) : e.union e = e := by simp [Err.union]

theorem Err.setBit_union (e e' : Err) (b : ErrBit) : (e.union e').setBit b = (e.setBit b).union e' := by
  cases b <;> rfl

/-- No sticky bit is cleared, and the parameters stay. -/
structure KeepsErr (s t : State) : Prop where
  bits : ∀ b, s.err.has b = true → t.err.has b = true
  cfg : t.cfg = s.cfg

theorem KeepsErr.trans {s t u : State} (h : KeepsErr s t) (h' : KeepsErr t u) : KeepsErr s u :=
  ⟨fun b hb => h'.bits b (h.bits b hb), h'.cfg.trans h.cfg⟩

theorem KeepsErr.of_eq {s t : State} (he : t.err = s.err) (hc : t.cfg = s.cfg) : KeepsErr s t :=
  ⟨fun b hb => by rwa [he], hc⟩

theorem keepsErr_faultErr (b : ErrBit) (s : State) : KeepsErr s (faultErr b s) :=
  ⟨fun c hc => (Err.has_setBit s.err b c).trans (by rw [hc, Bool.or_true]), rfl⟩

theorem keepsErr_failWith (q : Port) (b : ErrBit) (c : StatusCode) (s : State) : KeepsErr s (failWith q b c s) :=
  (keepsErr_faultErr b s).trans (.of_eq (raiseStatus_err _ q c) (raiseStatus_cfg _ q c))

/-! ## Codec commands -/

/-- Setting more bits of ERR before a codec command or after it is the same: commands set bits and read none. -/
theorem codecIgnores_union (e : Err) : CodecIgnores fun s => { s with err := s.err.union e } := by
  constructor
  · constructor
    case onErr => exact fun s b => congrArg (fun x => { s with err := x }) (Err.setBit_union s.err e b)
    all_goals intros; rfl
  all_goals intros; rfl

/-- The bits that are set when a codec command starts are set when it ends: setting them once more makes no
difference to the start, so it makes none to the end. -/
theorem codec_err {i : Instr} {s t : State} (hp : i.port = .p) (hfill : i ≠ .acqfill) (hpublish : i ≠ .publish)
    (h : exec i s = .next t) (b : ErrBit) (hb : s.err.has b = true) : t.err.has b = true := by
  have hcomm := (codecIgnores_union s.err).onExec hp hfill hpublish s
  have hstart : { s with err := s.err.union s.err } = s := by rw [Err.union_self]
  rw [hstart, h] at hcomm
  have hend : t.err = t.err.union s.err := congrArg State.err (Host.Outcome.next.inj hcomm)
  rw [hend, Err.has_union, hb, Bool.or_true]

/-! ## Port P's commands -/

/-- Port C's registers and its wait are the same. -/
structure ProducerFrame (s t : State) : Prop extends KeepsErr s t where
  portC : t.portC = s.portC
  waitActive : t.waitActive = s.waitActive

theorem producerFrame_failWith (b : ErrBit) (c : StatusCode) (s : State) : ProducerFrame s (failWith .p b c s) :=
  ⟨keepsErr_failWith .p b c s, rfl, rfl⟩

theorem producerFrame_exec {i : Instr} {s t : State} (hp : i.port = .p) (h : exec i s = .next t) :
    ProducerFrame s t := by
  by_cases hfill : i = .acqfill
  · subst hfill
    simp only [exec, execAcqfill] at h
    split at h <;> cases h <;> exact ⟨.of_eq rfl rfl, rfl, rfl⟩
  by_cases hpublish : i = .publish
  · subst hpublish
    simp only [exec, execPublish] at h
    split at h
    · cases h; exact ⟨.of_eq rfl rfl, rfl, rfl⟩
    split at h
    · cases h; exact producerFrame_failWith ..
    split at h
    · cases h; exact producerFrame_failWith ..
    · cases h; exact ⟨.of_eq rfl rfl, rfl, rfl⟩
  have hframe := exec_codecFrame hp hfill hpublish h
  exact ⟨⟨codec_err hp hfill hpublish h, hframe.cfg⟩, hframe.portC, hframe.waitActive⟩

/-! ## Port C's commands -/

/-- The codec, POOL, FRAME and port P are the same. -/
structure ConsumerFrame (s t : State) : Prop extends KeepsErr s t where
  blk : t.blk = s.blk
  sess : t.sess = s.sess
  pred : t.pred = s.pred
  seq : t.seq = s.seq
  pool : t.pool = s.pool
  frame : t.frame = s.frame
  portP : t.portP = s.portP

theorem ConsumerFrame.refl (s : State) : ConsumerFrame s s := ⟨.of_eq rfl rfl, rfl, rfl, rfl, rfl, rfl, rfl, rfl⟩

theorem ConsumerFrame.trans {s t u : State} (h : ConsumerFrame s t) (h' : ConsumerFrame t u) : ConsumerFrame s u where
  toKeepsErr := h.toKeepsErr.trans h'.toKeepsErr
  blk := h'.blk.trans h.blk
  sess := h'.sess.trans h.sess
  pred := h'.pred.trans h.pred
  seq := h'.seq.trans h.seq
  pool := h'.pool.trans h.pool
  frame := h'.frame.trans h.frame
  portP := h'.portP.trans h.portP

theorem consumerFrame_complete (c : StatusCode) (a b d : Word) (s : State) :
    ConsumerFrame s (complete .c c a b d s) := ⟨.of_eq rfl rfl, rfl, rfl, rfl, rfl, rfl, rfl, rfl⟩

theorem consumerFrame_failWith (b : ErrBit) (c : StatusCode) (s : State) : ConsumerFrame s (failWith .c b c s) :=
  ⟨keepsErr_failWith .c b c s, rfl, rfl, rfl, rfl, rfl, rfl, rfl⟩

theorem consumerFrame_setWait (b : Bool) (s : State) : ConsumerFrame s (s.setWait b) :=
  ⟨.of_eq rfl rfl, rfl, rfl, rfl, rfl, rfl, rfl, rfl⟩

theorem consumerFrame_draw (k : Nat) (s : State) : ConsumerFrame s (s.draw k) :=
  ⟨.of_eq rfl rfl, rfl, rfl, rfl, rfl, rfl, rfl, rfl⟩

theorem consumerFrame_moveSlot (i : Nat) (f : Slot → Slot) (fq flq : List Nat) (s : State) :
    ConsumerFrame s (moveSlot s i f fq flq) := ⟨.of_eq rfl rfl, rfl, rfl, rfl, rfl, rfl, rfl, rfl⟩

theorem consumerFrame_takeFilled (i : Nat) (q : List Nat) (s : State) : ConsumerFrame s (takeFilled i q s) := by
  unfold takeFilled
  split
  · exact (consumerFrame_moveSlot i _ _ _ s).trans (consumerFrame_failWith ..)
  · exact (consumerFrame_moveSlot i _ s.freeQ q s).trans (consumerFrame_complete ..)

theorem consumerFrame_acqread {s t : State} (h : exec .acqread s = .next t) : ConsumerFrame s t := by
  cases hq : s.filledQ with
  | cons i q =>
    cases (exec_acqread_of_cons hq).symm.trans h
    exact (consumerFrame_setWait false s).trans (consumerFrame_takeFilled i q _)
  | nil =>
    cases (exec_acqread_of_nil hq).symm.trans h
    split_ifs
    · exact .refl s
    · exact ((consumerFrame_setWait false s).trans (consumerFrame_draw 1 _)).trans (consumerFrame_complete ..)
    · exact consumerFrame_draw 1 s
    · exact consumerFrame_complete ..
    · exact consumerFrame_setWait true s

theorem consumerFrame_release {s t : State} (h : exec .release s = .next t) : ConsumerFrame s t := by
  simp only [exec, execRelease] at h
  split at h
  · cases h; exact consumerFrame_failWith ..
  split at h
  · cases h; exact consumerFrame_failWith ..
  · cases h
    exact (consumerFrame_moveSlot _ _ (s.freeQ ++ [_]) s.filledQ s).trans (consumerFrame_complete ..)

theorem consumerFrame_exec {i : Instr} {s t : State} (hc : i.port = .c) (h : exec i s = .next t) :
    ConsumerFrame s t := by
  cases i with
  | acqread => exact consumerFrame_acqread h
  | release => exact consumerFrame_release h
  | _ => cases hc

/-- Settles O38: the frames of the two ports' commands. -/
theorem portsAreIsolated : Obligations.PortsAreIsolated := by
  intro i s t h
  constructor
  · intro hc
    obtain ⟨⟨-, hcfg⟩, hblk, hsess, hpred, hseq, hpool, hframe, hportP⟩ := consumerFrame_exec hc h
    exact ⟨hblk, hsess, hpred, hseq, hpool, hframe, hportP, hcfg⟩
  · intro hp
    obtain ⟨⟨-, hcfg⟩, hportC, hwait⟩ := producerFrame_exec hp h
    exact ⟨hportC, hwait, hcfg⟩

/-! ## Steps -/

theorem keepsErr_exec {i : Instr} {s t : State} (h : exec i s = .next t) : KeepsErr s t := by
  cases hq : i.port with
  | p => exact (producerFrame_exec hq h).toKeepsErr
  | c => exact (consumerFrame_exec hq h).toKeepsErr

theorem keepsErr_runPort {q : Port} {s t : State} (h : runPort q s = .next t) : KeepsErr s t := by
  obtain ⟨i, -, he⟩ | ⟨-, rfl⟩ := runPort_cases h
  · exact keepsErr_exec he
  · exact keepsErr_failWith q .illegalCmd .illegalCommand s

theorem keepsErr_regWrite (width : AccessWidth) (off : BitVec 12) (w : Word) (s : State) :
    KeepsErr s (regWrite width off w s) := by
  obtain h | h | ⟨q, h⟩ | ⟨q, k, h⟩ := regWrite_cases width off w s <;> rw [h]
  · exact .of_eq rfl rfl
  · exact keepsErr_faultErr .badAccess s
  · unfold writeCmd
    split
    · exact (KeepsErr.of_eq (State.setPort_err s q _) (State.setPort_cfg s q _)).trans (keepsErr_faultErr ..)
    · cases q <;> exact .of_eq rfl rfl
  · cases q <;> exact .of_eq rfl rfl

theorem keepsErr_regRead (width : AccessWidth) (off : BitVec 12) (s : State) :
    KeepsErr s (regRead width off s) := by
  unfold regRead
  split
  · exact .of_eq rfl rfl
  · exact (keepsErr_faultErr .badAccess s).trans (.of_eq rfl rfl)

theorem keepsErr_poolRead {who : Agent} {a : Nat} {s t : State} (h : poolRead who a s = .next t) : KeepsErr s t := by
  obtain ⟨v, -, rfl⟩ | rfl := poolRead_cases h
  · exact .of_eq rfl rfl
  · exact (keepsErr_faultErr .ownership s).trans (.of_eq rfl rfl)

theorem Before.keepsErr {s u : State} (h : Before s u) : KeepsErr s u := by
  cases h <;> exact .of_eq rfl rfl

/-- Every step but a reset keeps ERR's bits and the parameters. -/
theorem keepsErr_step {s t : State} (h : step s = .next t) (hr : notReset s) : KeepsErr s t := by
  have taken (rest : List Input) : KeepsErr s (s.setInputs rest) := .of_eq rfl rfl
  obtain ⟨q, u, hu, -, hrun⟩ | ⟨rest, w, off, v, -, rfl⟩ | ⟨rest, w, off, -, rfl⟩ | ⟨rest, who, a, -, hread⟩ |
    ⟨rest, a, v, -, rfl⟩ | ⟨rest, k, hi, -⟩ | ⟨rest, q, -, -, rfl⟩ | ⟨-, -, -, rfl⟩ := step_cases h
  · exact hu.keepsErr.trans (keepsErr_runPort hrun)
  · exact (taken rest).trans (keepsErr_regWrite ..)
  · exact (taken rest).trans (keepsErr_regRead ..)
  · exact (taken rest).trans (keepsErr_poolRead hread)
  · exact .of_eq rfl rfl
  · exact absurd (congrArg List.head? hi) (hr k)
  · exact taken rest
  · exact .of_eq rfl rfl

/-- Settles O37: a step that is no reset keeps ERR and the parameters, and one that changes FRAME is the frame
source's write. -/
theorem onlyResetClearsErrAndParameters : Obligations.OnlyResetClearsErrAndParameters := by
  intro s t h
  refine ⟨fun hr => ?_, fun hsource => ?_⟩
  · obtain ⟨hbits, hcfg⟩ := keepsErr_step h hr
    exact ⟨hbits, hcfg⟩
  · obtain hsame | ⟨a, v, hwrite, -⟩ := step_frame h
    · exact hsame
    · exact absurd hwrite (hsource a v)

end Sys2Proof.Machine
end

section
/-! PROOFS. ENCODE past Validate ends (46_encoder.md R312 to R317, R319, 70_reset_and_hazards.md R441): what stands in
BLK, PRED and the slot before each sub-step, kept by every sub-step that goes on, leaves CapacityExceeded as the only
status to raise; the sequencer's walk then bounds the number of sub-steps. -/

namespace Sys2Proof.Machine

/-! ## The sequencer inside the grid -/

/-- The position after `pos`, in the MCU grid that the operands give (46_encoder.md R312). -/
def seqAfter (a : Args) (pos : Seq) : Seq := nextSeq (opHeight a / 16) (opWidth a / 16) pos

/-- A block that is about to be extracted, inside the grid, or Flush past the last one. -/
def BlockStart (rows cols : Nat) (pos : Seq) : Prop :=
  pos = .flush ∨ ∃ mr mc b, pos = .block mr mc b .extract ∧ mr < rows ∧ mc < cols

theorem blockStart_firstMcu (rows cols : Nat) : BlockStart rows cols (firstMcu rows cols) := by
  unfold firstMcu
  split
  · exact .inl rfl
  · exact .inr ⟨0, 0, .y0, rfl, by omega, by omega⟩

theorem blockStart_nextMcu {rows cols mr mc : Nat} (hr : mr < rows) (hc : mc < cols) :
    BlockStart rows cols (nextMcu rows cols mr mc) := by
  unfold nextMcu
  split_ifs with hcol hrow
  · exact .inr ⟨mr, mc + 1, .y0, rfl, hr, hcol⟩
  · exact .inr ⟨mr + 1, 0, .y0, rfl, hrow, by omega⟩
  · exact .inl rfl

theorem blockStart_after_entropy {rows cols mr mc : Nat} (hr : mr < rows) (hc : mc < cols) (b : BlockId) :
    BlockStart rows cols (nextSeq rows cols (.block mr mc b .entropy)) := by
  cases b with
  | cr => exact blockStart_nextMcu hr hc
  | _ => exact .inr ⟨mr, mc, _, rfl, hr, hc⟩

theorem BlockStart.inGrid {rows cols mr mc : Nat} {pos : Seq} {b : BlockId} {u : BlockStep}
    (h : BlockStart rows cols pos) (hp : pos = .block mr mc b u) : mr < rows ∧ mc < cols := by
  obtain rfl | ⟨mr', mc', b', rfl, hr, hc⟩ := h
  · cases hp
  · cases hp
    exact ⟨hr, hc⟩

/-- The sequencer stays inside the grid (46_encoder.md R312, R319). -/
theorem nextSeq_inGrid {rows cols mr mc : Nat} {pos : Seq} {b : BlockId} {u : BlockStep}
    (h : ∀ mr mc b u, pos = .block mr mc b u → mr < rows ∧ mc < cols)
    (hn : nextSeq rows cols pos = .block mr mc b u) : mr < rows ∧ mc < cols := by
  cases pos with
  | headers => exact (blockStart_firstMcu rows cols).inGrid hn
  | block mr' mc' b' u' =>
    obtain ⟨hr, hc⟩ := h mr' mc' b' u' rfl
    cases u' with
    | entropy => exact (blockStart_after_entropy hr hc b').inGrid hn
    | _ => cases hn; exact ⟨hr, hc⟩
  | _ => cases hn

theorem nextSeq_ne_validate (rows cols : Nat) (pos : Seq) : nextSeq rows cols pos ≠ .validate := by
  cases pos with
  | headers => simp only [nextSeq, firstMcu]; split_ifs <;> nofun
  | block mr mc b u =>
    cases u with
    | entropy =>
      cases b with
      | cr => simp only [nextSeq, nextBlock, nextMcu]; split_ifs <;> nofun
      | _ => nofun
    | _ => nofun
  | _ => nofun

/-! ## A sub-step that goes on -/

theorem encode_codecFrame {s t : State} (h : exec .encode s = .next t) : CodecFrame s t :=
  exec_codecFrame rfl (by decide) (by decide) h

theorem CodecFrame.args {s t : State} (h : CodecFrame s t) : t.args .p = s.args .p := h.latchArg

theorem CodecFrame.frameGiven {s t : State} (h : CodecFrame s t) (hg : frameGiven s) : frameGiven t := by
  unfold Machine.frameGiven frameReadable
  rw [h.args, h.frame]
  exact hg

/-- A sub-step that is done, its session still open on ENCODE's slot, leads to the next position (R319). -/
theorem EncodeAt.next {s t : State} {pos : Seq} (h : EncodeAt s pos) (he : seqEffect pos s = .ok t)
    (hpos : pos ≠ .eoi) (hopen : t.sess.isOpen = true) (hslot : t.sess.slot = opEncodeSlot (s.args .p)) :
    ∃ u, u = t.setSeq (some (seqAfter (s.args .p) pos)) ∧ exec .encode s = .next u ∧
      EncodeAt u (seqAfter (s.args .p) pos) := by
  have hport : t.portP = s.portP := by
    have hends := seqEffect_portP pos s
    rwa [he] at hends
  have hexec : exec .encode s = .next (t.setSeq (some (seqAfter (s.args .p) pos))) := by
    rw [h.exec_encode, he]
    exact h.advance_ok hport hpos
  have hframe := encode_codecFrame hexec
  refine ⟨_, rfl, hexec, ?_⟩
  constructor
  case inFlight => rw [encoding, State.setSeq_portP, hport]; exact h.inFlight
  case at_ => rfl
  case running => exact ⟨nextSeq_ne_validate _ _ _, nextSeq_ne_done _ _ h.running.2 hpos⟩
  case operands => rw [hframe.args, hframe.cfg]; exact h.operands
  case held => rw [hframe.args, hframe.loc]; exact h.held
  case count => rw [hframe.count, hframe.cfg]; exact h.count
  case session => exact fun _ => by rw [hframe.args]; exact ⟨hopen, hslot⟩
  case inGrid => exact fun mr mc b u hn => by rw [hframe.args]; exact nextSeq_inGrid h.inGrid hn

/-! ## BLK and PRED on the way -/

/-- Every predictor is in the range of a DC coefficient (43_entropy.md R226). -/
def PredsInRange (x : Preds) : Prop := ∀ ch, -1025 ≤ (x.get ch).toInt ∧ (x.get ch).toInt ≤ 1017

theorem Preds.get_put_eq (x : Preds) (v : Sample) (ch ch' : Channel) :
    (x.put v ch).get ch' = if ch' = ch then v else x.get ch' := by
  cases ch <;> cases ch' <;> rfl

theorem PredsInRange.put {x : Preds} (h : PredsInRange x) {v : Sample} (hlo : -1025 ≤ v.toInt) (hhi : v.toInt ≤ 1017)
    (ch : Channel) : PredsInRange (x.put v ch) := by
  intro ch'
  rw [Preds.get_put_eq]
  split
  · exact ⟨hlo, hhi⟩
  · exact h ch'

theorem EncodePath.preds {s : State} {pos : Seq} (h : EncodePath s pos) (hb : pos ≠ .beginSession) :
    PredsInRange s.pred
  | .y => h.predY hb
  | .cb => h.predCb hb
  | .cr => h.predCr hb

section

variable {s : State} {mr mc : Nat} {b : BlockId}

/-- Before FDCT the block is one of samples. -/
theorem encodePath_fdct (hp : PredsInRange s.pred) (hs : SampleRange s.blk) :
    EncodePath s (.block mr mc b .fdct) where
  predY _ := hp .y
  predCb _ := hp .cb
  predCr _ := hp .cr
  samples _ _ _ _ := hs
  coefs := by rintro _ _ _ _ ⟨⟩ (hu | hu) <;> cases hu

/-- Before QUANT and ENTROPY the block is one of coefficients. -/
theorem encodePath_coefs {u : BlockStep} (hp : PredsInRange s.pred) (hc : CoefRange s.blk)
    (hu : u = .quant ∨ u = .entropy) : EncodePath s (.block mr mc b u) where
  predY _ := hp .y
  predCb _ := hp .cb
  predCr _ := hp .cr
  samples := by rintro _ _ _ ⟨⟩; obtain hu | hu := hu <;> cases hu
  coefs _ _ _ _ _ _ := hc

/-- Elsewhere nothing is asked of the block. -/
theorem encodePath_other {pos : Seq} (hp : PredsInRange s.pred)
    (hpos : ∀ mr mc b u, pos = .block mr mc b u → u = .extract) : EncodePath s pos where
  predY _ := hp .y
  predCb _ := hp .cb
  predCr _ := hp .cr
  samples mr mc b h := nomatch hpos mr mc b _ h
  coefs mr mc b u h hu := by obtain rfl := hpos mr mc b u h; obtain hu | hu := hu <;> cases hu

theorem BlockStart.encodePath {rows cols : Nat} {pos : Seq} (h : BlockStart rows cols pos)
    (hp : PredsInRange s.pred) : EncodePath s pos := by
  refine encodePath_other hp fun mr mc b u hpos => ?_
  obtain rfl | ⟨mr', mc', b', rfl, -, -⟩ := h
  · cases hpos
  · cases hpos
    rfl

/-- Moving the sequencer changes neither BLK nor PRED. -/
theorem EncodePath.setSeq {pos : Seq} (h : EncodePath s pos) (x : Option Seq) : EncodePath (s.setSeq x) pos :=
  ⟨h.predY, h.predCb, h.predCr, h.samples, h.coefs⟩

/-! ## What the sub-steps of a block do -/

/-- The sub-step at `pos` is done and changes BLK, to a block in `R`, and the draws only. -/
def LoadsBlock (pos : Seq) (s : State) (R : Block → Prop) : Prop :=
  ∃ n blk, seqEffect pos s = .ok ((s.setBlk blk).draw n) ∧ R blk

theorem loadsBlock_of_setBlk {pos : Seq} {blk : Block} {R : Block → Prop} (he : seqEffect pos s = .ok (s.setBlk blk))
    (hr : R blk) : LoadsBlock pos s R := ⟨0, blk, he, hr⟩

/-- On a frame given in full an extract sub-step inside the grid loads samples (40_extract.md R158). -/
theorem EncodeAt.loads_samples (h : EncodeAt s (.block mr mc b .extract)) (hg : frameGiven s) :
    LoadsBlock (.block mr mc b .extract) s SampleRange := by
  obtain ⟨hr, hc⟩ := h.inGrid mr mc b _ rfl
  obtain ⟨hv, -⟩ := h.operands
  have luma (r c : Nat) (hrow : r + 8 ≤ opHeight (s.args .p)) (hcol : c + 8 ≤ opWidth (s.args .p)) :
      ∃ n blk, extractLuma (opFrame (s.args .p)) (opRawLen (s.args .p)) (opWidth (s.args .p)) (opHeight (s.args .p))
        r c s = .ok ((s.setBlk blk).draw n) ∧ SampleRange blk :=
    ⟨_, _, (extractLuma_regionExtract s _ r c).loads hv hrow hcol (lumaReadable_of_frameGiven hv hrow hcol hg),
      sampleRange_lumaBlock s _ r c⟩
  have chroma (ch : Chroma) (r c : Nat) (hrow : r + 16 ≤ opHeight (s.args .p)) (hcol : c + 16 ≤ opWidth (s.args .p)) :
      ∃ n blk, extractChroma ch (opFrame (s.args .p)) (opRawLen (s.args .p)) (opWidth (s.args .p))
        (opHeight (s.args .p)) r c s = .ok ((s.setBlk blk).draw n) ∧ SampleRange blk :=
    ⟨_, _, (extractChroma_regionExtract s ch _ r c).loads hv hrow hcol
      (chromaReadable_of_frameGiven ch hv hrow hcol hg), sampleRange_chromaBlock s ch _ r c⟩
  cases b with
  | y0 => exact luma (16 * mr) (16 * mc) (by omega) (by omega)
  | y1 => exact luma (16 * mr) (16 * mc + 8) (by omega) (by omega)
  | y2 => exact luma (16 * mr + 8) (16 * mc) (by omega) (by omega)
  | y3 => exact luma (16 * mr + 8) (16 * mc + 8) (by omega) (by omega)
  | cb => exact chroma .cb (16 * mr) (16 * mc) (by omega) (by omega)
  | cr => exact chroma .cr (16 * mr) (16 * mc) (by omega) (by omega)

/-- Both tables quantize into the range they are given (42_quantizer.md R199). -/
theorem CoefRange.quantizeBlock {blk : Block} (h : CoefRange blk) (t : Vector Nat 64) :
    CoefRange (quantizeBlock t blk) := by
  obtain ⟨⟨hlo, hhi⟩, hac⟩ := h
  refine ⟨?_, fun k h1 h64 => ?_⟩
  · rw [blkAt_quantizeBlock t blk (by decide)]
    exact quantize_within (qscale_le _) (by decide) (by decide) hlo hhi
  · obtain ⟨hlo, hhi⟩ := hac k h1 h64
    rw [blkAt_quantizeBlock t blk h64]
    exact quantize_within (qscale_le _) (by decide) (by decide) hlo hhi

theorem loadsBlock_fdct (hf : FdctRange (fdctOf s.cfg.fdctImpl)) (hs : SampleRange s.blk) :
    LoadsBlock (.block mr mc b .fdct) s CoefRange := loadsBlock_of_setBlk rfl (hf _ hs)

theorem loadsBlock_quant (hc : CoefRange s.blk) : LoadsBlock (.block mr mc b .quant) s CoefRange := by
  cases b with
  | y0 | y1 | y2 | y3 => exact loadsBlock_of_setBlk rfl (hc.quantizeBlock s.cfg.qtLuma)
  | cb | cr => exact loadsBlock_of_setBlk rfl (hc.quantizeBlock s.cfg.qtChroma)

/-- A block of the encoder path has a code in every channel (43_entropy.md R226, R227). -/
theorem CoefRange.codable {blk : Block} (h : CoefRange blk) {p : Sample} (hlo : -1025 ≤ p.toInt)
    (hhi : p.toInt ≤ 1017) : codable blk p = true := by
  obtain ⟨⟨hdc, hdc'⟩, hac⟩ := h
  refine (codable_iff blk p).mpr ⟨abs_lt.mpr ⟨by omega, by omega⟩, fun k h1 h64 => ?_⟩
  obtain ⟨hac, hac'⟩ := hac k h1 h64
  exact abs_lt.mpr ⟨by omega, by omega⟩

/-- ENTROPY on a codable block is an emission that leaves less than a byte pending (43_entropy.md R228). -/
theorem entropyStep_emits {ch : Channel} (hr : SinkReady s) (ho : s.sess.isOpen = true)
    (hpending : s.sess.acc.length ≤ 7) (hc : codable s.blk (s.pred.get ch) = true) :
    ∃ out bits, bits.length ≤ 7 ∧ Emits (entropyStep ch s) (s.setPreds (s.pred.put s.blk[0] ch)) out bits := by
  rw [entropyStep_codable ho hc]
  refine ⟨_, _, ?_, emitItems_emits _ (hr.setPreds _) (Nat.lt_succ_of_le hpending)⟩
  rw [restBits_length]
  omega

/-- FLUSH_BITS in an open session is an emission, of nothing when nothing is pending (44_bitstream.md R255). -/
theorem flushStep_emits (hr : SinkReady s) (ho : s.sess.isOpen = true) (hpending : s.sess.acc.length ≤ 7) :
    ∃ out bits, bits.length ≤ 7 ∧ Emits (flushStep s) s out bits := by
  rw [flushStep, needSession, if_pos ho, flushBits]
  split
  · exact ⟨_, _, hpending, Emits.nil hr⟩
  · refine ⟨_, _, ?_, emitBits_emits _ _ hr⟩
    rw [restBits_length]
    omega

end

/-! ## The image on the way -/

theorem Memory.holds_of_append {m : Memory} {a : Nat} {l l' : List Byte} (h : m.holds a (l ++ l')) : m.holds a l :=
  fun k hk => (h k (by rw [List.length_append]; omega)).trans (List.getElem?_append_left hk)

/-- Bytes below a store stay. -/
theorem Memory.holds_of_sameOutside {m m' : Memory} {a b len : Nat} {l : List Byte} (h : m.holds a l)
    (hs : m.sameOutside m' b len) (hb : a + l.length ≤ b) : m'.holds a l :=
  fun k hk => (hs (a + k) (.inl (by omega))).trans (h k hk)

/-- The session slot holds a header and some coded data, within CAP, with less than a byte pending. -/
structure ImageBegun (s : State) : Prop where
  pending : s.sess.acc.length ≤ 7
  header : 607 ≤ s.sessSize
  fits : s.sessSize ≤ s.cfg.cap
  soi : s.pool.holds (bufAddr s.cfg s.sess.slot) [0xFF, 0xD8]

/-- The sink writes above SOI. -/
theorem ImageBegun.soi_below {s : State} (h : ImageBegun s) : bufAddr s.cfg s.sess.slot + 2 ≤ sinkAddr s :=
  Nat.add_le_add_left (Nat.le_trans (by decide) h.header) _

theorem ImageBegun.congr {s t : State} (h : ImageBegun s) (hcfg : t.cfg = s.cfg) (hsess : t.sess = s.sess)
    (hslots : t.slots = s.slots) (hpool : t.pool = s.pool) : ImageBegun t where
  pending := by rw [hsess]; exact h.pending
  header := by rw [State.sessSize, hsess, State.slot_congr hslots]; exact h.header
  fits := by rw [State.sessSize, hsess, State.slot_congr hslots, hcfg]; exact h.fits
  soi := by rw [hpool, hcfg, hsess]; exact h.soi

/-- The sink goes on with the image. -/
theorem ImageBegun.stored {s t : State} {out : List Byte} {bits : List Bool} (h : ImageBegun s) (hr : SinkReady s)
    (ht : Stored s t out bits) (hroom : s.sessSize + out.length ≤ s.cfg.cap) (hbits : bits.length ≤ 7) :
    ImageBegun t where
  pending := by rw [ht.sess]; exact hbits
  header := by rw [ht.sessSize hr]; exact h.header.trans (Nat.le_add_right ..)
  fits := by rw [ht.sessSize hr, ht.cfg]; exact hroom
  soi := by
    obtain ⟨-, hout, -⟩ := id ht
    rw [ht.cfg, ht.sess]
    exact Memory.holds_of_sameOutside h.soi hout h.soi_below

/-- The header begins with SOI (45_container.md R282). -/
theorem headerBytes_soi (k : Config) (h w : Nat) : ∃ l, headerBytes k h w = [0xFF, 0xD8] ++ l := ⟨_, rfl⟩

/-- The header, stored in an empty slot, begins the image. -/
theorem imageBegun_header {s t : State} {k : Config} {h w : Nat} (hr : SinkReady s) (hempty : s.sessSize = 0)
    (hacc : s.sess.acc = []) (ht : Stored s t (headerBytes k h w) s.sess.acc)
    (hroom : s.sessSize + (headerBytes k h w).length ≤ s.cfg.cap) : ImageBegun t where
  pending := by rw [ht.sess, hacc]; exact Nat.zero_le _
  header := by rw [ht.sessSize hr, headerBytes_length]; exact Nat.le_add_left ..
  fits := by rw [ht.sessSize hr, ht.cfg]; exact hroom
  soi := by
    have hstart : sinkAddr s = bufAddr s.cfg s.sess.slot := by rw [sinkAddr, hempty, Nat.add_zero]
    obtain ⟨l, hl⟩ := headerBytes_soi k h w
    obtain ⟨hholds, -, -⟩ := id ht
    rw [hstart, hl] at hholds
    rw [ht.cfg, ht.sess]
    exact Memory.holds_of_append hholds

theorem Aborted.closed {s t : State} (h : Aborted s t) : t.sess.isOpen = false := by rw [h.eq]; rfl

theorem slot_size_of_modify {t : State} {l : List Slot} {i n : Nat}
    (h : t.slots = l.modify i fun x => { x with size := n }) (hi : i < l.length) : (t.slot i).size = n := by
  simp [State.slot, h, hi]

theorem Aborted.size {s t : State} (hr : SinkReady s) (h : Aborted s t) : (t.slot s.sess.slot).size = 0 := by
  have hslot : s.sess.slot < s.slots.length := by rw [hr.count]; exact hr.slot
  exact slot_size_of_modify (by rw [h.eq]; rfl) hslot

/-! ## The end -/

/-- A successful ENCODE's results and its image, from SOI to EOI (46_encoder.md R316, R317). -/
structure EncodedImage (k : Config) (a : Args) (t : State) : Prop where
  code : t.portP.status.code = .ok
  long : 609 ≤ (t.slot (opEncodeSlot a)).size
  fits : (t.slot (opEncodeSlot a)).size ≤ k.cap
  res : t.portP.res = #v[resNat (t.slot (opEncodeSlot a)).size, declaredWord (opHeight a) (opWidth a), 0]
  soi : t.pool.holds (bufAddr k (opEncodeSlot a)) [0xFF, 0xD8]
  eoi : t.pool.holds (bufAddr k (opEncodeSlot a) + (t.slot (opEncodeSlot a)).size - 2) [0xFF, 0xD9]

/-- An ENCODE that ran out of room (46_encoder.md R315). -/
structure EncodeFull (a : Args) (t : State) : Prop where
  code : t.portP.status.code = .capacityExceeded
  size : (t.slot (opEncodeSlot a)).size = 0
  res : t.portP.res = #v[0, 0, 0]

/-- The ENCODE of the operands `a` is over (46_encoder.md R315, R316). -/
structure EncodeEnded (k : Config) (a : Args) (t : State) : Prop where
  idle : t.portP.status.busy = false
  done : t.portP.status.done = true
  seq : t.seq = some .done
  closed : t.sess.isOpen = false
  held : (t.slot (opEncodeSlot a)).loc = .producerHeld
  result : EncodedImage k a t ∨ EncodeFull a t

/-- The ENCODE that `s₀` has in flight, after Headers, has come to position `pos`. -/
structure EncodeRun (s₀ s : State) (pos : Seq) : Prop where
  at_ : EncodeAt s pos
  past : pos ≠ .beginSession ∧ pos ≠ .headers
  path : EncodePath s pos
  image : ImageBegun s
  frame : CodecFrame s₀ s

/-- The next sub-step goes on to `next` or ends the command. -/
def EncodeSteps (s₀ s : State) (next : Seq) : Prop :=
  ∃ u, exec .encode s = .next u ∧ (EncodeRun s₀ u next ∨ EncodeEnded s.cfg (s.args .p) u)

section

variable {s₀ s : State} {pos : Seq}

/-- A sub-step that the sink refused ends ENCODE (46_encoder.md R315). -/
theorem EncodeAt.ends_full {s' t : State} (h : EncodeAt s pos)
    (he : seqEffect pos s = .raised .capacityExceeded t) (hr : SinkReady s') (ht : Aborted s' t)
    (hslot : s'.sess.slot = opEncodeSlot (s.args .p)) (next : Seq) : EncodeSteps s₀ s next := by
  have hexec : exec .encode s = .next (raiseStatus .p .capacityExceeded (t.setSeq (some .done))) := by
    rw [h.exec_encode, he]
    rfl
  have hheld : (t.slot (opEncodeSlot (s.args .p))).loc = .producerHeld :=
    ((encode_codecFrame hexec).loc _).trans h.held
  have hsize := ht.size hr
  rw [hslot] at hsize
  exact ⟨_, hexec, .inr ⟨rfl, rfl, rfl, ht.closed, hheld, .inr ⟨rfl, hsize, rfl⟩⟩⟩

/-- A sub-step that is done goes on with the run. -/
theorem EncodeAt.goes_on {t : State} (h : EncodeAt s pos) (hframe : CodecFrame s₀ s) (he : seqEffect pos s = .ok t)
    (hbegin : pos ≠ .beginSession) (heoi : pos ≠ .eoi) (hopen : t.sess.isOpen = true)
    (hslot : t.sess.slot = s.sess.slot) (himage : ImageBegun t) (hpath : EncodePath t (seqAfter (s.args .p) pos)) :
    EncodeSteps s₀ s (seqAfter (s.args .p) pos) := by
  obtain ⟨u, rfl, hexec, hat⟩ := h.next he heoi hopen (hslot.trans (h.session hbegin).2)
  obtain ⟨hb, hh⟩ := nextSeq_ne (opHeight (s.args .p) / 16) (opWidth (s.args .p) / 16) h.running.1
  exact ⟨_, hexec, .inl
    { at_ := hat
      past := ⟨hb, hh hbegin⟩
      path := hpath.setSeq _
      image := himage.congr rfl rfl rfl rfl
      frame := hframe.trans (encode_codecFrame hexec) }⟩

/-- An emitting sub-step, which may have set the predictors to `x` before, goes on or runs out of room. -/
theorem EncodeAt.emits {x : Preds} {out : List Byte} {bits : List Bool} (h : EncodeAt s pos)
    (hframe : CodecFrame s₀ s) (hbegin : pos ≠ .beginSession) (heoi : pos ≠ .eoi)
    (hr : SinkReady (s.setPreds x)) (hem : Emits (seqEffect pos s) (s.setPreds x) out bits)
    (hstored : ∀ t, Stored (s.setPreds x) t out bits → s.sessSize + out.length ≤ s.cfg.cap →
      ImageBegun t ∧ EncodePath t (seqAfter (s.args .p) pos)) :
    EncodeSteps s₀ s (seqAfter (s.args .p) pos) := by
  obtain ⟨hopen, hslot⟩ := h.session hbegin
  by_cases hroom : s.sessSize + out.length ≤ s.cfg.cap
  · obtain ⟨t, he, ht⟩ := hem.1 hroom
    obtain ⟨himage, hpath⟩ := hstored t ht hroom
    have hsess := ht.sess
    exact h.goes_on hframe he hbegin heoi (by rw [hsess]; exact hopen) (by rw [hsess]; rfl) himage hpath
  · obtain ⟨t, he, ht⟩ := hem.2 (Nat.lt_of_not_le hroom)
    exact h.ends_full he hr ht hslot _

/-! ## Begin and Headers -/

theorem predsInRange_zero : PredsInRange ⟨0, 0, 0⟩ := by
  rintro (_ | _ | _) <;> decide

/-- Begin opens an empty session on ENCODE's slot (46_encoder.md R319). -/
theorem EncodeAt.begins (h : EncodeAt s .beginSession) :
    ∃ u, exec .encode s = .next u ∧ EncodeAt u .headers ∧ u.sessSize = 0 ∧ u.sess.acc = [] ∧ PredsInRange u.pred := by
  obtain ⟨u, hu, hexec, hat⟩ := h.next (t := beginSession (opEncodeSlot (s.args .p)) s) rfl nofun rfl rfl
  refine ⟨u, hexec, hat, ?_, by rw [hu]; rfl, by rw [hu]; exact predsInRange_zero⟩
  rw [State.sessSize, (hat.session nofun).2, (encode_codecFrame hexec).args]
  refine slot_size_of_modify (by rw [hu, beginSession_eq]; rfl) ?_
  have hslot : opEncodeSlot (s.args .p) < s.slots.length := by rw [h.count]; exact h.operands.2
  split
  · rwa [List.length_modify]
  · exact hslot

/-- Headers stores the header at the start of the buffer (45_container.md R288, R290). -/
theorem EncodeAt.stores_header (h : EncodeAt s .headers) (hframe : CodecFrame s₀ s) (hempty : s.sessSize = 0)
    (hacc : s.sess.acc = []) (hpreds : PredsInRange s.pred) :
    EncodeSteps s₀ s (seqAfter (s.args .p) .headers) := by
  have hr : SinkReady s := h.sinkReady nofun (by rw [hempty]; exact Nat.zero_le _)
  refine h.emits (x := s.pred) hframe nofun nofun hr (sinkBytes_emits _ hr) fun t ht hroom => ⟨?_, ?_⟩
  · exact imageBegun_header hr hempty hacc ht hroom
  · refine (blockStart_firstMcu _ _).encodePath ?_
    rw [Stored.pred ht]
    exact hpreds

/-! ## The sub-steps after Headers -/

theorem EncodeRun.sinkReady (h : EncodeRun s₀ s pos) : SinkReady s := h.at_.sinkReady h.past.1 h.image.fits

theorem EncodeRun.isOpen (h : EncodeRun s₀ s pos) : s.sess.isOpen = true := (h.at_.session h.past.1).1

/-- A sub-step that changes the block only. -/
theorem EncodeRun.loads {R : Block → Prop} (h : EncodeRun s₀ s pos) (heoi : pos ≠ .eoi) (hl : LoadsBlock pos s R)
    (hpath : ∀ t : State, t.pred = s.pred → R t.blk → EncodePath t (seqAfter (s.args .p) pos)) :
    EncodeSteps s₀ s (seqAfter (s.args .p) pos) := by
  obtain ⟨n, blk, he, hblk⟩ := hl
  exact h.at_.goes_on h.frame he h.past.1 heoi h.isOpen rfl (h.image.congr rfl rfl rfl rfl) (hpath _ rfl hblk)

/-- A sub-step that goes on with the image. -/
theorem EncodeRun.emits {x : Preds} {out : List Byte} {bits : List Bool} (h : EncodeRun s₀ s pos) (heoi : pos ≠ .eoi)
    (hem : Emits (seqEffect pos s) (s.setPreds x) out bits) (hbits : bits.length ≤ 7)
    (hpath : ∀ t : State, t.pred = x → EncodePath t (seqAfter (s.args .p) pos)) :
    EncodeSteps s₀ s (seqAfter (s.args .p) pos) := by
  have hr : SinkReady (s.setPreds x) := h.sinkReady.setPreds x
  have himage : ImageBegun (s.setPreds x) := h.image.congr rfl rfl rfl rfl
  exact h.at_.emits h.frame h.past.1 heoi hr hem fun t ht hroom =>
    ⟨himage.stored hr ht hroom hbits, hpath t ht.pred⟩

/-- ENTROPY has a code for the block and leaves its DC as the predictor (43_entropy.md R226). -/
theorem EncodeRun.steps_entropy {mr mc : Nat} {b : BlockId} (h : EncodeRun s₀ s (.block mr mc b .entropy)) :
    EncodeSteps s₀ s (seqAfter (s.args .p) (.block mr mc b .entropy)) := by
  have hcoefs : CoefRange s.blk := h.path.coefs mr mc b _ rfl (.inr rfl)
  have hpreds := h.path.preds nofun
  obtain ⟨hr, hc⟩ := h.at_.inGrid mr mc b _ rfl
  obtain ⟨hplo, hphi⟩ := hpreds (blockChannel b)
  obtain ⟨out, bits, hbits, hem⟩ :=
    entropyStep_emits h.sinkReady h.isOpen h.image.pending (hcoefs.codable hplo hphi)
  obtain ⟨hdclo, hdchi⟩ := hcoefs.1
  have hdc : blkAt s.blk 0 = s.blk[0].toInt := by simp [blkAt]
  rw [hdc] at hdclo hdchi
  refine h.emits nofun hem hbits fun t ht => (blockStart_after_entropy hr hc b).encodePath ?_
  rw [ht]
  exact hpreds.put hdclo hdchi _

theorem EncodeRun.steps_flush (h : EncodeRun s₀ s .flush) : EncodeSteps s₀ s (seqAfter (s.args .p) .flush) := by
  obtain ⟨out, bits, hbits, hem⟩ := flushStep_emits h.sinkReady h.isOpen h.image.pending
  refine h.emits (x := s.pred) nofun hem hbits fun t ht => encodePath_other ?_ nofun
  rw [ht]
  exact h.path.preds nofun

/-- With room for EOI the image is closed (46_encoder.md R316, R317). -/
theorem EncodeAt.ends_with_image {t : State} (h : EncodeAt s .eoi) (himage : ImageBegun s)
    (hroom : s.sessSize + 2 ≤ s.cfg.cap) (ht : exec .encode s = .next t) :
    EncodeEnded s.cfg (s.args .p) t := by
  obtain ⟨u, hu, hholds, hout, heq⟩ := encodeCompletesAtEoi s _ rfl h hroom
  cases hu.symm.trans ht
  obtain ⟨-, hslot⟩ := h.session nofun
  have hr := h.sinkReady nofun himage.fits
  have hin : s.sess.slot < s.slots.length := by rw [hr.count]; exact hr.slot
  have hsize : (t.slot (opEncodeSlot (s.args .p))).size = s.sessSize + 2 := by
    rw [← hslot]
    exact slot_size_of_modify (t := t) (congrArg State.slots heq) hin
  have hlong := himage.header
  refine
    { idle := congrArg (fun v : State => v.portP.status.busy) heq
      done := congrArg (fun v : State => v.portP.status.done) heq
      seq := congrArg State.seq heq
      closed := congrArg (fun v : State => v.sess.isOpen) heq
      held := ((encode_codecFrame ht).loc _).trans h.held
      result := .inl ⟨congrArg (fun v : State => v.portP.status.code) heq, ?_, ?_, ?_, ?_, ?_⟩ }
  · omega
  · omega
  · rw [hsize]
    exact congrArg (fun v : State => v.portP.res) heq
  · rw [← hslot]
    exact Memory.holds_of_sameOutside himage.soi hout himage.soi_below
  · rw [hsize, ← hslot]
    exact hholds

/-- Eoi ends ENCODE, with the image or without room (46_encoder.md R315, R316). -/
theorem EncodeRun.steps_eoi (h : EncodeRun s₀ s .eoi) (next : Seq) : EncodeSteps s₀ s next := by
  by_cases hroom : s.sessSize + 2 ≤ s.cfg.cap
  · obtain ⟨t, ht, -⟩ := encodeCompletesAtEoi s _ rfl h.at_ hroom
    exact ⟨t, ht, .inr (h.at_.ends_with_image h.image hroom ht)⟩
  · obtain ⟨t, he, ht⟩ := eoiStep_of_full h.sinkReady h.isOpen (Nat.lt_of_not_le hroom)
    exact h.at_.ends_full he h.sinkReady ht (h.at_.session nofun).2 next

/-- On a frame given in full, with a transform within its bounds, the next sub-step goes on or ends the command. -/
theorem EncodeRun.steps (hg : frameGiven s₀) (hf : FdctRange (fdctOf s₀.cfg.fdctImpl)) (h : EncodeRun s₀ s pos) :
    EncodeSteps s₀ s (seqAfter (s.args .p) pos) := by
  cases pos with
  | validate => exact absurd rfl h.at_.running.1
  | done => exact absurd rfl h.at_.running.2
  | beginSession => exact absurd rfl h.past.1
  | headers => exact absurd rfl h.past.2
  | flush => exact h.steps_flush
  | eoi => exact h.steps_eoi _
  | block mr mc b u =>
    have hpreds (t : State) (ht : t.pred = s.pred) : PredsInRange t.pred := by rw [ht]; exact h.path.preds nofun
    cases u with
    | extract =>
      exact h.loads nofun (h.at_.loads_samples (h.frame.frameGiven hg)) fun t ht hs => encodePath_fdct (hpreds t ht) hs
    | fdct =>
      rw [← h.frame.cfg] at hf
      exact h.loads nofun (loadsBlock_fdct hf (h.path.samples mr mc b rfl)) fun t ht hc =>
        encodePath_coefs (hpreds t ht) hc (.inl rfl)
    | quant =>
      exact h.loads nofun (loadsBlock_quant (h.path.coefs mr mc b _ rfl (.inl rfl))) fun t ht hc =>
        encodePath_coefs (hpreds t ht) hc (.inr rfl)
    | entropy => exact h.steps_entropy

end

/-! ## The whole run -/

/-- ENCODE, from `s` on, ends within `m` sub-steps. -/
def EndsWithin (k : Config) (a : Args) (m : Nat) (s : State) : Prop :=
  ∃ n t, n ≤ m ∧ execTimes .encode n s = .next t ∧ EncodeEnded k a t

theorem EndsWithin.step {k : Config} {a : Args} {m : Nat} {s u : State} (h : EndsWithin k a m u)
    (hexec : exec .encode s = .next u) : EndsWithin k a (m + 1) s := by
  obtain ⟨n, t, hn, ht, hended⟩ := h
  exact ⟨n + 1, t, Nat.succ_le_succ hn, execTimes_succ_eq_next.mpr ⟨u, hexec, ht⟩, hended⟩

/-- A sub-step that goes on to `next`, or ends the command, where a run at `next` ends within `m`. -/
theorem EncodeSteps.ends {s₀ s : State} {next : Seq} {m : Nat} (h : EncodeSteps s₀ s next) (hframe : CodecFrame s₀ s)
    (hrest : ∀ u, EncodeRun s₀ u next → EndsWithin s₀.cfg (s₀.args .p) m u) :
    EndsWithin s₀.cfg (s₀.args .p) (m + 1) s := by
  obtain ⟨u, hexec, hrun | hended⟩ := h
  · exact (hrest u hrun).step hexec
  · rw [hframe.cfg, hframe.args] at hended
    exact EndsWithin.step ⟨0, u, Nat.zero_le m, rfl, hended⟩ hexec

/-- From a position that Done follows after `m` sub-steps, ENCODE ends within `m`. -/
theorem EncodeRun.ends {s₀ s : State} {pos : Seq} {m : Nat} (hg : frameGiven s₀)
    (hf : FdctRange (fdctOf s₀.cfg.fdctImpl)) (h : EncodeRun s₀ s pos)
    (hm : (seqAfter (s₀.args .p))^[m] pos = .done) : EndsWithin s₀.cfg (s₀.args .p) m s := by
  induction m generalizing s pos with
  | zero => exact absurd hm h.at_.running.2
  | succ m ih =>
    have hsteps := h.steps hg hf
    rw [h.frame.args] at hsteps
    exact hsteps.ends h.frame fun u hrun => ih hrun hm

/-- Done follows Begin after as many sub-steps as there are positions (70_reset_and_hazards.md R441). -/
theorem seqAfter_iterate_done (a : Args) :
    (seqAfter a)^[4 + 24 * (opHeight a / 16) * (opWidth a / 16)] .beginSession = .done := by
  rw [← encodePositions_length]
  exact (walk_encodePositions (opHeight a / 16) (opWidth a / 16)).2

/-- An ENCODE at Begin ends within the bound of 70_reset_and_hazards.md R441. -/
theorem EncodeAt.ends {s : State} (h : EncodeAt s .beginSession) (hg : frameGiven s)
    (hf : FdctRange (fdctOf s.cfg.fdctImpl)) :
    EndsWithin s.cfg (s.args .p) (4 + 24 * (opHeight (s.args .p) / 16) * (opWidth (s.args .p) / 16)) s := by
  have hdone := seqAfter_iterate_done (s.args .p)
  rw [Nat.add_comm] at hdone ⊢
  obtain ⟨u, hbegin, hat, hempty, hacc, hpreds⟩ := h.begins
  have hframe := encode_codecFrame hbegin
  have hheaders := hat.stores_header hframe hempty hacc hpreds
  rw [hframe.args] at hheaders
  exact (hheaders.ends hframe fun v hrun => hrun.ends hg hf hdone).step hbegin

/-- Settles O59: the run goes from position to position until a sub-step ends it, and Done comes after the last. -/
theorem encodeTerminates : Obligations.EncodeTerminates := by
  rintro s _ - hat hg hf rfl
  obtain ⟨n, t, hn, ht, ⟨hidle, hdone, hseq, hclosed, hheld, hresult⟩⟩ := hat.ends hg hf
  refine ⟨n, t, hn, ht, hidle, hdone, hseq, hclosed, hheld, ?_⟩
  obtain ⟨hcode, hlong, hfits, hres, hsoi, heoi⟩ | ⟨hcode, hsize, hres⟩ := hresult
  · exact .inl ⟨hcode, hlong, hfits, hres, hsoi, heoi⟩
  · exact .inr ⟨hcode, hsize, hres⟩

end Sys2Proof.Machine
end
